-- ==== Sys2Proof/Word.lean ====
section
/-! DEFINITION. The words of the station: bytes, sampled characters, minutes. -/

namespace Sys2Proof

/-- Eight data bits of a character, on the yard line or at the terminal port. -/
abbrev Byte := BitVec 8

/-- A yard line character as sampled (R3): the 8 data bits, first bit sent highest, then the parity
bit, which is bit 0. -/
abbrev Sampled := BitVec 9

/-- A yard minute, counted modulo 65536 (R130). -/
abbrev Minute := BitVec 16

/-- The 27 bits of a bid window (R16): the first bit sent is bit 26. -/
abbrev BidWord := BitVec 27

end Sys2Proof
end

