-- ==== Sys2Proof/Config.lean ====
section
/-! DEFINITION. The numbers the manual fixes for every station. The manual leaves no result of a step
undefined, so no opaque constant stands here; the values that differ from station to station are the
configuration values (R165), which are state. -/

namespace Sys2Proof.Config

/-- Entries of the outbound notice queue at most (R33). -/
def queueLimit : Nat := 16

/-- The largest count of a TAKEN or LAPSE, and the most packs of one round (R27, R28, R67). -/
def countLimit : Nat := 8

/-- Flawed attempts at which a notice is given up (R36). -/
def flawLimit : Nat := 3

/-- Entries of the pick list at most (R86). -/
def pickLimit : Nat := 24

/-- Trucks in the truck table at most (R98). -/
def truckLimit : Nat := 12

/-- Open award records of a line at most (R99). -/
def awardLimit : Nat := 8

/-- Empty rounds in a row at which a line is SHORT (R101). -/
def emptyRoundLimit : Nat := 3

/-- Messages in the transmit queue at most (R156). -/
def transmitLimit : Nat := 4

/-- Where the idle count stops (R10). -/
def idleLimit : Nat := 255

/-- The quiet period of a station that begins to observe, in bt (R18). -/
def quietPeriod : Nat := 96

/-- DW pulled with TW slack for this many bt is STUCK (R20). -/
def stuckLimit : Nat := 32

/-- Recovery pulses before the back-off (R21). -/
def pulseLimit : Nat := 9

/-- Bits of a bid word, and pulses of a bid window (R16). -/
def wordBits : Nat := 27

/-- The silence count at which the WINDOW phase is abandoned, in bt (R41). -/
def windowSilence : Nat := 24

/-- The silence count at which the GRANT WAIT phase is abandoned, in bt (R42). -/
def grantWaitSilence : Nat := 80

/-- The grant wait of a hold, in bt (R78). -/
def grantWait : Nat := 64

/-- The idle gap of a notice, in bt (R11). -/
def noticeGap : Nat := 12

/-- The idle gap of a CALL, in bt (R11). -/
def callGap : Nat := 24

/-- The idle gap of a CALL of the gate that owned the last round, in bt (R11). -/
def yieldGap : Nat := 48

/-- The widest forward jump of a set clock, in minutes (R134). -/
def jumpLimit : Nat := 30

/-- Interrupted reads at which the read is given up (R164). -/
def interruptionLimit : Nat := 4

/-- The distance that marks a bay the row does not serve (R165). -/
def notServed : Nat := 63

/-- The highest offer score (R68). -/
def scoreLimit : Nat := 1022

/-- The score an all-slack word reads (R32). -/
def noBidScore : Nat := 1023

end Sys2Proof.Config
end

