-- ==== Sys2Proof/Syntax.lean ====
section
/-! DEFINITION. The commands of the station: one constructor per row of spec/opcode_table.json. The
table gives no row any bits or fields; the operands are what the step takes from outside the station
(the levels and characters it samples, the time that passed, the report it gets, the fields of the
terminal's message). A time that is left out is 0: all of it stands in the state's own count. -/

namespace Sys2Proof

/-- Where this station finds a framing flaw of its own in a frame (R8). -/
inductive FramingFlaw where
  /-- No framing flaw. -/
  | none
  /-- Found before the flaw slot; the slot is still reached and can be pulled. -/
  | beforeFlawSlot
  /-- Found at the flaw slot, or it stops the frame before that slot: no slot is sampled. -/
  | atFlawSlot
  /-- Found after the flaw slot was sampled. -/
  | afterFlawSlot
  deriving DecidableEq, Repr

/-- A frame with a body of n characters as this station samples it, from start mark to end mark. The
slot levels are those of the OTHER stations; this station's own pulls are added by the model. -/
structure RxFrame (n : Nat) where
  /-- Character 1, the kind code. -/
  kindChar : Sampled
  /-- Character 2, the sender. -/
  sender : Sampled
  /-- Character 3, the minute's high byte. -/
  minuteHigh : Sampled
  /-- Character 4, the minute's low byte. -/
  minuteLow : Sampled
  /-- Character 5, the status. -/
  status : Sampled
  /-- Characters 6 onward. -/
  body : Vector Sampled n
  /-- This station's own framing flaw. -/
  framing : FramingFlaw
  /-- Another station pulls the flaw slot. -/
  flawSlotPulled : Bool
  /-- Another station pulls the confirm slot. -/
  confirmSlotPulled : Bool
  deriving DecidableEq, Repr

/-- The Line Interface's report of a frame this station began (R22). -/
inductive SendReport where
  /-- The flaw slot read slack and the end mark was sent; the confirm slot reading. -/
  | sent (confirmPulled : Bool)
  /-- The flaw slot read pulled; the confirm slot reading. -/
  | flawed (confirmPulled : Bool)
  /-- Contention was lost (R12). -/
  | lost
  /-- A body collision (R13). -/
  | collision
  /-- The line went HELD (R19) when so many characters of the frame had been sampled. -/
  | abandoned (charactersSampled : Nat)
  deriving DecidableEq, Repr

/-- A terminal character as sampled (R151): data bits, mark bit, parity bit (meaningful only with
parity configured) and stop bit. -/
structure TermChar where
  /-- The 8 data bits. -/
  data : Byte
  /-- The mark bit. -/
  mark : Bool
  /-- The parity bit as sampled. -/
  parity : Bool
  /-- The stop bit as sampled: true is high. -/
  stop : Bool
  deriving DecidableEq, Repr

/-- One order line as TRUCK IN carries it (R162). -/
structure OrderFields where
  /-- Species and product kind. -/
  family : Byte
  /-- Section and length class. -/
  size : Byte
  /-- Strength grade. -/
  grade : Byte
  /-- 0 or 1. -/
  upgrade : Byte
  /-- Packs wanted. -/
  wanted : Byte
  deriving DecidableEq, Repr

/-- An output whose pattern has a cycle: a field line, or the READY pin (R143, R149). -/
inductive CycleOutput where
  /-- Field line FLn. -/
  | fieldLine (n : Fin 8)
  /-- The READY pin. -/
  | ready
  deriving DecidableEq, Repr

/-- The commands: the rows of spec/opcode_table.json in its order. -/
inductive Instr where
  | fullReset
  | resetRelease
  | configInterruption
  | configReadComplete (block : Vector Byte 32) (levels : BitVec 8)
  | listenTimerExpiry
  | quietPeriod (elapsed : Nat := 0)
  | frameStart (elapsed : Nat) (dwPulled : Bool)
  | contentionLoss
  | bodyCollision
  | noticeReport (report : SendReport)
  | callReport (report : SendReport)
  | grantSend
  | grantReport (report : SendReport)
  | hailReceived (frame : RxFrame 4)
  | voidReceived (frame : RxFrame 2)
  | takenReceived (frame : RxFrame 5)
  | lapseReceived (frame : RxFrame 5)
  | arriveReceived (frame : RxFrame 2)
  | callReceived (frame : RxFrame 6) (startedInService : Bool)
  | grantReceived (frame : RxFrame 5)
  | unfinishedFrame (sampled : List Byte) (dwPulled : Bool)
  | strayActivity (twPulled dwPulled : Bool)
  | strayActivityEnd
  | endMarkOutsideFrame
  | heldEntry (sampled : List Byte) (frameBegun : Bool := false)
  | heldEnd (dwPulled : Bool)
  | stuckEntry
  | recoveryPulse (dwPulled : Bool)
  | backOffExpiry
  | computationComplete
  | stretchLimitExpiry
  | stretchSlotEnd
  | bidWindowStart (dwPulled : Bool := false)
  | bidWindowClose (word : BidWord) (dwPulled : Bool)
  | windowSilenceLimit (dwPulled : Bool)
  | grantWaitSilenceLimit (dwPulled : Bool)
  | grantWaitExpiry
  | minuteStep (elapsed : Nat := 0)
  | inputChange (line : Fin 8) (high : Bool)
  | filterExpiry (line : Fin 8)
  | cycleEnd (output : CycleOutput)
  | hornExpiry (elapsed : Nat := 0)
  | terminalCharacter (c : TermChar)
  | flawedCharacter (c : TermChar)
  | breakCondition
  | messageSent
  | unknownMessage (code : Byte)
  | status
  | put (tag : BitVec 32) (family size grade stack : Byte)
  | take (tag : BitVec 32)
  | shift (tag : BitVec 32) (stack : Byte)
  | holdPack (tag : BitVec 32)
  | freePack (tag : BitVec 32)
  | listStack (stack : Byte)
  | listPicks
  | truckIn (ticket : BitVec 16) (bay count : Byte) (lines : List OrderFields)
  | truckBay (ticket : BitVec 16) (bay : Byte)
  | truckOut (ticket : BitVec 16)
  | listTruck (ticket : BitVec 16)
  | receiveWireHighAfterBreak
  deriving DecidableEq, Repr

end Sys2Proof
end

