-- ==== Sys2Proof/Decode.lean ====
section
/-! DEFINITION. The commands that table words spell. spec/opcode_table.json gives none of its 60 rows any
bits ("fields" is empty, no "fixed"), so no word spells a command. -/

namespace Sys2Proof

/-- The command a table word spells: none, since the table gives no row any bits. -/
def decodeTableWord (_nbits _w : Nat) : Option Instr := none

end Sys2Proof
end

