-- ==== Sys2Proof/Machine/State.lean ====
section
/-! DEFINITION. The state of one station as plain data, the reasons a step could stop, and the state
after reset. Each field's docstring names the rule that gives it. -/

namespace Sys2Proof.Machine

/-! ### Start-up Controller -/

/-- The role read from byte 1 of the configuration block (R165). -/
inductive Role where
  | row
  | gate
  deriving DecidableEq, Repr

/-- The five station states (R163). -/
inductive StationState where
  | config
  | configFault
  | listen
  | service
  | duplicate
  deriving DecidableEq, Repr

/-- The functions of a field line (R140). -/
inductive FieldFunction where
  | unused
  | pickLamp
  | horn
  | haltIn
  | closeIn
  | lineOk
  | bayLamp (bay : Nat)
  deriving DecidableEq, Repr

/-- One field line's function and polarity (R140). -/
structure FieldLine where
  function : FieldFunction
  /-- Polarity set: active low. -/
  inverted : Bool
  deriving DecidableEq, Repr

/-- The configuration values (R165), in effect from the end of CONFIG. -/
structure Settings where
  role : Role
  /-- Station number, 0 to 63. -/
  number : Nat
  /-- Line speed code, 0 to 3. -/
  lineSpeed : Nat
  /-- Stretch limit in ms, 1 to 60. -/
  stretchLimit : Nat
  /-- Terminal speed code, 0 to 2. -/
  terminalSpeed : Nat
  /-- Even parity at the terminal port. -/
  terminalParity : Bool
  /-- The time-source bit. -/
  timeSource : Bool
  /-- Configured stacks, 1 to 16. -/
  stackLimit : Nat
  /-- Tier limit, 1 to 6. -/
  tierLimit : Nat
  /-- Age cap in hours, 0 to 255. -/
  ageCap : Nat
  /-- Pick limit in minutes; 0 turns the sweep off. -/
  pickLimit : Nat
  /-- Distance to bays 1 to 8, each 0 to 63. -/
  distances : Vector Nat 8
  /-- Horn length in s, 0 to 15. -/
  hornLength : Nat
  /-- FL0 to FL7. -/
  lines : Vector FieldLine 8
  /-- Input filter code, 0 to 2. -/
  filterCode : Nat
  deriving DecidableEq, Repr

/-- A timer of the station: stopped, or the time left in its own unit. -/
abbrev Timer := Option Nat

/-- The Start-up Controller's state (R163, R164, R167). -/
structure StartUp where
  station : StationState
  /-- The RESET pin is still held asserted (R163). -/
  resetHeld : Bool
  /-- Interrupted reads of the configuration memory since the full reset (R164). -/
  interruptions : Nat
  /-- The unit serial, fixed in the part at manufacture. -/
  serial : BitVec 32
  settings : Settings
  /-- The listen timer, in half microseconds (R167). -/
  listenTimer : Timer
  deriving DecidableEq, Repr

/-! ### Line Interface -/

/-- The line conditions (R18 to R21). -/
inductive LineCondition where
  | quiet
  | busy
  | held
  | stuck
  | recovering
  deriving DecidableEq, Repr

/-- What this station drives on the yard line, by the cases of R1. -/
inductive Driving where
  | nothing
  | frame
  | stretch
  | bidWord
  | windowPulses
  | recovery
  deriving DecidableEq, Repr

/-- Which of the three frames of R37 a sent frame is. -/
inductive SentKind where
  | notice
  | call
  | grant
  deriving DecidableEq, Repr

/-- A frame this station sends: its characters as they were written at its start mark (R138), each with
its parity bit (R3). -/
structure SentFrame where
  kind : SentKind
  characters : List Sampled
  deriving DecidableEq, Repr

/-- The wires of a station that has not counted its first 96 slack bt (R10, R18, R20). -/
inductive ObservedWires where
  /-- Both wires are slack: the idle count rises. -/
  | slack
  /-- TW is pulled. -/
  | pulled
  /-- DW is pulled with TW slack: R20 counts. -/
  | dwPulled
  deriving DecidableEq, Repr

/-- What the station follows on the wires. -/
inductive Activity where
  /-- No frame in progress and nothing seen outside frames. -/
  | nothing
  /-- The start of observation, before the first 96 slack bt (R18). -/
  | observing (wires : ObservedWires)
  /-- Stray activity (R17); in GRANT WAIT, a pull of TW that opens no frame (R4, R42). -/
  | stray
  /-- DW pulled with TW slack and no frame: R20 counts. -/
  | dwPulled
  /-- DW read pulled where this station's gap ran out: another station's start mark, whose first bit is
  still to come (R4, R11); R20 counts. -/
  | startMark
  /-- A frame followed as a receiver. -/
  | receiving
  /-- A frame this station sends. -/
  | sending (frame : SentFrame)
  deriving DecidableEq, Repr

/-- The outcomes of R22's two tables. -/
inductive ReportOutcome where
  | sent
  | flawed
  | lost
  | collision
  | abandoned
  | accepted
  | discarded
  deriving DecidableEq, Repr

/-- The last report of the Line Interface (R22), with this station's own pulls of the two slots. -/
structure FrameReport where
  outcome : ReportOutcome
  /-- The flaw slot read pulled. -/
  flawSlot : Bool
  /-- The confirm slot read pulled. -/
  confirmSlot : Bool
  /-- This station pulled the flaw slot (R14). -/
  pulledFlaw : Bool
  /-- This station pulled the confirm slot (R15, R82). -/
  pulledConfirm : Bool
  deriving DecidableEq, Repr

/-- The Line Interface's state (chapter 1). -/
structure LineInterface where
  condition : LineCondition
  activity : Activity
  driving : Driving
  /-- Idle bt, 0 to 255 (R10). -/
  idleCount : Nat
  /-- bt of DW pulled with TW slack (R20). -/
  stuckCount : Nat
  /-- Recovery pulses, 0 to 9 (R21). -/
  pulseCount : Nat
  /-- The back-off timer, in half microseconds (R21). -/
  backOff : Timer
  /-- The model's own: the last report made. -/
  report : Option FrameReport
  deriving DecidableEq, Repr

/-! ### Frame Engine -/

/-- A pack's family, size and grade (00, terms: spec). -/
structure PackSpec where
  family : Nat
  size : Nat
  grade : Nat
  deriving DecidableEq, Repr

/-- The gate station, ticket and line that TAKEN and LAPSE notices name (R34). -/
structure OrderKey where
  gate : Nat
  ticket : Nat
  line : Nat
  deriving DecidableEq, Repr

/-- A notice's kind and body fields (R33). -/
inductive NoticeBody where
  | hail (serial : BitVec 32)
  | void (ticket : Nat)
  | lapse (key : OrderKey) (count : Nat)
  | taken (key : OrderKey) (count : Nat)
  | arrive (spec : PackSpec)
  deriving DecidableEq, Repr

/-- An entry of the outbound notice queue (R33). -/
structure Notice where
  body : NoticeBody
  /-- Attempts whose flaw slot read pulled, 0 to 2. -/
  flaws : Nat
  /-- The entry's frame is on the wire. -/
  inFlight : Bool
  deriving DecidableEq, Repr

/-- The phases of a round (R38). -/
inductive RoundPhase where
  | call
  | stretch
  | window
  | grantWait
  | grant
  deriving DecidableEq, Repr

/-- A row's part in a round (R38). -/
inductive RowPart where
  | none
  | computing
  | ready
  | satOut
  deriving DecidableEq, Repr

/-- The round view (R38). -/
structure RoundView where
  /-- The gate station that owns the round. -/
  owner : Nat
  /-- This station is the owner. -/
  own : Bool
  phase : RoundPhase
  part : RowPart
  /-- The silence count in bt (R41, R42). -/
  silence : Nat
  /-- The first pulse of the bid window has begun (R41). -/
  pulsing : Bool
  deriving DecidableEq, Repr

/-- The Frame Engine's state (chapter 2). -/
structure FrameEngine where
  queue : List Notice
  round : Option RoundView
  /-- This station owned the round that last ended or was abandoned (R44). -/
  yieldRecord : Bool
  deriving DecidableEq, Repr

/-! ### Stock Table -/

/-- The order a pack is reserved for (R45). -/
structure Reservation where
  gate : Nat
  ticket : Nat
  line : Nat
  bay : Nat
  deriving DecidableEq, Repr

/-- The four pack states (R47); a reservation is present exactly while RESERVED. -/
inductive PackState where
  | free
  | held
  | reserved (order : Reservation)
  | qhold
  deriving DecidableEq, Repr

/-- A pack record (R45). Its stack and tier are its place in the stack lists (R46). -/
structure Pack where
  tag : Nat
  spec : PackSpec
  /-- Whole hours, saturating at 255 (R60). -/
  age : Nat
  state : PackState
  deriving DecidableEq, Repr

/-- The 16 stack lists, each from the bottom up (R46). -/
abbrev Stock := Vector (List Pack) 16

/-! ### Bid Unit -/

/-- The fields of a CALL (R30), with its owner. -/
structure CallFields where
  gate : Nat
  ticket : Nat
  line : Nat
  bay : Nat
  spec : PackSpec
  upgrade : Bool
  wanted : Nat
  deriving DecidableEq, Repr

/-- One record of the view a computation works from (R49). -/
structure ViewPack where
  tag : Nat
  spec : PackSpec
  stack : Nat
  tier : Nat
  /-- The dig count: records above it in its stack. -/
  dig : Nat
  age : Nat
  state : PackState
  deriving DecidableEq, Repr

/-- The computation record but for its result (R63). -/
structure BidRecord where
  call : CallFields
  view : List ViewPack
  /-- D, the distance entry for the called bay. -/
  distance : Nat
  /-- F, the free pick entries. -/
  freeEntries : Nat
  /-- The limit timer, in half microseconds. -/
  limit : Timer
  /-- How many bits of its word the row has sent in the bid window (R16, R74). -/
  sent : Nat := 0
  /-- The loss of the window, noted at the bit at which the row was told of it (R74). -/
  lost : Bool := false
  deriving DecidableEq, Repr

/-- One entry of the selection (R63, R67). -/
structure Selected where
  tag : Nat
  stack : Nat
  tier : Nat
  cost : Nat
  deriving DecidableEq, Repr

/-- The result part of the computation record (R63). -/
structure BidResult where
  /-- k entries in selection order. -/
  selection : List Selected
  score : Nat
  shortfall : Nat
  word : BidWord
  deriving DecidableEq, Repr

/-- The Bid Unit's states, each with the record it keeps (R63). -/
inductive BidUnit where
  | idle
  | computing (record : BidRecord)
  | ready (record : BidRecord) (result : BidResult)
  | bidding (record : BidRecord) (result : BidResult)
  deriving DecidableEq, Repr

/-! ### Reservation Unit -/

/-- The phases of a hold (R78). -/
inductive HoldPhase where
  | waiting
  | receiving
  deriving DecidableEq, Repr

/-- The confirm decision (R78, R82). -/
inductive ConfirmDecision where
  | none
  | confirmed
  | notConfirmed
  deriving DecidableEq, Repr

/-- The hold record (R78). -/
structure Hold where
  order : Reservation
  /-- The held packs' tags in selection order. -/
  packs : List Nat
  phase : HoldPhase
  /-- The grant wait timer, in bt. -/
  grantWait : Timer
  decision : ConfirmDecision
  deriving DecidableEq, Repr

/-- An entry of the pick list (R86). -/
structure PickEntry where
  tag : Nat
  stack : Nat
  order : Reservation
  grantMinute : Minute
  overdue : Bool
  deriving DecidableEq, Repr

/-! ### Gate Table -/

/-- An award record (R99). -/
structure Award where
  row : Nat
  granted : Nat
  taken : Nat
  deriving DecidableEq, Repr

/-- An order line (R99). -/
structure OrderLine where
  spec : PackSpec
  upgrade : Bool
  /-- W. -/
  wanted : Nat
  /-- C. -/
  closed : Nat
  emptyRounds : Nat
  /-- Oldest first. -/
  awards : List Award
  deriving DecidableEq, Repr

/-- A truck record (R98). -/
structure Truck where
  ticket : Nat
  /-- 0: parked in the queue. -/
  bay : Nat
  arrival : Minute
  lines : List OrderLine
  deriving DecidableEq, Repr

/-! ### Call Arbiter -/

/-- The call record (R119). -/
structure CallRecord where
  ticket : Nat
  bay : Nat
  line : Nat
  spec : PackSpec
  upgrade : Bool
  wanted : Nat
  deriving DecidableEq, Repr

/-- The Call Arbiter's states, each with the record it keeps (R119). -/
inductive Arbiter where
  | idle
  | waiting (record : CallRecord)
  | calling (record : CallRecord)
  | granting (record : CallRecord) (winner offered count : Nat)
  deriving DecidableEq, Repr

/-! ### Yard Clock -/

/-- The Yard Clock's state (R130). -/
structure YardClock where
  minute : Minute
  /-- The second counter, 0 to 59. -/
  second : Nat
  /-- The model's own: half microseconds of the running second. -/
  fraction : Nat
  /-- The clock-set flag. -/
  isSet : Bool
  deriving DecidableEq, Repr

/-! ### Signal Unit -/

/-- The patterns (R143). -/
inductive Pattern where
  | off
  | steady
  | slow
  | fast
  | burst (n : Nat)
  | quickBurst (n : Nat)
  | halt
  deriving DecidableEq, Repr

/-- An input line (R141), its levels read through its polarity. -/
structure InputLine where
  raw : Bool
  filtered : Bool
  /-- The filter timer, in half microseconds. -/
  timer : Timer
  deriving DecidableEq, Repr

/-- A lamp output (R144). -/
structure Lamp where
  current : Pattern
  /-- The position in the current cycle, in half microseconds. -/
  position : Nat
  staged : Option Pattern
  latest : Pattern
  deriving DecidableEq, Repr

/-- The Signal Unit's state (chapter 9). -/
structure SignalUnit where
  inputs : Vector InputLine 8
  lamps : Vector Lamp 8
  /-- SILENT, or SOUNDING with the horn timer in half microseconds (R148). -/
  horn : Timer
  /-- The position in the READY pin's cycle, in half microseconds (R149). -/
  readyPosition : Nat
  deriving DecidableEq, Repr

/-! ### Terminal Port -/

/-- The eight sticky flags (R157). -/
structure StickyFlags where
  flaw : Bool
  fragment : Bool
  overrun : Bool
  reportLost : Bool
  noticeLoss : Bool
  strayTake : Bool
  surplus : Bool
  clockConflict : Bool
  deriving DecidableEq, Repr

/-- The Terminal Port's state (chapter 10). -/
structure TerminalPort where
  /-- The assembly buffer: empty, or a partial message (R152). -/
  assembly : List Byte
  /-- The waiting buffer (R152). -/
  waiting : Option (List Byte)
  /-- The transmit queue, oldest first (R156). -/
  transmit : List (List Byte)
  flags : StickyFlags
  /-- A BREAK is in progress: the receive wire has not gone high yet (R160). -/
  breakHeld : Bool
  deriving DecidableEq, Repr

/-! ### The station -/

/-- The state of one station. -/
structure State where
  startup : StartUp
  line : LineInterface
  frames : FrameEngine
  stock : Stock
  bid : BidUnit
  hold : Option Hold
  picks : List PickEntry
  trucks : List Truck
  arbiter : Arbiter
  clock : YardClock
  signal : SignalUnit
  port : TerminalPort
  /-- The model's own: the commands that wait, first in, first out. -/
  pending : List Instr
  deriving DecidableEq, Repr

/-- The reasons a step could fault: there is none. The manual names no event that stops the station;
CONFIG FAULT and DUPLICATE are states it goes on in. -/
inductive Fault where
  deriving DecidableEq, Repr

/-- The reasons a step could be refused. -/
inductive Refusal where
  /-- Raised by an arm of exec whose command has no meaning yet. Safe: the model stops where the
  station goes on. -/
  | notModelled (mnemonic : String)
  deriving DecidableEq, Repr

/-! ### Reset -/

/-- Configuration values before any block was read; DESIGN CHOICE, unsafe: log entry 5. -/
def resetSettings : Settings where
  role := .row
  number := 0
  lineSpeed := 0
  stretchLimit := 0
  terminalSpeed := 0
  terminalParity := false
  timeSource := false
  stackLimit := 0
  tierLimit := 0
  ageCap := 0
  pickLimit := 0
  distances := Vector.replicate 8 0
  hornLength := 0
  lines := Vector.replicate 8 { function := .unused, inverted := false }
  filterCode := 0

/-- Line Interface after a full reset (R1, R21). -/
def resetLine : LineInterface where
  condition := .quiet
  activity := .nothing
  driving := .nothing
  idleCount := 0
  stuckCount := 0
  pulseCount := 0
  backOff := none
  report := none

/-- Yard Clock after a full reset (R130). -/
def resetClock : YardClock where
  minute := 0
  second := 0
  fraction := 0
  isSet := false

/-- A lamp output after a full reset (R146). -/
def resetLamp : Lamp where
  current := .off
  position := 0
  staged := none
  latest := .off

/-- An input line after a full reset: its filtered level is not asserted and its timer is stopped (R141).
No input is read before the end of CONFIG, and the raw level held until then, not asserted, is a
DESIGN CHOICE: log entry 26. -/
def resetInput : InputLine where
  raw := false
  filtered := false
  timer := none

/-- Every sticky flag clear (R157, R160). -/
def clearFlags : StickyFlags where
  flaw := false
  fragment := false
  overrun := false
  reportLost := false
  noticeLoss := false
  strayTake := false
  surplus := false
  clockConflict := false

/-- Terminal Port after a full reset (R161). -/
def resetPort : TerminalPort where
  assembly := []
  waiting := none
  transmit := []
  flags := clearFlags
  breakHeld := false

/-- The values of every block after a full reset (R163), with the RESET pin still held. The unit
serial is fixed in the part and the command queue is not the station's, so both are arguments. -/
def resetValues (serial : BitVec 32) (pending : List Instr) : State where
  startup :=
    { station := .config, resetHeld := true, interruptions := 0, serial := serial
      settings := resetSettings, listenTimer := none }
  line := resetLine
  frames := { queue := [], round := none, yieldRecord := false }
  stock := Vector.replicate 16 []
  bid := .idle
  hold := none
  picks := []
  trucks := []
  arbiter := .idle
  clock := resetClock
  signal :=
    { inputs := Vector.replicate 8 resetInput, lamps := Vector.replicate 8 resetLamp
      horn := none, readyPosition := 0 }
  port := resetPort
  pending := pending

/-- The machine right after reset (R163); unit serial 0 is a DESIGN CHOICE, unsafe: log entry 4. -/
def State.reset : State := resetValues 0 []

end Sys2Proof.Machine
end

