-- ==== Sys2Proof/Machine/Operands.lean ====
section
/-! DEFINITION. The operand forms: yard line characters and frames, the bid word, terminal messages,
the configuration block. -/

namespace Sys2Proof.Machine

/-! ### Bits and bytes -/

/-- How many of the bits are 1. -/
def countOnes {n : Nat} (w : BitVec n) : Nat := (List.range n).countP fun i => w.getLsbD i

/-- The 8 data bits of a sampled character (R3). -/
def dataBits (c : Sampled) : Byte := c.extractLsb' 1 8

/-- The value of a sampled character's data bits. -/
def charValue (c : Sampled) : Nat := (dataBits c).toNat

/-- A character flaw: an odd count of ones among the 9 bits (R3). -/
def charFlaw (c : Sampled) : Bool := countOnes c % 2 == 1

/-- The character as its sender sends it, with even parity (R3). -/
def withParity (b : Byte) : Sampled := b ++ BitVec.ofBool (countOnes b % 2 == 1)

/-- Characters as their sender sends them, each with its parity bit (R3). -/
def sentCharacters (l : List Byte) : List Sampled := l.map withParity

/-- A byte holding a number. -/
def byte (n : Nat) : Byte := BitVec.ofNat 8 n

/-- A 16-bit field, most significant character first (R6, R162). -/
def bytes16 (w : BitVec 16) : List Byte := [w.extractLsb' 8 8, w.extractLsb' 0 8]

/-- A 32-bit field, most significant character first (R6, R162). -/
def bytes32 (w : BitVec 32) : List Byte :=
  [w.extractLsb' 24 8, w.extractLsb' 16 8, w.extractLsb' 8 8, w.extractLsb' 0 8]

/-- A ticket as two characters. -/
def ticketBytes (ticket : Nat) : List Byte := bytes16 (BitVec.ofNat 16 ticket)

/-- A tag as four characters. -/
def tagBytes (tag : Nat) : List Byte := bytes32 (BitVec.ofNat 32 tag)

/-- A Bool as the number 0 or 1. -/
def bit (b : Bool) : Nat := if b then 1 else 0

/-! ### Vectors of a fixed length, by their lists -/

/-- The vector whose elements are the images. -/
def vmap {α β : Type} {n : Nat} (f : α → β) (v : Vector α n) : Vector β n :=
  ⟨(v.toList.map f).toArray, by simp⟩

/-- The vector whose elements are the images, each with its index. -/
def vmapIdx {α β : Type} {n : Nat} (f : Nat → α → β) (v : Vector α n) : Vector β n :=
  ⟨(v.toList.mapIdx f).toArray, by simp⟩

/-! ### Frames on the yard line -/

/-- The seven frame kinds (R6). -/
inductive FrameKind where
  | hail
  | void
  | lapse
  | taken
  | arrive
  | call
  | grant
  deriving DecidableEq, Repr

/-- The kind codes (R6). -/
def kindCode : FrameKind → Byte
  | .hail => 0x01
  | .void => 0x02
  | .lapse => 0x03
  | .taken => 0x04
  | .arrive => 0x05
  | .call => 0x10
  | .grant => 0x11

/-- The body length of a kind (R6). -/
def bodyLength : FrameKind → Nat
  | .hail => 4
  | .void => 2
  | .lapse => 5
  | .taken => 5
  | .arrive => 2
  | .call => 6
  | .grant => 5

/-- The longest body of any kind: the body a receiver places for a code that is none of the seven (R7). -/
def longestBody : Nat := 6

/-- The kind a code names; none for a code that is none of the seven (R7). -/
def kindOfCode (b : Byte) : Option FrameKind :=
  [FrameKind.hail, .void, .lapse, .taken, .arrive, .call, .grant].find? fun k => kindCode k == b

/-- The frame length in bt from the first edge of the start mark to the end mark (R6). -/
def frameLength (k : FrameKind) : Nat := 2 + 45 + 9 * bodyLength k + 2 + 1

/-- The sender character of a station (R6). -/
def senderCharacter (role : Role) (number : Nat) : Byte :=
  byte ((match role with | .row => 0 | .gate => 64) + number)

/-- The station number in a sender character (R6). -/
def numberOfSender (b : Byte) : Nat := b.toNat % 64

/-- The role bit of a sender character: true is a gate (R6). -/
def gateBit (b : Byte) : Bool := b.getLsbD 6

/-- The sending station's number. -/
def senderNumber {n : Nat} (f : RxFrame n) : Nat := numberOfSender (dataBits f.sender)

/-- The sender shows the role of a gate. -/
def senderIsGate {n : Nat} (f : RxFrame n) : Bool := gateBit (dataBits f.sender)

/-- The header's minute, characters 3 and 4 (R6). -/
def headerMinute {n : Nat} (f : RxFrame n) : Minute :=
  dataBits f.minuteHigh ++ dataBits f.minuteLow

/-- The header's clock-set bit, bit 0 of character 5; bits 7 to 1 are ignored (R7). -/
def headerSet {n : Nat} (f : RxFrame n) : Bool := (dataBits f.status).getLsbD 0

/-- A body character's value, numbered from 0. -/
def bodyValue {n : Nat} (f : RxFrame n) (i : Nat) : Nat := ((f.body.toList.map charValue)[i]?).getD 0

/-- A two-character body field, most significant first (R6). -/
def bodyValue16 {n : Nat} (f : RxFrame n) (i : Nat) : Nat := bodyValue f i * 256 + bodyValue f (i + 1)

/-- A flaw this station finds before the flaw slot: a character flaw (R3), a code that is none of the
seven, bit 7 of character 2, or another framing flaw there (R8). -/
def flawBeforeSlot {n : Nat} (f : RxFrame n) : Bool :=
  charFlaw f.kindChar || charFlaw f.sender || charFlaw f.minuteHigh || charFlaw f.minuteLow
    || charFlaw f.status || f.body.toList.any charFlaw || (kindOfCode (dataBits f.kindChar)).isNone
    || (dataBits f.sender).getLsbD 7 || f.framing == .beforeFlawSlot

/-- The receiver's places for the slots lie after this frame's body: character 1 names the frame's kind,
or names none and the body has the 6 characters the receiver then places (R7). -/
def placesSlots {n : Nat} (f : RxFrame n) : Bool :=
  (kindOfCode (dataBits f.kindChar)).isSome || n == longestBody

/-! The bodies, by kind, and the checks that keep a frame from being inert (R23). -/

/-- The serial in a HAIL's body. -/
def hailSerial (f : RxFrame 4) : BitVec 32 :=
  BitVec.ofNat 32 (bodyValue16 f 0 * 65536 + bodyValue16 f 2)

/-- The ticket of a VOID. -/
def voidTicket (f : RxFrame 2) : Nat := bodyValue16 f 0

/-- The gate station, ticket and line of a TAKEN or LAPSE. -/
def noticeKey (f : RxFrame 5) : OrderKey :=
  { gate := bodyValue f 0, ticket := bodyValue16 f 1, line := bodyValue f 3 }

/-- The count of a TAKEN or LAPSE. -/
def noticeCount (f : RxFrame 5) : Nat := bodyValue f 4

/-- The spec of an ARRIVE: size in bits 7 to 4 and grade in bits 2 to 0 (R29). -/
def arriveSpec (f : RxFrame 2) : PackSpec :=
  { family := bodyValue f 0, size := bodyValue f 1 / 16, grade := bodyValue f 1 % 8 }

/-- The fields of a CALL (R30). -/
def callFields (f : RxFrame 6) : CallFields :=
  { gate := senderNumber f, ticket := bodyValue16 f 0, line := bodyValue f 2 / 16
    bay := bodyValue f 2 % 16
    spec := { family := bodyValue f 3, size := bodyValue f 4 / 16, grade := bodyValue f 4 % 8 }
    upgrade := bodyValue f 4 / 8 % 2 == 1, wanted := bodyValue f 5 }

/-- The fields of a GRANT (R31). -/
structure GrantFields where
  ticket : Nat
  line : Nat
  winner : Nat
  count : Nat
  deriving DecidableEq, Repr

/-- The fields of a GRANT's body. -/
def grantFields (f : RxFrame 5) : GrantFields :=
  { ticket := bodyValue16 f 0, line := bodyValue f 2, winner := bodyValue f 3, count := bodyValue f 4 }

/-- A line number is 1 to 4. -/
def lineValid (n : Nat) : Bool := 1 ≤ n && n ≤ 4

/-- A HAIL passes every check of R23. -/
def hailValid (_ : RxFrame 4) : Bool := true

/-- A VOID passes every check of R23. -/
def voidValid (f : RxFrame 2) : Bool := senderIsGate f && 1 ≤ voidTicket f

/-- A TAKEN or LAPSE passes every check of R23. -/
def countedValid (f : RxFrame 5) : Bool :=
  !senderIsGate f && 1 ≤ (noticeKey f).ticket && lineValid (noticeKey f).line
    && (noticeKey f).gate ≤ 63 && 1 ≤ noticeCount f && noticeCount f ≤ 8

/-- An ARRIVE passes every check of R23. -/
def arriveValid (f : RxFrame 2) : Bool :=
  !senderIsGate f && (arriveSpec f).family ≤ 63 && bodyValue f 1 / 8 % 2 == 0

/-- A CALL passes every check of R23. -/
def callValid (f : RxFrame 6) : Bool :=
  senderIsGate f && 1 ≤ (callFields f).ticket && lineValid (callFields f).line
    && 1 ≤ (callFields f).bay && (callFields f).bay ≤ 8 && (callFields f).spec.family ≤ 63
    && 1 ≤ (callFields f).wanted && (callFields f).wanted ≤ 99

/-- A GRANT passes every check of R23. -/
def grantValid (f : RxFrame 5) : Bool :=
  senderIsGate f && 1 ≤ (grantFields f).ticket && lineValid (grantFields f).line
    && (grantFields f).winner ≤ 63 && (grantFields f).count ≤ 8

/-! The bodies as this station sends them (R6). -/

/-- A spec's size and grade in one character, with the upgrade flag in bit 3. -/
def sizeGradeByte (spec : PackSpec) (upgrade : Bool) : Byte :=
  byte (spec.size * 16 + bit upgrade * 8 + spec.grade)

/-- The kind of a notice. -/
def noticeKind : NoticeBody → FrameKind
  | .hail _ => .hail
  | .void _ => .void
  | .lapse _ _ => .lapse
  | .taken _ _ => .taken
  | .arrive _ => .arrive

/-- The body characters of a TAKEN or LAPSE. -/
def keyBytes (key : OrderKey) (count : Nat) : List Byte :=
  byte key.gate :: ticketBytes key.ticket ++ [byte key.line, byte count]

/-- The body characters of a notice. -/
def noticeBytes : NoticeBody → List Byte
  | .hail serial => bytes32 serial
  | .void ticket => ticketBytes ticket
  | .lapse key count => keyBytes key count
  | .taken key count => keyBytes key count
  | .arrive spec => [byte spec.family, sizeGradeByte spec false]

/-- The body characters of a CALL. -/
def callBytes (r : CallRecord) : List Byte :=
  ticketBytes r.ticket ++
    [byte (r.line * 16 + r.bay), byte r.spec.family, sizeGradeByte r.spec r.upgrade, byte r.wanted]

/-- The body characters of a GRANT. -/
def grantBytes (r : CallRecord) (winner count : Nat) : List Byte :=
  ticketBytes r.ticket ++ [byte r.line, byte winner, byte count]

/-- A frame as a station samples it that finds no framing flaw in it and sees no slot pulled: the
characters as they were sent. -/
def cleanFrame (n : Nat) (characters : List Sampled) : RxFrame n where
  kindChar := (characters[0]?).getD 0
  sender := (characters[1]?).getD 0
  minuteHigh := (characters[2]?).getD 0
  minuteLow := (characters[3]?).getD 0
  status := (characters[4]?).getD 0
  body := ⟨((List.range n).map fun i => (characters[5 + i]?).getD 0).toArray, by simp⟩
  framing := .none
  flawSlotPulled := false
  confirmSlotPulled := false

/-! ### The bid word (R6, R32, R69) -/

/-- Character A: score bits 9 to 2. -/
def bidCharacterA (score : Nat) : Byte := byte (score / 4)

/-- Character B: score bits 1 to 0, the shortfall in 3 bits, 3 zero bits. -/
def bidCharacterB (score shortfall : Nat) : Byte := byte (score % 4 * 64 + shortfall * 8)

/-- Character C: 2 zero bits, the station number in 6 bits. -/
def bidCharacterC (number : Nat) : Byte := byte number

/-- The 27 bits of a bid word (R69). -/
def bidWord (score shortfall number : Nat) : BidWord :=
  withParity (bidCharacterA score) ++ withParity (bidCharacterB score shortfall)
    ++ withParity (bidCharacterC number)

/-- Character A of the sampled word. -/
def wordA (w : BidWord) : Sampled := w.extractLsb' 18 9

/-- Character B of the sampled word. -/
def wordB (w : BidWord) : Sampled := w.extractLsb' 9 9

/-- Character C of the sampled word. -/
def wordC (w : BidWord) : Sampled := w.extractLsb' 0 9

/-- The score a word reads (R32). -/
def wordScore (w : BidWord) : Nat := charValue (wordA w) * 4 + charValue (wordB w) / 64

/-- The shortfall a word reads (R32). -/
def wordShortfall (w : BidWord) : Nat := charValue (wordB w) / 8 % 8

/-- The station a word reads (R32). -/
def wordStation (w : BidWord) : Nat := charValue (wordC w) % 64

/-- The packs offered, k, that a word reads (R32). -/
def wordOffered (w : BidWord) : Nat := 8 - wordShortfall w

/-- The three classes of a word (R32). -/
inductive WordClass where
  | noBid
  | flawedWord
  | bid
  deriving DecidableEq, Repr

/-- The class of a word, in R32's order. -/
def classOfWord (w : BidWord) : WordClass :=
  if wordScore w = Config.noBidScore then .noBid
  else if charFlaw (wordA w) || charFlaw (wordB w) || charFlaw (wordC w)
      || charValue (wordB w) % 8 != 0 || charValue (wordC w) / 64 != 0 then .flawedWord
  else .bid

/-- A row that sent slack at some bit and read pulled has lost (R16). -/
def rowLost (own sampled : BidWord) : Bool := (own &&& ~~~sampled) != 0

/-! ### Terminal characters and messages (R151, R162) -/

/-- The parity bit a sender sets: even over data, mark and parity (R151). -/
def terminalParityBit (data : Byte) (mark : Bool) : Bool := (countOnes data + bit mark) % 2 == 1

/-- A parity error, with parity configured, or a framing error (R151). -/
def terminalFlaw (parity : Bool) (c : TermChar) : Bool :=
  !c.stop || (parity && c.parity != terminalParityBit c.data c.mark)

/-- The character as its sender sends it: even parity, stop bit high (R151). Whether its parity bit goes
over the wire is the wire's matter (wireBits). -/
def sentTermChar (mark : Bool) (data : Byte) : TermChar :=
  { data := data, mark := mark, parity := terminalParityBit data mark, stop := true }

/-- A message's characters as their sender sends them: the first marked, the rest unmarked (R156, R162). -/
def terminalCharacters : List Byte → List TermChar
  | [] => []
  | code :: rest => sentTermChar true code :: rest.map (sentTermChar false)

/-- The levels of a terminal wire over one character, one for each bit time, first to last, true for high:
the start bit, the data bits from the least significant, the mark bit, the parity bit when parity is
configured, the stop bit (R151). -/
def wireBits (parity : Bool) (c : TermChar) : List Bool :=
  [false] ++ (List.range 8).map (fun i => c.data.getLsbD i) ++ [c.mark]
    ++ (if parity then [c.parity] else []) ++ [c.stop]

/-- The levels of a terminal wire over a whole message (R151, R156). R156 requires no gap between its
characters, and there is none. DESIGN CHOICE: log entry 30. -/
def messageBits (parity : Bool) (m : List Byte) : List Bool :=
  (terminalCharacters m).flatMap (wireBits parity)

/-- The byte whose bits are these, the least significant first. -/
def byteOfBits (bits : List Bool) : Byte := byte (bits.foldr (fun b n => bit b + 2 * n) 0)

/-- The character a receiver reads off the levels of its bit times; none for levels that do not begin with
a start bit or are not one character long. Without parity configured no parity bit is there to be read, and
none is wrong (R151). -/
def charOfWire (parity : Bool) (bits : List Bool) : Option TermChar :=
  match parity, bits with
  | false, [false, d0, d1, d2, d3, d4, d5, d6, d7, mark, stop] =>
    let data := byteOfBits [d0, d1, d2, d3, d4, d5, d6, d7]
    some { data := data, mark := mark, parity := terminalParityBit data mark, stop := stop }
  | true, [false, d0, d1, d2, d3, d4, d5, d6, d7, mark, even, stop] =>
    some { data := byteOfBits [d0, d1, d2, d3, d4, d5, d6, d7], mark := mark, parity := even, stop := stop }
  | _, _ => none

/-- The known request codes (R152). -/
def knownCodes : List Byte :=
  [0x21, 0x22, 0x23, 0x24, 0x25, 0x26, 0x27, 0x31, 0x32, 0x33, 0x34, 0x40]

/-- A code is a known request code. -/
def codeKnown (code : Byte) : Bool := knownCodes.contains code

/-- The length of the message these characters begin, once they fix it (R152, R162). TRUCK IN's fifth
character, the line count, fixes its length. -/
def messageLength (m : List Byte) : Option Nat :=
  match m with
  | [] => none
  | code :: rest =>
    if code = 0x21 then some 9
    else if code = 0x22 then some 5
    else if code = 0x23 then some 6
    else if code = 0x24 then some 5
    else if code = 0x25 then some 5
    else if code = 0x26 then some 2
    else if code = 0x27 then some 1
    else if code = 0x31 then
      match rest[3]? with
      | none => none
      | some count =>
        if 1 ≤ count.toNat ∧ count.toNat ≤ 4 then some (5 + 5 * count.toNat) else some 5
    else if code = 0x32 then some 4
    else if code = 0x33 then some 3
    else if code = 0x34 then some 3
    else if code = 0x40 then some 1
    else some 1

/-- The characters are a complete message. -/
def messageComplete (m : List Byte) : Bool := messageLength m == some m.length

/-- PUT's characters. -/
def putMessage (tag : BitVec 32) (family size grade stack : Byte) : List Byte :=
  0x21 :: bytes32 tag ++ [family, size, grade, stack]

/-- TAKE's characters. -/
def takeMessage (tag : BitVec 32) : List Byte := 0x22 :: bytes32 tag

/-- SHIFT's characters. -/
def shiftMessage (tag : BitVec 32) (stack : Byte) : List Byte := 0x23 :: bytes32 tag ++ [stack]

/-- HOLD PACK's characters. -/
def holdPackMessage (tag : BitVec 32) : List Byte := 0x24 :: bytes32 tag

/-- FREE PACK's characters. -/
def freePackMessage (tag : BitVec 32) : List Byte := 0x25 :: bytes32 tag

/-- LIST STACK's characters. -/
def listStackMessage (stack : Byte) : List Byte := [0x26, stack]

/-- LIST PICKS's character. -/
def listPicksMessage : List Byte := [0x27]

/-- One order line's characters. -/
def orderBytes (o : OrderFields) : List Byte := [o.family, o.size, o.grade, o.upgrade, o.wanted]

/-- TRUCK IN's characters. -/
def truckInMessage (ticket : BitVec 16) (bay count : Byte) (lines : List OrderFields) : List Byte :=
  0x31 :: bytes16 ticket ++ [bay, count] ++ lines.flatMap orderBytes

/-- TRUCK BAY's characters. -/
def truckBayMessage (ticket : BitVec 16) (bay : Byte) : List Byte := 0x32 :: bytes16 ticket ++ [bay]

/-- TRUCK OUT's characters. -/
def truckOutMessage (ticket : BitVec 16) : List Byte := 0x33 :: bytes16 ticket

/-- LIST TRUCK's characters. -/
def listTruckMessage (ticket : BitVec 16) : List Byte := 0x34 :: bytes16 ticket

/-- STATUS's character. -/
def statusMessage : List Byte := [0x40]

/-- The result codes (R162). -/
inductive ResultCode where
  | ok
  | range
  | duplicate
  | full
  | buried
  | busy
  | state
  | unknownPack
  | unknownTicket
  | bayTaken
  | wrongRole
  | notReady
  | unknownMessage
  deriving DecidableEq, Repr

/-- The encoding of a result code (R162). -/
def resultByte : ResultCode → Byte
  | .ok => 0x00
  | .range => 0x01
  | .duplicate => 0x02
  | .full => 0x03
  | .buried => 0x04
  | .busy => 0x05
  | .state => 0x06
  | .unknownPack => 0x07
  | .unknownTicket => 0x08
  | .bayTaken => 0x09
  | .wrongRole => 0x0A
  | .notReady => 0x0B
  | .unknownMessage => 0x0C

/-- A reply: the request's code plus 80h, the result code, the data (R162). -/
def replyMessage (code : Byte) (result : ResultCode) (data : List Byte) : List Byte :=
  (code + 0x80) :: resultByte result :: data

/-- The encoding of a pack state (R162). -/
def packStateByte : PackState → Byte
  | .free => 0
  | .held => 1
  | .reserved _ => 2
  | .qhold => 3

/-- The encoding of a line condition (R162). -/
def conditionByte : LineCondition → Byte
  | .quiet => 0
  | .busy => 1
  | .held => 2
  | .stuck => 3
  | .recovering => 4

/-- The encoding of a station state (R162); CONFIG has none, since the port does not run there. -/
def stationByte : StationState → Byte
  | .config => 0
  | .configFault => 1
  | .listen => 2
  | .service => 3
  | .duplicate => 4

/-- The encoding of a role (R162). -/
def roleByte : Role → Byte
  | .row => 0
  | .gate => 1

/-! ### The configuration block (R165) -/

/-- The role byte's two values. -/
def roleOfByte (n : Nat) : Role := if n = 1 then .gate else .row

/-- The function a function code names; none for a code outside the list. -/
def functionOfCode (n : Nat) : Option FieldFunction :=
  if n = 0 then some .unused
  else if n = 1 then some .pickLamp
  else if n = 2 then some .horn
  else if n = 3 then some .haltIn
  else if n = 4 then some .closeIn
  else if n = 5 then some .lineOk
  else if 8 ≤ n ∧ n ≤ 15 then some (.bayLamp (n - 7))
  else none

/-- The roles a function is allowed for (R140). -/
def functionAllowed (role : Role) : FieldFunction → Bool
  | .unused => true
  | .pickLamp => role == .row
  | .horn => role == .row
  | .haltIn => true
  | .closeIn => role == .row
  | .lineOk => true
  | .bayLamp _ => role == .gate

/-- A field-line byte: bit 7 polarity, bits 6 to 0 function. -/
def fieldLineOfByte (b : Byte) : FieldLine :=
  { function := (functionOfCode (b.toNat % 128)).getD .unused, inverted := b.getLsbD 7 }

/-- A field-line byte is valid for the role. -/
def fieldByteValid (role : Role) (b : Byte) : Bool :=
  match functionOfCode (b.toNat % 128) with
  | none => false
  | some f => functionAllowed role f

/-- Byte i of the block. -/
def blockByte (block : Vector Byte 32) (i : Nat) : Byte := (block.toList[i]?).getD 0

/-- The value of byte i of the block. -/
def blockValue (block : Vector Byte 32) (i : Nat) : Nat := (blockByte block i).toNat

/-- The row fields, bytes 8 to 20, each in its range. -/
def rowFieldsValid (block : Vector Byte 32) : Bool :=
  1 ≤ blockValue block 8 && blockValue block 8 ≤ 16
    && 1 ≤ blockValue block 9 && blockValue block 9 ≤ 6
    && ((List.range 8).all fun i => blockValue block (12 + i) ≤ 63)
    && blockValue block 20 ≤ 15

/-- The checks of R165 on the 32 bytes. -/
def blockAccepted (block : Vector Byte 32) : Bool :=
  blockByte block 0 == 0x5A
    && blockValue block 1 ≤ 1
    && blockByte block 30 == 0 && blockByte block 31 == 0
    && blockValue block 2 ≤ 63
    && blockValue block 3 ≤ 3
    && 1 ≤ blockValue block 4 && blockValue block 4 ≤ 60
    && blockValue block 5 ≤ 2
    && blockValue block 6 ≤ 1
    && blockValue block 7 ≤ 1
    && (blockValue block 1 == 1 || rowFieldsValid block)
    && ((List.range 8).all fun i =>
          fieldByteValid (roleOfByte (blockValue block 1)) (blockByte block (21 + i)))
    && blockValue block 29 ≤ 2

/-- The configuration values an accepted block gives (R165). -/
def settingsOfBlock (block : Vector Byte 32) : Settings where
  role := roleOfByte (blockValue block 1)
  number := blockValue block 2
  lineSpeed := blockValue block 3
  stretchLimit := blockValue block 4
  terminalSpeed := blockValue block 5
  terminalParity := blockValue block 6 == 1
  timeSource := blockValue block 7 == 1
  stackLimit := blockValue block 8
  tierLimit := blockValue block 9
  ageCap := blockValue block 10
  pickLimit := blockValue block 11
  distances :=
    #v[blockValue block 12, blockValue block 13, blockValue block 14, blockValue block 15,
      blockValue block 16, blockValue block 17, blockValue block 18, blockValue block 19]
  hornLength := blockValue block 20
  lines :=
    #v[fieldLineOfByte (blockByte block 21), fieldLineOfByte (blockByte block 22),
      fieldLineOfByte (blockByte block 23), fieldLineOfByte (blockByte block 24),
      fieldLineOfByte (blockByte block 25), fieldLineOfByte (blockByte block 26),
      fieldLineOfByte (blockByte block 27), fieldLineOfByte (blockByte block 28)]
  filterCode := blockValue block 29

end Sys2Proof.Machine
end

