-- ==== Sys2Proof/Machine/Flags.lean ====
section
/-! DEFINITION. The flags: the eight sticky flags of the Terminal Port (R157) and the two levels halt
and close (R142). -/

namespace Sys2Proof.Machine

/-! ### Sticky flags -/

/-- The state with its sticky flags replaced. -/
def withFlags (flags : StickyFlags) (s : State) : State := { s with port := { s.port with flags := flags } }

/-- FLAW is set (R153). -/
def flagFlaw (s : State) : State := withFlags { s.port.flags with flaw := true } s

/-- FRAGMENT is set (R152). -/
def flagFragment (s : State) : State := withFlags { s.port.flags with fragment := true } s

/-- OVERRUN is set (R152). -/
def flagOverrun (s : State) : State := withFlags { s.port.flags with overrun := true } s

/-- REPORT LOST is set (R156). -/
def flagReportLost (s : State) : State := withFlags { s.port.flags with reportLost := true } s

/-- NOTICE LOSS is set (R35, R36). -/
def flagNoticeLoss (s : State) : State := withFlags { s.port.flags with noticeLoss := true } s

/-- STRAY TAKE is set (R54). -/
def flagStrayTake (s : State) : State := withFlags { s.port.flags with strayTake := true } s

/-- SURPLUS is set (R104). -/
def flagSurplus (s : State) : State := withFlags { s.port.flags with surplus := true } s

/-- CLOCK CONFLICT is set (R134). -/
def flagClockConflict (s : State) : State := withFlags { s.port.flags with clockConflict := true } s

/-- The flags character of STATUS (R162). -/
def flagsByte (f : StickyFlags) : Byte :=
  byte (bit f.flaw + 2 * bit f.fragment + 4 * bit f.overrun + 8 * bit f.reportLost
    + 16 * bit f.noticeLoss + 32 * bit f.strayTake + 64 * bit f.surplus + 128 * bit f.clockConflict)

/-! ### Halt and close -/

/-- Some field line with this input function has an asserted filtered level (R142). -/
def inputAsserted (function : FieldFunction) (s : State) : Bool :=
  (List.zip s.startup.settings.lines.toList s.signal.inputs.toList).any fun p =>
    p.1.function == function && p.2.filtered

/-- Halt is asserted (R142). -/
def haltAsserted (s : State) : Bool := inputAsserted .haltIn s

/-- Close is asserted (R142). -/
def closeAsserted (s : State) : Bool := inputAsserted .closeIn s

/-- The levels character of STATUS (R162). -/
def levelsByte (s : State) : Byte := byte (bit (haltAsserted s) + 2 * bit (closeAsserted s))

end Sys2Proof.Machine
end

