-- ==== Sys2Proof/Machine/Ops.lean ====
section
/-! DEFINITION. The named operations that every block shares: the station state and its time, patterns
and lamp requests, the outbound notice queue, the Terminal Port's buffers. A station of this kind has no
exception entry: a lost thing sets a sticky flag and a fault of the line changes the line condition. -/

namespace Sys2Proof.Machine

/-! ### Station state and time -/

/-- The station is in SERVICE. -/
def inService (s : State) : Bool := s.startup.station == .service

/-- The station reads the yard line: it is in LISTEN, SERVICE or DUPLICATE (R1). -/
def observes (s : State) : Bool :=
  s.startup.station == .listen || s.startup.station == .service || s.startup.station == .duplicate

/-- The terminal port runs: every state but CONFIG (R151, R161). -/
def portRuns (s : State) : Bool := s.startup.station != .config

/-- The station is configured as a row. -/
def isRow (s : State) : Bool := s.startup.settings.role == .row

/-- The station is configured as a gate. -/
def isGate (s : State) : Bool := s.startup.settings.role == .gate

/-- Half microseconds in one bt at the configured line speed (00, line speed codes). -/
def btUnits (s : State) : Nat := 200 / 2 ^ s.startup.settings.lineSpeed

/-- Half microseconds in a millisecond. -/
def msUnits : Nat := 2000

/-- Half microseconds in a second. -/
def secondUnits : Nat := 2000000

/-! ### Patterns and the READY pin (R143, R147, R149) -/

/-- The cycle of a pattern in ms; 0 for OFF and STEADY, which have none (R143). -/
def cycleMs : Pattern → Nat
  | .off => 0
  | .steady => 0
  | .slow => 1000
  | .fast => 250
  | .burst n => 500 * n + 1500
  | .quickBurst n => 250 * n + 1500
  | .halt => 1000

/-- A pattern has a cycle (R143). -/
def hasCycle (p : Pattern) : Bool := cycleMs p != 0

/-- Whether a pattern is lit so many ms into its cycle (R143). -/
def litAt : Pattern → Nat → Bool
  | .off, _ => false
  | .steady, _ => true
  | .slow, t => decide (t < 500)
  | .fast, t => decide (t < 125)
  | .burst n, t => decide (t < 500 * n) && decide (t % 500 < 250)
  | .quickBurst n, t => decide (t < 250 * n) && decide (t % 250 < 125)
  | .halt, t => decide (t < 100)

/-- The pattern the READY pin shows (R149); OFF while the RESET pin is held (R163). -/
def readyPattern (s : State) : Pattern :=
  match s.startup.station with
  | .config => .off
  | .configFault => .fast
  | .listen => .slow
  | .duplicate => .fast
  | .service =>
    match s.line.condition with
    | .quiet => .steady
    | .busy => .steady
    | .held => .burst 3
    | .stuck => .burst 3
    | .recovering => .burst 3

/-- READY starts the first cycle of a new pattern at once, and runs on in an unchanged one (R149). -/
def refreshReady (before after : State) : State :=
  if readyPattern before = readyPattern after then after
  else { after with signal := { after.signal with readyPosition := 0 } }

/-- A LINE OK output is lit (R147). -/
def lineOkLit (s : State) : Bool :=
  inService s && (s.line.condition == .quiet || s.line.condition == .busy)

/-! ### Lamps and horn (R144 to R148) -/

/-- The function of field line n. -/
def functionOfLine (s : State) (n : Nat) : FieldFunction :=
  match s.startup.settings.lines.toList[n]? with
  | none => .unused
  | some l => l.function

/-- A function is a lamp output (R144). -/
def isLampFunction : FieldFunction → Bool
  | .unused => false
  | .pickLamp => true
  | .horn => false
  | .haltIn => false
  | .closeIn => false
  | .lineOk => false
  | .bayLamp _ => true

/-- A function is an input (R140). -/
def isInputFunction : FieldFunction → Bool
  | .unused => false
  | .pickLamp => false
  | .horn => false
  | .haltIn => true
  | .closeIn => true
  | .lineOk => false
  | .bayLamp _ => false

/-- A pattern becomes current and starts its first cycle; nothing is staged. -/
def startPattern (p : Pattern) (l : Lamp) : Lamp := { l with current := p, position := 0, staged := none }

/-- A lamp output takes its owner's request (R144, R145). -/
def requestLamp (halted : Bool) (p : Pattern) (l : Lamp) : Lamp :=
  if halted then { l with latest := p }
  else if hasCycle l.current then { l with staged := some p, latest := p }
  else { startPattern p l with latest := p }

/-- The lamp outputs of one function replaced by their images. -/
def mapLamps (which : FieldFunction → Bool) (f : Lamp → Lamp) (s : State) : State :=
  { s with
    signal :=
      { s.signal with
        lamps := vmapIdx (fun n l => if which (functionOfLine s n) then f l else l) s.signal.lamps } }

/-- A request reaches every field line that carries the function (R146). -/
def requestPattern (function : FieldFunction) (p : Pattern) (s : State) : State :=
  mapLamps (fun g => isLampFunction g && g == function) (requestLamp (haltAsserted s) p) s

/-- A lamp output's cycle ends (R144). -/
def endCycle (l : Lamp) : Lamp :=
  match l.staged with
  | some p => startPattern p l
  | none => { l with position := 0 }

/-- Halt becomes asserted: every lamp shows HALT and the horn stops (R145, R148). -/
def haltOutputs (s : State) : State :=
  let t := mapLamps isLampFunction (startPattern .halt) s
  { t with signal := { t.signal with horn := none } }

/-- Halt is released: every lamp takes its latest request at once (R145). -/
def releaseOutputs (s : State) : State := mapLamps isLampFunction (fun l => startPattern l.latest l) s

/-- The Reservation Unit requests the horn (R148). -/
def requestHorn (s : State) : State :=
  if haltAsserted s = true ∨ s.startup.settings.hornLength = 0 then s
  else { s with signal := { s.signal with horn := some (s.startup.settings.hornLength * secondUnits) } }

/-- The lamp of field line n is lit now. -/
def lampLit (s : State) (n : Nat) : Bool :=
  match s.signal.lamps.toList[n]? with
  | none => false
  | some l => litAt l.current (l.position / msUnits)

/-- The READY pin is lit now, and so driven to its active level (R149, R150). -/
def readyLit (s : State) : Bool := litAt (readyPattern s) (s.signal.readyPosition / msUnits)

/-- The filtered level of field line n. -/
def filteredLevel (s : State) (n : Nat) : Bool :=
  match s.signal.inputs.toList[n]? with
  | none => false
  | some i => i.filtered

/-- The reading of field line n in STATUS (R158). -/
def fieldReading (s : State) (n : Nat) : Bool :=
  if observes s then
    match functionOfLine s n with
    | .unused => false
    | .pickLamp => lampLit s n
    | .horn => s.signal.horn.isSome
    | .haltIn => filteredLevel s n
    | .closeIn => filteredLevel s n
    | .lineOk => lineOkLit s
    | .bayLamp _ => lampLit s n
  else false

/-- The level an output line is driven to through its polarity, true for high; none where the line is
not driven: an input, an UNUSED line, and every line before the end of CONFIG (R140). -/
def fieldDrive (s : State) (n : Nat) : Option Bool :=
  match s.startup.settings.lines.toList[n]? with
  | none => none
  | some l =>
    if observes s && l.function != .unused && !isInputFunction l.function then
      some (fieldReading s n != l.inverted)
    else none

/-- The field lines character of STATUS: bit n is the reading of FLn (R162). -/
def fieldLinesByte (s : State) : Byte :=
  byte ((List.range 8).foldl (fun acc n => acc + 2 ^ n * bit (fieldReading s n)) 0)

/-! ### The line condition -/

/-- The line becomes QUIET and the idle count starts from 0 (R10, R18). -/
def lineQuiet (s : State) : State :=
  { s with
    line := { s.line with
      condition := .quiet, activity := .nothing, idleCount := 0, stuckCount := 0 } }

/-- The line stays or becomes BUSY with DW pulled and TW slack, and R20 counts from now. -/
def lineDwPulled (s : State) : State :=
  { s with
    line := { s.line with
      condition := .busy, activity := .dwPulled, idleCount := 0, stuckCount := 0 } }

/-- The line is BUSY: DW reads pulled where a start mark was due, so another station's start mark has
begun (R11), and R20 counts from now. -/
def lineStartMark (s : State) : State :=
  { s with
    line := { s.line with
      condition := .busy, activity := .startMark, idleCount := 0, stuckCount := 0 } }

/-- The line after something ended on it, by the level DW has then (R9, R18). -/
def lineFreed (dwPulled : Bool) (s : State) : State := if dwPulled then lineDwPulled s else lineQuiet s

/-- The line is BUSY with this activity, and the idle count and the count of R20 are 0 (R10, R18, R20). -/
def lineBusy (activity : Activity) (s : State) : State :=
  { s with
    line := { s.line with condition := .busy, activity := activity, idleCount := 0, stuckCount := 0 } }

/-- What the station drives from now on. -/
def drive (d : Driving) (s : State) : State := { s with line := { s.line with driving := d } }

/-- The Line Interface makes a report (R22). -/
def report (r : FrameReport) (s : State) : State := { s with line := { s.line with report := some r } }

/-- The report of a frame this station began; it pulled neither slot itself. -/
def reportSent (outcome : ReportOutcome) (flawSlot confirmSlot : Bool) (s : State) : State :=
  report
    { outcome := outcome, flawSlot := flawSlot, confirmSlot := confirmSlot
      pulledFlaw := false, pulledConfirm := false } s

/-- A call request is with the Frame Engine: the Call Arbiter is WAITING (R37, R119). -/
def callRequested (s : State) : Bool :=
  match s.arbiter with
  | .waiting _ => true
  | _ => false

/-- The station wants to send (R20, R37). -/
def wantsToSend (s : State) : Bool :=
  inService s && (s.frames.queue.any (fun n => !n.inFlight) || callRequested s)

/-- A station in STUCK that wants to send enters RECOVERING, unless its back-off timer runs; a
recovering station that no longer wants to send goes back to STUCK (R20, R21). -/
def followWant (s : State) : State :=
  if s.line.condition = .stuck ∧ wantsToSend s = true ∧ s.line.backOff = none then
    { s with line := { s.line with condition := .recovering, driving := .recovery, pulseCount := 0 } }
  else if s.line.condition = .recovering ∧ wantsToSend s = false then
    { s with line := { s.line with condition := .stuck, driving := .nothing, pulseCount := 0 } }
  else s

/-! ### The outbound notice queue (R33 to R36) -/

/-- The state with its notice queue replaced. -/
def withQueue (queue : List Notice) (s : State) : State :=
  { s with frames := { s.frames with queue := queue } }

/-- The count of a TAKEN or LAPSE; 0 for other notices. -/
def countOf : NoticeBody → Nat
  | .lapse _ c => c
  | .taken _ c => c
  | .hail _ => 0
  | .void _ => 0
  | .arrive _ => 0

/-- The notice with another count. -/
def withCount : NoticeBody → Nat → NoticeBody
  | .lapse key _, c => .lapse key c
  | .taken key _, c => .taken key c
  | .hail serial, _ => .hail serial
  | .void ticket, _ => .void ticket
  | .arrive spec, _ => .arrive spec

/-- Two notices are both TAKEN or both LAPSE, with the same gate station, ticket and line (R34). -/
def sameAccount : NoticeBody → NoticeBody → Bool
  | .lapse a _, .lapse b _ => a == b
  | .taken a _, .taken b _ => a == b
  | _, _ => false

/-- The entry is an ARRIVE that is not in flight. -/
def isWaitingArrive (n : Notice) : Bool :=
  match n.body with
  | .arrive _ => !n.inFlight
  | _ => false

/-- The queue, newest first, after a merge into the newest entry for the same account that is not in
flight, with what is left over; none when there is no such entry or it is full (R34). -/
def mergeNewest (body : NoticeBody) : List Notice → Option (List Notice × Nat)
  | [] => none
  | n :: rest =>
    if sameAccount n.body body && !n.inFlight then
      if countOf n.body < Config.countLimit then
        let added := min (countOf body) (Config.countLimit - countOf n.body)
        some ({ n with body := withCount n.body (countOf n.body + added) } :: rest, countOf body - added)
      else none
    else (mergeNewest body rest).map fun r => (n :: r.1, r.2)

/-- A notice as a new entry at the tail (R34). -/
def newEntry (body : NoticeBody) : Notice := { body := body, flaws := 0, inFlight := false }

/-- A new entry joins the queue, evicts the oldest waiting ARRIVE, or is dropped (R34, R35). -/
def enqueue (body : NoticeBody) (s : State) : State :=
  if s.frames.queue.length < Config.queueLimit then withQueue (s.frames.queue ++ [newEntry body]) s
  else
    match body with
    | .arrive _ => s
    | _ =>
      if s.frames.queue.any isWaitingArrive then
        withQueue (s.frames.queue.eraseP isWaitingArrive ++ [newEntry body]) s
      else flagNoticeLoss s

/-- A producer gives a notice to the queue (R34). -/
def takeNotice (body : NoticeBody) (s : State) : State :=
  match body with
  | .arrive _ => if s.frames.queue.any (fun n => n.body == body) then s else enqueue body s
  | _ =>
    match mergeNewest body s.frames.queue.reverse with
    | none => enqueue body s
    | some (queue, left) =>
      if left = 0 then withQueue queue.reverse s
      else enqueue (withCount body left) (withQueue queue.reverse s)

/-- A producer gives a notice; a STUCK line then meets a station that wants to send (R20). -/
def giveNotice (body : NoticeBody) (s : State) : State := followWant (takeNotice body s)

/-! ### The Terminal Port's buffers (R152 to R157) -/

/-- A message joins the tail of the transmit queue. -/
def transmit (m : List Byte) (s : State) : State :=
  { s with port := { s.port with transmit := s.port.transmit ++ [m] } }

/-- The reply of an owner, or of the port itself, is enqueued (R154, R162). -/
def reply (code : Byte) (result : ResultCode) (data : List Byte) (s : State) : State :=
  transmit (replyMessage code result data) s

/-- A report is enqueued, or dropped with REPORT LOST (R156). -/
def giveReport (m : List Byte) (s : State) : State :=
  if s.port.transmit.length < Config.transmitLimit then transmit m s else flagReportLost s

/-- The station defers its terminal messages (R73, R123, R154). -/
def deferring (s : State) : Bool :=
  match s.startup.settings.role with
  | .row => s.bid != .idle
  | .gate =>
    match s.arbiter with
    | .idle => false
    | .waiting _ => false
    | .calling _ => true
    | .granting _ _ _ _ => true

/-- The waiting message can be processed (R154). -/
def canProcess (s : State) : Bool :=
  portRuns s && !deferring s && decide (s.port.transmit.length < Config.transmitLimit)

/-- The port receives with even parity: as configured, and never in CONFIG FAULT (R151). -/
def portParity (s : State) : Bool :=
  s.startup.station != .configFault && s.startup.settings.terminalParity

/-- The port's speed in baud: as configured, and 9600 in CONFIG FAULT (R151). -/
def portBaud (s : State) : Nat :=
  if s.startup.station = .configFault then 9600 else 4800 * 2 ^ s.startup.settings.terminalSpeed

/-- Bit times of one terminal character (R151). -/
def characterBits (s : State) : Nat := if portParity s then 12 else 11

/-- The levels the port puts on its send wire from now on, one for each bit time, true for high: the
messages of the transmit queue in order, oldest first (R151, R156). Nothing is sent in CONFIG (R161). R156
requires no gap between characters: the port leaves none, between messages neither. DESIGN CHOICE: log
entry 30. -/
def sendBits (s : State) : List Bool :=
  if portRuns s then s.port.transmit.flatMap (messageBits (portParity s)) else []

/-- The level of the send wire in a bit time, counted from the first of the messages being sent: high
where nothing is sent, and so from a full reset until the end of CONFIG (R151, R156). -/
def sendLevel (bitTime : Nat) (s : State) : Bool := ((sendBits s)[bitTime]?).getD true

/-- The levels that still follow on the send wire after a BREAK that finds so many bits sent, counted as
sendBits counts them: the rest of the character that is part-way out, and no more of its message (R160). -/
def finishedAtBreak (sent : Nat) (s : State) : List Bool :=
  ((sendBits s).drop sent).take
    ((characterBits s - sent % characterBits s) % characterBits s)

/-- A complete message moves to the waiting buffer, or is dropped with OVERRUN (R152). -/
def completeMessage (m : List Byte) (s : State) : State :=
  let t : State := { s with port := { s.port with assembly := [] } }
  match s.port.waiting with
  | none => { t with port := { t.port with waiting := some m } }
  | some _ => flagOverrun t

/-- The characters taken so far stay in assembly, or make a complete message (R152). -/
def assemble (m : List Byte) (s : State) : State :=
  if messageComplete m then completeMessage m s
  else { s with port := { s.port with assembly := m } }

/-- The port takes characters: it runs and no BREAK is in progress (R151, R160). -/
def receives (s : State) : Bool := portRuns s && !s.port.breakHeld

/-- A good character (R152). -/
def takeCharacter (c : TermChar) (s : State) : State :=
  if c.mark then assemble [c.data] (if s.port.assembly = [] then s else flagFragment s)
  else if s.port.assembly = [] then s
  else assemble (s.port.assembly ++ [c.data]) s

/-- The characters of a message are received one by one (R152). -/
def deliver (m : List Byte) (s : State) : State :=
  if receives s then (terminalCharacters m).foldl (fun t c => takeCharacter c t) s else s

/-- The code belongs to the other role's set (R155). -/
def wrongRole (code : Byte) (s : State) : Bool :=
  match s.startup.settings.role with
  | .row => [0x31, 0x32, 0x33, 0x34].contains code
  | .gate => [0x21, 0x22, 0x23, 0x24, 0x25, 0x26, 0x27].contains code

/-- The port's own refusals, in their order (R155). -/
def portRefusal (code : Byte) (s : State) : Option ResultCode :=
  if !codeKnown code then some .unknownMessage
  else if s.startup.station = .configFault then if code = 0x40 then none else some .notReady
  else if wrongRole code s then some .wrongRole
  else if s.startup.station = .listen then if code = 0x40 then none else some .notReady
  else if s.startup.station = .duplicate then
    if [0x40, 0x26, 0x27, 0x34].contains code then none else some .notReady
  else none

/-- The state in which a message is considered for processing. With an empty waiting buffer the command
stands for its characters too (log entry 7). -/
def arriveMessage (m : List Byte) (s : State) : State :=
  match s.port.waiting with
  | none => deliver m s
  | some _ => s

/-- The waiting buffer becomes empty (R154). -/
def clearWaiting (s : State) : State := { s with port := { s.port with waiting := none } }

/-- The processing of the waiting message m, when it is m and both conditions of R154 hold: the port's
own refusal (R155), or the owner's answer. -/
def processMessage (m : List Byte) (code : Byte) (owner : State → State) (s : State) : State :=
  let t := arriveMessage m s
  if t.port.waiting = some m ∧ canProcess t = true then
    match portRefusal code t with
    | some r => reply code r [] (clearWaiting t)
    | none => owner (clearWaiting t)
  else t

end Sys2Proof.Machine
end

