-- ==== Sys2Proof/Machine/Stock.lean ====
section
/-! DEFINITION. The Stock Table's operations (chapter 3): stack lists, positions, the requests of the
Reservation Unit, ageing, and the view for a computation. -/

namespace Sys2Proof.Machine

/-- Stack list n, bottom first; a number above 15 names no list (R46). -/
def stackAt (stock : Stock) (n : Nat) : List Pack := (stock.toList[n]?).getD []

/-- The stock with stack list n replaced. -/
def setStack (stock : Stock) (n : Nat) (packs : List Pack) : Stock := stock.setIfInBounds n packs

/-- Every record of the table. -/
def allPacks (stock : Stock) : List Pack := stock.toList.flatten

/-- The record count (R45). -/
def recordCount (stock : Stock) : Nat := (allPacks stock).length

/-- The stack that holds the record with the tag. -/
def stackOf (tag : Nat) (stock : Stock) : Option Nat :=
  (List.range 16).find? fun n => (stackAt stock n).any fun p => p.tag == tag

/-- The record with the tag. -/
def findPack (tag : Nat) (stock : Stock) : Option Pack := (allPacks stock).find? fun p => p.tag == tag

/-- A record with the tag is in the table. -/
def tagPresent (tag : Nat) (stock : Stock) : Bool := (allPacks stock).any fun p => p.tag == tag

/-- The record with the tag is on top of stack n (R46). -/
def onTop (tag n : Nat) (stock : Stock) : Bool :=
  match (stackAt stock n).getLast? with
  | none => false
  | some p => p.tag == tag

/-- Every record replaced by its image. -/
def mapPacks (f : Pack → Pack) (stock : Stock) : Stock := vmap (fun l => l.map f) stock

/-- A record joins the top of stack n (R46). -/
def pushPack (n : Nat) (p : Pack) (stock : Stock) : Stock := setStack stock n (stackAt stock n ++ [p])

/-- The record on top of stack n leaves it (R46). -/
def popPack (n : Nat) (stock : Stock) : Stock := setStack stock n (stackAt stock n).dropLast

/-- The record with the tag takes a state; its other fields are kept (R47). -/
def setPackState (tag : Nat) (state : PackState) (stock : Stock) : Stock :=
  mapPacks (fun p => if p.tag = tag then { p with state := state } else p) stock

/-- A hold request: the named records go from FREE to HELD (R48). -/
def holdPacks (tags : List Nat) (stock : Stock) : Stock :=
  mapPacks (fun p => if tags.contains p.tag && p.state == .free then { p with state := .held } else p) stock

/-- A settle request: the covered records go from HELD to RESERVED for the order, the other named
records from HELD to FREE (R48). -/
def settlePacks (named covered : List Nat) (order : Reservation) (stock : Stock) : Stock :=
  mapPacks
    (fun p =>
      if p.state != .held then p
      else if covered.contains p.tag then { p with state := .reserved order }
      else if named.contains p.tag then { p with state := .free }
      else p) stock

/-- A state is RESERVED. -/
def isReserved : PackState → Bool
  | .free => false
  | .held => false
  | .reserved _ => true
  | .qhold => false

/-- A release request: the named records go from RESERVED to FREE (R48). -/
def releasePacks (tags : List Nat) (stock : Stock) : Stock :=
  mapPacks (fun p => if tags.contains p.tag && isReserved p.state then { p with state := .free } else p) stock

/-- An hour step: every age rises by 1, and 255 stays (R60). -/
def agePacks (stock : Stock) : Stock := mapPacks (fun p => { p with age := min 255 (p.age + 1) }) stock

/-- The view of stack n: each record with its place and dig count (R49). -/
def viewOfStack (stock : Stock) (n : Nat) : List ViewPack :=
  (stackAt stock n).mapIdx fun i p =>
    { tag := p.tag, spec := p.spec, stack := n, tier := i + 1
      dig := (stackAt stock n).length - 1 - i, age := p.age, state := p.state }

/-- The view of the table (R49). -/
def viewOf (stock : Stock) : List ViewPack := (List.range 16).flatMap (viewOfStack stock)

/-- A record put by the loader: FREE, age 0 (R51). -/
def newPack (tag : Nat) (spec : PackSpec) : Pack := { tag := tag, spec := spec, age := 0, state := .free }

/-- The table replaced. -/
def withStock (stock : Stock) (s : State) : State := { s with stock := stock }

end Sys2Proof.Machine
end

