-- ==== Sys2Proof/Machine/Reservation.lean ====
section
/-! DEFINITION. The Reservation Unit's operations (chapter 5): the hold, the pick list, the overdue
sweep, the pick lamp and horn requests. -/

namespace Sys2Proof.Machine

/-! ### Pick lamp and horn (R96, R97) -/

/-- What of the pick list the lamp depends on: the head's tag, stack and overdue flag (R96). -/
def pickHead (picks : List PickEntry) : Option (Nat × Nat × Bool) :=
  picks.head?.map fun e => (e.tag, e.stack, e.overdue)

/-- The pattern the pick lamp should show (R96). -/
def pickPattern (picks : List PickEntry) : Pattern :=
  match picks with
  | [] => .off
  | e :: _ => if e.overdue then .quickBurst (e.stack + 1) else .burst (e.stack + 1)

/-- The pick list replaced, with the one lamp request its head's change gives (R96). -/
def withPicks (picks : List PickEntry) (s : State) : State :=
  let t : State := { s with picks := picks }
  if pickHead picks = pickHead s.picks then t else requestPattern .pickLamp (pickPattern picks) t

/-! ### The hold (R78 to R85) -/

/-- The hold made at a win (R79). -/
def newHold (order : Reservation) (tags : List Nat) : Hold where
  order := order
  packs := tags
  phase := .waiting
  grantWait := some Config.grantWait
  decision := .none

/-- A win: the hold is created and its packs become HELD (R79). -/
def createHold (order : Reservation) (tags : List Nat) (s : State) : State :=
  { s with hold := some (newHold order tags), stock := holdPacks tags s.stock }

/-- A hold ends with every held pack FREE (R80, R81, R85). -/
def endHold (s : State) : State :=
  match s.hold with
  | none => s
  | some h => { s with hold := none, stock := settlePacks h.packs [] h.order s.stock }

/-- The start mark of the closing frame stops the grant wait; the hold is RECEIVING (R80). -/
def receiveHold (s : State) : State :=
  match s.hold with
  | none => s
  | some h => { s with hold := some { h with phase := .receiving, grantWait := none } }

/-- The pick entries for the covered packs, by stack ascending and tier descending (R84). -/
def newEntries (covered : List Nat) (order : Reservation) (minute : Minute) (stock : Stock) :
    List PickEntry :=
  (List.range 16).flatMap fun n =>
    ((stackAt stock n).reverse.filter fun p => covered.contains p.tag && p.state == .held).map fun p =>
      { tag := p.tag, stack := n, order := order, grantMinute := minute, overdue := false }

/-- Settlement of a confirmed hold for a GRANT of count c: the first min(c, k) packs in selection order
become RESERVED and get their pick entries, the rest FREE (R83, R84, R97). -/
def settleConfirmed (h : Hold) (count : Nat) (s : State) : State :=
  let covered := h.packs.take count
  let entries := newEntries covered h.order s.clock.minute s.stock
  let t : State := { s with hold := none, stock := settlePacks h.packs covered h.order s.stock }
  let u := withPicks (s.picks ++ entries) t
  if s.picks = [] ∧ entries ≠ [] then requestHorn u else u

/-! ### The pick list (R86 to R92) -/

/-- The entries that a test names leave the list, and their packs go to FREE (R90, R91). -/
def releaseEntries (which : PickEntry → Bool) (s : State) : State :=
  withPicks (s.picks.filter fun e => !which e)
    { s with stock := releasePacks ((s.picks.filter which).map fun e => e.tag) s.stock }

/-- A hold that a test names ends (R85). -/
def endHoldIf (which : Reservation → Bool) (s : State) : State :=
  match s.hold with
  | none => s
  | some h => if which h.order then endHold s else s

/-- A VOID's effect at a row (R90). -/
def releaseVoid (gate ticket : Nat) (s : State) : State :=
  releaseEntries (fun e => e.order.gate == gate && e.order.ticket == ticket)
    (endHoldIf (fun o => o.gate == gate && o.ticket == ticket) s)

/-- A gate HAIL's effect at a row (R91). -/
def releaseGate (gate : Nat) (s : State) : State :=
  releaseEntries (fun e => e.order.gate == gate) (endHoldIf (fun o => o.gate == gate) s)

/-- DUPLICATE entry: the hold and every entry go, HELD and RESERVED packs become FREE (R61, R92). -/
def releaseAll (s : State) : State :=
  withPicks []
    { s with
      hold := none
      stock :=
        mapPacks
          (fun p => if p.state == .held || isReserved p.state then { p with state := .free } else p)
          s.stock }

/-- A pack's entry leaves the list wherever it stands (R87, R88). -/
def removeEntry (tag : Nat) (s : State) : State := withPicks (s.picks.filter fun e => e.tag != tag) s

/-- A pack's entry follows it to another stack and keeps its place (R89). -/
def moveEntry (tag stack : Nat) (s : State) : State :=
  withPicks (s.picks.map fun e => if e.tag = tag then { e with stack := stack } else e) s

/-- The account of a reservation. -/
def keyOf (o : Reservation) : OrderKey := { gate := o.gate, ticket := o.ticket, line := o.line }

/-! ### Minutes (R94, R95) -/

/-- An entry's overdue flag after a sweep at this minute (R94). -/
def sweepEntry (limit : Nat) (now : Minute) (e : PickEntry) : PickEntry :=
  if limit ≠ 0 ∧ limit ≤ (now - e.grantMinute).toNat then { e with overdue := true } else e

/-- The overdue sweep at the yard minute (R94). -/
def overdueSweep (s : State) : State :=
  withPicks (s.picks.map (sweepEntry s.startup.settings.pickLimit s.clock.minute)) s

/-- The clock became set: every entry takes the new minute as its grant minute (R95). -/
def rewriteGrantMinutes (s : State) : State :=
  { s with picks := s.picks.map fun e => { e with grantMinute := s.clock.minute } }

end Sys2Proof.Machine
end

