-- ==== Sys2Proof/Machine/Clock.lean ====
section
/-! DEFINITION. The Yard Clock's operations (chapter 8): minute steps, hour steps, adoption. -/

namespace Sys2Proof.Machine

/-- A minute is a multiple of 60 (R132). -/
def isHour (m : Minute) : Bool := m.toNat % 60 == 0

/-- An hour step: a row's packs age (R132); a gate has no user for it. -/
def hourStep (s : State) : State := if isRow s then withStock (agePacks s.stock) s else s

/-- A sweep at the yard minute: a row's pick list (R131, R135). -/
def sweep (s : State) : State := if isRow s then overdueSweep s else s

/-- The yard minute takes a value and the second counter becomes 0. -/
def setMinute (m : Minute) (s : State) : State :=
  { s with clock := { s.clock with minute := m, second := 0, fraction := 0 } }

/-- The clock becomes set at a minute: no hour step, no sweep; a row rewrites its grant minutes (R133,
R137, R95). -/
def becomeSet (m : Minute) (s : State) : State :=
  let t := setMinute m s
  let u : State := { t with clock := { t.clock with isSet := true } }
  if isRow s then rewriteGrantMinutes u else u

/-- A multiple of 60 lies among the minutes after m up to and including m + delta (R135). -/
def passesHour (m : Minute) (delta : Nat) : Bool :=
  (List.range delta).any fun i => isHour (m + BitVec.ofNat 16 (i + 1))

/-- A forward jump: at most one hour step, then one sweep at the new minute (R135). -/
def jumpForward (delta : Nat) (s : State) : State :=
  let t := setMinute (s.clock.minute + BitVec.ofNat 16 delta) s
  sweep (if passesHour s.clock.minute delta then hourStep t else t)

/-- What the Yard Clock does with an accepted header (R133, R134). -/
def hearMinute (heard : Minute) (heardSet : Bool) (s : State) : State :=
  if heardSet = false then s
  else if s.clock.isSet = false then becomeSet heard s
  else
    let delta := (heard - s.clock.minute).toNat
    if delta = 0 then s
    else if delta ≤ Config.jumpLimit then jumpForward delta s
    else flagClockConflict s

/-- A minute step: the second counter would reach 60 (R131). -/
def minuteStep (s : State) : State :=
  let t := setMinute (s.clock.minute + 1) s
  if s.clock.isSet = false then t
  else sweep (if isHour t.clock.minute then hourStep t else t)

/-- The time-source rule at the end of the listen period (R137). -/
def timeSourceRule (s : State) : State :=
  if s.clock.isSet = false ∧ s.startup.settings.timeSource = true then becomeSet 0 s else s

end Sys2Proof.Machine
end

