-- ==== Sys2Proof/Machine/Bid.lean ====
section
/-! DEFINITION. The Bid Unit's arithmetic (chapter 4): matching, pack cost, selection, the offer score,
the bid word, and taking up a CALL. -/

namespace Sys2Proof.Machine

/-- A record of the view matches a CALL (R65). -/
def matchesCall (c : CallFields) (v : ViewPack) : Bool :=
  v.state == .free && v.spec.family == c.spec.family && v.spec.size == c.spec.size
    && (v.spec.grade == c.spec.grade || (c.upgrade && decide (v.spec.grade < c.spec.grade)))

/-- The age credit A (R66). -/
def ageCredit (cap age : Nat) : Nat := min age cap

/-- The pack cost pc of a matching record (R66). -/
def packCost (c : CallFields) (distance cap : Nat) (v : ViewPack) : Nat :=
  256 + 64 * v.dig + distance + 48 * (c.spec.grade - v.spec.grade) - ageCredit cap v.age

/-- Selection order: lower cost, then lower stack, then higher tier (R67). -/
def selectedBefore (a b : Selected) : Bool :=
  decide (a.cost < b.cost) || (a.cost == b.cost && (decide (a.stack < b.stack)
    || (a.stack == b.stack && decide (b.tier ≤ a.tier))))

/-- A record put in its place in selection order. -/
def insertSelected (a : Selected) : List Selected → List Selected
  | [] => [a]
  | b :: rest => if selectedBefore a b then a :: b :: rest else b :: insertSelected a rest

/-- The records in selection order. -/
def rankSelected : List Selected → List Selected
  | [] => []
  | a :: rest => insertSelected a (rankSelected rest)

/-- A matching record with its cost. -/
def priced (c : CallFields) (distance cap : Nat) (v : ViewPack) : Selected :=
  { tag := v.tag, stack := v.stack, tier := v.tier, cost := packCost c distance cap v }

/-- The matching records in selection order, each with its cost (R66, R67). -/
def rankedOffers (r : BidRecord) (cap : Nat) : List Selected :=
  rankSelected ((r.view.filter (matchesCall r.call)).map (priced r.call r.distance cap))

/-- k, the number of packs offered (R67). -/
def offeredCount (r : BidRecord) : Nat :=
  min (min r.call.wanted Config.countLimit) (min (r.view.filter (matchesCall r.call)).length r.freeEntries)

/-- The offer score S of a selection (R68). -/
def offerScore (wanted : Nat) (selection : List Selected) : Nat :=
  min Config.scoreLimit
    ((selection.map fun a => a.cost).sum / selection.length
      + 32 * (min wanted Config.countLimit - selection.length))

/-- The result of a computation (R67 to R69). -/
def computeBid (r : BidRecord) (cap number : Nat) : BidResult :=
  let selection := (rankedOffers r cap).take (offeredCount r)
  let score := offerScore r.call.wanted selection
  let shortfall := Config.countLimit - selection.length
  { selection := selection, score := score, shortfall := shortfall
    word := bidWord score shortfall number }

/-- The computation's duration in microseconds (R70). -/
def durationUs (r : BidRecord) : Nat := 10 + 15 * r.view.length

/-- The stretch limit in microseconds (R71). -/
def limitUs (s : State) : Nat := 1000 * s.startup.settings.stretchLimit

/-- The distance entry for a bay (R165); a bay outside 1 to 8 is not served. -/
def distanceTo (bay : Nat) (s : State) : Nat :=
  match bay with
  | 0 => Config.notServed
  | n + 1 => (s.startup.settings.distances.toList[n]?).getD Config.notServed

/-- The computation record for a CALL at its end mark (R63, R64). -/
def newBidRecord (c : CallFields) (s : State) : BidRecord where
  call := c
  view := viewOf s.stock
  distance := distanceTo c.bay s
  freeEntries := Config.pickLimit - s.picks.length
  limit := some (s.startup.settings.stretchLimit * msUnits)

/-- The row is eligible for a CALL (R64). -/
def eligible (c : CallFields) (startedInService : Bool) (s : State) : Bool :=
  inService s && startedInService && !haltAsserted s && !closeAsserted s && s.hold == none
    && decide (s.picks.length < Config.pickLimit) && distanceTo c.bay s != Config.notServed
    && (viewOf s.stock).any (matchesCall c)

end Sys2Proof.Machine
end

