-- ==== Sys2Proof/Machine/GateTable.lean ====
section
/-! DEFINITION. The Gate Table's operations (chapter 6): accounts, states, the settlement of notices,
reports and bay lamps. -/

namespace Sys2Proof.Machine

/-! ### Derived quantities and states (R100 to R102) -/

/-- G = C + the sum of g. -/
def lineGranted (l : OrderLine) : Nat := l.closed + (l.awards.map fun a => a.granted).sum

/-- T = C + the sum of t. -/
def lineTaken (l : OrderLine) : Nat := l.closed + (l.awards.map fun a => a.taken).sum

/-- O = W - G. -/
def lineOpen (l : OrderLine) : Nat := l.wanted - lineGranted l

/-- The four line states (R101). -/
inductive LineState where
  | openLine
  | short
  | covered
  | done
  deriving DecidableEq, Repr

/-- A line's state (R101). -/
def lineState (l : OrderLine) : LineState :=
  if lineTaken l = l.wanted then .done
  else if lineOpen l = 0 then .covered
  else if l.emptyRounds < Config.emptyRoundLimit then .openLine
  else .short

/-- The three truck states (R102). -/
inductive TruckState where
  | parked
  | active
  | loaded
  deriving DecidableEq, Repr

/-- A truck's state (R102). -/
def truckState (t : Truck) : TruckState :=
  if t.bay = 0 then .parked
  else if t.lines.all (fun l => lineState l == .done) then .loaded
  else .active

/-- The four bay conditions (R102). -/
inductive BayCondition where
  | empty
  | working
  | short
  | loaded
  deriving DecidableEq, Repr

/-- The truck standing at a bay. -/
def truckAt (trucks : List Truck) (bay : Nat) : Option Truck := trucks.find? fun t => t.bay == bay

/-- A bay's condition, for bays 1 to 8 (R102). -/
def bayCondition (trucks : List Truck) (bay : Nat) : BayCondition :=
  match truckAt trucks bay with
  | none => .empty
  | some t =>
    if truckState t = .loaded then .loaded
    else if t.lines.any (fun l => lineState l == .short) then .short
    else .working

/-- The pattern of a bay's lamp (R116). -/
def bayPattern : BayCondition → Pattern
  | .empty => .off
  | .working => .slow
  | .short => .fast
  | .loaded => .steady

/-- The truck with a ticket. -/
def findTruck (ticket : Nat) (trucks : List Truck) : Option Truck :=
  trucks.find? fun t => t.ticket == ticket

/-- Line n of a truck, numbered from 1. -/
def orderLineOf (t : Truck) (n : Nat) : Option OrderLine :=
  match n with
  | 0 => none
  | m + 1 => t.lines[m]?

/-- Line n of the truck with the ticket replaced by its image. -/
def mapOrderLine (ticket n : Nat) (f : OrderLine → OrderLine) (trucks : List Truck) : List Truck :=
  trucks.map fun t =>
    if t.ticket = ticket then
      { t with lines := t.lines.mapIdx fun i l => if i + 1 = n then f l else l }
    else t

/-- Line n of the truck with the ticket. -/
def findOrderLine (ticket n : Nat) (trucks : List Truck) : Option OrderLine :=
  (findTruck ticket trucks).bind fun t => orderLineOf t n

/-! ### Award records (R100, R103 to R106) -/

/-- The untaken remainder of a record. -/
def untaken (a : Award) : Nat := a.granted - a.taken

/-- Records with t = g leave the line; g is added to C, which folds them (R100). A record brought down to
t = 0 adds nothing, which is its removal without folding. -/
def foldAwards (l : OrderLine) : OrderLine :=
  { l with
    closed := l.closed + ((l.awards.filter fun a => untaken a == 0).map fun a => a.granted).sum
    awards := l.awards.filter fun a => untaken a != 0 }

/-- A count spent on a row's records, first record first; what is left over (R104). -/
def spendAwards (row : Nat) : Nat → List Award → List Award × Nat
  | count, [] => ([], count)
  | count, a :: rest =>
    if a.row = row then
      let r := spendAwards row (count - min count (untaken a)) rest
      ({ a with taken := a.taken + min count (untaken a) } :: r.1, r.2)
    else
      let r := spendAwards row count rest
      (a :: r.1, r.2)

/-- A count withdrawn from a row's records, first record first (R105). -/
def withdrawAwards (row : Nat) : Nat → List Award → List Award
  | _, [] => []
  | count, a :: rest =>
    if a.row = row then
      { a with granted := a.granted - min count (untaken a) } ::
        withdrawAwards row (count - min count (untaken a)) rest
    else a :: withdrawAwards row count rest

/-- A TAKEN of a row on a line: oldest first, complete records fold (R104). -/
def takenOnLine (row count : Nat) (l : OrderLine) : OrderLine :=
  foldAwards { l with awards := (spendAwards row count l.awards).1 }

/-- The excess of a TAKEN over what the row's records on the line still hold (R104). -/
def takenExcess (row count : Nat) (l : OrderLine) : Nat := (spendAwards row count l.awards).2

/-- A LAPSE of a row on a line: newest first (R105). -/
def lapseOnLine (row count : Nat) (l : OrderLine) : OrderLine :=
  foldAwards { l with awards := (withdrawAwards row count l.awards.reverse).reverse }

/-- The records a test names are brought down to what was taken (R106, R118). -/
def bringDown (which : Award → Bool) (l : OrderLine) : OrderLine :=
  foldAwards { l with awards := l.awards.map fun a => if which a then { a with granted := a.taken } else a }

/-- Every line of every truck replaced by its image. -/
def mapAllLines (f : OrderLine → OrderLine) (trucks : List Truck) : List Truck :=
  trucks.map fun t => { t with lines := t.lines.map f }

/-- An arrived spec is what a line accepts (R107). -/
def arrivalMatches (spec : PackSpec) (l : OrderLine) : Bool :=
  l.spec.family == spec.family && l.spec.size == spec.size
    && (l.spec.grade == spec.grade || (l.upgrade && decide (spec.grade < l.spec.grade)))

/-- An ARRIVE re-opens a SHORT line it matches (R107). -/
def arriveOnLine (spec : PackSpec) (l : OrderLine) : OrderLine :=
  if lineState l = .short ∧ arrivalMatches spec l = true then { l with emptyRounds := 0 } else l

/-- A grant of count c to a row (R103). -/
def grantOnLine (row count : Nat) (l : OrderLine) : OrderLine :=
  if l.awards.length < Config.awardLimit then
    { l with awards := l.awards ++ [{ row := row, granted := count, taken := 0 }], emptyRounds := 0 }
  else l

/-- An empty round of an OPEN line (R126). -/
def emptyOnLine (l : OrderLine) : OrderLine :=
  if lineState l = .openLine then { l with emptyRounds := l.emptyRounds + 1 } else l

/-- An order line as TRUCK IN gives it (R99, R110). -/
def newOrderLine (o : OrderFields) : OrderLine where
  spec := { family := o.family.toNat, size := o.size.toNat, grade := o.grade.toNat }
  upgrade := o.upgrade == 1
  wanted := o.wanted.toNat
  closed := 0
  emptyRounds := 0
  awards := []

/-! ### Reports and bay lamps (R114 to R116) -/

/-- The LOADED report (R162). -/
def loadedReport (ticket : Nat) : List Byte := 0x51 :: ticketBytes ticket

/-- The SHORT report (R162). -/
def shortReport (ticket line : Nat) : List Byte := 0x52 :: ticketBytes ticket ++ [byte line]

/-- The tickets of trucks that are LOADED now and were not before (R115). -/
def newlyLoaded (before after : List Truck) : List Nat :=
  (after.filter fun t =>
      truckState t == .loaded &&
        (match findTruck t.ticket before with
         | none => true
         | some b => truckState b != .loaded)).map fun t => t.ticket

/-- The request for one bay, when its condition changed (R116). -/
def requestBay (before : List Truck) (s : State) (bay : Nat) : State :=
  if bayCondition before bay = bayCondition s.trucks bay then s
  else requestPattern (.bayLamp bay) (bayPattern (bayCondition s.trucks bay)) s

/-- The requests for every bay whose condition changed (R116). -/
def requestBays (before : List Truck) (s : State) : State :=
  [1, 2, 3, 4, 5, 6, 7, 8].foldl (requestBay before) s

/-- The truck table replaced. -/
def withTrucks (trucks : List Truck) (s : State) : State := { s with trucks := trucks }

/-- The reports of trucks that entered LOADED, then the bay lamps (R115, R116). -/
def announceTrucks (before : List Truck) (s : State) : State :=
  requestBays before
    ((newlyLoaded before s.trucks).foldl (fun t ticket => giveReport (loadedReport ticket) t) s)

end Sys2Proof.Machine
end

