-- ==== Sys2Proof/Machine/Arbiter.lean ====
section
/-! DEFINITION. The Call Arbiter's operations (chapter 7): the choice of call, its request, and what
follows every change of the Gate Table. -/

namespace Sys2Proof.Machine

/-- A line can be called: OPEN with fewer than 8 open award records (R120). -/
def lineCallable (l : OrderLine) : Bool :=
  lineState l == .openLine && decide (l.awards.length < Config.awardLimit)

/-- The call record of line n of a truck (R121, R122). -/
def callRecordOf (t : Truck) (n : Nat) (l : OrderLine) : CallRecord where
  ticket := t.ticket
  bay := t.bay
  line := n
  spec := l.spec
  upgrade := l.upgrade
  wanted := min 99 (lineOpen l)

/-- The lowest-numbered callable line of a truck from number n on (R120). -/
def firstCallable (t : Truck) : Nat → List OrderLine → Option CallRecord
  | _, [] => none
  | n, l :: rest => if lineCallable l then some (callRecordOf t n l) else firstCallable t (n + 1) rest

/-- The chosen truck line: the earliest truck at a bay that has a callable line (R120). -/
def chosenCall (trucks : List Truck) : Option CallRecord :=
  trucks.findSome? fun t => if t.bay = 0 then none else firstCallable t 1 t.lines

/-- The choice, when the station may call at all (R120). -/
def callChoice (s : State) : Option CallRecord :=
  if inService s = true ∧ isGate s = true ∧ haltAsserted s = false then chosenCall s.trucks else none

/-- The request an IDLE or WAITING arbiter should have. -/
def arbiterOf : Option CallRecord → Arbiter
  | none => .idle
  | some r => .waiting r

/-- The arbiter makes its choice, or brings its waiting request up to date (R120, R121). -/
def rechoose (s : State) : State :=
  match s.arbiter with
  | .idle => followWant { s with arbiter := arbiterOf (callChoice s) }
  | .waiting _ => followWant { s with arbiter := arbiterOf (callChoice s) }
  | .calling _ => s
  | .granting _ _ _ _ => s

/-- The arbiter's attempt is over: IDLE, then the choice is made again (R119). -/
def arbiterFree (s : State) : State := rechoose { s with arbiter := .idle }

/-- The arbiter's round is over without a settlement when it had one (R119, R124). -/
def arbiterRoundOver (s : State) : State :=
  match s.arbiter with
  | .idle => s
  | .waiting _ => s
  | .calling _ => arbiterFree s
  | .granting _ _ _ _ => arbiterFree s

/-- The truck table takes a new value: reports, bay lamps, and the choice again (R115, R116, R121). -/
def gateChanged (trucks : List Truck) (s : State) : State :=
  rechoose (announceTrucks s.trucks (withTrucks trucks s))

/-- An empty round of the called line: its count rises, and at 3 the SHORT report is given (R114, R126). -/
def emptyRound (r : CallRecord) (s : State) : State :=
  let trucks := mapOrderLine r.ticket r.line emptyOnLine s.trucks
  let entersShort : Bool :=
    match findOrderLine r.ticket r.line s.trucks with
    | none => false
    | some l => lineState l != .short && lineState (emptyOnLine l) == .short
  let t := withTrucks trucks s
  let u := if entersShort then giveReport (shortReport r.ticket r.line) t else t
  announceTrucks s.trucks u

/-- An applied grant (R103). -/
def applyGrant (r : CallRecord) (winner count : Nat) (s : State) : State :=
  announceTrucks s.trucks
    (withTrucks (mapOrderLine r.ticket r.line (grantOnLine winner count) s.trucks) s)

/-- The granted count (R127). -/
def grantedCount (r : CallRecord) (offered : Nat) (s : State) : Nat :=
  if haltAsserted s then 0
  else
    match findOrderLine r.ticket r.line s.trucks with
    | none => 0
    | some l => min offered (lineOpen l)

end Sys2Proof.Machine
end

