-- ==== Sys2Proof/Machine/Round.lean ====
section
/-! DEFINITION. The round view, the ends of frames and rounds, the reception of a frame, and the entry to
DUPLICATE (chapters 1, 2 and 11). -/

namespace Sys2Proof.Machine

/-! ### The round view (R38 to R44) -/

/-- The round view replaced. -/
def withRound (round : Option RoundView) (s : State) : State :=
  { s with frames := { s.frames with round := round } }

/-- A round begins: character 2 of a CALL has been sampled (R38). -/
def newRound (owner : Nat) (own : Bool) : RoundView where
  owner := owner
  own := own
  phase := .call
  part := .none
  silence := 0
  pulsing := false

/-- The phase of the round in progress. -/
def roundPhase (s : State) : Option RoundPhase := s.frames.round.map fun r => r.phase

/-- This station owns the round in progress. -/
def ownsRound (s : State) : Bool :=
  match s.frames.round with
  | none => false
  | some r => r.own

/-- The round view is gone, and the yield record tells whether the round was this station's (R38, R44). -/
def dropRound (s : State) : State :=
  match s.frames.round with
  | none => s
  | some r => { s with frames := { s.frames with round := none, yieldRecord := r.own } }

/-- The Bid Unit discards its work (R76). -/
def dropBid (s : State) : State := { s with bid := .idle }

/-- A round in progress ends: the owner's arbiter is told, and the line is freed (R18, R38). -/
def endRound (dwPulled : Bool) (s : State) : State :=
  let t := lineFreed dwPulled (drive .nothing (dropRound s))
  if ownsRound s then arbiterRoundOver t else t

/-- What every block does at a round's abandonment, the line left to the caller (R43). -/
def dropAbandoned (s : State) : State := dropRound (dropBid (endHold s))

/-- The round is abandoned: bid work and hold go, nothing is counted (R43, R76, R85). -/
def abandonRound (dwPulled : Bool) (s : State) : State :=
  let t := lineFreed dwPulled (drive .nothing (dropAbandoned s))
  if ownsRound s then arbiterRoundOver t else t

/-- A frame ends at its end mark: outside a round the line becomes QUIET; the closing frame of a round
ends the round (R5, R42). -/
def endFrame (s : State) : State :=
  match s.frames.round with
  | none => lineQuiet (drive .nothing s)
  | some _ => endRound false s

/-! ### DUPLICATE (R169) -/

/-- A row's part in the round view after entry to DUPLICATE. R38 leaves the view as it is, and R63 pairs the
Bid Unit, IDLE from then on, with none or sat out alone: computing and ready become none, and the other two
stay. DESIGN CHOICE: log entry 29. -/
def partInDuplicate : RowPart → RowPart
  | .computing => .none
  | .ready => .none
  | .satOut => .satOut
  | .none => .none

/-- Entry to DUPLICATE, in every block at once (R169). The round view stays (R38) but for the part of a row
whose Bid Unit worked (partInDuplicate, log entry 29). -/
def enterDuplicate (s : State) : State :=
  let line : LineInterface :=
    { s.line with
      driving := .nothing
      activity := (match s.line.activity with
        | .sending _ => .receiving
        | .nothing => .nothing
        | .observing w => .observing w
        | .stray => .stray
        | .dwPulled => .dwPulled
        | .startMark => .startMark
        | .receiving => .receiving)
      condition := if s.line.condition = .recovering then .stuck else s.line.condition
      pulseCount := if s.line.condition = .recovering then 0 else s.line.pulseCount }
  let frames : FrameEngine :=
    { s.frames with
      queue := []
      round := s.frames.round.map fun r => { r with part := partInDuplicate r.part } }
  let t : State :=
    { s with
      line := line
      frames := frames
      bid := .idle
      arbiter := .idle
      trucks := mapAllLines (bringDown fun _ => true) s.trucks
      startup := { s.startup with station := .duplicate } }
  refreshReady s (releaseAll t)

/-! ### Hearing a frame (R4, R7, R14, R23) -/

/-- Outside a round the station recognises a start mark, or already follows a frame (R4, R11). -/
def hearsFrame (s : State) : Bool :=
  observes s && s.frames.round.isNone &&
    (s.line.activity == .receiving || s.line.activity == .startMark ||
      (s.line.activity == .nothing && s.line.condition == .quiet))

/-- In GRANT WAIT the station recognises the start mark of the round's closing frame (R4). -/
def awaitsClosing (s : State) : Bool :=
  observes s && roundPhase s == some .grantWait && s.line.activity == .nothing
    && s.line.condition == .busy

/-- The station can follow a frame that is no CALL, from its start mark or from where it stands. -/
def canHear (s : State) : Bool := hearsFrame s || awaitsClosing s

/-- A sender stopped inside its own CALL follows the surviving CALL (R12, R13). -/
def followsCall (s : State) : Bool :=
  observes s && roundPhase s == some .call && s.line.activity == .receiving

/-- This station pulls the flaw slot: in SERVICE, with a flaw of its own found before the slot, when it
reaches the slot (R14) where it has placed it (R7). -/
def pullsFlawSlot {n : Nat} (f : RxFrame n) (s : State) : Bool :=
  inService s && flawBeforeSlot f && f.framing != .atFlawSlot && placesSlots f

/-- The flaw slot's reading on the wire (R14). -/
def flawSlotReads {n : Nat} (f : RxFrame n) (s : State) : Bool := f.flawSlotPulled || pullsFlawSlot f s

/-- The frame is accepted: its flaw slot read slack and the station found no flaw of its own (R22). -/
def frameAccepted {n : Nat} (f : RxFrame n) (s : State) : Bool :=
  !flawSlotReads f s && !flawBeforeSlot f && f.framing == .none

/-- The report of a received frame (R22). -/
def reportHeard {n : Nat} (f : RxFrame n) (confirm : Bool) (s : State) : State :=
  report
    { outcome := if frameAccepted f s then .accepted else .discarded
      flawSlot := flawSlotReads f s
      confirmSlot := f.confirmSlotPulled || confirm
      pulledFlaw := pullsFlawSlot f s
      pulledConfirm := confirm } s

/-- An accepted frame's header goes to the Yard Clock, in LISTEN, SERVICE and DUPLICATE (R23). -/
def hearHeader {n : Nat} (f : RxFrame n) (s : State) : State :=
  if frameAccepted f s then hearMinute (headerMinute f) (headerSet f) s else s

/-- The start mark of a closing frame: the phase is GRANT, the grant wait stops (R42, R80). -/
def closingStart (s : State) : State :=
  match s.frames.round with
  | none => s
  | some r =>
    match r.phase with
    | .grantWait => receiveHold (withRound (some { r with phase := .grant }) s)
    | .call => s
    | .stretch => s
    | .window => s
    | .grant => s

/-- A closing frame whose character 1 is no GRANT ends the hold at that character (R81). -/
def closingOtherKind (s : State) : State :=
  match s.hold with
  | none => s
  | some h =>
    match h.phase with
    | .receiving => endHold s
    | .waiting => s

/-- A frame that is no CALL and no GRANT, from start mark to end mark: the clock takes an accepted header
first, a round it closes ends, and the body goes to its owners when the station is in SERVICE and the
frame is accepted and not inert (R23, R24, R42). -/
def hearNotice {n : Nat} (f : RxFrame n) (valid : Bool) (owners : State → State) (s : State) : State :=
  if canHear s then
    let t := closingOtherKind (closingStart s)
    let u := endFrame (hearHeader f (reportHeard f false t))
    if frameAccepted f s && inService s && valid then owners u else u
  else s

/-- A frame whose character 1 names none of the seven kinds is discarded at its end mark (R7). -/
def hearUnknown {n : Nat} (f : RxFrame n) (s : State) : State := hearNotice f false (fun t => t) s

/-- The frame this row of the table stands for is heard; a kind code of another row is that row's frame,
and an unknown code is followed and discarded (R7). -/
def hearKind {n : Nat} (kind : FrameKind) (f : RxFrame n) (known : State → State) (s : State) : State :=
  match kindOfCode (dataBits f.kindChar) with
  | none => hearUnknown f s
  | some k => if k = kind then known s else s

/-! ### A frame that never ends (R9, R19) -/

/-- A round in GRANT ends at character 2 of the CALL that closes it: the line stays BUSY (R42). A hold has
ended at character 1 (R81). -/
def passRound (s : State) : State :=
  let t := dropRound (endHold s)
  if ownsRound s then arbiterRoundOver t else t

/-- The part of a frame that was sampled before it was cut: a CALL whose character 2 was sampled begins
its round (R38), after ending the round it closes (R42). -/
def partFrame (sampled : List Byte) (s : State) : State :=
  match sampled with
  | kind :: sender :: _ =>
    if kind = kindCode .call ∧ canHear s = true then
      withRound (some (newRound (numberOfSender sender) false)) (passRound s)
    else s
  | _ => s

/-- This station's own CALL that survived its contention fields begins its own round (R38). -/
def ownRound (s : State) : State :=
  withRound (some (newRound s.startup.settings.number true)) s

/-- The characters of the header of a frame sent now (R6, R138). -/
def headerBytes (kind : FrameKind) (s : State) : List Byte :=
  [kindCode kind, senderCharacter s.startup.settings.role s.startup.settings.number]
    ++ bytes16 s.clock.minute ++ [byte (bit s.clock.isSet)]

/-! ### A frame this station sends (R11, R12, R37) -/

/-- The frame offered to the Line Interface outside a round: the head notice, else the call request. -/
inductive Offer where
  | notice (body : NoticeBody)
  | call (record : CallRecord)
  deriving DecidableEq, Repr

/-- What is offered (R33, R37). -/
def offeredFrame (s : State) : Option Offer :=
  if inService s then
    match s.frames.queue with
    | n :: _ => if n.inFlight then none else some (.notice n.body)
    | [] =>
      match s.arbiter with
      | .waiting r => some (.call r)
      | .idle => none
      | .calling _ => none
      | .granting _ _ _ _ => none
  else none

/-- The idle gap an offered frame needs (R11, R44). -/
def gapOf (offer : Offer) (s : State) : Nat :=
  match offer with
  | .notice _ => Config.noticeGap
  | .call _ => if s.frames.yieldRecord then Config.yieldGap else Config.callGap

/-- The head of the queue changed by a function. -/
def mapHead (f : Notice → Notice) (s : State) : State :=
  match s.frames.queue with
  | [] => s
  | n :: rest => withQueue (f n :: rest) s

/-- The head's in-flight mark is cleared (R36). -/
def clearInFlight (s : State) : State := mapHead (fun n => { n with inFlight := false }) s

/-- The head is removed (R36). -/
def removeHead (s : State) : State := withQueue s.frames.queue.tail s

/-- The station begins its start mark: the frame's characters are fixed now (R11, R138), the head is in
flight (R33) or the arbiter is CALLING (R122). -/
def beginFrame (offer : Offer) (s : State) : State :=
  match offer with
  | .notice body =>
    drive .frame
      (lineBusy
        (.sending
          { kind := .notice
            characters := sentCharacters (headerBytes (noticeKind body) s ++ noticeBytes body) })
        (mapHead (fun n => { n with inFlight := true }) s))
  | .call r =>
    drive .frame
      (lineBusy
        (.sending
          { kind := .call, characters := sentCharacters (headerBytes .call s ++ callBytes r) })
        { s with arbiter := .calling r })

/-- The frame this station sends now. -/
def sentFrame (s : State) : Option SentFrame :=
  match s.line.activity with
  | .sending f => some f
  | .nothing => none
  | .observing _ => none
  | .stray => none
  | .dwPulled => none
  | .startMark => none
  | .receiving => none

/-- The kind of the frame this station sends now. -/
def sentKind (s : State) : Option SentKind := (sentFrame s).map fun f => f.kind

/-- Contention is lost: the wires are released, the frame is followed, and the LOST report clears the
head's mark or returns the call request (R12, R36, R122). -/
def loseContention (s : State) : State :=
  match sentKind s with
  | some .notice =>
    clearInFlight (reportSent .lost false false (drive .nothing (lineBusy .receiving s)))
  | some .call =>
    arbiterFree (reportSent .lost false false (drive .nothing (lineBusy .receiving s)))
  | some .grant => s
  | none => s

/-- A body collision: the station stops sending and enters DUPLICATE; its CALL's round is its own and is
followed (R13, R38, R169). -/
def collide (s : State) : State :=
  match sentKind s with
  | some .notice => enterDuplicate (reportSent .collision false false s)
  | some .call => enterDuplicate (ownRound (reportSent .collision false false s))
  | some .grant => s
  | none => s

/-- A frame this station follows as a receiver is cut: it follows one, or the one whose start mark it has
just seen, with so many of its characters sampled. -/
def followsCut (frameBegun : Bool) (charactersSampled : Nat) (s : State) : Bool :=
  s.line.activity == .receiving || ((frameBegun || decide (1 ≤ charactersSampled)) && canHear s)

/-- The frame being sent is reported ABANDONED (R19, R22, R36, R122, R128): the head's mark is cleared;
the arbiter's part is taken by the caller. A frame followed as a receiver is reported discarded (R22). -/
def abandonSent (frameBegun : Bool) (charactersSampled : Nat) (s : State) : State :=
  match sentKind s with
  | none => if followsCut frameBegun charactersSampled s then reportSent .discarded false false s else s
  | some .notice => clearInFlight (reportSent .abandoned false false s)
  | some .call =>
    let t := reportSent .abandoned false false s
    if 2 ≤ charactersSampled then ownRound t else t
  | some .grant => reportSent .abandoned false false s

/-- Entry to HELD (R19): the wires are released, the frame and the round are abandoned, recovery and
back-off stop. -/
def enterHeld (frameBegun : Bool) (sampled : List Byte) (s : State) : State :=
  if observes s = true ∧ s.line.condition ≠ .held then
    let t := partFrame sampled (abandonSent frameBegun sampled.length s)
    let u := dropAbandoned t
    let line : LineInterface :=
      { u.line with
        condition := .held
        activity := .nothing
        driving := .nothing
        idleCount := 0
        stuckCount := 0
        pulseCount := if s.line.condition = .recovering then 0 else u.line.pulseCount
        backOff := none }
    refreshReady s (arbiterRoundOver { u with line := line })
  else s

end Sys2Proof.Machine
end

