-- ==== Sys2Proof/Machine/StartUp.lean ====
section
/-! DEFINITION. The meanings of the start-up commands (chapter 11). -/

namespace Sys2Proof.Machine

/-- FULL_RESET: every block takes its reset values and the station is held in reset (R163). A frame that
was being sent is reported ABANDONED (R22). The unit serial is fixed in the part; the command queue is
not the station's. -/
def execFullReset (s : State) : Host.Outcome State Fault Refusal :=
  .next
    (match sentFrame s with
     | some _ => reportSent .abandoned false false (resetValues s.startup.serial s.pending)
     | none => resetValues s.startup.serial s.pending)

/-- RESET_RELEASE: CONFIG begins (R163, R164). -/
def execResetRelease (s : State) : Host.Outcome State Fault Refusal :=
  .next { s with startup := { s.startup with resetHeld := false } }

/-- The configuration memory is being read (R164). -/
def readingConfig (s : State) : Bool := s.startup.station == .config && !s.startup.resetHeld

/-- The station enters CONFIG FAULT (R166). -/
def enterConfigFault (s : State) : State :=
  refreshReady s { s with startup := { s.startup with station := .configFault } }

/-- CONFIG_INTERRUPTION: the read starts again, and the fourth one ends CONFIG (R164). -/
def execConfigInterruption (s : State) : Host.Outcome State Fault Refusal :=
  .next
    (if readingConfig s then
      let t : State :=
        { s with startup := { s.startup with interruptions := s.startup.interruptions + 1 } }
      if Config.interruptionLimit ≤ t.startup.interruptions then enterConfigFault t else t
    else s)

/-- The filter time in half microseconds (R141). -/
def filterUnits (settings : Settings) : Nat := 4 * 4 ^ settings.filterCode * msUnits

/-- The level of field line n read through its polarity (R140). -/
def levelThrough (settings : Settings) (n : Nat) (high : Bool) : Bool :=
  match settings.lines.toList[n]? with
  | none => false
  | some l => high != l.inverted

/-- An input line at the end of CONFIG: not asserted, its timer started when the raw level is (R141). -/
def firstInput (settings : Settings) (levels : BitVec 8) (n : Nat) : InputLine :=
  match settings.lines.toList[n]? with
  | none => resetInput
  | some l =>
    if isInputFunction l.function then
      let raw := levelThrough settings n (levels.getLsbD n)
      { raw := raw, filtered := false, timer := if raw then some (filterUnits settings) else none }
    else resetInput

/-- The configuration takes effect: LISTEN begins (R165, R167), observation starts (R18), inputs start
filtering (R141) and every output is OFF (R140). -/
def enterListen (settings : Settings) (levels : BitVec 8) (s : State) : State :=
  refreshReady s
    { s with
      startup :=
        { s.startup with
          station := .listen, settings := settings, listenTimer := some (2 * secondUnits) }
      line := (lineBusy (.observing .slack) s).line
      signal :=
        { s.signal with
          inputs :=
            #v[firstInput settings levels 0, firstInput settings levels 1, firstInput settings levels 2,
              firstInput settings levels 3, firstInput settings levels 4, firstInput settings levels 5,
              firstInput settings levels 6, firstInput settings levels 7]
          lamps := Vector.replicate 8 resetLamp } }

/-- CONFIG_READ_COMPLETE: the block is checked (R165). -/
def execConfigReadComplete (block : Vector Byte 32) (levels : BitVec 8) (s : State) :
    Host.Outcome State Fault Refusal :=
  .next
    (if readingConfig s then
      if blockAccepted block then enterListen (settingsOfBlock block) levels s else enterConfigFault s
    else s)

/-- LISTEN_TIMER_EXPIRY: the time-source rule, the HAIL, then SERVICE (R167). -/
def execListenTimerExpiry (s : State) : Host.Outcome State Fault Refusal :=
  .next
    (if s.startup.station = .listen then
      let t := takeNotice (.hail s.startup.serial) (timeSourceRule s)
      let u : State := { t with startup := { t.startup with station := .service, listenTimer := none } }
      refreshReady s (rechoose u)
    else s)

end Sys2Proof.Machine
end

