-- ==== Sys2Proof/Machine/LineEvents.lean ====
section
/-! DEFINITION. The meanings of the events on the wires outside frames (chapter 1, R5, R9, R17 to R21). -/

namespace Sys2Proof.Machine

/-- QUIET_PERIOD: after so many further bt of slack wires the idle count is tested against 96, which ends
the start of observation (R10, R18). Below it the count goes on. -/
def execQuietPeriod (s : State) (elapsed : Nat := 0) : Host.Outcome State Fault Refusal :=
  .next
    (if observes s = true ∧ s.line.activity = .observing .slack ∧ s.line.condition = .busy then
      if s.line.idleCount + elapsed < Config.quietPeriod then
        { s with line := { s.line with idleCount := s.line.idleCount + elapsed } }
      else
        { s with
          line := { s.line with condition := .quiet, activity := .nothing, idleCount := Config.quietPeriod } }
    else s)

/-- The station has not counted its first 96 slack bt: the line is BUSY and no frame is followed (R18). -/
def beginsToObserve (s : State) : Bool :=
  observes s && s.line.condition == .busy &&
    (s.line.activity == .observing .slack || s.line.activity == .observing .pulled
      || s.line.activity == .observing .dwPulled)

/-- The station waits in GRANT WAIT for a start mark (R42). -/
def inGrantWait (s : State) : Bool :=
  observes s && roundPhase s == some .grantWait && s.line.condition == .busy
    && (s.line.activity == .nothing || s.line.activity == .stray)

/-- No frame and no round is in progress, and the station reads the line. So an end mark seen inside a
round while no frame is in progress, in GRANT WAIT for one, ends nothing: R18 lets only the round's end
make the line QUIET, and R5's exception names the close of the window alone. DEDUCED: log entry 25. -/
def betweenFrames (s : State) : Bool :=
  observes s && s.frames.round.isNone &&
    (s.line.activity == .nothing || s.line.activity == .stray || s.line.activity == .dwPulled
      || s.line.activity == .startMark)

/-- UNFINISHED_FRAME: the frame is discarded, a round is abandoned, and the line is freed by DW's level
(R9, R18, R43). -/
def execUnfinishedFrame (sampled : List Byte) (dwPulled : Bool) (s : State) :
    Host.Outcome State Fault Refusal :=
  .next
    (if canHear s = true ∨ followsCall s = true then
      let t := reportSent .discarded false false (partFrame sampled s)
      match t.frames.round with
      | none => lineFreed dwPulled (drive .nothing t)
      | some _ => abandonRound dwPulled t
    else s)

/-- A pull of TW in GRANT WAIT that opens no frame sets the silence count to 0; while TW is slack the
count rises, whatever DW reads (R42). -/
def grantWaitPull (twPulled : Bool) (s : State) : State :=
  if twPulled then
    withRound (s.frames.round.map fun v => { v with silence := 0 })
      { s with line := { s.line with activity := .stray } }
  else { s with line := { s.line with activity := .nothing } }

/-- STRAY_ACTIVITY: the line is BUSY while a wire is pulled that forms no start mark (R17, R4), and the
idle count is 0 (R10); DW pulled with TW slack starts the count of R20, a pull of TW stops it. In GRANT
WAIT a pull of TW sets the silence count to 0 (R42; log entry 27). -/
def execStrayActivity (twPulled dwPulled : Bool) (s : State) : Host.Outcome State Fault Refusal :=
  .next
    (if twPulled = true ∨ dwPulled = true then
      if betweenFrames s = true ∧ (s.line.condition = .quiet ∨ s.line.condition = .busy) then
        if twPulled then lineBusy .stray s else lineDwPulled s
      else if beginsToObserve s then
        lineBusy (.observing (if twPulled then .pulled else .dwPulled)) s
      else if inGrantWait s then grantWaitPull twPulled s
      else s
    else s)

/-- STRAY_ACTIVITY_END: both wires are slack, the line is QUIET and the idle count restarts (R10, R18). At
the start of observation the line stays BUSY and the 96 bt begin again (R18; log entry 8); in GRANT WAIT
the silence count rises again (R42). -/
def execStrayActivityEnd (s : State) : Host.Outcome State Fault Refusal :=
  .next
    (if betweenFrames s = true ∧ s.line.condition = .busy then lineQuiet s
    else if beginsToObserve s then lineBusy (.observing .slack) s
    else if inGrantWait s then grantWaitPull false s
    else s)

/-- An end mark ends BUSY, STUCK or RECOVERING: QUIET, back-off stopped, pulse count 0 (R5, R20, R21). -/
def endRecovery (s : State) : State :=
  let t := lineQuiet (drive .nothing s)
  refreshReady s { t with line := { t.line with pulseCount := 0, backOff := none } }

/-- END_MARK_OUTSIDE_FRAME (R5, R20). At the start of observation both wires are slack from then on and
the 96 bt begin again (R18; log entry 8). Inside a round it ends nothing (log entry 25). -/
def execEndMarkOutsideFrame (s : State) : Host.Outcome State Fault Refusal :=
  .next
    (if betweenFrames s = true ∧ (s.line.condition = .busy ∨ s.line.condition = .stuck
        ∨ s.line.condition = .recovering) then
      endRecovery s
    else if beginsToObserve s then lineBusy (.observing .slack) s
    else s)

/-- HELD_ENTRY: TW pulled for more than 250 ms (R19); the operands are what was sampled of a frame that is
cut, and whether one has begun where none of its characters was (R22). -/
def execHeldEntry (sampled : List Byte) (s : State) (frameBegun : Bool := false) :
    Host.Outcome State Fault Refusal :=
  .next (enterHeld frameBegun sampled s)

/-- HELD_END: TW goes slack; DW's level decides (R19). -/
def execHeldEnd (dwPulled : Bool) (s : State) : Host.Outcome State Fault Refusal :=
  .next
    (if observes s = true ∧ s.line.condition = .held then refreshReady s (lineFreed dwPulled s) else s)

/-- STUCK_ENTRY: a station that wants to send enters RECOVERING at once, the others observe (R20). -/
def execStuckEntry (s : State) : Host.Outcome State Fault Refusal :=
  .next
    (if (betweenFrames s = true ∨ beginsToObserve s = true)
        ∧ (s.line.condition = .quiet ∨ s.line.condition = .busy) then
      refreshReady s
        (followWant
          { s with
            line :=
              { s.line with
                condition := .stuck, activity := .nothing, idleCount := 0
                stuckCount := Config.stuckLimit } })
    else s)

/-- RECOVERY_PULSE: the slack edge of a recovery pulse, with DW as sampled (R21). -/
def execRecoveryPulse (dwPulled : Bool) (s : State) : Host.Outcome State Fault Refusal :=
  .next
    (if s.line.condition = .recovering then
      if dwPulled = false then endRecovery s
      else if s.line.pulseCount + 1 < Config.pulseLimit then
        { s with line := { s.line with pulseCount := s.line.pulseCount + 1 } }
      else
        { s with
          line :=
            { s.line with
              condition := .stuck, driving := .nothing, pulseCount := Config.pulseLimit
              backOff := some secondUnits } }
    else s)

/-- BACK_OFF_EXPIRY: a STUCK station that still wants to send recovers again (R21). -/
def execBackOffExpiry (s : State) : Host.Outcome State Fault Refusal :=
  .next
    (if s.line.backOff.isSome then
      followWant { s with line := { s.line with backOff := none } }
    else s)

end Sys2Proof.Machine
end

