-- ==== Sys2Proof/Machine/SentFrames.lean ====
section
/-! DEFINITION. The meanings of the commands about frames this station sends (R11 to R13, R22, R36, R37,
R122, R124, R128). -/

namespace Sys2Proof.Machine

/-- FRAME_START: after so many further slack bt the idle count is tested against the gap of the offered
frame. Below it nothing starts; with DW pulled another station's start mark has begun, and the station
keeps its request; otherwise the start mark begins (R10, R11). -/
def execFrameStart (elapsed : Nat) (dwPulled : Bool) (s : State) : Host.Outcome State Fault Refusal :=
  .next
    (if s.frames.round.isNone = true ∧ s.line.activity = .nothing ∧ s.line.condition = .quiet then
      match offeredFrame s with
      | none => s
      | some o =>
        let idle := min Config.idleLimit (s.line.idleCount + elapsed)
        if idle < gapOf o s then { s with line := { s.line with idleCount := idle } }
        else if dwPulled then lineStartMark s
        else beginFrame o s
    else s)

/-- CONTENTION_LOSS (R12). -/
def execContentionLoss (s : State) : Host.Outcome State Fault Refusal := .next (loseContention s)

/-- BODY_COLLISION (R13). -/
def execBodyCollision (s : State) : Host.Outcome State Fault Refusal := .next (collide s)

/-- The head's attempt read its flaw slot pulled: at 3 the notice is given up (R36). -/
def countFlaw (s : State) : State :=
  match s.frames.queue with
  | [] => s
  | n :: rest =>
    if Config.flawLimit ≤ n.flaws + 1 then flagNoticeLoss (withQueue rest s)
    else withQueue ({ n with flaws := n.flaws + 1, inFlight := false } :: rest) s

/-- NOTICE_REPORT: the Line Interface's report of the head notice (R36). -/
def execNoticeReport (r : SendReport) (s : State) : Host.Outcome State Fault Refusal :=
  .next
    (if sentKind s = some .notice then
      match r with
      | .sent confirm => endFrame (removeHead (reportSent .sent false confirm s))
      | .flawed confirm => endFrame (countFlaw (reportSent .flawed true confirm s))
      | .lost => loseContention s
      | .collision => collide s
      | .abandoned n => enterHeld false (List.replicate n 0) s
    else s)

/-- This station's CALL ended with its flaw slot slack: its round goes on to STRETCH (R39, R124). -/
def callSent (s : State) : State :=
  drive .nothing
    (lineBusy .nothing
      (withRound (some { newRound s.startup.settings.number true with phase := .stretch }) s))

/-- CALL_REPORT: the Line Interface's report of this gate's CALL (R122, R124). -/
def execCallReport (r : SendReport) (s : State) : Host.Outcome State Fault Refusal :=
  .next
    (if sentKind s = some .call then
      match r with
      | .sent confirm => callSent (reportSent .sent false confirm s)
      | .flawed confirm => endRound false (ownRound (reportSent .flawed true confirm s))
      | .lost => loseContention s
      | .collision => collide s
      | .abandoned n => enterHeld false (List.replicate n 0) s
    else s)

/-- GRANT_SEND: the owner begins its GRANT in its own round, without contention (R31, R42). -/
def execGrantSend (s : State) : Host.Outcome State Fault Refusal :=
  .next
    (match s.frames.round, s.arbiter with
     | some v, .granting r winner _ count =>
       if inService s = true ∧ v.own = true ∧ v.phase = .grantWait
           ∧ (s.line.activity = .nothing ∨ s.line.activity = .stray) then
         drive .frame
           (lineBusy
             (.sending
               { kind := .grant
                 characters := sentCharacters (headerBytes .grant s ++ grantBytes r winner count) })
             (withRound (some { v with phase := .grant }) s))
       else s
     | _, _ => s)

/-- The settlement of this gate's round by its GRANT's report (R128). -/
def settleGrant (confirm : Bool) (s : State) : State :=
  match s.arbiter with
  | .granting r winner _ count =>
    if confirm = true ∧ 1 ≤ count then applyGrant r winner count s else s
  | .idle => s
  | .waiting _ => s
  | .calling _ => s

/-- The GRANT's end mark ends the round, and the arbiter's attempt is over (R42, R119, R128). -/
def grantOver (s : State) : State := arbiterRoundOver (endFrame s)

/-- GRANT_REPORT: granted only when SENT with the confirm slot pulled and a count of at least 1; a GRANT
is never reported LOST or COLLISION (R128, R22). -/
def execGrantReport (r : SendReport) (s : State) : Host.Outcome State Fault Refusal :=
  .next
    (if sentKind s = some .grant then
      match r with
      | .sent confirm => grantOver (settleGrant confirm (reportSent .sent false confirm s))
      | .flawed confirm => grantOver (reportSent .flawed true confirm s)
      | .lost => s
      | .collision => s
      | .abandoned n => enterHeld false (List.replicate n 0) s
    else s)

end Sys2Proof.Machine
end

