-- ==== Sys2Proof/Machine/HeardFrames.lean ====
section
/-! DEFINITION. The meanings of the frames this station hears (R23 to R31, R39, R42, R82, R90, R91, R104
to R107, R168). -/

namespace Sys2Proof.Machine

/-! ### Owners of the bodies (R24) -/

/-- The number check: the station's own number with another serial is a duplicate (R25, R168). -/
def numberCheck (sender : Nat) (serial : BitVec 32) (s : State) : State :=
  if sender = s.startup.settings.number ∧ serial ≠ s.startup.serial then enterDuplicate s else s

/-- A HAIL's owners: the number check; a gate's HAIL at a row; a row's HAIL at a gate (R24, R91, R106). A
HAIL with the station's own number and serial changes nothing at the number check (R168); R91 and R106 name
no exception for it, so it releases as any other. DEDUCED: log entry 28. -/
def ownHail (f : RxFrame 4) (s : State) : State :=
  let t := numberCheck (senderNumber f) (hailSerial f) s
  match s.startup.settings.role with
  | .row => if senderIsGate f then releaseGate (senderNumber f) t else t
  | .gate =>
    if senderIsGate f then t
    else gateChanged (mapAllLines (bringDown fun a => a.row == senderNumber f) t.trucks) t

/-- A VOID's owner: a row's Reservation Unit (R24, R90). -/
def ownVoid (f : RxFrame 2) (s : State) : State :=
  match s.startup.settings.role with
  | .row => releaseVoid (senderNumber f) (voidTicket f) s
  | .gate => s

/-- A TAKEN's effect at the gate it names (R104). -/
def settleTaken (row : Nat) (key : OrderKey) (count : Nat) (s : State) : State :=
  match findOrderLine key.ticket key.line s.trucks with
  | none => s
  | some l =>
    let t := if takenExcess row count l = 0 then s else flagSurplus s
    gateChanged (mapOrderLine key.ticket key.line (takenOnLine row count) s.trucks) t

/-- A LAPSE's effect at the gate it names (R105). -/
def settleLapse (row : Nat) (key : OrderKey) (count : Nat) (s : State) : State :=
  match findOrderLine key.ticket key.line s.trucks with
  | none => s
  | some _ => gateChanged (mapOrderLine key.ticket key.line (lapseOnLine row count) s.trucks) s

/-- A TAKEN or LAPSE is for this gate (R24). -/
def addressed (f : RxFrame 5) (s : State) : Bool :=
  isGate s && (noticeKey f).gate == s.startup.settings.number

/-- A TAKEN's owner (R24, R27). -/
def ownTaken (f : RxFrame 5) (s : State) : State :=
  if addressed f s then settleTaken (senderNumber f) (noticeKey f) (noticeCount f) s else s

/-- A LAPSE's owner (R24, R28). -/
def ownLapse (f : RxFrame 5) (s : State) : State :=
  if addressed f s then settleLapse (senderNumber f) (noticeKey f) (noticeCount f) s else s

/-- An ARRIVE's owner: a gate's Gate Table (R24, R107). -/
def ownArrive (f : RxFrame 2) (s : State) : State :=
  match s.startup.settings.role with
  | .row => s
  | .gate => gateChanged (mapAllLines (arriveOnLine (arriveSpec f)) s.trucks) s

/-! ### Notices -/

/-- HAIL_RECEIVED (R25). -/
def execHailReceived (f : RxFrame 4) (s : State) : Host.Outcome State Fault Refusal :=
  .next (hearKind .hail f (hearNotice f (hailValid f) (ownHail f)) s)

/-- VOID_RECEIVED (R26, R90). -/
def execVoidReceived (f : RxFrame 2) (s : State) : Host.Outcome State Fault Refusal :=
  .next (hearKind .void f (hearNotice f (voidValid f) (ownVoid f)) s)

/-- TAKEN_RECEIVED (R27, R104). -/
def execTakenReceived (f : RxFrame 5) (s : State) : Host.Outcome State Fault Refusal :=
  .next (hearKind .taken f (hearNotice f (countedValid f) (ownTaken f)) s)

/-- LAPSE_RECEIVED (R28, R105). -/
def execLapseReceived (f : RxFrame 5) (s : State) : Host.Outcome State Fault Refusal :=
  .next (hearKind .lapse f (hearNotice f (countedValid f) (ownLapse f)) s)

/-- ARRIVE_RECEIVED (R29, R107). -/
def execArriveReceived (f : RxFrame 2) (s : State) : Host.Outcome State Fault Refusal :=
  .next (hearKind .arrive f (hearNotice f (arriveValid f) (ownArrive f)) s)

/-! ### CALL -/

/-- The round a CALL opens: in a sender that was stopped inside its own CALL it is present already;
otherwise it begins now, after the round whose closing frame this CALL is (R38, R42). -/
def openRound (f : RxFrame 6) (s : State) : State :=
  if followsCall s then s else withRound (some (newRound (senderNumber f) false)) (passRound s)

/-- The round goes on to STRETCH at the CALL's end mark (R39). -/
def toStretch (s : State) : State :=
  lineBusy .nothing
    (withRound (s.frames.round.map fun r => { r with phase := .stretch, part := .none }) s)

/-- The Bid Unit begins a computation and the row stretches (R17, R40, R64). -/
def beginComputing (c : CallFields) (s : State) : State :=
  drive .stretch
    { withRound (s.frames.round.map fun r => { r with part := .computing }) s with
      bid := .computing (newBidRecord c s) }

/-- CALL_RECEIVED: the round begins, and at the end mark it ends, when the flaw slot reads pulled, or goes
on to STRETCH; an eligible row begins to compute (R30, R38, R39, R64). -/
def execCallReceived (f : RxFrame 6) (startedInService : Bool) (s : State) :
    Host.Outcome State Fault Refusal :=
  .next
    (hearKind .call f
      (fun s =>
        if canHear s = true ∨ followsCall s = true then
          let t := openRound f (closingOtherKind (closingStart s))
          let u := hearHeader f (reportHeard f false t)
          if flawSlotReads f s then endRound false u
          else
            let v := toStretch u
            if frameAccepted f s = true ∧ isRow s = true ∧ callValid f = true
                ∧ eligible (callFields f) startedInService v = true then
              beginComputing (callFields f) v
            else v
        else s) s)

/-! ### GRANT -/

/-- The conditions of the confirm decision (R82), for a hold that is present and RECEIVING. -/
def confirms (h : Hold) (f : RxFrame 5) (s : State) : Bool :=
  h.phase == .receiving && !flawSlotReads f s && !flawBeforeSlot f
    && senderIsGate f && senderNumber f == h.order.gate && grantValid f
    && (grantFields f).ticket == h.order.ticket && (grantFields f).line == h.order.line
    && (grantFields f).winner == s.startup.settings.number
    && decide (1 ≤ (grantFields f).count) && !haltAsserted s

/-- The confirm decision, made when the flaw slot is sampled (R82). -/
def decideConfirm (f : RxFrame 5) (s : State) : State :=
  match s.hold with
  | none => s
  | some h =>
    if f.framing = .atFlawSlot then s
    else
      { s with
        hold := some { h with decision := if confirms h f s then .confirmed else .notConfirmed } }

/-- The station pulled the confirm slot (R82); a framing flaw that kept it from the slot does not undo
the decision. -/
def pulledConfirm (s : State) : Bool :=
  match s.hold with
  | none => false
  | some h => h.decision == .confirmed

/-- A RECEIVING hold ends with the round's closing GRANT (R83). -/
def settleHold (f : RxFrame 5) (s : State) : State :=
  match s.hold with
  | none => s
  | some h =>
    match h.phase with
    | .waiting => s
    | .receiving =>
      match h.decision with
      | .confirmed => settleConfirmed h (grantFields f).count s
      | .notConfirmed => endHold s
      | .none => endHold s

/-- GRANT_RECEIVED: the closing frame ends the round and settles a hold (R42, R82, R83). -/
def execGrantReceived (f : RxFrame 5) (s : State) : Host.Outcome State Fault Refusal :=
  .next
    (hearKind .grant f
      (fun s =>
        if canHear s then
          let t := decideConfirm f (closingStart s)
          endFrame (settleHold f (hearHeader f (reportHeard f (pulledConfirm t) t)))
        else s) s)

end Sys2Proof.Machine
end

