-- ==== Sys2Proof/Machine/RoundEvents.lean ====
section
/-! DEFINITION. The meanings of the events of a round (R40 to R43, R71 to R76, R80, R125 to R127). -/

namespace Sys2Proof.Machine

/-- The row's part in the round replaced. -/
def withPart (part : RowPart) (s : State) : State :=
  withRound (s.frames.round.map fun r => { r with part := part }) s

/-- COMPUTATION_COMPLETE: the computation ends no later than the limit, the result is filled in, the row
is READY and releases TW (R40, R67 to R71). -/
def execComputationComplete (s : State) : Host.Outcome State Fault Refusal :=
  .next
    (match s.bid with
     | .computing r =>
       if durationUs r ≤ limitUs s then
         drive .nothing
           { withPart .ready s with
             bid :=
               .ready { r with limit := none }
                 (computeBid r s.startup.settings.ageCap s.startup.settings.number) }
       else s
     | .idle => s
     | .ready _ _ => s
     | .bidding _ _ => s)

/-- STRETCH_LIMIT_EXPIRY: the limit comes no later than the result, the row sits out and releases TW
(R40, R71). -/
def execStretchLimitExpiry (s : State) : Host.Outcome State Fault Refusal :=
  .next
    (match s.bid with
     | .computing r =>
       if limitUs s ≤ durationUs r then drive .nothing { withPart .satOut s with bid := .idle } else s
     | .idle => s
     | .ready _ _ => s
     | .bidding _ _ => s)

/-- A READY Bid Unit becomes BIDDING (R72). -/
def startBidding : BidUnit → BidUnit
  | .ready r res => .bidding r res
  | .idle => .idle
  | .computing r => .computing r
  | .bidding r res => .bidding r res

/-- STRETCH_SLOT_END: TW reads slack, so no row pulls it, this one included; the phase is WINDOW (R17,
R40, R72). -/
def execStretchSlotEnd (s : State) : Host.Outcome State Fault Refusal :=
  .next
    (match s.frames.round with
     | some v =>
       if observes s = true ∧ v.phase = .stretch ∧ s.line.driving ≠ .stretch then
         { withRound (some { v with phase := .window, silence := 0, pulsing := false }) s with
           bid := startBidding s.bid }
       else s
     | none => s)

/-- A row sends the next bit of its word, highest first, and compares it with the level the wire has: with
the bit slack and DW pulled the loss is noted. After a loss, and after 27 bits, it sends no more (R16,
R74). -/
def sendBit (dwPulled : Bool) (word : BidWord) (r : BidRecord) : BidRecord :=
  if r.lost = true ∨ Config.wordBits ≤ r.sent then r
  else
    { r with
      sent := r.sent + 1
      lost := dwPulled && word.getLsbD (Config.wordBits - 1 - r.sent) }

/-- A pulse of the window at this station: a BIDDING row sends a bit of its word, and from the bit it loses
it drives nothing; the owning gate drives its pulses (R16, R41, R74). -/
def windowPulse (dwPulled : Bool) (v : RoundView) (s : State) : State :=
  if inService s then
    match s.bid with
    | .bidding r res =>
      let told := sendBit dwPulled res.word r
      drive (if told.lost then .nothing else .bidWord) { s with bid := .bidding told res }
    | .idle => if v.own then drive .windowPulses s else s
    | .computing _ => s
    | .ready _ _ => s
  else s

/-- BID_WINDOW_START: the first pulse begins the window, and every pulse sets the silence count to 0 (R16,
R41). The command stands for each pulse of another station's window, with the level DW has at it (log
entry 27). -/
def execBidWindowStart (s : State) (dwPulled : Bool := false) : Host.Outcome State Fault Refusal :=
  .next
    (match s.frames.round with
     | some v =>
       if observes s = true ∧ v.phase = .window then
         windowPulse dwPulled v (withRound (some { v with silence := 0, pulsing := true }) s)
       else s
     | none => s)

/-- The reservation a bid's win is for (R75). -/
def orderOfCall (c : CallFields) : Reservation :=
  { gate := c.gate, ticket := c.ticket, line := c.line, bay := c.bay }

/-- The Bid Unit at the window's close: a row that noted no loss, and whose word is no higher at any bit
than the word the wire kept, has won (R74, R75, R79). -/
def closeBid (word : BidWord) (s : State) : State :=
  match s.bid with
  | .bidding r res =>
    let t := withPart .none { s with bid := .idle }
    if r.lost || rowLost res.word word then t
    else createHold (orderOfCall r.call) (res.selection.map fun a => a.tag) t
  | .idle => s
  | .computing _ => s
  | .ready _ _ => s

/-- The owner's Call Arbiter at the close, on no bid (R125, R126). -/
def closeNoBid (s : State) : State :=
  match s.arbiter with
  | .calling r => emptyRound r s
  | .idle => s
  | .waiting _ => s
  | .granting _ _ _ _ => s

/-- The owner's Call Arbiter at the close, on a bid (R125, R127). -/
def closeWithBid (word : BidWord) (s : State) : State :=
  match s.arbiter with
  | .calling r =>
    { s with
      arbiter := .granting r (wordStation word) (wordOffered word) (grantedCount r (wordOffered word) s) }
  | .idle => s
  | .waiting _ => s
  | .granting _ _ _ _ => s

/-- The phase becomes GRANT WAIT with the silence count at 0 (R41). -/
def toGrantWait (s : State) : State :=
  drive .nothing
    (withRound (s.frames.round.map fun r => { r with phase := .grantWait, silence := 0, pulsing := false }) s)

/-- BID_WINDOW_CLOSE: the word is classed, and the round ends or goes on to GRANT WAIT (R16, R32, R41,
R75, R125). -/
def execBidWindowClose (word : BidWord) (dwPulled : Bool) (s : State) : Host.Outcome State Fault Refusal :=
  .next
    (match s.frames.round with
     | some v =>
       if observes s = true ∧ v.phase = .window ∧ v.pulsing = true then
         let t := closeBid word s
         match classOfWord word with
         | .noBid => endRound dwPulled (if v.own then closeNoBid t else t)
         | .flawedWord => endRound dwPulled t
         | .bid => toGrantWait (if v.own then closeWithBid word t else t)
       else s
     | none => s)

/-- WINDOW_SILENCE_LIMIT: the round is abandoned in the WINDOW phase (R41, R43). -/
def execWindowSilenceLimit (dwPulled : Bool) (s : State) : Host.Outcome State Fault Refusal :=
  .next
    (if observes s = true ∧ roundPhase s = some .window then abandonRound dwPulled s else s)

/-- GRANT_WAIT_SILENCE_LIMIT: the round is abandoned in GRANT WAIT (R42, R43). -/
def execGrantWaitSilenceLimit (dwPulled : Bool) (s : State) : Host.Outcome State Fault Refusal :=
  .next
    (if observes s = true ∧ roundPhase s = some .grantWait then abandonRound dwPulled s else s)

/-- The grant wait timer of a WAITING hold runs. -/
def holdWaits (s : State) : Bool :=
  match s.hold with
  | none => false
  | some h => h.phase == .waiting && h.grantWait.isSome

/-- GRANT_WAIT_EXPIRY: the hold ends and its packs return to FREE; the round view stays (R80). -/
def execGrantWaitExpiry (s : State) : Host.Outcome State Fault Refusal :=
  .next (if holdWaits s then endHold s else s)

end Sys2Proof.Machine
end

