-- ==== Sys2Proof/Machine/TimeEvents.lean ====
section
/-! DEFINITION. The meanings of the clock's and the Signal Unit's events (chapters 8 and 9). -/

namespace Sys2Proof.Machine

/-- The second counter after so many further whole seconds of the time base, before it is held to 59; a
full second already counted in the fraction is one of them (R131). -/
def secondsReached (elapsed : Nat) (c : YardClock) : Nat :=
  c.second + c.fraction / secondUnits + elapsed

/-- MINUTE_STEP: after so many further whole seconds the second counter is tested against 60. Below it the
counter goes on and no step is due, as after a jump at the same moment (R131, R136). The clock runs in
every state from the moment the reset ends (R130). -/
def execMinuteStep (s : State) (elapsed : Nat := 0) : Host.Outcome State Fault Refusal :=
  .next
    (if s.startup.resetHeld then s
    else if secondsReached elapsed s.clock < 60 then
      { s with clock := { s.clock with second := s.clock.second + elapsed } }
    else minuteStep s)

/-- Input line n replaced by its image. -/
def mapInput (n : Nat) (f : InputLine → InputLine) (s : State) : State :=
  { s with
    signal :=
      { s.signal with inputs := vmapIdx (fun i l => if i = n then f l else l) s.signal.inputs } }

/-- A raw level as the filter takes it: equal to the filtered level the timer stops; come to differ it
starts (R141). -/
def newRaw (units : Nat) (raw : Bool) (l : InputLine) : InputLine :=
  if raw = l.filtered then { l with raw := raw, timer := none }
  else if raw = l.raw then l
  else { l with raw := raw, timer := some units }

/-- INPUT_CHANGE: a field line's level (R141); a line that is no input is not read (R140). -/
def execInputChange (line : Fin 8) (high : Bool) (s : State) : Host.Outcome State Fault Refusal :=
  .next
    (if observes s = true ∧ isInputFunction (functionOfLine s line) = true then
      mapInput line
        (newRaw (filterUnits s.startup.settings) (levelThrough s.startup.settings line high)) s
    else s)

/-- The filter timer of input line n runs with its raw level differing. -/
def filterDue (n : Nat) (s : State) : Bool :=
  match s.signal.inputs.toList[n]? with
  | none => false
  | some l => l.timer.isSome && l.raw != l.filtered

/-- What follows a filtered change, by the level halt had before it (R142, R145). -/
def followHalt (before : Bool) (s : State) : State :=
  if haltAsserted s = before then s
  else if haltAsserted s then rechoose (haltOutputs s)
  else rechoose (releaseOutputs s)

/-- FILTER_EXPIRY: the filtered level takes the raw level (R141), one line a command. Two HALT IN lines that
change one way at the same moment make one change of halt in either order (R142). Where one asserts as the
only other releases, the order of their commands decides: release first makes two changes of halt, assertion
first none. DESIGN CHOICE: log entry 31. -/
def execFilterExpiry (line : Fin 8) (s : State) : Host.Outcome State Fault Refusal :=
  .next
    (if observes s = true ∧ isInputFunction (functionOfLine s line) = true ∧ filterDue line s = true then
      followHalt (haltAsserted s) (mapInput line (fun l => { l with filtered := l.raw, timer := none }) s)
    else s)

/-- The lamp on field line n shows a pattern with a cycle. -/
def lampCycles (n : Nat) (s : State) : Bool :=
  match s.signal.lamps.toList[n]? with
  | none => false
  | some l => hasCycle l.current

/-- CYCLE_END: the staged pattern becomes current or the cycle starts again (R144), on every line of the
same function, which are in step (R140); READY starts its next cycle (R149). -/
def execCycleEnd (output : CycleOutput) (s : State) : Host.Outcome State Fault Refusal :=
  .next
    (match output with
     | .fieldLine n =>
       if observes s = true ∧ isLampFunction (functionOfLine s n) = true ∧ lampCycles n s = true then
         mapLamps (fun g => g == functionOfLine s n) endCycle s
       else s
     | .ready =>
       if hasCycle (readyPattern s) then { s with signal := { s.signal with readyPosition := 0 } } else s)

/-- A timer after so much further time, in half microseconds: stopped once it has run out. -/
def runDown (elapsed : Nat) (t : Timer) : Timer :=
  match t with
  | none => none
  | some left => if left ≤ elapsed then none else some (left - elapsed)

/-- HORN_EXPIRY: after so much further time, in half microseconds, the horn timer is tested. Run out, it
leaves the horn SILENT; one that a request of the same moment has started again runs on (R148). -/
def execHornExpiry (s : State) (elapsed : Nat := 0) : Host.Outcome State Fault Refusal :=
  .next { s with signal := { s.signal with horn := runDown elapsed s.signal.horn } }

end Sys2Proof.Machine
end

