-- ==== Sys2Proof/Machine/PortEvents.lean ====
section
/-! DEFINITION. The meanings of the Terminal Port's own commands (chapter 10). -/

namespace Sys2Proof.Machine

/-- TERMINAL_CHARACTER: a good character (R152). -/
def execTerminalCharacter (c : TermChar) (s : State) : Host.Outcome State Fault Refusal :=
  .next (if receives s = true ∧ terminalFlaw (portParity s) c = false then takeCharacter c s else s)

/-- FLAWED_CHARACTER: a parity or framing error discards the message in assembly and sets FLAW; with the
assembly buffer empty, unmarked characters are ignored as R152 gives (R153). -/
def execFlawedCharacter (c : TermChar) (s : State) : Host.Outcome State Fault Refusal :=
  .next
    (if receives s = true ∧ terminalFlaw (portParity s) c = true then
      flagFlaw { s with port := { s.port with assembly := [] } }
    else s)

/-- BREAK: both buffers and the transmit queue are emptied and every flag is cleared. A character part-way
out on the send wire is finished: finishedAtBreak of the state before (R160). -/
def execBreak (s : State) : Host.Outcome State Fault Refusal :=
  .next
    (if receives s then
      { s with
        port := { assembly := [], waiting := none, transmit := [], flags := clearFlags, breakHeld := true } }
    else s)

/-- RECEIVE_WIRE_HIGH_AFTER_BREAK: the next low edge is a start bit again (R160). -/
def execReceiveWireHighAfterBreak (s : State) : Host.Outcome State Fault Refusal :=
  .next { s with port := { s.port with breakHeld := false } }

/-- MESSAGE_SENT: the message at the head of the transmit queue leaves it (R156). -/
def execMessageSent (s : State) : Host.Outcome State Fault Refusal :=
  .next
    (if portRuns s then { s with port := { s.port with transmit := s.port.transmit.tail } } else s)

/-- UNKNOWN_MESSAGE: the reply has code 80h and carries the code received after the result code (R155,
R162). -/
def execUnknownMessage (code : Byte) (s : State) : Host.Outcome State Fault Refusal :=
  .next
    (if codeKnown code then s
     else
       let t := arriveMessage [code] s
       if t.port.waiting = some [code] ∧ canProcess t = true then
         transmit [0x80, resultByte .unknownMessage, code] (clearWaiting t)
       else t)

/-- The role and station characters of STATUS; FFh each in CONFIG FAULT (R158). -/
def identityBytes (s : State) : List Byte :=
  if s.startup.station = .configFault then [0xFF, 0xFF]
  else [roleByte s.startup.settings.role, byte s.startup.settings.number]

/-- The data of the STATUS reply (R158, R162). -/
def statusData (s : State) : List Byte :=
  identityBytes s ++ bytes32 s.startup.serial
    ++ [stationByte s.startup.station, conditionByte s.line.condition, byte (bit s.clock.isSet)]
    ++ bytes16 s.clock.minute
    ++ [levelsByte s, fieldLinesByte s, flagsByte s.port.flags]

/-- STATUS: the reply is built, and the flags it carries are cleared in the same step (R157, R158). -/
def answerStatus (s : State) : State := withFlags clearFlags (reply 0x40 .ok (statusData s) s)

/-- STATUS. -/
def execStatus (s : State) : Host.Outcome State Fault Refusal :=
  .next (processMessage statusMessage 0x40 answerStatus s)

end Sys2Proof.Machine
end

