-- ==== Sys2Proof/Machine/LoaderMessages.lean ====
section
/-! DEFINITION. The meanings of the loader's messages at a row (chapters 3 and 5). -/

namespace Sys2Proof.Machine

/-! ### PUT (R51, R52) -/

/-- PUT's fields are out of range (R51). -/
def putOutOfRange (tag : BitVec 32) (family size grade stack : Byte) (s : State) : Bool :=
  tag.toNat == 0 || decide (63 < family.toNat) || decide (15 < size.toNat) || decide (7 < grade.toNat)
    || decide (s.startup.settings.stackLimit ≤ stack.toNat)

/-- PUT at the Stock Table (R51, R52). -/
def answerPut (tag : BitVec 32) (family size grade stack : Byte) (s : State) : State :=
  if putOutOfRange tag family size grade stack s then reply 0x21 .range [] s
  else if tagPresent tag.toNat s.stock then reply 0x21 .duplicate [] s
  else if s.startup.settings.tierLimit ≤ (stackAt s.stock stack.toNat).length then reply 0x21 .full [] s
  else
    let spec : PackSpec := { family := family.toNat, size := size.toNat, grade := grade.toNat }
    let t := withStock (pushPack stack.toNat (newPack tag.toNat spec) s.stock) s
    reply 0x21 .ok [stack, byte (stackAt t.stock stack.toNat).length] (giveNotice (.arrive spec) t)

/-- PUT. -/
def execPut (tag : BitVec 32) (family size grade stack : Byte) (s : State) :
    Host.Outcome State Fault Refusal :=
  .next
    (processMessage (putMessage tag family size grade stack) 0x21
      (answerPut tag family size grade stack) s)

/-! ### TAKE (R53, R54) -/

/-- What an accepted TAKE does beyond the table, by the former state (R54, R87). -/
def takeEffect (tag : Nat) (former : PackState) (s : State) : State :=
  match former with
  | .free => flagStrayTake s
  | .held => s
  | .reserved o => giveNotice (.taken (keyOf o) 1) (removeEntry tag s)
  | .qhold => s

/-- TAKE at the Stock Table (R53). -/
def answerTake (tag : BitVec 32) (s : State) : State :=
  match stackOf tag.toNat s.stock, findPack tag.toNat s.stock with
  | some n, some p =>
    if onTop tag.toNat n s.stock = false then reply 0x22 .buried [] s
    else if p.state = .held then reply 0x22 .busy [] s
    else
      reply 0x22 .ok [byte n, packStateByte p.state]
        (takeEffect tag.toNat p.state (withStock (popPack n s.stock) s))
  | _, _ => reply 0x22 .unknownPack [] s

/-- TAKE. -/
def execTake (tag : BitVec 32) (s : State) : Host.Outcome State Fault Refusal :=
  .next (processMessage (takeMessage tag) 0x22 (answerTake tag) s)

/-! ### SHIFT (R55, R56) -/

/-- What a SHIFT to another stack does beyond the table (R56, R89). -/
def shiftEffect (tag stack : Nat) (state : PackState) (s : State) : State :=
  match state with
  | .reserved _ => moveEntry tag stack s
  | .free => s
  | .held => s
  | .qhold => s

/-- SHIFT at the Stock Table (R55, R56). -/
def answerShift (tag : BitVec 32) (stack : Byte) (s : State) : State :=
  match stackOf tag.toNat s.stock, findPack tag.toNat s.stock with
  | some n, some p =>
    if s.startup.settings.stackLimit ≤ stack.toNat then reply 0x23 .range [] s
    else if onTop tag.toNat n s.stock = false then reply 0x23 .buried [] s
    else if p.state = .held then reply 0x23 .busy [] s
    else if stack.toNat = n then
      reply 0x23 .ok [stack, byte (stackAt s.stock n).length] s
    else if s.startup.settings.tierLimit ≤ (stackAt s.stock stack.toNat).length then reply 0x23 .full [] s
    else
      let t := withStock (pushPack stack.toNat p (popPack n s.stock)) s
      reply 0x23 .ok [stack, byte (stackAt t.stock stack.toNat).length]
        (shiftEffect tag.toNat stack.toNat p.state t)
  | _, _ => reply 0x23 .unknownPack [] s

/-- SHIFT. -/
def execShift (tag : BitVec 32) (stack : Byte) (s : State) : Host.Outcome State Fault Refusal :=
  .next (processMessage (shiftMessage tag stack) 0x23 (answerShift tag stack) s)

/-! ### HOLD PACK and FREE PACK (R57, R58) -/

/-- HOLD PACK's effect by the pack's state (R57, R88). -/
def holdEffect (tag : Nat) (former : PackState) (s : State) : State :=
  match former with
  | .free => withStock (setPackState tag .qhold s.stock) s
  | .held => s
  | .reserved o =>
    giveNotice (.lapse (keyOf o) 1) (removeEntry tag (withStock (setPackState tag .qhold s.stock) s))
  | .qhold => s

/-- HOLD PACK at the Stock Table (R57). -/
def answerHoldPack (tag : BitVec 32) (s : State) : State :=
  match findPack tag.toNat s.stock with
  | none => reply 0x24 .unknownPack [] s
  | some p =>
    if p.state = .held then reply 0x24 .busy [] s
    else reply 0x24 .ok [packStateByte p.state] (holdEffect tag.toNat p.state s)

/-- HOLD PACK. -/
def execHoldPack (tag : BitVec 32) (s : State) : Host.Outcome State Fault Refusal :=
  .next (processMessage (holdPackMessage tag) 0x24 (answerHoldPack tag) s)

/-- FREE PACK at the Stock Table (R58). -/
def answerFreePack (tag : BitVec 32) (s : State) : State :=
  match findPack tag.toNat s.stock with
  | none => reply 0x25 .unknownPack [] s
  | some p =>
    if p.state = .qhold then reply 0x25 .ok [] (withStock (setPackState tag.toNat .free s.stock) s)
    else reply 0x25 .state [] s

/-- FREE PACK. -/
def execFreePack (tag : BitVec 32) (s : State) : Host.Outcome State Fault Refusal :=
  .next (processMessage (freePackMessage tag) 0x25 (answerFreePack tag) s)

/-! ### LIST STACK and LIST PICKS (R59, R93) -/

/-- One entry of the LIST STACK reply (R59, R162). -/
def stackEntryBytes (p : Pack) : List Byte :=
  tagBytes p.tag ++
    [packStateByte p.state, byte p.spec.family, byte p.spec.size, byte p.spec.grade, byte p.age]

/-- LIST STACK at the Stock Table (R59). -/
def answerListStack (stack : Byte) (s : State) : State :=
  if s.startup.settings.stackLimit ≤ stack.toNat then reply 0x26 .range [] s
  else
    reply 0x26 .ok
      (byte (stackAt s.stock stack.toNat).length :: (stackAt s.stock stack.toNat).flatMap stackEntryBytes) s

/-- LIST STACK. -/
def execListStack (stack : Byte) (s : State) : Host.Outcome State Fault Refusal :=
  .next (processMessage (listStackMessage stack) 0x26 (answerListStack stack) s)

/-- One entry of the LIST PICKS reply (R93, R162). -/
def pickEntryBytes (e : PickEntry) : List Byte :=
  tagBytes e.tag ++ [byte e.stack] ++ ticketBytes e.order.ticket
    ++ [byte e.order.line, byte e.order.bay, byte (bit e.overdue)]

/-- LIST PICKS at the Reservation Unit (R93). -/
def answerListPicks (s : State) : State :=
  reply 0x27 .ok (byte s.picks.length :: (s.picks.take 8).flatMap pickEntryBytes) s

/-- LIST PICKS. -/
def execListPicks (s : State) : Host.Outcome State Fault Refusal :=
  .next (processMessage listPicksMessage 0x27 answerListPicks s)

end Sys2Proof.Machine
end

