-- ==== Sys2Proof/Machine/ClerkMessages.lean ====
section
/-! DEFINITION. The meanings of the clerk's messages at a gate (chapter 6). -/

namespace Sys2Proof.Machine

/-- One line's fields are out of range (R110). -/
def orderOutOfRange (o : OrderFields) : Bool :=
  decide (63 < o.family.toNat) || decide (15 < o.size.toNat) || decide (7 < o.grade.toNat)
    || decide (1 < o.upgrade.toNat) || o.wanted.toNat == 0 || decide (99 < o.wanted.toNat)

/-- TRUCK IN's fields are out of range (R110). -/
def truckInOutOfRange (ticket : BitVec 16) (bay count : Byte) (lines : List OrderFields) : Bool :=
  ticket.toNat == 0 || decide (8 < bay.toNat) || count.toNat == 0 || decide (4 < count.toNat)
    || lines.any orderOutOfRange

/-- A truck other than the ticket's stands at the bay (R110, R111). -/
def bayTaken (ticket bay : Nat) (trucks : List Truck) : Bool :=
  bay != 0 && trucks.any fun t => t.bay == bay && t.ticket != ticket

/-- The truck a TRUCK IN enters (R110). -/
def newTruck (ticket bay : Nat) (arrival : Minute) (lines : List OrderFields) : Truck where
  ticket := ticket
  bay := bay
  arrival := arrival
  lines := lines.map newOrderLine

/-- TRUCK IN at the Gate Table (R110). -/
def answerTruckIn (ticket : BitVec 16) (bay count : Byte) (lines : List OrderFields) (s : State) :
    State :=
  if truckInOutOfRange ticket bay count lines then reply 0x31 .range [] s
  else if (findTruck ticket.toNat s.trucks).isSome then reply 0x31 .duplicate [] s
  else if Config.truckLimit ≤ s.trucks.length then reply 0x31 .full [] s
  else if bayTaken ticket.toNat bay.toNat s.trucks then reply 0x31 .bayTaken [] s
  else
    gateChanged (s.trucks ++ [newTruck ticket.toNat bay.toNat s.clock.minute lines])
      (reply 0x31 .ok [] s)

/-- TRUCK IN. -/
def execTruckIn (ticket : BitVec 16) (bay count : Byte) (lines : List OrderFields) (s : State) :
    Host.Outcome State Fault Refusal :=
  .next
    (processMessage (truckInMessage ticket bay count lines) 0x31 (answerTruckIn ticket bay count lines) s)

/-- A truck moved to a bay, its empty-round counts at 0 (R111). -/
def moveTruck (ticket bay : Nat) (trucks : List Truck) : List Truck :=
  trucks.map fun t =>
    if t.ticket = ticket then
      { t with bay := bay, lines := t.lines.map fun l => { l with emptyRounds := 0 } }
    else t

/-- TRUCK BAY at the Gate Table (R111). -/
def answerTruckBay (ticket : BitVec 16) (bay : Byte) (s : State) : State :=
  if (findTruck ticket.toNat s.trucks).isNone then reply 0x32 .unknownTicket [] s
  else if 8 < bay.toNat then reply 0x32 .range [] s
  else if bayTaken ticket.toNat bay.toNat s.trucks then reply 0x32 .bayTaken [] s
  else gateChanged (moveTruck ticket.toNat bay.toNat s.trucks) (reply 0x32 .ok [] s)

/-- TRUCK BAY. -/
def execTruckBay (ticket : BitVec 16) (bay : Byte) (s : State) : Host.Outcome State Fault Refusal :=
  .next (processMessage (truckBayMessage ticket bay) 0x32 (answerTruckBay ticket bay) s)

/-- Some line of the truck holds an open award record (R112). -/
def holdsAwards (t : Truck) : Bool := t.lines.any fun l => l.awards.any fun a => untaken a != 0

/-- TRUCK OUT at the Gate Table (R112). -/
def answerTruckOut (ticket : BitVec 16) (s : State) : State :=
  match findTruck ticket.toNat s.trucks with
  | none => reply 0x33 .unknownTicket [] s
  | some t =>
    let u := if holdsAwards t then giveNotice (.void ticket.toNat) s else s
    gateChanged (s.trucks.filter fun t => t.ticket != ticket.toNat) (reply 0x33 .ok [] u)

/-- TRUCK OUT. -/
def execTruckOut (ticket : BitVec 16) (s : State) : Host.Outcome State Fault Refusal :=
  .next (processMessage (truckOutMessage ticket) 0x33 (answerTruckOut ticket) s)

/-- The encoding of a truck state (R162). -/
def truckStateByte : TruckState → Byte
  | .parked => 0
  | .active => 1
  | .loaded => 2

/-- The encoding of a line state (R162). -/
def lineStateByte : LineState → Byte
  | .openLine => 0
  | .short => 1
  | .covered => 2
  | .done => 3

/-- One line of the LIST TRUCK reply (R113, R162). -/
def lineEntryBytes (l : OrderLine) : List Byte :=
  [byte l.wanted, byte (lineGranted l), byte (lineTaken l), lineStateByte (lineState l)]

/-- The data of the LIST TRUCK reply (R113, R162). -/
def truckBytes (t : Truck) : List Byte :=
  ticketBytes t.ticket ++ [byte t.bay] ++ bytes16 t.arrival
    ++ [truckStateByte (truckState t), byte t.lines.length] ++ t.lines.flatMap lineEntryBytes

/-- LIST TRUCK at the Gate Table (R113). -/
def answerListTruck (ticket : BitVec 16) (s : State) : State :=
  match findTruck ticket.toNat s.trucks with
  | none => reply 0x34 .unknownTicket [] s
  | some t => reply 0x34 .ok (truckBytes t) s

/-- LIST TRUCK. -/
def execListTruck (ticket : BitVec 16) (s : State) : Host.Outcome State Fault Refusal :=
  .next (processMessage (listTruckMessage ticket) 0x34 (answerListTruck ticket) s)

end Sys2Proof.Machine
end

