-- ==== Sys2Proof/Machine/Dispatch.lean ====
section
/-! DEFINITION. One arm per command of the opcode table. -/

namespace Sys2Proof.Machine

def exec (i : Instr) (s : State) : Host.Outcome State Fault Refusal :=
  match i with
  | .fullReset => Sys2Proof.Machine.execFullReset s
  | .resetRelease => Sys2Proof.Machine.execResetRelease s
  | .configInterruption => Sys2Proof.Machine.execConfigInterruption s
  | .configReadComplete block levels => Sys2Proof.Machine.execConfigReadComplete block levels s
  | .listenTimerExpiry => Sys2Proof.Machine.execListenTimerExpiry s
  | .quietPeriod elapsed => Sys2Proof.Machine.execQuietPeriod s elapsed
  | .frameStart elapsed dwPulled => Sys2Proof.Machine.execFrameStart elapsed dwPulled s
  | .contentionLoss => Sys2Proof.Machine.execContentionLoss s
  | .bodyCollision => Sys2Proof.Machine.execBodyCollision s
  | .noticeReport r => Sys2Proof.Machine.execNoticeReport r s
  | .callReport r => Sys2Proof.Machine.execCallReport r s
  | .grantSend => Sys2Proof.Machine.execGrantSend s
  | .grantReport r => Sys2Proof.Machine.execGrantReport r s
  | .hailReceived f => Sys2Proof.Machine.execHailReceived f s
  | .voidReceived f => Sys2Proof.Machine.execVoidReceived f s
  | .takenReceived f => Sys2Proof.Machine.execTakenReceived f s
  | .lapseReceived f => Sys2Proof.Machine.execLapseReceived f s
  | .arriveReceived f => Sys2Proof.Machine.execArriveReceived f s
  | .callReceived f startedInService => Sys2Proof.Machine.execCallReceived f startedInService s
  | .grantReceived f => Sys2Proof.Machine.execGrantReceived f s
  | .unfinishedFrame sampled dwPulled => Sys2Proof.Machine.execUnfinishedFrame sampled dwPulled s
  | .strayActivity twPulled dwPulled => Sys2Proof.Machine.execStrayActivity twPulled dwPulled s
  | .strayActivityEnd => Sys2Proof.Machine.execStrayActivityEnd s
  | .endMarkOutsideFrame => Sys2Proof.Machine.execEndMarkOutsideFrame s
  | .heldEntry sampled frameBegun => Sys2Proof.Machine.execHeldEntry sampled s frameBegun
  | .heldEnd dwPulled => Sys2Proof.Machine.execHeldEnd dwPulled s
  | .stuckEntry => Sys2Proof.Machine.execStuckEntry s
  | .recoveryPulse dwPulled => Sys2Proof.Machine.execRecoveryPulse dwPulled s
  | .backOffExpiry => Sys2Proof.Machine.execBackOffExpiry s
  | .computationComplete => Sys2Proof.Machine.execComputationComplete s
  | .stretchLimitExpiry => Sys2Proof.Machine.execStretchLimitExpiry s
  | .stretchSlotEnd => Sys2Proof.Machine.execStretchSlotEnd s
  | .bidWindowStart dwPulled => Sys2Proof.Machine.execBidWindowStart s dwPulled
  | .bidWindowClose word dwPulled => Sys2Proof.Machine.execBidWindowClose word dwPulled s
  | .windowSilenceLimit dwPulled => Sys2Proof.Machine.execWindowSilenceLimit dwPulled s
  | .grantWaitSilenceLimit dwPulled => Sys2Proof.Machine.execGrantWaitSilenceLimit dwPulled s
  | .grantWaitExpiry => Sys2Proof.Machine.execGrantWaitExpiry s
  | .minuteStep elapsed => Sys2Proof.Machine.execMinuteStep s elapsed
  | .inputChange line high => Sys2Proof.Machine.execInputChange line high s
  | .filterExpiry line => Sys2Proof.Machine.execFilterExpiry line s
  | .cycleEnd output => Sys2Proof.Machine.execCycleEnd output s
  | .hornExpiry elapsed => Sys2Proof.Machine.execHornExpiry s elapsed
  | .terminalCharacter c => Sys2Proof.Machine.execTerminalCharacter c s
  | .flawedCharacter c => Sys2Proof.Machine.execFlawedCharacter c s
  | .breakCondition => Sys2Proof.Machine.execBreak s
  | .messageSent => Sys2Proof.Machine.execMessageSent s
  | .unknownMessage code => Sys2Proof.Machine.execUnknownMessage code s
  | .status => Sys2Proof.Machine.execStatus s
  | .put tag family size grade stack => Sys2Proof.Machine.execPut tag family size grade stack s
  | .take tag => Sys2Proof.Machine.execTake tag s
  | .shift tag stack => Sys2Proof.Machine.execShift tag stack s
  | .holdPack tag => Sys2Proof.Machine.execHoldPack tag s
  | .freePack tag => Sys2Proof.Machine.execFreePack tag s
  | .listStack stack => Sys2Proof.Machine.execListStack stack s
  | .listPicks => Sys2Proof.Machine.execListPicks s
  | .truckIn ticket bay count lines => Sys2Proof.Machine.execTruckIn ticket bay count lines s
  | .truckBay ticket bay => Sys2Proof.Machine.execTruckBay ticket bay s
  | .truckOut ticket => Sys2Proof.Machine.execTruckOut ticket s
  | .listTruck ticket => Sys2Proof.Machine.execListTruck ticket s
  | .receiveWireHighAfterBreak => Sys2Proof.Machine.execReceiveWireHighAfterBreak s

end Sys2Proof.Machine
end

