-- ==== Sys2Proof/Machine/Tick.lean ====
section
/-! DEFINITION. One bt in which nothing is commanded: every count and timer of the station moves by its
rule, the wires staying as they are. No event of the opcode table happens here: a count that has reached
its limit and a timer that has run down wait there for their command. DESIGN CHOICE: log entry 2. -/

namespace Sys2Proof.Machine

/-- A running timer goes down and stays at 0; a stopped one stays stopped. -/
def countDown (n : Nat) (t : Timer) : Timer := t.map fun left => left - n

/-- The position in a pattern's cycle after so many half microseconds, not beyond its end. -/
def advance (p : Pattern) (n position : Nat) : Nat := min (cycleMs p * msUnits) (position + n)

/-- The idle count after one bt of wires as they are: outside frames and rounds on a QUIET line up to 255,
and from the start of observation up to the quiet period of 96 bt (R10, R18). -/
def tickIdle (s : State) : Nat :=
  if observes s = true ∧ s.line.condition = .quiet ∧ s.line.activity = .nothing
      ∧ s.frames.round = none then
    min Config.idleLimit (s.line.idleCount + 1)
  else if observes s = true ∧ s.line.condition = .busy ∧ s.line.activity = .observing .slack
      ∧ s.line.idleCount < Config.quietPeriod then
    s.line.idleCount + 1
  else s.line.idleCount

/-- The count of R20 runs: DW is pulled with TW slack and no frame is followed. -/
def countsStuck (s : State) : Bool :=
  s.line.activity == .dwPulled || s.line.activity == .startMark
    || s.line.activity == .observing .dwPulled

/-- The Line Interface's counts (R10, R20, R21). -/
def tickLine (s : State) : State :=
  { s with
    line :=
      { s.line with
        idleCount := tickIdle s
        stuckCount :=
          if countsStuck s then min Config.stuckLimit (s.line.stuckCount + 1) else s.line.stuckCount
        backOff := countDown (btUnits s) s.line.backOff } }

/-- A round's silence count in a bt of slack TW: in WINDOW, but at the owner that drives the pulses itself,
and in GRANT WAIT, but during a stray pull of TW (R41, R42). -/
def tickSilence (line : LineInterface) (v : RoundView) : RoundView :=
  match v.phase with
  | .window =>
    if line.driving = .windowPulses then v
    else { v with silence := min Config.windowSilence (v.silence + 1) }
  | .grantWait =>
    if line.activity = .stray then v
    else { v with silence := min Config.grantWaitSilence (v.silence + 1) }
  | .call => v
  | .stretch => v
  | .grant => v

/-- The Bid Unit's limit timer (R63). -/
def tickBid (n : Nat) : BidUnit → BidUnit
  | .computing r => .computing { r with limit := countDown n r.limit }
  | .idle => .idle
  | .ready r res => .ready r res
  | .bidding r res => .bidding r res

/-- The second counter and its fraction (R131). At 59 full seconds the fraction stops at a whole second:
the minute step is due. -/
def tickClock (n : Nat) (c : YardClock) : YardClock :=
  if c.fraction + n < secondUnits then { c with fraction := c.fraction + n }
  else if c.second < 59 then { c with second := c.second + 1, fraction := c.fraction + n - secondUnits }
  else { c with fraction := secondUnits }

/-- The Signal Unit's timers and positions (R141, R143, R148, R149). -/
def tickSignal (n : Nat) (ready : Pattern) (g : SignalUnit) : SignalUnit where
  inputs := vmap (fun i => { i with timer := countDown n i.timer }) g.inputs
  lamps := vmap (fun l => { l with position := advance l.current n l.position }) g.lamps
  horn := countDown n g.horn
  readyPosition := advance ready n g.readyPosition

/-- One bt passes. While the RESET pin is held nothing moves (R163). -/
def tick (s : State) : State :=
  if s.startup.resetHeld then s
  else
    { tickLine s with
      frames := { s.frames with round := s.frames.round.map (tickSilence s.line) }
      bid := tickBid (btUnits s) s.bid
      hold := s.hold.map fun h => { h with grantWait := countDown 1 h.grantWait }
      clock := tickClock (btUnits s) s.clock
      signal := tickSignal (btUnits s) (readyPattern s) s.signal
      startup := { s.startup with listenTimer := countDown (btUnits s) s.startup.listenTimer } }

end Sys2Proof.Machine
end

