-- ==== Sys2Proof/WellFormed.lean ====
section
/-! DEFINITION. Which commands are well formed: the operands are ones the step of that row can have. The
meanings are total and do not need it. -/

namespace Sys2Proof

/-- A frame's character 1 is the row's kind code, or no kind's code at all. A receiver that reads such a
code places a body of 6 characters (R7), so a frame with a shorter body ends before its flaw slot. -/
def frameOfKind {n : Nat} (kind : Machine.FrameKind) (f : RxFrame n) : Bool :=
  match Machine.kindOfCode (Machine.dataBits f.kindChar) with
  | none => n == Machine.longestBody || f.framing == .atFlawSlot
  | some k => k == kind

/-- At most the characters of the longest frame were sampled (R6). -/
def sampledFits (n : Nat) : Bool := decide (n ≤ 11)

/-- A report a notice or CALL can have (R22). -/
def reportFits : SendReport → Bool
  | .sent _ => true
  | .flawed _ => true
  | .lost => true
  | .collision => true
  | .abandoned n => sampledFits n

/-- A report a GRANT can have: never LOST, never COLLISION (R22). -/
def grantReportFits : SendReport → Bool
  | .sent _ => true
  | .flawed _ => true
  | .lost => false
  | .collision => false
  | .abandoned n => sampledFits n

/-- TRUCK IN carries as many lines as its line count says, and none for a count outside 1 to 4 (R152). -/
def linesFit (count : Byte) (lines : List OrderFields) : Bool :=
  if 1 ≤ count.toNat ∧ count.toNat ≤ 4 then lines.length == count.toNat else lines.isEmpty

/-- The command is well formed. -/
def Instr.wellFormed : Instr → Bool
  | .fullReset => true
  | .resetRelease => true
  | .configInterruption => true
  | .configReadComplete _ _ => true
  | .listenTimerExpiry => true
  | .quietPeriod _ => true
  | .frameStart _ _ => true
  | .contentionLoss => true
  | .bodyCollision => true
  | .noticeReport r => reportFits r
  | .callReport r => reportFits r
  | .grantSend => true
  | .grantReport r => grantReportFits r
  | .hailReceived f => frameOfKind .hail f
  | .voidReceived f => frameOfKind .void f
  | .takenReceived f => frameOfKind .taken f
  | .lapseReceived f => frameOfKind .lapse f
  | .arriveReceived f => frameOfKind .arrive f
  | .callReceived f _ => frameOfKind .call f
  | .grantReceived f => frameOfKind .grant f
  | .unfinishedFrame sampled _ => sampledFits sampled.length
  | .strayActivity twPulled dwPulled => twPulled || dwPulled
  | .strayActivityEnd => true
  | .endMarkOutsideFrame => true
  | .heldEntry sampled _ => sampledFits sampled.length
  | .heldEnd _ => true
  | .stuckEntry => true
  | .recoveryPulse _ => true
  | .backOffExpiry => true
  | .computationComplete => true
  | .stretchLimitExpiry => true
  | .stretchSlotEnd => true
  | .bidWindowStart _ => true
  | .bidWindowClose _ _ => true
  | .windowSilenceLimit _ => true
  | .grantWaitSilenceLimit _ => true
  | .grantWaitExpiry => true
  | .minuteStep _ => true
  | .inputChange _ _ => true
  | .filterExpiry _ => true
  | .cycleEnd _ => true
  | .hornExpiry _ => true
  | .terminalCharacter c => c.stop
  | .flawedCharacter _ => true
  | .breakCondition => true
  | .messageSent => true
  | .unknownMessage code => !Machine.codeKnown code
  | .status => true
  | .put _ _ _ _ _ => true
  | .take _ => true
  | .shift _ _ => true
  | .holdPack _ => true
  | .freePack _ => true
  | .listStack _ => true
  | .listPicks => true
  | .truckIn _ _ count lines => linesFit count lines
  | .truckBay _ _ => true
  | .truckOut _ => true
  | .listTruck _ => true
  | .receiveWireHighAfterBreak => true

end Sys2Proof
end

