-- ==== Sys2Proof/Safety.lean ====
section
/-! DEFINITION. What counts as a sound state of the station, in the terms the claims use: the manual's
own statements about every moment (R1, R33, R38, R45, R46, R78, R86, R98, R99, R130, R156), gathered by
block, and the conditions under which a terminal message is processed at once. -/

namespace Sys2Proof.Machine

/-! ### When a terminal message is processed (R154, R155) -/

/-- A row in SERVICE or DUPLICATE has this message waiting, does not defer, and has room for the reply. -/
def RowAnswers (m : List Byte) (s : State) : Prop :=
  (s.startup.station = .service ∨ s.startup.station = .duplicate) ∧ s.startup.settings.role = .row
    ∧ s.bid = .idle ∧ s.port.waiting = some m ∧ s.port.transmit.length < 4

/-- Such a row in SERVICE. -/
def RowTakes (m : List Byte) (s : State) : Prop := s.startup.station = .service ∧ RowAnswers m s

/-- A gate in SERVICE or DUPLICATE has this message waiting, has no round of its own, and has room for the
reply. -/
def GateAnswers (m : List Byte) (s : State) : Prop :=
  (s.startup.station = .service ∨ s.startup.station = .duplicate) ∧ s.startup.settings.role = .gate
    ∧ (s.arbiter = .idle ∨ ∃ r, s.arbiter = .waiting r)
    ∧ s.port.waiting = some m ∧ s.port.transmit.length < 4

/-- Such a gate in SERVICE. -/
def GateTakes (m : List Byte) (s : State) : Prop := s.startup.station = .service ∧ GateAnswers m s

/-- The state after a message was answered with this reply and nothing else happened: the waiting
buffer is empty and the reply stands at the tail of the transmit queue (R154). -/
def answered (message : List Byte) (s : State) : State :=
  { s with port := { s.port with waiting := none, transmit := s.port.transmit ++ [message] } }

/-! ### Frames: what a command leaves alone -/

/-- The row's stores are as before. -/
def RowUnchanged (s t : State) : Prop :=
  t.stock = s.stock ∧ t.bid = s.bid ∧ t.hold = s.hold ∧ t.picks = s.picks

/-- The gate's stores are as before. -/
def GateUnchanged (s t : State) : Prop := t.trucks = s.trucks ∧ t.arbiter = s.arbiter

/-- The Start-up Controller's values and the queue of waiting commands are as before. -/
def ControlUnchanged (s t : State) : Prop := t.startup = s.startup ∧ t.pending = s.pending

/-- The station is in SERVICE and wants to send: a queued notice is not in flight, or a call request is
present (R20, R37). -/
def WantsToSend (s : State) : Prop :=
  s.startup.station = .service
    ∧ ((∃ n ∈ s.frames.queue, n.inFlight = false) ∨ ∃ r, s.arbiter = .waiting r)

/-- The station has not counted its first 96 slack bt (R18). -/
def BeginsToObserve (s : State) : Prop :=
  observes s = true ∧ s.line.condition = .busy ∧ ∃ wires, s.line.activity = .observing wires

/-- The station reads the line and follows no frame and no round. -/
def BetweenFrames (s : State) : Prop :=
  observes s = true ∧ s.frames.round = none
    ∧ (s.line.activity = .nothing ∨ s.line.activity = .stray ∨ s.line.activity = .dwPulled
      ∨ s.line.activity = .startMark)

/-- The line interface after a frame or round is over, by the level DW has then (R18). -/
def freedLine (dwPulled : Bool) (line : LineInterface) : LineInterface :=
  { line with
    condition := if dwPulled then .busy else .quiet
    activity := if dwPulled then .dwPulled else .nothing
    driving := .nothing
    idleCount := 0
    stuckCount := 0 }

/-- The stock after a hold, when one is present, ends with its packs FREE (R80, R81, R85). -/
def stockWithoutHold (s : State) : Stock :=
  match s.hold with
  | none => s.stock
  | some h => settlePacks h.packs [] h.order s.stock

/-- The state in which an accepted frame's header has reached the Yard Clock (R23). -/
def heard {n : Nat} (f : RxFrame n) (s : State) : State :=
  if frameAccepted f s then hearMinute (headerMinute f) (headerSet f) s else s

/-- The state in which a followed frame is over and no round was in progress: the report, with no pull of
the confirm slot by this station, a QUIET line, and the header with the clock; its body has reached no
owner (R5, R22, R23). -/
def frameOver {n : Nat} (f : RxFrame n) (s : State) : State :=
  { heard f s with
    line := { freedLine false s.line with
      report := some
        { outcome := if frameAccepted f s then .accepted else .discarded
          flawSlot := flawSlotReads f s, confirmSlot := f.confirmSlotPulled
          pulledFlaw := pullsFlawSlot f s, pulledConfirm := false } } }

/-! ### The yard line and the notice queue -/

/-- What the manual says of a queued notice at every moment (R27, R28, R33). -/
def noticeSound (n : Notice) : Prop :=
  n.flaws ≤ 2 ∧
    (match n.body with
     | .taken _ c => 1 ≤ c ∧ c ≤ 8
     | .lapse _ c => 1 ≤ c ∧ c ≤ 8
     | .hail _ => True
     | .void _ => True
     | .arrive _ => True)

/-- Outside SERVICE the station drives neither wire, sends nothing and calls for nothing (R1, R21, R119);
the queue holds at most 16 sound entries, of which only the head is ever in flight, and it is in flight
exactly while its frame is sent (R33); a notice or CALL is sent outside any round (R37), and the line is
BUSY while a frame is sent (R18); on a HELD, STUCK or RECOVERING line nothing is followed (R19, R20), and
in CONFIG and at the start of observation no round is in progress (R38). -/
def YardLineSound (s : State) : Prop :=
  (s.startup.station ≠ .service →
      s.line.driving = .nothing ∧ sentFrame s = none ∧ s.line.condition ≠ .recovering
        ∧ s.arbiter = .idle)
    ∧ s.frames.queue.length ≤ 16
    ∧ (∀ n ∈ s.frames.queue, noticeSound n)
    ∧ (∀ n ∈ s.frames.queue.tail, n.inFlight = false)
    ∧ (sentKind s = some .notice ↔ ∃ n ∈ s.frames.queue.head?, n.inFlight = true)
    ∧ (sentKind s = some .notice ∨ sentKind s = some .call → s.frames.round = none)
    ∧ (sentFrame s ≠ none → s.line.condition = .busy)
    ∧ (s.line.condition ≠ .quiet → s.line.condition ≠ .busy →
        s.line.activity = .nothing ∧ s.frames.round = none)
    ∧ ((∃ wires, s.line.activity = .observing wires) ∨ s.startup.station = .config →
        s.frames.round = none)

/-! ### The terminal port -/

/-- The transmit queue holds at most 4 messages, the waiting buffer a complete message, the assembly
buffer a partial one (R152, R156). -/
def PortSound (s : State) : Prop :=
  s.port.transmit.length ≤ 4
    ∧ (∀ m ∈ s.port.waiting, messageComplete m = true)
    ∧ messageComplete s.port.assembly = false

/-! ### The row's packs -/

/-- A pack record's fields are in range (R45). -/
def packSound (p : Pack) : Prop :=
  1 ≤ p.tag ∧ p.tag ≤ 4294967295 ∧ p.spec.family ≤ 63 ∧ p.spec.size ≤ 15 ∧ p.spec.grade ≤ 7
    ∧ p.age ≤ 255

/-- The stock is as R45 and R46 say: tags are distinct, fields in range, no stack is above the tier
limit or beyond the configured stacks, and in CONFIG the table is empty. -/
def StockSound (s : State) : Prop :=
  ((allPacks s.stock).map fun p => p.tag).Nodup
    ∧ (∀ p ∈ allPacks s.stock, packSound p)
    ∧ (∀ n ∈ List.range 16, (stackAt s.stock n).length ≤ s.startup.settings.tierLimit)
    ∧ (∀ n ∈ List.range 16, s.startup.settings.stackLimit ≤ n → stackAt s.stock n = [])
    ∧ (s.startup.settings.role = .row →
        s.startup.settings.stackLimit ≤ 16 ∧ s.startup.settings.tierLimit ≤ 6)
    ∧ (s.startup.station = .config → allPacks s.stock = [])

/-- The tags of HELD records are the packs of the hold, each named once (R78). -/
def HeldIsHold (s : State) : Prop :=
  (∀ h ∈ s.hold, h.packs.Nodup ∧ h.packs.length + s.picks.length ≤ 24
      ∧ ∀ tag ∈ h.packs, ∃ p ∈ allPacks s.stock, p.tag = tag ∧ p.state = .held)
    ∧ (∀ p ∈ allPacks s.stock, p.state = .held → ∃ h ∈ s.hold, p.tag ∈ h.packs)

/-- The RESERVED records are those with exactly one pick entry, which names the record's stack and
carries its reservation; the list holds at most 24 entries (R86). -/
def ReservedIsPicked (s : State) : Prop :=
  s.picks.length ≤ 24
    ∧ (s.picks.map fun e => e.tag).Nodup
    ∧ (∀ e ∈ s.picks, ∃ p ∈ stackAt s.stock e.stack, p.tag = e.tag ∧ p.state = .reserved e.order)
    ∧ (∀ p ∈ allPacks s.stock, isReserved p.state = true → ∃ e ∈ s.picks, e.tag = p.tag)

/-- The tags a computation or bid may still turn into a hold. -/
def offeredTags : BidUnit → List Nat
  | .idle => []
  | .computing r => (r.view.filter (matchesCall r.call)).map fun v => v.tag
  | .ready _ res => res.selection.map fun a => a.tag
  | .bidding _ res => res.selection.map fun a => a.tag

/-- The most packs the running computation or bid can offer. -/
def offerBound : BidUnit → Nat
  | .idle => 0
  | .computing r => r.freeEntries
  | .ready _ res => res.selection.length
  | .bidding _ res => res.selection.length

/-- While the Bid Unit works, the station is a row in SERVICE without a hold, every pack it may offer is
still FREE, and the pick list has room for the offer (R63, R64, R79). -/
def BidSound (s : State) : Prop :=
  s.bid = .idle ∨
    (s.startup.station = .service ∧ s.startup.settings.role = .row ∧ s.hold = none
      ∧ (offeredTags s.bid).Nodup
      ∧ (∀ tag ∈ offeredTags s.bid, ∃ p ∈ allPacks s.stock, p.tag = tag ∧ p.state = .free)
      ∧ offerBound s.bid + s.picks.length ≤ 24)

/-- The row's stock, hold, pick list and bid agree with one another. -/
def RowSound (s : State) : Prop := StockSound s ∧ HeldIsHold s ∧ ReservedIsPicked s ∧ BidSound s

/-! ### The gate's trucks -/

/-- An open award record (R99). -/
def awardSound (a : Award) : Prop := a.row ≤ 63 ∧ a.taken < a.granted ∧ a.granted ≤ 8

/-- An order line's accounts: taken ≤ granted ≤ wanted ≤ 99, at most 8 open award records, an
empty-round count of at most 3 (R99). -/
def orderLineSound (l : OrderLine) : Prop :=
  l.spec.family ≤ 63 ∧ l.spec.size ≤ 15 ∧ l.spec.grade ≤ 7
    ∧ 1 ≤ l.wanted ∧ l.wanted ≤ 99
    ∧ lineTaken l ≤ lineGranted l ∧ lineGranted l ≤ l.wanted
    ∧ l.emptyRounds ≤ 3 ∧ l.awards.length ≤ 8 ∧ ∀ a ∈ l.awards, awardSound a

/-- A truck record's fields are in range (R98). -/
def truckSound (t : Truck) : Prop :=
  1 ≤ t.ticket ∧ t.ticket ≤ 65535 ∧ t.bay ≤ 8 ∧ 1 ≤ t.lines.length ∧ t.lines.length ≤ 4
    ∧ ∀ l ∈ t.lines, orderLineSound l

/-- At most 12 trucks with distinct tickets, no two at one bay, and every account in order (R98, R99). -/
def TrucksSound (trucks : List Truck) : Prop :=
  trucks.length ≤ 12
    ∧ (trucks.map fun t => t.ticket).Nodup
    ∧ ((trucks.filter fun t => t.bay != 0).map fun t => t.bay).Nodup
    ∧ ∀ t ∈ trucks, truckSound t

/-- A decided grant is at most 8, names a station, and still fits its line's open quantity (R127). -/
def GrantFits (s : State) : Prop :=
  match s.arbiter with
  | .granting r winner _ count =>
    winner ≤ 63 ∧ count ≤ 8
      ∧ (count = 0 ∨ ∃ l ∈ findOrderLine r.ticket r.line s.trucks, count ≤ lineOpen l)
  | .idle => True
  | .waiting _ => True
  | .calling _ => True

/-- The gate's table is sound, its decided grant fits, and every command that waits is well formed. -/
def GateSound (s : State) : Prop :=
  TrucksSound s.trucks ∧ GrantFits s ∧ ∀ c ∈ s.pending, c.wellFormed = true

/-! ### The counters -/

/-- What the window has left in a computation record: nothing before it; in it at most 27 bits sent, and a
loss only at a bit that was sent (R16, R74). -/
def bidProgressSound : BidUnit → Prop
  | .idle => True
  | .computing r => r.sent = 0 ∧ r.lost = false
  | .ready r _ => r.sent = 0 ∧ r.lost = false
  | .bidding r _ => r.sent ≤ 27 ∧ (r.lost = true → 1 ≤ r.sent)

/-- Every counter is in the range its rule gives it: idle count (R10), stuck count (R20), pulse count
(R21), silence count (R41, R42), bits of the bid word (R16), second counter (R130), interrupted reads
(R164). -/
def CountersSound (s : State) : Prop :=
  s.line.idleCount ≤ 255 ∧ s.line.stuckCount ≤ 32 ∧ s.line.pulseCount ≤ 9
    ∧ (∀ v ∈ s.frames.round, v.silence ≤ 80)
    ∧ bidProgressSound s.bid
    ∧ s.clock.second ≤ 59
    ∧ s.startup.interruptions ≤ 4
    ∧ (s.startup.station = .config → s.startup.interruptions ≤ 3)

end Sys2Proof.Machine
end

