-- ==== Sys2Proof/Certificates/Slice0/Obligations.lean ====
section
/-! DEFINITION. The statements for the provers, chapter by chapter. Where a rule lets a producer give a
notice, ask for a lamp pattern or change the truck table, a statement names the model's one operation
for it (giveNotice, withPicks, requestPattern, gateChanged, hearMinute); what each of these does is a
statement of its own. -/

section

open Sys2Proof Sys2Proof.Machine

/-! ### One step -/

/-- A step runs the command at the front of the queue on the state with the queue's rest. -/
def Obligations.StepRunsTheFrontCommand : Prop :=
  ∀ (c : Instr) (rest : List Instr) (s : State), s.pending = c :: rest →
    step s = exec c { s with pending := rest }

/-- The model's own choice (log entry 2): with no command waiting one bt passes. The idle count, the
stuck count, a round's silence count and the grant wait move by their rules, the yard minute and every
store stay; while the RESET pin is held nothing moves. -/
def Obligations.EmptyQueueLetsOneBitTimePass : Prop :=
  ∀ s : State, s.pending = [] →
    (s.startup.resetHeld = true → step s = .next s) ∧
    (s.startup.resetHeld = false → ∃ t, step s = .next t
      ∧ t.stock = s.stock ∧ t.picks = s.picks ∧ GateUnchanged s t ∧ t.port = s.port
      ∧ t.frames.queue = s.frames.queue ∧ t.clock.minute = s.clock.minute
      ∧ t.clock.isSet = s.clock.isSet ∧ t.startup.station = s.startup.station
      ∧ t.line.condition = s.line.condition ∧ t.line.driving = s.line.driving
      ∧ (observes s = true → s.line.condition = .quiet → s.line.activity = .nothing →
          s.frames.round = none → t.line.idleCount = min 255 (s.line.idleCount + 1))
      ∧ (observes s = true → s.line.condition = .busy → s.line.activity = .observing .slack →
          s.line.idleCount < 96 → t.line.idleCount = s.line.idleCount + 1)
      ∧ (s.line.condition ≠ .quiet ∨ s.frames.round ≠ none → s.line.activity ≠ .observing .slack →
          t.line.idleCount = s.line.idleCount)
      ∧ (s.line.activity ∈ [.dwPulled, .startMark, .observing .dwPulled] →
          t.line.stuckCount = min 32 (s.line.stuckCount + 1))
      ∧ (s.line.activity ∉ [.dwPulled, .startMark, .observing .dwPulled] →
          t.line.stuckCount = s.line.stuckCount)
      ∧ t.frames.round = s.frames.round.map (fun v => { v with
          silence :=
            if v.phase = .window ∧ s.line.driving ≠ .windowPulses then min 24 (v.silence + 1)
            else if v.phase = .grantWait ∧ s.line.activity ≠ .stray then min 80 (v.silence + 1)
            else v.silence })
      ∧ ∀ h k, s.hold = some h → h.grantWait = some k →
          t.hold = some { h with grantWait := some (k - 1) })

/-! ### Start-up (chapter 11) -/

/-- R1, R22, R33, R38, R44, R45, R63, R78, R119, R130, R161, R163: a full reset puts every block at its
reset value, from every state, and a frame that was being sent is reported ABANDONED; the values are those
the manual gives. The unit serial, fixed in the part, and the commands that wait are kept. The second is
the model's choice, log entry 3; the report field is the model's own, log entry 10. -/
def Obligations.FullResetRestoresEveryBlock : Prop :=
  (∀ s : State,
    let values : State :=
      { State.reset with
        startup := { State.reset.startup with serial := s.startup.serial }
        pending := s.pending }
    (sentFrame s = none → exec .fullReset s = .next values) ∧
    (∀ f, sentFrame s = some f → exec .fullReset s = .next
      { values with
        line := { values.line with
          report := some { outcome := .abandoned, flawSlot := false, confirmSlot := false
                           pulledFlaw := false, pulledConfirm := false } } })) ∧
  (State.reset.startup.station = .config ∧ State.reset.startup.interruptions = 0
    ∧ State.reset.line.condition = .quiet ∧ State.reset.line.driving = .nothing
    ∧ State.reset.line.idleCount = 0 ∧ State.reset.line.stuckCount = 0
    ∧ State.reset.line.pulseCount = 0 ∧ State.reset.line.backOff = none
    ∧ State.reset.frames = { queue := [], round := none, yieldRecord := false }
    ∧ allPacks State.reset.stock = [] ∧ (∀ n, stackAt State.reset.stock n = [])
    ∧ State.reset.bid = .idle ∧ State.reset.hold = none ∧ State.reset.picks = []
    ∧ State.reset.trucks = [] ∧ State.reset.arbiter = .idle
    ∧ State.reset.clock.minute = 0 ∧ State.reset.clock.second = 0 ∧ State.reset.clock.isSet = false
    ∧ haltAsserted State.reset = false ∧ closeAsserted State.reset = false
    ∧ (∀ l ∈ State.reset.signal.lamps.toList, l.current = .off ∧ l.staged = none ∧ l.latest = .off)
    ∧ State.reset.signal.horn = none ∧ readyPattern State.reset = .off
    ∧ (∀ n, fieldDrive State.reset n = none)
    ∧ State.reset.port.assembly = [] ∧ State.reset.port.waiting = none
    ∧ State.reset.port.transmit = [] ∧ flagsByte State.reset.port.flags = 0)

/-- R163, R164: the release of the RESET pin begins CONFIG; the first three interruptions start the
read again, the fourth ends CONFIG in CONFIG FAULT. -/
def Obligations.ConfigReadRestartsThreeTimes : Prop :=
  (∀ s : State, exec .resetRelease s = .next { s with startup := { s.startup with resetHeld := false } })
    ∧ ∀ s : State, s.startup.station = .config → s.startup.resetHeld = false →
      (s.startup.interruptions < 3 → exec .configInterruption s = .next
        { s with startup := { s.startup with interruptions := s.startup.interruptions + 1 } }) ∧
      (s.startup.interruptions = 3 → exec .configInterruption s = .next
        { s with
          startup := { s.startup with interruptions := 4, station := .configFault }
          signal := { s.signal with readyPosition := 0 } })

/-- R165: the configuration block is accepted exactly when every byte checked for the role read from
byte 1 lies in its range. -/
def Obligations.ConfigBlockCheck : Prop :=
  ∀ b : Vector Byte 32, blockAccepted b = true ↔
    b[0] = 0x5A ∧ (b[1] = 0 ∨ b[1] = 1) ∧ b[2].toNat ≤ 63 ∧ b[3].toNat ≤ 3
      ∧ 1 ≤ b[4].toNat ∧ b[4].toNat ≤ 60 ∧ b[5].toNat ≤ 2 ∧ b[6].toNat ≤ 1 ∧ b[7].toNat ≤ 1
      ∧ (b[1] = 0 → 1 ≤ b[8].toNat ∧ b[8].toNat ≤ 16 ∧ 1 ≤ b[9].toNat ∧ b[9].toNat ≤ 6
          ∧ (∀ i : Fin 8, b[12 + i.val].toNat ≤ 63) ∧ b[20].toNat ≤ 15)
      ∧ (∀ i : Fin 8, b[21 + i.val].toNat % 128 ∈ [0, 3, 5]
          ∨ (b[1] = 0 ∧ b[21 + i.val].toNat % 128 ∈ [1, 2, 4])
          ∨ (b[1] = 1 ∧ 8 ≤ b[21 + i.val].toNat % 128 ∧ b[21 + i.val].toNat % 128 ≤ 15))
      ∧ b[29].toNat ≤ 2 ∧ b[30] = 0 ∧ b[31] = 0

/-- R18, R140, R141, R165, R166, R167: an accepted block takes effect at the entry to LISTEN, with the
listen timer at 2 s, the line BUSY until 96 bt of slack wires, every lamp OFF, and every input not
asserted with its timer started when its raw level is; a block that fails leads to CONFIG FAULT. The
functions that the function codes name. That a gate too stores bytes 8 to 20 as they are read is the
model's deduction, log entry 17: no rule lets a gate use them. -/
def Obligations.ConfigReadEntersListenOrFault : Prop :=
  (functionOfCode 0 = some .unused ∧ functionOfCode 1 = some .pickLamp ∧ functionOfCode 2 = some .horn
    ∧ functionOfCode 3 = some .haltIn ∧ functionOfCode 4 = some .closeIn
    ∧ functionOfCode 5 = some .lineOk
    ∧ (∀ bay : Nat, 1 ≤ bay → bay ≤ 8 → functionOfCode (bay + 7) = some (.bayLamp bay))
    ∧ ∀ code : Nat, code = 6 ∨ code = 7 ∨ 16 ≤ code → functionOfCode code = none) ∧
  ∀ (b : Vector Byte 32) (levels : BitVec 8) (s : State),
    s.startup.station = .config → s.startup.resetHeld = false →
    (blockAccepted b = true → ∃ t, exec (.configReadComplete b levels) s = .next t
      ∧ t.startup.station = .listen ∧ t.startup.listenTimer = some (2 * secondUnits)
      ∧ t.startup.resetHeld = false ∧ t.startup.serial = s.startup.serial
      ∧ (t.startup.settings.role = .gate ↔ b[1] = 1)
      ∧ t.startup.settings.number = b[2].toNat ∧ t.startup.settings.lineSpeed = b[3].toNat
      ∧ t.startup.settings.stretchLimit = b[4].toNat
      ∧ t.startup.settings.terminalSpeed = b[5].toNat
      ∧ (t.startup.settings.terminalParity = true ↔ b[6] = 1)
      ∧ (t.startup.settings.timeSource = true ↔ b[7] = 1)
      ∧ t.startup.settings.stackLimit = b[8].toNat ∧ t.startup.settings.tierLimit = b[9].toNat
      ∧ t.startup.settings.ageCap = b[10].toNat ∧ t.startup.settings.pickLimit = b[11].toNat
      ∧ (∀ i : Fin 8, t.startup.settings.distances[i] = b[12 + i.val].toNat)
      ∧ t.startup.settings.hornLength = b[20].toNat ∧ t.startup.settings.filterCode = b[29].toNat
      ∧ (∀ i : Fin 8, t.startup.settings.lines[i].inverted = b[21 + i.val].getLsbD 7
          ∧ some t.startup.settings.lines[i].function = functionOfCode (b[21 + i.val].toNat % 128))
      ∧ t.line = { s.line with
          condition := .busy, activity := .observing .slack, idleCount := 0, stuckCount := 0 }
      ∧ (∀ i : Fin 8, t.signal.lamps[i] = resetLamp ∧ t.signal.inputs[i].filtered = false
          ∧ (isInputFunction t.startup.settings.lines[i].function = true →
              t.signal.inputs[i].raw = (levels.getLsbD i != b[21 + i.val].getLsbD 7)
              ∧ t.signal.inputs[i].timer =
                  if t.signal.inputs[i].raw then some (4 * 4 ^ b[29].toNat * msUnits) else none))
      ∧ RowUnchanged s t ∧ GateUnchanged s t ∧ t.frames = s.frames ∧ t.clock = s.clock
      ∧ t.port = s.port ∧ t.pending = s.pending) ∧
    (blockAccepted b = false → exec (.configReadComplete b levels) s = .next
      { s with
        startup := { s.startup with station := .configFault }
        signal := { s.signal with readyPosition := 0 } })

/-- R20, R137, R167: when the listen timer expires the time-source rule is applied, a HAIL with the unit
serial joins the queue and the station enters SERVICE; on a STUCK line it then recovers. -/
def Obligations.ListenExpiryEntersService : Prop :=
  ∀ s : State, s.startup.station = .listen → s.arbiter = .idle → s.frames.queue.length < 16 →
    ∃ t, exec .listenTimerExpiry s = .next t
      ∧ t.startup = { s.startup with station := .service, listenTimer := none }
      ∧ t.frames = { s.frames with
          queue := s.frames.queue ++ [{ body := .hail s.startup.serial, flaws := 0, inFlight := false }] }
      ∧ t.clock = (if s.clock.isSet = false ∧ s.startup.settings.timeSource = true then
          { minute := 0, second := 0, fraction := 0, isSet := true } else s.clock)
      ∧ t.line = (if s.line.condition = .stuck ∧ s.line.backOff = none then
          { s.line with condition := .recovering, driving := .recovery, pulseCount := 0 } else s.line)
      ∧ t.picks.map (fun e => e.tag) = s.picks.map (fun e => e.tag)
      ∧ (s.trucks = [] → t.arbiter = .idle)
      ∧ t.signal.lamps = s.signal.lamps ∧ t.signal.inputs = s.signal.inputs
      ∧ t.signal.horn = s.signal.horn
      ∧ t.stock = s.stock ∧ t.bid = s.bid ∧ t.hold = s.hold ∧ t.trucks = s.trucks ∧ t.port = s.port
      ∧ t.pending = s.pending

/-- R140, R163, R164: the station state changes only by the transitions of the table, and CONFIG FAULT and
DUPLICATE are left only by a full reset. The unit serial never changes, and the configuration values are
fixed from the end of CONFIG until the next full reset. The premise that the yard line is sound is an
invariant of every step: it rules out a frame sent outside SERVICE. -/
def Obligations.StationStateTransitions : Prop :=
  (∀ (c : Instr) (s t : State), YardLineSound s → exec c s = .next t →
    t.startup.station = s.startup.station
      ∨ (c = .fullReset ∧ t.startup.station = .config)
      ∨ (s.startup.station = .config ∧ t.startup.station = .listen)
      ∨ (s.startup.station = .config ∧ t.startup.station = .configFault)
      ∨ (s.startup.station = .listen ∧ t.startup.station = .service)
      ∨ (s.startup.station = .service ∧ t.startup.station = .duplicate)) ∧
  (∀ (c : Instr) (s t : State), exec c s = .next t →
    t.startup.serial = s.startup.serial ∧
    (c ≠ .fullReset → s.startup.station ≠ .config → t.startup.settings = s.startup.settings))

/-! ### The yard line (chapter 1) -/

/-- R5, R10, R17, R18, R19, R20, R21: outside frames and rounds a pulled wire makes the line BUSY with
the idle count at 0; slack wires, the end of HELD with DW slack, 96 bt of silence at the start of
observation, and an end mark make it QUIET; HELD that ends with DW pulled leaves it BUSY. A pull of TW sets
the count of STUCK to 0. That the 96 bt are the idle count and the command's further bt together is the
model's choice, log entry 19; that before them an end mark or the end of stray activity only begins them
again is its deduction, log entry 8, and that inside a round an end mark outside a frame ends nothing its
deduction, log entry 25. -/
def Obligations.WiresOutsideFramesMoveTheLine : Prop :=
  ∀ s : State,
    (∀ elapsed, observes s = true → s.line.activity = .observing .slack → s.line.condition = .busy →
      (s.line.idleCount + elapsed < 96 → exec (.quietPeriod elapsed) s = .next
        { s with line := { s.line with idleCount := s.line.idleCount + elapsed } }) ∧
      (96 ≤ s.line.idleCount + elapsed → exec (.quietPeriod elapsed) s = .next
        { s with
          line := { s.line with condition := .quiet, activity := .nothing, idleCount := 96 } })) ∧
    (BeginsToObserve s →
      let observing := fun (wires : ObservedWires) =>
        { s with
          line := { s.line with activity := .observing wires, idleCount := 0, stuckCount := 0 } }
      (∀ dw, exec (.strayActivity true dw) s = .next (observing .pulled)) ∧
      exec (.strayActivity false true) s = .next (observing .dwPulled) ∧
      exec .strayActivityEnd s = .next (observing .slack) ∧
      exec .endMarkOutsideFrame s = .next (observing .slack)) ∧
    (s.frames.round ≠ none → (∀ wires, s.line.activity ≠ .observing wires) →
      exec .endMarkOutsideFrame s = .next s) ∧
    (BetweenFrames s → (s.line.condition = .quiet ∨ s.line.condition = .busy) →
      (∀ dw, exec (.strayActivity true dw) s = .next
        { s with
          line := { s.line with
            condition := .busy, activity := .stray, idleCount := 0, stuckCount := 0 } }) ∧
      exec (.strayActivity false true) s = .next
        { s with
          line := { s.line with
            condition := .busy, activity := .dwPulled, idleCount := 0, stuckCount := 0 } }) ∧
    (BetweenFrames s → s.line.condition = .busy →
      exec .strayActivityEnd s = .next
        { s with
          line := { s.line with
            condition := .quiet, activity := .nothing, idleCount := 0, stuckCount := 0 } }) ∧
    (BetweenFrames s → s.line.condition = .busy ∨ s.line.condition = .stuck
        ∨ s.line.condition = .recovering →
      exec .endMarkOutsideFrame s = .next (refreshReady s
        { s with
          line := { s.line with
            condition := .quiet, activity := .nothing, driving := .nothing, idleCount := 0
            stuckCount := 0, pulseCount := 0, backOff := none } })) ∧
    (observes s = true → s.line.condition = .held → ∀ dw,
      exec (.heldEnd dw) s = .next (refreshReady s
        { s with
          line := { s.line with
            condition := if dw then .busy else .quiet
            activity := if dw then .dwPulled else .nothing
            idleCount := 0, stuckCount := 0 } }))

/-- R20, R21: DW pulled for 32 bt makes the line STUCK; a station that wants to send recovers at once
unless its back-off timer runs, the others observe. A recovery pulse that reads DW slack ends STUCK,
pulses 1 to 8 that read it pulled are followed by the next, the ninth starts the back-off of 1 s, and its
expiry starts the recovery again where the station still wants to send. A change of the wish to send
starts a recovery from STUCK, stops one that nothing needs, and changes nothing else. That the pulse count
stays at 9 when the back-off expires without the wish to send is the model's deduction, log entry 18; that
STUCK_ENTRY and BACK_OFF_EXPIRY are taken whatever the count or the timer shows is its choice, log entry
2. -/
def Obligations.StuckLineIsRecoveredByStationsThatWantToSend : Prop :=
  (∀ s : State,
    ((BetweenFrames s ∨ BeginsToObserve s) →
      (s.line.condition = .quiet ∨ s.line.condition = .busy) →
      (WantsToSend s → s.line.backOff = none →
        exec .stuckEntry s = .next (refreshReady s
          { s with
            line := { s.line with
              condition := .recovering, activity := .nothing, driving := .recovery, idleCount := 0
              stuckCount := 32, pulseCount := 0 } })) ∧
      (¬ WantsToSend s ∨ s.line.backOff ≠ none →
        exec .stuckEntry s = .next (refreshReady s
          { s with
            line := { s.line with
              condition := .stuck, activity := .nothing, idleCount := 0, stuckCount := 32 } }))) ∧
    (s.line.condition = .recovering →
      exec (.recoveryPulse false) s = .next (refreshReady s
        { s with
          line := { s.line with
            condition := .quiet, activity := .nothing, driving := .nothing, idleCount := 0
            stuckCount := 0, pulseCount := 0, backOff := none } }) ∧
      (s.line.pulseCount < 8 → exec (.recoveryPulse true) s = .next
        { s with line := { s.line with pulseCount := s.line.pulseCount + 1 } }) ∧
      (s.line.pulseCount = 8 → exec (.recoveryPulse true) s = .next
        { s with
          line := { s.line with
            condition := .stuck, driving := .nothing, pulseCount := 9, backOff := some secondUnits } })) ∧
    (∀ left, s.line.backOff = some left → s.line.condition = .stuck →
      (WantsToSend s → exec .backOffExpiry s = .next
        { s with
          line := { s.line with
            condition := .recovering, driving := .recovery, pulseCount := 0, backOff := none } }) ∧
      (¬ WantsToSend s → exec .backOffExpiry s = .next { s with line := { s.line with backOff := none } }))) ∧
  (∀ s : State,
    (s.line.condition = .stuck → WantsToSend s → s.line.backOff = none → followWant s =
      { s with line := { s.line with condition := .recovering, driving := .recovery, pulseCount := 0 } }) ∧
    (s.line.condition = .recovering → ¬ WantsToSend s → followWant s =
      { s with line := { s.line with condition := .stuck, driving := .nothing, pulseCount := 0 } }) ∧
    ((s.line.condition ≠ .stuck ∨ ¬ WantsToSend s ∨ s.line.backOff ≠ none) →
      (s.line.condition ≠ .recovering ∨ WantsToSend s) → followWant s = s))

/-- R19, R22, R36, R38, R43, R44, R76, R85, R119: at HELD the wires are released, frame, round, bid and
hold are abandoned, held packs go back to FREE, a notice in flight stays queued with its flaw count, the
arbiter's attempt is over, recovery and back-off stop. The yield record tells whose round was abandoned: a
CALL that is cut after its character 2 has begun its round, another station's or this gate's own. A frame
being sent is reported ABANDONED and a frame followed is reported discarded, cut inside its character 1 or
later. That the command says whether a frame has begun is the model's choice, log entry 19; the report
field is the model's own, log entry 10. -/
def Obligations.HeldLineAbandonsFrameRoundAndHold : Prop :=
  ∀ (sampled : List Byte) (frameBegun : Bool) (s : State), observes s = true → s.line.condition ≠ .held →
    ∃ t, exec (.heldEntry sampled frameBegun) s = .next t
      ∧ t.line.condition = .held ∧ t.line.driving = .nothing ∧ t.line.activity = .nothing
      ∧ t.line.idleCount = 0 ∧ t.line.stuckCount = 0 ∧ t.line.backOff = none
      ∧ t.line.pulseCount = (if s.line.condition = .recovering then 0 else s.line.pulseCount)
      ∧ (let followed : Prop := s.line.activity = .receiving
            ∨ (canHear s = true ∧ (frameBegun = true ∨ sampled ≠ []))
         let reported := fun (outcome : ReportOutcome) =>
           some { outcome := outcome, flawSlot := false, confirmSlot := false
                  pulledFlaw := false, pulledConfirm := false }
         (sentFrame s ≠ none → t.line.report = reported .abandoned) ∧
         (sentFrame s = none → followed → t.line.report = reported .discarded) ∧
         (sentFrame s = none → ¬ followed → t.line.report = s.line.report))
      ∧ t.frames.round = none ∧ t.bid = .idle ∧ t.hold = none
      ∧ (let heardCall : Prop := canHear s = true ∧ ∃ b rest, sampled = 0x10 :: b :: rest
         let ownCall : Prop := sentKind s = some .call ∧ 2 ≤ sampled.length
         (heardCall → t.frames.yieldRecord = false) ∧ (ownCall → t.frames.yieldRecord = true) ∧
         (¬ heardCall → ¬ ownCall →
           (s.frames.round = none → t.frames.yieldRecord = s.frames.yieldRecord) ∧
           ∀ v, s.frames.round = some v → t.frames.yieldRecord = v.own))
      ∧ t.stock = (match s.hold with
          | none => s.stock
          | some h => settlePacks h.packs [] h.order s.stock)
      ∧ t.frames.queue.map (fun n => (n.body, n.flaws)) = s.frames.queue.map (fun n => (n.body, n.flaws))
      ∧ (YardLineSound s → ∀ n ∈ t.frames.queue, n.inFlight = false)
      ∧ (∀ r, t.arbiter ≠ .calling r) ∧ (∀ r w k c, t.arbiter ≠ .granting r w k c)
      ∧ ((s.arbiter = .idle ∨ ∃ r, s.arbiter = .waiting r) → t.arbiter = s.arbiter)
      ∧ t.picks = s.picks ∧ t.trucks = s.trucks ∧ t.clock = s.clock ∧ t.port = s.port
      ∧ t.signal.lamps = s.signal.lamps ∧ t.signal.inputs = s.signal.inputs
      ∧ t.signal.horn = s.signal.horn ∧ ControlUnchanged s t

/-- R9, R18, R22, R38, R39, R42, R43, R44, R81, R85: an unfinished frame is discarded and leaves only the
line condition behind; the closing frame of a round, or the rest of a CALL this station follows in its own
round, takes the round and its hold with it. A CALL that is cut after its character 2 has begun a round,
which is abandoned: so the yield record is no, and where that CALL closed a round, the round has ended
before. The report field is the model's own, log entry 10. -/
def Obligations.UnfinishedFrameIsDiscarded : Prop :=
  ∀ (sampled : List Byte) (dw : Bool) (s : State),
    let isCall : Prop := ∃ b rest, sampled = 0x10 :: b :: rest
    let line : LineInterface :=
      { freedLine dw s.line with
        report := some { outcome := .discarded, flawSlot := false, confirmSlot := false
                         pulledFlaw := false, pulledConfirm := false } }
    (hearsFrame s = true →
      (¬ isCall → exec (.unfinishedFrame sampled dw) s = .next { s with line := line }) ∧
      (isCall → exec (.unfinishedFrame sampled dw) s = .next
        { s with
          line := line, bid := .idle, hold := none, stock := stockWithoutHold s
          frames := { s.frames with round := none, yieldRecord := false } })) ∧
    (awaitsClosing s = true ∨ followsCall s = true →
      ∃ t, exec (.unfinishedFrame sampled dw) s = .next t
        ∧ t.frames.round = none ∧ t.frames.queue = s.frames.queue
        ∧ (awaitsClosing s = true → isCall → t.frames.yieldRecord = false)
        ∧ (followsCall s = true ∨ ¬ isCall → t.frames.yieldRecord = ownsRound s)
        ∧ t.line = line ∧ t.bid = .idle ∧ t.hold = none ∧ t.stock = stockWithoutHold s
        ∧ (ownsRound s = false → t.arbiter = s.arbiter)
        ∧ (ownsRound s = true → t.arbiter = .idle ∨ ∃ r, t.arbiter = .waiting r)
        ∧ t.picks = s.picks ∧ t.trucks = s.trucks ∧ t.clock = s.clock ∧ t.signal = s.signal
        ∧ t.port = s.port ∧ ControlUnchanged s t)

/-- R1, R18, R33, R37: every step keeps the yard line sound: outside SERVICE the station drives neither
wire, and the queue's in-flight mark is on the head exactly while its frame is sent. -/
def Obligations.EveryStepKeepsTheYardLineSound : Prop :=
  ∀ s t : State, YardLineSound s → step s = .next t → YardLineSound t

/-! ### Frames this station sends (chapters 1, 2, 7 and 8) -/

/-- R3, R6, R10, R11, R33, R37, R44, R122, R138: the head notice starts after 12 idle bt, a call request,
with no notice waiting, after 24, or 48 when this station owned the last round; the frame's characters
are the header of that moment and its body, each with its parity bit. With DW pulled at the gap another
station's start mark has begun and the request is kept, where following that mark until its first bit is
the model's deduction, log entry 24; below the gap only the idle count moves. That the gap is met by the
idle count and the command's further bt together is the model's choice, log entry 19. -/
def Obligations.FrameStartWaitsForItsGap : Prop :=
  ∀ (elapsed : Nat) (s : State), s.startup.station = .service → s.frames.round = none →
    s.line.activity = .nothing → s.line.condition = .quiet →
    (∀ n rest, s.frames.queue = n :: rest → n.inFlight = false →
      (min 255 (s.line.idleCount + elapsed) < 12 → ∀ dw,
        exec (.frameStart elapsed dw) s = .next
          { s with line := { s.line with idleCount := min 255 (s.line.idleCount + elapsed) } }) ∧
      (12 ≤ s.line.idleCount + elapsed →
        exec (.frameStart elapsed false) s = .next
          { s with
            line := { s.line with
              condition := .busy, driving := .frame, idleCount := 0, stuckCount := 0
              activity := .sending
                { kind := .notice
                  characters :=
                    ([kindCode (noticeKind n.body),
                      senderCharacter s.startup.settings.role s.startup.settings.number,
                      s.clock.minute.extractLsb' 8 8, s.clock.minute.extractLsb' 0 8,
                      if s.clock.isSet then 1 else 0] ++ noticeBytes n.body).map withParity } }
            frames := { s.frames with queue := { n with inFlight := true } :: rest } } ∧
        exec (.frameStart elapsed true) s = .next
          { s with
            line := { s.line with
              condition := .busy, activity := .startMark, idleCount := 0, stuckCount := 0 } })) ∧
    (∀ r, s.frames.queue = [] → s.arbiter = .waiting r →
      (min 255 (s.line.idleCount + elapsed) < (if s.frames.yieldRecord then 48 else 24) → ∀ dw,
        exec (.frameStart elapsed dw) s = .next
          { s with line := { s.line with idleCount := min 255 (s.line.idleCount + elapsed) } }) ∧
      ((if s.frames.yieldRecord then 48 else 24) ≤ s.line.idleCount + elapsed →
        exec (.frameStart elapsed false) s = .next
          { s with
            arbiter := .calling r
            line := { s.line with
              condition := .busy, driving := .frame, idleCount := 0, stuckCount := 0
              activity := .sending
                { kind := .call
                  characters :=
                    ([0x10, senderCharacter s.startup.settings.role s.startup.settings.number,
                      s.clock.minute.extractLsb' 8 8, s.clock.minute.extractLsb' 0 8,
                      if s.clock.isSet then 1 else 0] ++ callBytes r).map withParity } } } ∧
        exec (.frameStart elapsed true) s = .next
          { s with
            line := { s.line with
              condition := .busy, activity := .startMark, idleCount := 0, stuckCount := 0 } }))

/-- R1, R12, R13, R33, R37, R38, R61, R63, R92, R118, R129, R169: a lost contention releases the wires and
makes the sender a receiver; a notice stays at the head with its flaw count, a call request goes back to
the arbiter, which chooses again, and the line's accounts do not change. A body collision sends the station
into DUPLICATE, in every block at once; a CALL's round is its own and is followed. That it follows the rest
of the frame as a receiver is the model's deduction, log entry 9. The report field is the model's own, log
entry 10. -/
def Obligations.ContentionLossAndBodyCollision : Prop :=
  (∀ (f : SentFrame) (s : State), s.line.activity = .sending f →
     (∀ n rest, f.kind = .notice → s.frames.queue = n :: rest →
       exec .contentionLoss s = .next
         { s with
           line := { s.line with
             condition := .busy, activity := .receiving, driving := .nothing, idleCount := 0
             stuckCount := 0
             report := some { outcome := .lost, flawSlot := false, confirmSlot := false
                              pulledFlaw := false, pulledConfirm := false } }
           frames := { s.frames with queue := { n with inFlight := false } :: rest } }) ∧
     (∀ r, f.kind = .call → s.arbiter = .calling r →
       exec .contentionLoss s = .next
         { s with
           arbiter := arbiterOf (callChoice { s with arbiter := .idle })
           line := { s.line with
             condition := .busy, activity := .receiving, driving := .nothing, idleCount := 0
             stuckCount := 0
             report := some { outcome := .lost, flawSlot := false, confirmSlot := false
                              pulledFlaw := false, pulledConfirm := false } } })) ∧
  ∀ (f : SentFrame) (s : State), s.line.activity = .sending f → f.kind = .notice ∨ f.kind = .call →
    ∃ t, exec .bodyCollision s = .next t
      ∧ t.startup = { s.startup with station := .duplicate }
      ∧ t.line.driving = .nothing ∧ t.line.activity = .receiving
      ∧ t.frames.queue = [] ∧ t.frames.yieldRecord = s.frames.yieldRecord
      ∧ (f.kind = .call → t.frames.round = some
          { owner := s.startup.settings.number, own := true, phase := .call, part := .none
            silence := 0, pulsing := false })
      ∧ t.bid = .idle ∧ t.hold = none ∧ t.picks = [] ∧ t.arbiter = .idle
      ∧ t.stock = mapPacks
          (fun p => if p.state = .held ∨ isReserved p.state = true then { p with state := .free } else p)
          s.stock
      ∧ t.trucks = s.trucks.map (fun u =>
          { u with lines := u.lines.map fun l => { l with closed := lineTaken l, awards := [] } })
      ∧ t.clock = s.clock ∧ t.port = s.port ∧ t.pending = s.pending
      ∧ t.signal.inputs = s.signal.inputs ∧ t.signal.horn = s.signal.horn
      ∧ t.signal.lamps = (if s.picks = [] then s.signal.lamps
          else (requestPattern .pickLamp .off s).signal.lamps)

/-- R5, R22, R33, R36: a SENT notice leaves the queue; a FLAWED one stays with its flaw count raised, and at
the third flaw it leaves with NOTICE LOSS; LOST, COLLISION and ABANDONED are the contention loss, the
body collision and the HELD line, which is the model's deduction, log entry 15: the manual makes event and
report one moment. The report field is the model's own, log entry 10. -/
def Obligations.NoticeReportsSettleTheHead : Prop :=
  ∀ (f : SentFrame) (s : State), s.line.activity = .sending f → f.kind = .notice →
    (∀ n rest confirm, s.frames.queue = n :: rest → s.frames.round = none →
      exec (.noticeReport (.sent confirm)) s = .next
        { s with
          line := { s.line with
            condition := .quiet, activity := .nothing, driving := .nothing, idleCount := 0, stuckCount := 0
            report := some { outcome := .sent, flawSlot := false, confirmSlot := confirm
                             pulledFlaw := false, pulledConfirm := false } }
          frames := { s.frames with queue := rest } } ∧
      exec (.noticeReport (.flawed confirm)) s = .next
        { s with
          line := { s.line with
            condition := .quiet, activity := .nothing, driving := .nothing, idleCount := 0, stuckCount := 0
            report := some { outcome := .flawed, flawSlot := true, confirmSlot := confirm
                             pulledFlaw := false, pulledConfirm := false } }
          frames := { s.frames with
            queue := if n.flaws < 2 then { n with flaws := n.flaws + 1, inFlight := false } :: rest
              else rest }
          port := { s.port with
            flags := { s.port.flags with
              noticeLoss := if n.flaws < 2 then s.port.flags.noticeLoss else true } } }) ∧
    exec (.noticeReport .lost) s = exec .contentionLoss s ∧
    exec (.noticeReport .collision) s = exec .bodyCollision s ∧
    ∀ k, exec (.noticeReport (.abandoned k)) s = exec (.heldEntry (List.replicate k 0)) s

/-- R5, R18, R39, R44, R119, R124: a SENT CALL takes the gate's own round to STRETCH and the arbiter stays
CALLING; a FLAWED one ends the round at its end mark, which counts as the gate's own for the yield
record and changes no account. LOST, COLLISION and ABANDONED are the contention loss, the body collision
and the HELD line, the model's deduction, log entry 15. The report field is the model's own, log entry 10. -/
def Obligations.CallReportMovesTheOwnRound : Prop :=
  ∀ (f : SentFrame) (r : CallRecord) (confirm : Bool) (s : State),
    s.line.activity = .sending f → f.kind = .call → s.arbiter = .calling r →
    exec (.callReport (.sent confirm)) s = .next
      { s with
        line := { s.line with
          condition := .busy, activity := .nothing, driving := .nothing, idleCount := 0, stuckCount := 0
          report := some { outcome := .sent, flawSlot := false, confirmSlot := confirm
                           pulledFlaw := false, pulledConfirm := false } }
        frames := { s.frames with
          round := some { owner := s.startup.settings.number, own := true, phase := .stretch
                          part := .none, silence := 0, pulsing := false } } } ∧
    exec (.callReport (.flawed confirm)) s = .next
      { s with
        arbiter := arbiterOf (callChoice { s with arbiter := .idle })
        line := { s.line with
          condition := .quiet, activity := .nothing, driving := .nothing, idleCount := 0, stuckCount := 0
          report := some { outcome := .flawed, flawSlot := true, confirmSlot := confirm
                           pulledFlaw := false, pulledConfirm := false } }
        frames := { s.frames with round := none, yieldRecord := true } } ∧
    exec (.callReport .lost) s = exec .contentionLoss s ∧
    exec (.callReport .collision) s = exec .bodyCollision s ∧
    ∀ k, exec (.callReport (.abandoned k)) s = exec (.heldEntry (List.replicate k 0)) s

/-- R3, R11, R31, R42, R44, R103, R119, R128, R138: in its own GRANT WAIT the owner begins its GRANT,
naming the ticket, the line, the winner read from the bid word and the count. A GRANT reported SENT with
its confirm slot pulled and a count of at least 1 appends one award record to the called line and sets its
empty-round count to 0, with no report and no lamp request where the called line is OPEN in a sound table;
every other report leaves the accounts as they were. The round ends, and the arbiter chooses again. An
ABANDONED GRANT is the HELD line, the model's deduction, log entry 15. -/
def Obligations.OwnerSendsItsGrantAndIsTold : Prop :=
  (∀ (v : RoundView) (r : CallRecord) (winner offered count : Nat) (s : State),
     s.startup.station = .service → s.frames.round = some v → v.own = true → v.phase = .grantWait →
     (s.line.activity = .nothing ∨ s.line.activity = .stray) → s.arbiter = .granting r winner offered count →
     exec .grantSend s = .next
       { s with
         line := { s.line with
           condition := .busy, driving := .frame, idleCount := 0, stuckCount := 0
           activity := .sending
             { kind := .grant
               characters :=
                 ([0x11, senderCharacter s.startup.settings.role s.startup.settings.number,
                   s.clock.minute.extractLsb' 8 8, s.clock.minute.extractLsb' 0 8,
                   if s.clock.isSet then 1 else 0]
                   ++ (bytes16 (BitVec.ofNat 16 r.ticket)
                     ++ [byte r.line, byte winner, byte count])).map withParity } }
         frames := { s.frames with round := some { v with phase := .grant } } }) ∧
  ∀ (f : SentFrame) (v : RoundView) (r : CallRecord) (winner offered count : Nat) (s : State),
    s.line.activity = .sending f → f.kind = .grant → s.frames.round = some v → v.own = true →
    s.arbiter = .granting r winner offered count →
    (1 ≤ count → ∀ l, findOrderLine r.ticket r.line s.trucks = some l → l.awards.length < 8 →
      ∃ t, exec (.grantReport (.sent true)) s = .next t
        ∧ findOrderLine r.ticket r.line t.trucks = some { l with
            awards := l.awards ++ [{ row := winner, granted := count, taken := 0 }], emptyRounds := 0 }
        ∧ (∀ ticket line, ticket ≠ r.ticket ∨ line ≠ r.line →
            findOrderLine ticket line t.trucks = findOrderLine ticket line s.trucks)
        ∧ t.trucks.map (fun u => (u.ticket, u.bay, u.arrival, u.lines.length))
            = s.trucks.map (fun u => (u.ticket, u.bay, u.arrival, u.lines.length))
        ∧ t.arbiter = arbiterOf (callChoice { t with arbiter := .idle })
        ∧ t.frames = { s.frames with round := none, yieldRecord := true }
        ∧ t.line.condition = .quiet ∧ t.line.driving = .nothing ∧ t.line.idleCount = 0
        ∧ (TrucksSound s.trucks → lineState l = .openLine → t.port = s.port ∧ t.signal = s.signal)
        ∧ RowUnchanged s t ∧ t.clock = s.clock ∧ ControlUnchanged s t) ∧
    (∀ report, (count = 0 ∧ report = .sent true) ∨ report = .sent false ∨ report = .flawed true
        ∨ report = .flawed false →
      ∃ t, exec (.grantReport report) s = .next t
        ∧ t.trucks = s.trucks ∧ t.arbiter = arbiterOf (callChoice { s with arbiter := .idle })
        ∧ t.frames = { s.frames with round := none, yieldRecord := true }
        ∧ t.line.condition = .quiet ∧ t.line.driving = .nothing ∧ t.line.idleCount = 0
        ∧ RowUnchanged s t ∧ t.clock = s.clock ∧ t.signal = s.signal ∧ t.port = s.port
        ∧ ControlUnchanged s t) ∧
    ∀ k, exec (.grantReport (.abandoned k)) s = exec (.heldEntry (List.replicate k 0)) s

/-! ### The notice queue (chapter 2) -/

/-- R34, R35: a notice given to the queue. An ARRIVE already queued is not added, and a TAKEN or LAPSE of
count 1 joins the newest entry for the same account that is not in flight, up to 8, whether the queue has
room or not; every other notice becomes a new entry at the tail of a queue with room. At 16 entries, where
no entry can take it up, an ARRIVE is dropped; any other notice evicts the oldest ARRIVE that is not in
flight, and where there is none it is dropped and NOTICE LOSS is set. Nothing else changes. -/
def Obligations.NoticesMergeJoinOrEvict : Prop :=
  (∀ (body : NoticeBody) (s : State),
     (∀ spec, body = .arrive spec → (∃ n ∈ s.frames.queue, n.body = body) → takeNotice body s = s) ∧
     (∀ before target after, countOf body = 1 →
       s.frames.queue = before ++ target :: after →
       sameAccount target.body body = true → target.inFlight = false →
       (∀ n ∈ after, ¬ (sameAccount n.body body = true ∧ n.inFlight = false)) →
       (countOf target.body < 8 → takeNotice body s =
         { s with frames := { s.frames with
             queue := before ++ { target with
               body := withCount target.body (countOf target.body + 1) } :: after } }) ∧
       (8 ≤ countOf target.body → s.frames.queue.length < 16 → takeNotice body s =
         { s with frames := { s.frames with
             queue := s.frames.queue ++ [{ body := body, flaws := 0, inFlight := false }] } })) ∧
     (s.frames.queue.length < 16 → (∀ n ∈ s.frames.queue, n.body ≠ body ∨ ∀ spec, body ≠ .arrive spec) →
       (∀ n ∈ s.frames.queue, ¬ (sameAccount n.body body = true ∧ n.inFlight = false)) →
       takeNotice body s =
         { s with frames := { s.frames with
             queue := s.frames.queue ++ [{ body := body, flaws := 0, inFlight := false }] } })) ∧
  ∀ (body : NoticeBody) (s : State), s.frames.queue.length = 16 →
    (∀ n ∈ s.frames.queue, sameAccount n.body body = true → n.inFlight = false → 8 ≤ countOf n.body) →
    (∀ spec, body = .arrive spec → takeNotice body s = s) ∧
    ((∀ spec, body ≠ .arrive spec) →
      (∀ before oldest after, s.frames.queue = before ++ oldest :: after →
        isWaitingArrive oldest = true → (∀ n ∈ before, isWaitingArrive n = false) →
        takeNotice body s =
          { s with frames := { s.frames with
              queue := before ++ after ++ [{ body := body, flaws := 0, inFlight := false }] } }) ∧
      ((∀ n ∈ s.frames.queue, isWaitingArrive n = false) →
        takeNotice body s =
          { s with port := { s.port with flags := { s.port.flags with noticeLoss := true } } }))

/-! ### Heard frames (chapters 2, 5, 6, 8 and 11) -/

/-- R3, R6, R7, R8, R14, R22, R23: which flaws a station finds before the flaw slot; that it pulls the
slot in SERVICE alone, for such a flaw, where it reaches and has placed the slot; when a frame is
accepted; and which notices and GRANTs are not inert. A notice that is not accepted, followed outside a
round, leaves nothing but its report and a QUIET line; one that is accepted in LISTEN or DUPLICATE, or
that is inert, reaches the clock alone. A frame whose character 1 names none of the seven kinds, whatever
command brings it, is heard as such a notice and is never accepted. The report field is the model's own,
log entry 10. That a station which could not sample the flaw slot reads the level on the wire there is its
choice, log entry 13. -/
def Obligations.UnacceptedNoticesLeaveNoTrace : Prop :=
  (∀ (n : Nat) (f : RxFrame n) (s : State),
    let odd := fun (c : Sampled) => countOnes c % 2 = 1
    let known : Prop := dataBits f.kindChar ∈ [0x01, 0x02, 0x03, 0x04, 0x05, 0x10, (0x11 : Byte)]
    (flawBeforeSlot f = true ↔
      odd f.kindChar ∨ odd f.sender ∨ odd f.minuteHigh ∨ odd f.minuteLow ∨ odd f.status
        ∨ (∃ c ∈ f.body.toList, odd c) ∨ ¬ known ∨ (dataBits f.sender).getLsbD 7 = true
        ∨ f.framing = .beforeFlawSlot) ∧
    (pullsFlawSlot f s = true ↔
      s.startup.station = .service ∧ flawBeforeSlot f = true ∧ f.framing ≠ .atFlawSlot
        ∧ (known ∨ n = 6)) ∧
    (flawSlotReads f s = true ↔ f.flawSlotPulled = true ∨ pullsFlawSlot f s = true) ∧
    (frameAccepted f s = true ↔
      flawSlotReads f s = false ∧ flawBeforeSlot f = false ∧ f.framing = .none) ∧
    (senderIsGate f = true ↔ (dataBits f.sender).getLsbD 6 = true) ∧
    senderNumber f = (dataBits f.sender).toNat % 64) ∧
  ((∀ f : RxFrame 4, hailValid f = true) ∧
    (∀ f : RxFrame 2,
      let value := fun (i : Fin 2) => (dataBits f.body[i]).toNat
      (voidValid f = true ↔ senderIsGate f = true ∧ 1 ≤ value 0 * 256 + value 1) ∧
      (arriveValid f = true ↔
        senderIsGate f = false ∧ value 0 ≤ 63 ∧ (dataBits f.body[1]).getLsbD 3 = false)) ∧
    ∀ f : RxFrame 5,
      let value := fun (i : Fin 5) => (dataBits f.body[i]).toNat
      (countedValid f = true ↔
        senderIsGate f = false ∧ value 0 ≤ 63 ∧ 1 ≤ value 1 * 256 + value 2
          ∧ 1 ≤ value 3 ∧ value 3 ≤ 4 ∧ 1 ≤ value 4 ∧ value 4 ≤ 8) ∧
      (grantValid f = true ↔
        senderIsGate f = true ∧ 1 ≤ value 0 * 256 + value 1 ∧ 1 ≤ value 2 ∧ value 2 ≤ 4
          ∧ value 3 ≤ 63 ∧ value 4 ≤ 8)) ∧
  (∀ s : State,
    let unknown := fun {n : Nat} (f : RxFrame n) => kindOfCode (dataBits f.kindChar) = none
    (∀ (n : Nat) (f : RxFrame n), unknown f → frameAccepted f s = false) ∧
    (∀ f : RxFrame 4, unknown f →
      exec (.hailReceived f) s = .next (hearNotice f false (fun t => t) s)) ∧
    (∀ f : RxFrame 2, unknown f →
      exec (.voidReceived f) s = .next (hearNotice f false (fun t => t) s) ∧
      exec (.arriveReceived f) s = .next (hearNotice f false (fun t => t) s)) ∧
    (∀ f : RxFrame 5, unknown f →
      exec (.takenReceived f) s = .next (hearNotice f false (fun t => t) s) ∧
      exec (.lapseReceived f) s = .next (hearNotice f false (fun t => t) s) ∧
      exec (.grantReceived f) s = .next (hearNotice f false (fun t => t) s)) ∧
    (∀ (f : RxFrame 6) (started : Bool), unknown f →
      exec (.callReceived f started) s = .next (hearNotice f false (fun t => t) s))) ∧
  ∀ (n : Nat) (f : RxFrame n) (valid : Bool) (owners : State → State) (s : State),
    hearsFrame s = true → (∀ h, s.hold = some h → h.phase = .waiting) →
    (frameAccepted f s = false →
      hearNotice f valid owners s =
        { s with
          line := { s.line with
            condition := .quiet, activity := .nothing, driving := .nothing, idleCount := 0, stuckCount := 0
            report := some { outcome := .discarded, flawSlot := flawSlotReads f s
                             confirmSlot := f.confirmSlotPulled, pulledFlaw := pullsFlawSlot f s
                             pulledConfirm := false } } }) ∧
    (frameAccepted f s = true → s.startup.station ≠ .service ∨ valid = false →
      hearNotice f valid owners s =
        { hearMinute (headerMinute f) (headerSet f) s with
          line := { s.line with
            condition := .quiet, activity := .nothing, driving := .nothing, idleCount := 0, stuckCount := 0
            report := some { outcome := .accepted, flawSlot := false
                             confirmSlot := f.confirmSlotPulled, pulledFlaw := false
                             pulledConfirm := false } } })

/-- R60, R94, R96, R130, R132, R133, R134, R135: what the Yard Clock does with an accepted header. An
unset header is passed over; an unset clock adopts a set one; a set clock keeps its minute at delta 0,
jumps by 1 to 30, and beyond that is held with CLOCK CONFLICT. A forward jump makes one hour step exactly
when a multiple of 60 lies among the minutes jumped over, and at a row one overdue sweep at the new
minute, with the pick lamp requested when it marks the head; nothing else changes. A gate's jump moves the
clock alone. -/
def Obligations.HeardMinutesAreJudgedByTheirDistance : Prop :=
  (∀ (m : Minute) (s : State),
    hearMinute m false s = s ∧
    (s.clock.isSet = false → hearMinute m true s =
      { s with
        clock := { minute := m, second := 0, fraction := 0, isSet := true }
        picks :=
          if s.startup.settings.role = .row then s.picks.map fun e => { e with grantMinute := m }
          else s.picks }) ∧
    (s.clock.isSet = true →
      (m = s.clock.minute → hearMinute m true s = s) ∧
      (1 ≤ (m - s.clock.minute).toNat → (m - s.clock.minute).toNat ≤ 30 →
        (hearMinute m true s).clock = { minute := m, second := 0, fraction := 0, isSet := true }) ∧
      (31 ≤ (m - s.clock.minute).toNat →
        hearMinute m true s =
          { s with port := { s.port with flags := { s.port.flags with clockConflict := true } } }))) ∧
  (∀ (m : Minute) (s : State), s.clock.isSet = true → s.startup.settings.role = .gate →
    1 ≤ (m - s.clock.minute).toNat → (m - s.clock.minute).toNat ≤ 30 →
    hearMinute m true s =
      { s with clock := { minute := m, second := 0, fraction := 0, isSet := true } }) ∧
  (∀ (m : Minute) (s : State), s.clock.isSet = true → s.startup.settings.role = .row →
    1 ≤ (m - s.clock.minute).toNat → (m - s.clock.minute).toNat ≤ 30 →
    let swept := s.picks.map fun e =>
      if s.startup.settings.pickLimit ≠ 0 ∧ s.startup.settings.pickLimit ≤ (m - e.grantMinute).toNat then
        { e with overdue := true } else e
    let jumped : State :=
      { s with
        clock := { minute := m, second := 0, fraction := 0, isSet := true }
        stock :=
          if ∃ i ∈ List.range (m - s.clock.minute).toNat,
              (s.clock.minute.toNat + (i + 1)) % 65536 % 60 = 0 then
            mapPacks (fun p => { p with age := min 255 (p.age + 1) }) s.stock
          else s.stock }
    let t := hearMinute m true s
    t = withPicks swept jumped ∧ t.picks = swept ∧ t.signal = (withPicks swept s).signal
      ∧ t.stock = jumped.stock ∧ t.clock = jumped.clock ∧ t.port = s.port ∧ t.hold = s.hold
      ∧ t.bid = s.bid ∧ t.line = s.line ∧ t.frames = s.frames ∧ GateUnchanged s t
      ∧ ControlUnchanged s t)

/-- R23, R24, R26, R90, R91, R96: a row in SERVICE that accepts a gate's VOID or HAIL releases the pick
entries of that gate and ticket, or of that gate, and returns their packs to FREE; the other entries keep
their places, the pick lamp follows the head, and no notice answers. The clock has taken the header first.
A TAKEN, a LAPSE, an ARRIVE and a row's HAIL have no owner at a row: they leave it as the frame's end
does. That the number check comes before the release is the model's deduction, log entry 12, and the
outcome is one; that a HAIL with the row's own number and serial releases too is its deduction, log entry
28. -/
def Obligations.RowReleasesForVoidAndGateHail : Prop :=
  ∀ s : State, hearsFrame s = true → s.startup.station = .service →
    s.startup.settings.role = .row → s.hold = none →
    (∀ f : RxFrame 2, dataBits f.kindChar = 0x02 → frameAccepted f s = true → senderIsGate f = true →
      1 ≤ voidTicket f →
      let ended := hearMinute (headerMinute f) (headerSet f) s
      let left := ended.picks.filter (fun e =>
        ¬ (e.order.gate = senderNumber f ∧ e.order.ticket = voidTicket f))
      ∃ t, exec (.voidReceived f) s = .next t
        ∧ t.picks = left ∧ t.signal = (withPicks left ended).signal
        ∧ t.stock = releasePacks
            ((s.picks.filter (fun e =>
              e.order.gate = senderNumber f ∧ e.order.ticket = voidTicket f)).map fun e => e.tag)
            ended.stock
        ∧ t.hold = none ∧ t.bid = s.bid ∧ GateUnchanged s t ∧ t.frames = s.frames
        ∧ t.clock = ended.clock
        ∧ t.line.condition = .quiet ∧ t.line.driving = .nothing
        ∧ t.port = ended.port ∧ ControlUnchanged s t) ∧
    (∀ f : RxFrame 4, dataBits f.kindChar = 0x01 → frameAccepted f s = true → senderIsGate f = true →
      senderNumber f ≠ s.startup.settings.number ∨ hailSerial f = s.startup.serial →
      let ended := hearMinute (headerMinute f) (headerSet f) s
      let left := ended.picks.filter (fun e => e.order.gate ≠ senderNumber f)
      ∃ t, exec (.hailReceived f) s = .next t
        ∧ t.picks = left ∧ t.signal = (withPicks left ended).signal
        ∧ t.stock = releasePacks
            ((s.picks.filter (fun e => e.order.gate = senderNumber f)).map fun e => e.tag)
            ended.stock
        ∧ t.hold = none ∧ t.bid = s.bid ∧ GateUnchanged s t ∧ t.frames = s.frames
        ∧ t.clock = ended.clock
        ∧ t.line.condition = .quiet ∧ t.line.driving = .nothing
        ∧ t.port = ended.port ∧ ControlUnchanged s t) ∧
    (∀ f : RxFrame 5,
      (dataBits f.kindChar = 0x04 → exec (.takenReceived f) s = .next (frameOver f s)) ∧
      (dataBits f.kindChar = 0x03 → exec (.lapseReceived f) s = .next (frameOver f s))) ∧
    (∀ f : RxFrame 2, dataBits f.kindChar = 0x05 →
      exec (.arriveReceived f) s = .next (frameOver f s)) ∧
    (∀ f : RxFrame 4, dataBits f.kindChar = 0x01 → senderIsGate f = false →
      senderNumber f ≠ s.startup.settings.number ∨ hailSerial f = s.startup.serial →
      exec (.hailReceived f) s = .next (frameOver f s))

/-- R25, R168: a station in SERVICE that accepts a HAIL of its own number, whatever the role, enters
DUPLICATE when the serial is not its own, and stays in SERVICE when it is. -/
def Obligations.HailOfTheOwnNumberIsADuplicate : Prop :=
  ∀ (f : RxFrame 4) (s : State), hearsFrame s = true → s.startup.station = .service →
    dataBits f.kindChar = 0x01 → frameAccepted f s = true → senderNumber f = s.startup.settings.number →
    ∃ t, exec (.hailReceived f) s = .next t
      ∧ t.startup = { s.startup with
          station := if hailSerial f = s.startup.serial then .service else .duplicate }
      ∧ (hailSerial f ≠ s.startup.serial →
          t.frames.queue = [] ∧ t.bid = .idle ∧ t.hold = none ∧ t.picks = [] ∧ t.arbiter = .idle
            ∧ t.line.driving = .nothing ∧ ∀ u ∈ t.trucks, ∀ l ∈ u.lines, l.awards = [])

/-- R23, R24, R104, R105, R106, R107: a gate in SERVICE that accepts a TAKEN or LAPSE naming it settles it
against the line it names, with SURPLUS when the row's records hold less than the TAKEN's count; a row's
HAIL brings that row's records down on every line of every truck; an ARRIVE re-opens the SHORT lines it
matches. Each changes the table through gateChanged, on the state in which the frame is over. A notice for
another gate or for no line, a gate's HAIL and a VOID leave that state alone. That a row's HAIL with this
gate's own number and serial brings records down too is the model's deduction, log entry 28. -/
def Obligations.GateSettlesTheNoticesItHears : Prop :=
  ∀ s : State, hearsFrame s = true → s.startup.station = .service →
    s.startup.settings.role = .gate → s.hold = none →
    (∀ (f : RxFrame 5) (l : OrderLine), frameAccepted f s = true → senderIsGate f = false →
      (noticeKey f).gate = s.startup.settings.number → s.startup.settings.number ≤ 63 →
      1 ≤ (noticeKey f).ticket → 1 ≤ (noticeKey f).line → (noticeKey f).line ≤ 4 →
      1 ≤ noticeCount f → noticeCount f ≤ 8 →
      findOrderLine (noticeKey f).ticket (noticeKey f).line s.trucks = some l →
      let held := ((l.awards.filter fun a => a.row = senderNumber f).map untaken).sum
      let ended := frameOver f s
      let flagged : State :=
        if noticeCount f ≤ held then ended
        else { ended with port := { ended.port with flags := { ended.port.flags with surplus := true } } }
      (dataBits f.kindChar = 0x04 → exec (.takenReceived f) s = .next (gateChanged
        (mapOrderLine (noticeKey f).ticket (noticeKey f).line
          (takenOnLine (senderNumber f) (noticeCount f)) s.trucks) flagged)) ∧
      (dataBits f.kindChar = 0x03 → exec (.lapseReceived f) s = .next (gateChanged
        (mapOrderLine (noticeKey f).ticket (noticeKey f).line
          (lapseOnLine (senderNumber f) (noticeCount f)) s.trucks) ended))) ∧
    (∀ f : RxFrame 5, frameAccepted f s = true →
      (noticeKey f).gate ≠ s.startup.settings.number
        ∨ findOrderLine (noticeKey f).ticket (noticeKey f).line s.trucks = none →
      (dataBits f.kindChar = 0x04 → exec (.takenReceived f) s = .next (frameOver f s)) ∧
      (dataBits f.kindChar = 0x03 → exec (.lapseReceived f) s = .next (frameOver f s))) ∧
    (∀ f : RxFrame 4, dataBits f.kindChar = 0x01 → frameAccepted f s = true →
      senderNumber f ≠ s.startup.settings.number ∨ hailSerial f = s.startup.serial →
      (senderIsGate f = false → exec (.hailReceived f) s = .next (gateChanged
        (s.trucks.map fun u =>
          { u with lines := u.lines.map (bringDown fun a => a.row == senderNumber f) })
        (frameOver f s))) ∧
      (senderIsGate f = true → exec (.hailReceived f) s = .next (frameOver f s))) ∧
    (∀ f : RxFrame 2, dataBits f.kindChar = 0x02 → exec (.voidReceived f) s = .next (frameOver f s)) ∧
    (∀ f : RxFrame 2, dataBits f.kindChar = 0x05 → frameAccepted f s = true → senderIsGate f = false →
      (arriveSpec f).family ≤ 63 → bodyValue f 1 / 8 % 2 = 0 →
      exec (.arriveReceived f) s = .next (gateChanged
        (s.trucks.map fun u =>
          { u with
            lines := u.lines.map fun l =>
              if lineState l = .short ∧ l.spec.family = (arriveSpec f).family
                  ∧ l.spec.size = (arriveSpec f).size
                  ∧ (l.spec.grade = (arriveSpec f).grade
                      ∨ (l.upgrade = true ∧ (arriveSpec f).grade < l.spec.grade)) then
                { l with emptyRounds := 0 }
              else l })
        (frameOver f s)))

/-- R28, R99, R100, R104, R105, R106: what a notice does to the accounts of a sound line. A TAKEN raises T
by what the row's records still hold, up to its count, and keeps G; a LAPSE lowers G by it and keeps T; a
row's HAIL returns all of it. A TAKEN spends the row's oldest record first and a LAPSE lowers its newest
first: each record bears what the count leaves after the records that come before it in that order.
Records of other rows keep their order and their counts, the line keeps its spec, its upgrade flag, its
wanted quantity and its empty-round count, and it stays sound. -/
def Obligations.NoticesSettleTheRowsOwnAwards : Prop :=
  ∀ (row count : Nat) (l : OrderLine), orderLineSound l →
    let held := ((l.awards.filter fun a => a.row = row).map untaken).sum
    let kept := fun (m : OrderLine) =>
      m.spec = l.spec ∧ m.upgrade = l.upgrade ∧ m.wanted = l.wanted ∧ m.emptyRounds = l.emptyRounds
    (kept (takenOnLine row count l) ∧ kept (lapseOnLine row count l)
      ∧ kept (bringDown (fun a => a.row == row) l)) ∧
    (lineTaken (takenOnLine row count l) = lineTaken l + min count held
      ∧ lineGranted (takenOnLine row count l) = lineGranted l
      ∧ (takenOnLine row count l).awards.filter (fun a => a.row ≠ row)
          = l.awards.filter (fun a => a.row ≠ row)
      ∧ orderLineSound (takenOnLine row count l)) ∧
    (lineGranted (lapseOnLine row count l) = lineGranted l - min count held
      ∧ lineTaken (lapseOnLine row count l) = lineTaken l
      ∧ (lapseOnLine row count l).awards.filter (fun a => a.row ≠ row)
          = l.awards.filter (fun a => a.row ≠ row)
      ∧ orderLineSound (lapseOnLine row count l)) ∧
    (lineGranted (bringDown (fun a => a.row == row) l) = lineGranted l - held
      ∧ lineTaken (bringDown (fun a => a.row == row) l) = lineTaken l
      ∧ (bringDown (fun a => a.row == row) l).awards = l.awards.filter (fun a => a.row ≠ row)
      ∧ orderLineSound (bringDown (fun a => a.row == row) l)) ∧
    ∀ before a after, l.awards = before ++ a :: after → a.row = row →
      let own := fun (awards : List Award) => ((awards.filter fun b => b.row = row).map untaken).sum
      let spent := count - own before
      let withdrawn := count - own after
      (takenOnLine row count l).awards =
          (takenOnLine row count { l with awards := before }).awards
            ++ (if untaken a ≤ spent then [] else [{ a with taken := a.taken + spent }])
            ++ (takenOnLine row (spent - untaken a) { l with awards := after }).awards
        ∧ (lapseOnLine row count l).awards =
          (lapseOnLine row (withdrawn - untaken a) { l with awards := before }).awards
            ++ (if untaken a ≤ withdrawn then [] else [{ a with granted := a.granted - withdrawn }])
            ++ (lapseOnLine row count { l with awards := after }).awards

/-- R3, R6, R7, R29, R30, R31, R138: the code, the body length and the frame length of each kind, and the
bytes of every header and body. A frame is read back as it was sent: every character with its even parity,
the sender, the minute and the clock-set bit of the header, and every field of every body. A character
that is missing reads as 0 in cleanFrame, the model's own helper. -/
def Obligations.SentFramesAreReadBack : Prop :=
  ([FrameKind.hail, .void, .lapse, .taken, .arrive, .call, .grant].map
      (fun k => (kindCode k, bodyLength k, frameLength k))
    = [(0x01, 4, 86), (0x02, 2, 68), (0x03, 5, 95), (0x04, 5, 95), (0x05, 2, 68), (0x10, 6, 104),
        (0x11, 5, 95)]) ∧
  (∀ (kind : FrameKind) (s : State), headerBytes kind s =
    [kindCode kind,
      BitVec.ofNat 8 (s.startup.settings.number + if s.startup.settings.role = .gate then 64 else 0),
      s.clock.minute.extractLsb' 8 8, s.clock.minute.extractLsb' 0 8, if s.clock.isSet then 1 else 0]) ∧
  ((∀ serial : BitVec 32, noticeBytes (.hail serial) =
      [serial.extractLsb' 24 8, serial.extractLsb' 16 8, serial.extractLsb' 8 8,
        serial.extractLsb' 0 8]) ∧
    (∀ spec : PackSpec, noticeBytes (.arrive spec) =
      [BitVec.ofNat 8 spec.family, BitVec.ofNat 8 (spec.size * 16 + spec.grade)]) ∧
    ∀ ticket : Nat, ticket ≤ 65535 →
      let high := BitVec.ofNat 8 (ticket / 256)
      let low := BitVec.ofNat 8 (ticket % 256)
      noticeBytes (.void ticket) = [high, low] ∧
      (∀ (key : OrderKey) (count : Nat), key.ticket = ticket →
        noticeBytes (.taken key count) =
            [BitVec.ofNat 8 key.gate, high, low, BitVec.ofNat 8 key.line, BitVec.ofNat 8 count] ∧
        noticeBytes (.lapse key count) =
            [BitVec.ofNat 8 key.gate, high, low, BitVec.ofNat 8 key.line, BitVec.ofNat 8 count]) ∧
      ∀ r : CallRecord, r.ticket = ticket →
        callBytes r =
            [high, low, BitVec.ofNat 8 (r.line * 16 + r.bay), BitVec.ofNat 8 r.spec.family,
              BitVec.ofNat 8 (r.spec.size * 16 + (if r.upgrade then 8 else 0) + r.spec.grade),
              BitVec.ofNat 8 r.wanted] ∧
        ∀ winner count : Nat, grantBytes r winner count =
          [high, low, BitVec.ofNat 8 r.line, BitVec.ofNat 8 winner, BitVec.ofNat 8 count]) ∧
  (∀ (kind : FrameKind) (s : State) (body : List Byte), s.startup.settings.number ≤ 63 →
    let f := cleanFrame (bodyLength kind) (sentCharacters (headerBytes kind s ++ body))
    flawBeforeSlot f = false ∧ kindOfCode (dataBits f.kindChar) = some kind
      ∧ senderNumber f = s.startup.settings.number
      ∧ (senderIsGate f = true ↔ s.startup.settings.role = .gate)
      ∧ headerMinute f = s.clock.minute ∧ headerSet f = s.clock.isSet) ∧
  ∀ header : List Byte, header.length = 5 →
    (∀ serial, hailSerial (cleanFrame 4 (sentCharacters (header ++ noticeBytes (.hail serial)))) = serial) ∧
    (∀ ticket, ticket ≤ 65535 →
      voidTicket (cleanFrame 2 (sentCharacters (header ++ noticeBytes (.void ticket)))) = ticket) ∧
    (∀ (key : OrderKey) (count : Nat), key.gate ≤ 63 → key.ticket ≤ 65535 → key.line ≤ 4 → count ≤ 8 →
      noticeKey (cleanFrame 5 (sentCharacters (header ++ noticeBytes (.taken key count)))) = key
        ∧ noticeCount (cleanFrame 5 (sentCharacters (header ++ noticeBytes (.taken key count)))) = count
        ∧ noticeKey (cleanFrame 5 (sentCharacters (header ++ noticeBytes (.lapse key count)))) = key
        ∧ noticeCount (cleanFrame 5 (sentCharacters (header ++ noticeBytes (.lapse key count)))) = count) ∧
    (∀ spec : PackSpec, spec.family ≤ 63 → spec.size ≤ 15 → spec.grade ≤ 7 →
      arriveSpec (cleanFrame 2 (sentCharacters (header ++ noticeBytes (.arrive spec)))) = spec) ∧
    (∀ r : CallRecord, r.ticket ≤ 65535 → r.line ≤ 4 → r.bay ≤ 8 → r.spec.family ≤ 63 →
      r.spec.size ≤ 15 → r.spec.grade ≤ 7 → r.wanted ≤ 99 →
      let c := callFields (cleanFrame 6 (sentCharacters (header ++ callBytes r)))
      c.ticket = r.ticket ∧ c.line = r.line ∧ c.bay = r.bay ∧ c.spec = r.spec
        ∧ c.upgrade = r.upgrade ∧ c.wanted = r.wanted) ∧
    (∀ (r : CallRecord) (winner count : Nat), r.ticket ≤ 65535 → r.line ≤ 4 → winner ≤ 63 → count ≤ 8 →
      grantFields (cleanFrame 5 (sentCharacters (header ++ grantBytes r winner count)))
        = { ticket := r.ticket, line := r.line, winner := winner, count := count })

/-! ### Rounds (chapters 2, 4, 5 and 7) -/

/-- R14, R17, R23, R30, R38, R39, R46, R49, R63, R64, R165: what the view holds of each record, the
distance of each bay, the fields of a CALL and which CALLs are not inert. A CALL opens a round of its
sender. With the flaw slot pulled the round ends at the end mark; otherwise it goes to STRETCH, where a
row computes exactly when it accepted the CALL, the CALL is not inert and the row is eligible: it then
stretches, from the view, the distance and the free entries of that moment. That the clock has taken the
header before the view is the model's deduction, log entry 11; that for a station which could not sample
the flaw slot the frame's own slot level decides is its choice, log entry 13. The report field is the
model's own, log entry 10. -/
def Obligations.CallOpensARoundAndAnEligibleRowComputes : Prop :=
  (∀ stock : Stock,
    (viewOf stock).map (fun v => v.tag) = (allPacks stock).map (fun p => p.tag) ∧
    ∀ v : ViewPack, v ∈ viewOf stock ↔
      ∃ below p above, v.stack < 16 ∧ stackAt stock v.stack = below ++ p :: above
        ∧ v = { tag := p.tag, spec := p.spec, stack := v.stack, tier := below.length + 1
                dig := above.length, age := p.age, state := p.state }) ∧
  (∀ (bay : Fin 8) (s : State), distanceTo (bay + 1) s = s.startup.settings.distances[bay]) ∧
  (∀ f : RxFrame 6,
    let value := fun (i : Fin 6) => (dataBits f.body[i]).toNat
    callFields f =
        { gate := senderNumber f, ticket := value 0 * 256 + value 1, line := value 2 / 16
          bay := value 2 % 16
          spec := { family := value 3, size := value 4 / 16, grade := value 4 % 8 }
          upgrade := (dataBits f.body[4]).getLsbD 3, wanted := value 5 } ∧
    (callValid f = true ↔
      senderIsGate f = true ∧ 1 ≤ (callFields f).ticket
        ∧ 1 ≤ (callFields f).line ∧ (callFields f).line ≤ 4
        ∧ 1 ≤ (callFields f).bay ∧ (callFields f).bay ≤ 8 ∧ (callFields f).spec.family ≤ 63
        ∧ 1 ≤ (callFields f).wanted ∧ (callFields f).wanted ≤ 99)) ∧
  ∀ (f : RxFrame 6) (started : Bool) (s : State), hearsFrame s = true → s.hold = none →
    dataBits f.kindChar = 0x10 →
    let round : RoundView :=
      { owner := senderNumber f, own := false, phase := .stretch, part := .none
        silence := 0, pulsing := false }
    let computes : Prop :=
      frameAccepted f s = true ∧ callValid f = true
        ∧ s.startup.settings.role = .row ∧ s.startup.station = .service ∧ started = true
        ∧ haltAsserted s = false ∧ closeAsserted s = false ∧ s.picks.length < 24
        ∧ distanceTo (callFields f).bay s ≠ 63
        ∧ ∃ v ∈ viewOf s.stock, matchesCall (callFields f) v = true
    (flawSlotReads f s = true → exec (.callReceived f started) s = .next
      { s with
        line := { freedLine false s.line with
          report := some { outcome := .discarded, flawSlot := true, confirmSlot := f.confirmSlotPulled
                           pulledFlaw := pullsFlawSlot f s, pulledConfirm := false } }
        frames := { s.frames with round := none, yieldRecord := false } }) ∧
    (flawSlotReads f s = false → ∃ t, exec (.callReceived f started) s = .next t
      ∧ t.line.condition = .busy ∧ t.line.activity = .nothing ∧ t.line.idleCount = 0
      ∧ t.stock = (heard f s).stock ∧ t.picks = (heard f s).picks ∧ t.hold = none
      ∧ t.clock = (heard f s).clock ∧ t.signal = (heard f s).signal ∧ t.port = (heard f s).port
      ∧ t.frames.queue = s.frames.queue ∧ t.frames.yieldRecord = s.frames.yieldRecord
      ∧ GateUnchanged s t ∧ ControlUnchanged s t
      ∧ (computes →
          t.bid = .computing
            { call := callFields f, view := viewOf (heard f s).stock
              distance := distanceTo (callFields f).bay s, freeEntries := 24 - s.picks.length
              limit := some (s.startup.settings.stretchLimit * 2000) }
          ∧ t.line.driving = .stretch ∧ t.frames.round = some { round with part := .computing })
      ∧ (¬ computes → t.bid = s.bid ∧ t.line.driving = s.line.driving ∧ t.frames.round = some round))

/-- R40, R63, R70, R71: a computation of 10 µs and 15 µs a record meets its limit or does not; it then fills
in the result and the row is READY, or the row sits out. Either way TW is released. Where the two fall
together either may be taken. That the event the quantities rule out changes nothing is the model's
choice, log entry 6. -/
def Obligations.ComputationMeetsItsLimitOrSitsOut : Prop :=
  ∀ (r : BidRecord) (s : State), s.bid = .computing r →
    let ended := fun (part : RowPart) (bid : BidUnit) =>
      { s with
        bid := bid
        line := { s.line with driving := .nothing }
        frames := { s.frames with round := s.frames.round.map fun v => { v with part := part } } }
    let duration := 10 + 15 * r.view.length
    let limit := 1000 * s.startup.settings.stretchLimit
    (duration ≤ limit → exec .computationComplete s = .next
      (ended .ready (.ready { r with limit := none }
        (computeBid r s.startup.settings.ageCap s.startup.settings.number)))) ∧
    (limit < duration → exec .computationComplete s = .next s) ∧
    (limit ≤ duration → exec .stretchLimitExpiry s = .next (ended .satOut .idle)) ∧
    (duration < limit → exec .stretchLimitExpiry s = .next s)

/-- R16, R17, R40, R41, R72, R74: the slot's end makes the phase WINDOW and gives a ready row's word, unless
this row itself still pulls TW; at a pulse a bidding row sends the next bit of its word, highest first, and
the owner drives its pulses; every pulse sets the silence count to 0. A row that sends slack and reads DW
pulled notes the loss and drives nothing from then on. That a slot end under the row's own pull changes
nothing is the model's choice, log entry 1; that the command stands for each pulse of another's window,
with DW's level, log entry 27; that a pulse is one bit of the row's word, log entry 14. -/
def Obligations.SlotEndAndFirstPulseOpenTheWindow : Prop :=
  ∀ (v : RoundView) (s : State), observes s = true → s.frames.round = some v →
    (v.phase = .stretch → s.line.driving = .stretch → exec .stretchSlotEnd s = .next s) ∧
    (v.phase = .stretch → s.line.driving ≠ .stretch →
      let opened : State :=
        { s with
          frames := { s.frames with
            round := some { v with phase := .window, silence := 0, pulsing := false } } }
      (∀ r res, s.bid = .ready r res →
        exec .stretchSlotEnd s = .next { opened with bid := .bidding r res }) ∧
      (s.bid = .idle → exec .stretchSlotEnd s = .next opened)) ∧
    (v.phase = .window →
      ∀ dw : Bool,
      let pulsed := fun (d : Driving) (bid : BidUnit) =>
        { s with
          bid := bid
          line := { s.line with driving := d }
          frames := { s.frames with round := some { v with silence := 0, pulsing := true } } }
      (s.startup.station = .service →
        (∀ r res, s.bid = .bidding r res →
          (r.lost = true → exec (.bidWindowStart dw) s = .next (pulsed .nothing s.bid)) ∧
          (r.lost = false → 27 ≤ r.sent → exec (.bidWindowStart dw) s = .next (pulsed .bidWord s.bid)) ∧
          (r.lost = false → r.sent < 27 →
            let loses := dw && res.word.getLsbD (26 - r.sent)
            exec (.bidWindowStart dw) s = .next
              (pulsed (if loses then .nothing else .bidWord)
                (.bidding { r with sent := r.sent + 1, lost := loses } res)))) ∧
        (s.bid = .idle → v.own = true →
          exec (.bidWindowStart dw) s = .next (pulsed .windowPulses .idle)) ∧
        (s.bid = .idle → v.own = false →
          exec (.bidWindowStart dw) s = .next (pulsed s.line.driving .idle))) ∧
      (s.startup.station ≠ .service →
        exec (.bidWindowStart dw) s = .next (pulsed s.line.driving s.bid)))

/-- R32, R41, R47, R48, R74, R75, R79: what a hold, a settle and a release request do to every record of
every stack. At the close a bidding row becomes IDLE; having lost no bit it holds the selected packs for
the order, in selection order, with the 64 bt grant wait; having lost one, noted at its pulse or read off
the word, it keeps nothing. On a bid every station waits for the GRANT, on any other class the round ends.
That a loss at a bit whose pulse was not commanded is read off the word is the model's choice, log entry
14. -/
def Obligations.WindowCloseAtARow : Prop :=
  (∀ (stock : Stock) (n : Nat),
    (∀ named : List Nat, stackAt (holdPacks named stock) n = (stackAt stock n).map fun p =>
      if p.tag ∈ named ∧ p.state = .free then { p with state := .held } else p) ∧
    (∀ (named covered : List Nat) (order : Reservation),
      stackAt (settlePacks named covered order stock) n = (stackAt stock n).map fun p =>
        if p.tag ∈ covered ∧ p.state = .held then { p with state := .reserved order }
        else if p.tag ∈ named ∧ p.state = .held then { p with state := .free }
        else p) ∧
    ∀ named : List Nat, stackAt (releasePacks named stock) n = (stackAt stock n).map fun p =>
      if p.tag ∈ named ∧ isReserved p.state = true then { p with state := .free } else p) ∧
  ∀ (word : BidWord) (dw : Bool) (v : RoundView) (s : State), observes s = true →
    s.frames.round = some v → v.phase = .window → v.pulsing = true → v.own = false →
    let goesOn := fun (t : State) (part : RowPart) =>
      { t with
        line := { s.line with driving := .nothing }
        frames := { s.frames with
          round := some { v with phase := .grantWait, part := part, silence := 0, pulsing := false } } }
    let ends := fun (t : State) =>
      { t with
        line := freedLine dw s.line
        frames := { s.frames with round := none, yieldRecord := false } }
    (s.bid = .idle →
      (classOfWord word = .bid → exec (.bidWindowClose word dw) s = .next (goesOn s v.part)) ∧
      (classOfWord word ≠ .bid → exec (.bidWindowClose word dw) s = .next (ends s))) ∧
    (∀ r res, s.bid = .bidding r res →
      (r.lost = true ∨ rowLost res.word word = true →
        (classOfWord word = .bid →
          exec (.bidWindowClose word dw) s = .next (goesOn { s with bid := .idle } .none)) ∧
        (classOfWord word ≠ .bid →
          exec (.bidWindowClose word dw) s = .next (ends { s with bid := .idle }))) ∧
      (r.lost = false → rowLost res.word word = false → classOfWord word = .bid →
        exec (.bidWindowClose word dw) s = .next
          (goesOn
            { s with
              bid := .idle
              hold := some
                { order := { gate := r.call.gate, ticket := r.call.ticket, line := r.call.line
                             bay := r.call.bay }
                  packs := res.selection.map fun a => a.tag
                  phase := .waiting, grantWait := some 64, decision := .none }
              stock := holdPacks (res.selection.map fun a => a.tag) s.stock } .none)))

/-- R32, R38, R41, R44, R114, R116, R125, R126, R127: at the close the owner counts an empty round of its
OPEN line on no bid, with the SHORT report and the bay lamp's request when it is the third, counts nothing
on a flawed word, and on a bid decides a grant of what the row offers and the line still wants, or of 0
while halt is asserted. An owner whose arbiter is IDLE, as after a body collision in its own CALL, follows
its round to the close and settles nothing. -/
def Obligations.WindowCloseAtTheOwner : Prop :=
  (∀ (word : BidWord) (dw : Bool) (v : RoundView) (s : State),
    observes s = true → s.frames.round = some v → v.phase = .window → v.pulsing = true →
    v.own = true → s.bid = .idle → s.arbiter = .idle →
    (classOfWord word = .bid → exec (.bidWindowClose word dw) s = .next
      { s with
        line := { s.line with driving := .nothing }
        frames := { s.frames with
          round := some { v with phase := .grantWait, silence := 0, pulsing := false } } }) ∧
    (classOfWord word ≠ .bid → exec (.bidWindowClose word dw) s = .next
      { s with
        line := freedLine dw s.line
        frames := { s.frames with round := none, yieldRecord := true } })) ∧
  ∀ (word : BidWord) (dw : Bool) (v : RoundView) (r : CallRecord) (l : OrderLine) (s : State),
    s.startup.station = .service → s.frames.round = some v → v.phase = .window → v.pulsing = true →
    v.own = true → s.bid = .idle → s.arbiter = .calling r →
    findOrderLine r.ticket r.line s.trucks = some l →
    (classOfWord word = .noBid → lineState l = .openLine → TrucksSound s.trucks →
      ∃ t, exec (.bidWindowClose word dw) s = .next t
        ∧ t.trucks = mapOrderLine r.ticket r.line
            (fun l => { l with emptyRounds := l.emptyRounds + 1 }) s.trucks
        ∧ t.arbiter = arbiterOf (callChoice { t with arbiter := .idle })
        ∧ t.frames = { s.frames with round := none, yieldRecord := true }
        ∧ t.line.driving = .nothing ∧ t.line.idleCount = 0
        ∧ t.line.condition = (if dw then .busy else .quiet)
        ∧ t.port = (if l.emptyRounds = 2 then giveReport (shortReport r.ticket r.line) s else s).port
        ∧ (∀ (i : Fin 8) (bay : Fin 8), s.startup.settings.lines[i].function = .bayLamp (bay + 1) →
            t.signal.lamps[i] =
              if bayCondition s.trucks (bay + 1) = bayCondition t.trucks (bay + 1) then s.signal.lamps[i]
              else
                requestLamp (haltAsserted s) (bayPattern (bayCondition t.trucks (bay + 1)))
                  s.signal.lamps[i])
        ∧ (∀ i : Fin 8, (∀ bay : Fin 8, s.startup.settings.lines[i].function ≠ .bayLamp (bay + 1)) →
            t.signal.lamps[i] = s.signal.lamps[i])
        ∧ t.signal.inputs = s.signal.inputs ∧ t.signal.horn = s.signal.horn
        ∧ RowUnchanged s t ∧ t.clock = s.clock ∧ ControlUnchanged s t) ∧
    (classOfWord word = .flawedWord →
      exec (.bidWindowClose word dw) s = .next
        { s with
          arbiter := arbiterOf (callChoice { s with arbiter := .idle })
          line := freedLine dw s.line
          frames := { s.frames with round := none, yieldRecord := true } }) ∧
    (classOfWord word = .bid →
      exec (.bidWindowClose word dw) s = .next
        { s with
          arbiter := .granting r (wordStation word) (wordOffered word)
            (if haltAsserted s then 0 else min (wordOffered word) (lineOpen l))
          line := { s.line with driving := .nothing }
          frames := { s.frames with
            round := some { v with phase := .grantWait, silence := 0, pulsing := false } } })

/-- R4, R41, R42, R43, R76, R80, R85: a silence limit abandons the round: bid and hold go, the line is freed,
the owner counts nothing, and one whose arbiter is IDLE, as after a body collision in its own CALL, has
nothing to free. The expiry of a hold's grant wait ends the hold alone; the round goes on. In
GRANT WAIT a pull of TW that opens no frame sets the silence count to 0, and the count rises again once TW
is slack. That each limit is taken whenever the phase or timer stands is the model's choice, log entry 2,
and which commands stand for that pull, log entry 27. -/
def Obligations.SilenceAbandonsAndGrantWaitExpires : Prop :=
  (∀ (dw : Bool) (v : RoundView) (s : State), observes s = true → s.frames.round = some v →
    v.own = false ∨ s.arbiter = .idle →
    let abandoned : State :=
      { s with
        bid := .idle, hold := none, stock := stockWithoutHold s
        line := freedLine dw s.line
        frames := { s.frames with round := none, yieldRecord := v.own } }
    (v.phase = .window → exec (.windowSilenceLimit dw) s = .next abandoned) ∧
    (v.phase = .grantWait → exec (.grantWaitSilenceLimit dw) s = .next abandoned)) ∧
  (∀ (dw : Bool) (v : RoundView) (s : State), observes s = true → s.frames.round = some v →
    v.own = true → (∃ r, s.arbiter = .calling r) ∨ (∃ r w k c, s.arbiter = .granting r w k c) →
    let abandoned : State :=
      { s with
        bid := .idle, hold := none, stock := stockWithoutHold s
        line := freedLine dw s.line
        frames := { s.frames with round := none, yieldRecord := true } }
    let freed : State := { abandoned with arbiter := arbiterOf (callChoice { s with arbiter := .idle }) }
    (v.phase = .window → exec (.windowSilenceLimit dw) s = .next freed) ∧
    (v.phase = .grantWait → exec (.grantWaitSilenceLimit dw) s = .next freed)) ∧
  (∀ (v : RoundView) (s : State), observes s = true → s.frames.round = some v → v.phase = .grantWait →
    s.line.condition = .busy → s.line.activity = .nothing ∨ s.line.activity = .stray →
    (∀ dw, exec (.strayActivity true dw) s = .next
      { s with
        line := { s.line with activity := .stray }
        frames := { s.frames with round := some { v with silence := 0 } } }) ∧
    exec (.strayActivity false true) s = .next { s with line := { s.line with activity := .nothing } } ∧
    exec .strayActivityEnd s = .next { s with line := { s.line with activity := .nothing } }) ∧
  ∀ (h : Hold) (left : Nat) (s : State), s.hold = some h → h.phase = .waiting →
    h.grantWait = some left → exec .grantWaitExpiry s = .next
      { s with hold := none, stock := settlePacks h.packs [] h.order s.stock }

/-- R22, R42, R44, R82, R83, R84, R97: a GRANT closes the round. A hold's row confirms exactly when the
flaw slot reads slack, the row found no flaw of its own before it, the GRANT is not inert, comes from the
hold's gate, repeats its ticket and line, names this row with a count of at least 1, and halt is not
asserted; the first count packs are then RESERVED, their entries join the list, the pick lamp follows its
head, and the horn sounds its full length when the list was empty. Otherwise every held pack is FREE again.
With no hold the round ends, or outside a round the frame, and nothing is settled. That the clock has taken
the header before the grant minute is stamped is the model's deduction, log entry 11. The report field is
the model's own, log entry 10. -/
def Obligations.GrantSettlesTheHold : Prop :=
  (∀ (f : RxFrame 5) (s : State), s.hold = none → dataBits f.kindChar = 0x11 →
    (hearsFrame s = true → exec (.grantReceived f) s = .next (frameOver f s)) ∧
    ∀ v, awaitsClosing s = true → s.frames.round = some v → v.own = false ∨ s.arbiter = .idle →
      exec (.grantReceived f) s = .next
        { frameOver f s with frames := { s.frames with round := none, yieldRecord := v.own } }) ∧
  ∀ (f : RxFrame 5) (v : RoundView) (h : Hold) (s : State), awaitsClosing s = true →
    s.frames.round = some v → v.own = false → s.hold = some h → h.decision = .none →
    s.startup.settings.number ≤ 63 → dataBits f.kindChar = 0x11 →
    let g := grantFields f
    let confirmed : Prop :=
      f.framing ≠ .atFlawSlot ∧ flawSlotReads f s = false ∧ flawBeforeSlot f = false
        ∧ senderIsGate f = true ∧ senderNumber f = h.order.gate
        ∧ 1 ≤ g.ticket ∧ g.ticket = h.order.ticket
        ∧ 1 ≤ g.line ∧ g.line ≤ 4 ∧ g.line = h.order.line
        ∧ g.winner = s.startup.settings.number ∧ 1 ≤ g.count ∧ g.count ≤ 8 ∧ haltAsserted s = false
    let entries :=
      newEntries (h.packs.take g.count) h.order (heard f s).clock.minute (heard f s).stock
    ∃ t, exec (.grantReceived f) s = .next t
      ∧ t.hold = none ∧ t.bid = s.bid ∧ GateUnchanged s t ∧ ControlUnchanged s t
      ∧ t.frames = { s.frames with round := none, yieldRecord := false }
      ∧ t.line.condition = .quiet ∧ t.line.driving = .nothing ∧ t.line.idleCount = 0
      ∧ t.clock = (heard f s).clock ∧ t.port = (heard f s).port
      ∧ (confirmed →
          t.stock = settlePacks h.packs (h.packs.take g.count) h.order (heard f s).stock
          ∧ t.picks = (heard f s).picks ++ entries
          ∧ t.signal =
            { (withPicks ((heard f s).picks ++ entries) (heard f s)).signal with
              horn :=
                if s.picks = [] ∧ entries ≠ [] ∧ s.startup.settings.hornLength ≠ 0 then
                  some (s.startup.settings.hornLength * secondUnits)
                else s.signal.horn }
          ∧ ∃ r, t.line.report = some r ∧ r.confirmSlot = true ∧ r.pulledConfirm = true)
      ∧ (¬ confirmed →
          t.stock = settlePacks h.packs [] h.order (heard f s).stock
          ∧ t.picks = (heard f s).picks ∧ t.signal = (heard f s).signal
          ∧ ∃ r, t.line.report = some r ∧ r.pulledConfirm = false)

/-- R13, R22, R23, R24, R38, R39, R42, R43, R44, R81: a closing frame that is no GRANT. The hold ends at its
character 1 with its packs FREE, the round ends at its end mark, the clock takes an accepted header, and
the body is then handed to its owners; an owner whose own round it closes is told, unless its arbiter is
IDLE, as after a body collision. A frame of an unknown kind is heard in the same way. A CALL ends the round at
its character 2 and opens a new one, as it would on a free line. A station that met a body collision in its
own CALL follows the surviving CALL in its own round. That the owner's arbiter settles nothing then is the
model's deduction, log entry 16, and that the collided station follows, log entry 9. -/
def Obligations.ClosingFrameThatIsNoGrant : Prop :=
  (∀ (s : State),
    (∀ f : RxFrame 4, dataBits f.kindChar = 0x01 →
      exec (.hailReceived f) s = .next (hearNotice f (hailValid f) (ownHail f) s)) ∧
    (∀ f : RxFrame 2, dataBits f.kindChar = 0x02 →
      exec (.voidReceived f) s = .next (hearNotice f (voidValid f) (ownVoid f) s)) ∧
    (∀ f : RxFrame 5, dataBits f.kindChar = 0x03 →
      exec (.lapseReceived f) s = .next (hearNotice f (countedValid f) (ownLapse f) s)) ∧
    (∀ f : RxFrame 5, dataBits f.kindChar = 0x04 →
      exec (.takenReceived f) s = .next (hearNotice f (countedValid f) (ownTaken f) s)) ∧
    (∀ f : RxFrame 2, dataBits f.kindChar = 0x05 →
      exec (.arriveReceived f) s = .next (hearNotice f (arriveValid f) (ownArrive f) s))) ∧
  (∀ (v : RoundView) (s : State), awaitsClosing s = true → s.frames.round = some v →
    v.own = false ∨ s.arbiter = .idle ∨ (∃ r w k c, s.arbiter = .granting r w k c) →
    let arbiter : Arbiter :=
      if v.own = true ∧ s.arbiter ≠ .idle then arbiterOf (callChoice { s with arbiter := .idle })
      else s.arbiter
    let released : State := { s with hold := none, stock := stockWithoutHold s }
    (∀ (n : Nat) (f : RxFrame n) (valid : Bool) (owners : State → State),
      let ended : State :=
        { frameOver f released with
          arbiter := arbiter, frames := { s.frames with round := none, yieldRecord := v.own } }
      (frameAccepted f s = true → s.startup.station = .service → valid = true →
        hearNotice f valid owners s = owners ended) ∧
      (frameAccepted f s = false ∨ s.startup.station ≠ .service ∨ valid = false →
        hearNotice f valid owners s = ended)) ∧
    ∀ (f : RxFrame 6) (started : Bool), dataBits f.kindChar = 0x10 →
      let free : State :=
        { released with
          arbiter := arbiter
          line := { s.line with condition := .quiet }
          frames := { s.frames with round := none, yieldRecord := v.own } }
      hearsFrame free = true ∧ exec (.callReceived f started) s = exec (.callReceived f started) free) ∧
  ∀ (f : RxFrame 6) (started : Bool) (v : RoundView) (s : State), followsCall s = true →
    s.startup.station ≠ .service → s.frames.round = some v → s.arbiter = .idle → s.hold = none →
    dataBits f.kindChar = 0x10 →
    (flawSlotReads f s = true → exec (.callReceived f started) s = .next
      { frameOver f s with frames := { s.frames with round := none, yieldRecord := v.own } }) ∧
    (flawSlotReads f s = false → exec (.callReceived f started) s = .next
      { frameOver f s with
        line := { (frameOver f s).line with condition := .busy, driving := s.line.driving }
        frames := { s.frames with round := some { v with phase := .stretch, part := .none } } })

/-- R84: the entries of one grant stand by stack ascending and within a stack by tier descending, one for
each covered HELD record, each not overdue and with the grant minute given. -/
def Obligations.NewEntriesStandByStackAndTier : Prop :=
  ∀ (covered : List Nat) (order : Reservation) (minute : Minute) (stock : Stock),
    ((allPacks stock).map fun p => p.tag).Nodup →
    let entries := newEntries covered order minute stock
    (∀ e, e ∈ entries ↔ e.order = order ∧ e.grantMinute = minute ∧ e.overdue = false
        ∧ e.tag ∈ covered ∧ ∃ p ∈ stackAt stock e.stack, p.tag = e.tag ∧ p.state = .held) ∧
    entries.Pairwise fun a b => a.stack < b.stack ∨
      (a.stack = b.stack ∧ ∃ below between above p q, stackAt stock a.stack
          = below ++ p :: between ++ q :: above ∧ p.tag = b.tag ∧ q.tag = a.tag)

/-- R96: the pick list takes a new value. The pick lamp's pattern is requested exactly when the head, the
head's stack or its overdue flag changes, once, and by the head as it stands then: OFF for an empty list,
BURST of the stack's number plus 1, or QUICK BURST for an overdue head. Nothing else changes. -/
def Obligations.PickLampFollowsTheHead : Prop :=
  ∀ (picks : List PickEntry) (s : State),
    let shown := fun (l : List PickEntry) => l.head?.map fun e => (e.tag, e.stack, e.overdue)
    let taken : State := { s with picks := picks }
    (shown picks = shown s.picks → withPicks picks s = taken) ∧
    (shown picks ≠ shown s.picks →
      (picks = [] → withPicks picks s = requestPattern .pickLamp .off taken) ∧
      ∀ e rest, picks = e :: rest →
        (e.overdue = false →
          withPicks picks s = requestPattern .pickLamp (.burst (e.stack + 1)) taken) ∧
        (e.overdue = true →
          withPicks picks s = requestPattern .pickLamp (.quickBurst (e.stack + 1)) taken))

/-! ### The bid's arithmetic (chapter 4) -/

/-- R65, R66, R68: which records of the view match a CALL; the cost of a matching pack, exactly, and its
range; the offer score of a selection, and its range. -/
def Obligations.CostsAndScoresStayInTheirRanges : Prop :=
  (∀ (c : CallFields) (v : ViewPack), matchesCall c v = true ↔
    v.state = .free ∧ v.spec.family = c.spec.family ∧ v.spec.size = c.spec.size
      ∧ (v.spec.grade = c.spec.grade ∨ (c.upgrade = true ∧ v.spec.grade < c.spec.grade))) ∧
  (∀ (c : CallFields) (distance cap : Nat) (v : ViewPack), v.dig ≤ 5 → distance ≤ 62 → cap ≤ 255 →
    c.spec.grade ≤ 7 → matchesCall c v = true →
    (packCost c distance cap v : Int) = 256 + 64 * v.dig + distance
        + 48 * ((c.spec.grade : Int) - v.spec.grade) - min (v.age : Int) cap
      ∧ 1 ≤ packCost c distance cap v ∧ packCost c distance cap v ≤ 974) ∧
  ∀ (wanted : Nat) (selection : List Selected), 1 ≤ selection.length →
    selection.length ≤ min wanted 8 → (∀ a ∈ selection, 1 ≤ a.cost ∧ a.cost ≤ 974) →
    let k := selection.length
    let mean := (selection.map fun a => a.cost).sum / k
    offerScore wanted selection = min 1022 (mean + 32 * (min wanted 8 - k))
      ∧ 1 ≤ offerScore wanted selection ∧ offerScore wanted selection ≤ 1022

/-- R66, R67, R68, R69: a computation offers k packs, the first of the matching packs in selection
order; the score, the shortfall and the word follow from them. -/
def Obligations.ComputationSelectsTheCheapestPacks : Prop :=
  ∀ (r : BidRecord) (cap number : Nat), (r.view.map fun v => (v.stack, v.tier)).Nodup →
    let matching := r.view.filter (matchesCall r.call)
    let k := min (min r.call.wanted 8) (min matching.length r.freeEntries)
    let before := fun (a b : Selected) => a.cost < b.cost ∨ (a.cost = b.cost ∧
      (a.stack < b.stack ∨ (a.stack = b.stack ∧ b.tier < a.tier)))
    let result := computeBid r cap number
    result.selection.length = k
      ∧ result.selection.Pairwise before
      ∧ (∃ others : List Selected,
          (result.selection ++ others).Perm (matching.map fun v =>
            { tag := v.tag, stack := v.stack, tier := v.tier
              cost := packCost r.call r.distance cap v })
          ∧ ∀ a ∈ result.selection, ∀ b ∈ others, before a b)
      ∧ result.score = min 1022 ((result.selection.map fun a => a.cost).sum / k
          + 32 * (min r.call.wanted 8 - k))
      ∧ result.shortfall = 8 - k
      ∧ result.word = bidWord result.score result.shortfall number

/-- R16, R32, R69: a bid word reads back as the bid it was built from; of two words the one with the
lower score, then the lower shortfall, then the lower number is the lower word, and a row whose word is
higher than the sampled one has lost. A word of score 1023 is no bid, the all-slack word among them; any
other is flawed exactly when one of its characters has a parity flaw or a bit that must be zero is not. -/
def Obligations.BidWordsReadBackAndTheLowestWins : Prop :=
  (∀ score shortfall number : Nat, score ≤ 1022 → shortfall ≤ 7 → number ≤ 63 →
    let w := bidWord score shortfall number
    wordScore w = score ∧ wordShortfall w = shortfall ∧ wordOffered w = 8 - shortfall
      ∧ wordStation w = number ∧ classOfWord w = .bid ∧ rowLost w w = false) ∧
  (∀ a b c x y z : Nat, a ≤ 1022 → b ≤ 7 → c ≤ 63 → x ≤ 1022 → y ≤ 7 → z ≤ 63 →
    (a < x ∨ (a = x ∧ (b < y ∨ (b = y ∧ c < z)))) →
    (bidWord a b c).toNat < (bidWord x y z).toNat
      ∧ rowLost (bidWord x y z) (bidWord a b c) = true) ∧
  classOfWord (BitVec.allOnes 27) = .noBid ∧
  ∀ w : BidWord,
    let odd := fun (low : Nat) => countOnes (w.extractLsb' low 9) % 2 = 1
    let wrong : Prop :=
      odd 18 ∨ odd 9 ∨ odd 0 ∨ w.extractLsb' 10 3 ≠ 0 ∨ w.extractLsb' 7 2 ≠ 0
    wordScore w = (w.extractLsb' 19 8).toNat * 4 + (w.extractLsb' 16 2).toNat
      ∧ wordShortfall w = (w.extractLsb' 13 3).toNat ∧ wordOffered w = 8 - wordShortfall w
      ∧ wordStation w = (w.extractLsb' 1 6).toNat
      ∧ (classOfWord w = .noBid ↔ wordScore w = 1023)
      ∧ (classOfWord w = .flawedWord ↔ wordScore w ≠ 1023 ∧ wrong)
      ∧ (classOfWord w = .bid ↔ wordScore w ≠ 1023 ∧ ¬ wrong)

/-! ### The Yard Clock's minute step (chapter 8) -/

/-- R60, R94, R130, R131, R132, R136: a minute step, when the second counter would reach 60, moves the minute
by 1 modulo 65536; below 60 the counter goes on and no step is due. With the clock set, a
row's packs age by 1, up to 255, exactly when the new minute is a multiple of 60, and its pick list is
swept at the new minute. While the RESET pin is held nothing moves. Once set, the clock stays set until
a full reset, and no command moves its minute but forward, by 0 to 30. A minute step and a header of the
next minute at the same moment lead to one state in either order. That a minute step in reset changes
nothing is the model's choice, log entry 1; that the command carries the seconds passed, log entry 19. -/
def Obligations.MinuteStepMovesTheClock : Prop :=
  (∀ (elapsed : Nat) (s : State),
    let reached := s.clock.second + s.clock.fraction / 2000000 + elapsed
    let next : State :=
      { s with clock := { s.clock with minute := s.clock.minute + 1, second := 0, fraction := 0 } }
    (s.startup.resetHeld = true → exec (.minuteStep elapsed) s = .next s) ∧
    (s.startup.resetHeld = false → reached < 60 → exec (.minuteStep elapsed) s = .next
      { s with clock := { s.clock with second := s.clock.second + elapsed } }) ∧
    (s.startup.resetHeld = false → 60 ≤ reached →
      (s.clock.isSet = false ∨ s.startup.settings.role = .gate →
        exec (.minuteStep elapsed) s = .next next) ∧
      (s.clock.isSet = true → s.startup.settings.role = .row →
        exec (.minuteStep elapsed) s = .next
          (withPicks
            (s.picks.map fun e =>
              if s.startup.settings.pickLimit ≠ 0
                  ∧ s.startup.settings.pickLimit ≤ (s.clock.minute + 1 - e.grantMinute).toNat then
                { e with overdue := true }
              else e)
            { next with
              stock :=
                if (s.clock.minute.toNat + 1) % 65536 % 60 = 0 then
                  mapPacks (fun p => { p with age := min 255 (p.age + 1) }) s.stock
                else s.stock })) ∧
      (s.clock.isSet = true → ∃ t, exec (.minuteStep elapsed) s = .next t
        ∧ hearMinute (s.clock.minute + 1) true t = t
        ∧ hearMinute (s.clock.minute + 1) true s = t ∧ exec (.minuteStep 0) t = .next t))) ∧
  (∀ (c : Instr) (s t : State), exec c s = .next t → c ≠ .fullReset → s.clock.isSet = true →
    t.clock.isSet = true ∧ (t.clock.minute - s.clock.minute).toNat ≤ 30
      ∧ ∀ elapsed, c = .minuteStep elapsed → s.startup.resetHeld = false →
        60 ≤ s.clock.second + s.clock.fraction / 2000000 + elapsed →
        t.clock.minute = s.clock.minute + 1)

/-! ### Field lines (chapter 9) -/

/-- R20, R21, R141, R142, R145, R148: a raw level equal to the filtered one stops the filter timer, one
that comes to differ starts it, and its expiry makes the filtered level follow. Halt is an asserted HALT
IN line, close an asserted CLOSE IN line. When halt becomes asserted every lamp shows HALT, the horn stops
and a waiting call is withdrawn; when it is released every lamp shows its latest request and the arbiter
chooses again. Where that changes the wish to send, a recovery of a STUCK line starts or stops with it.
That each command is one line's change, so that the order of two decides where one asserts as the other
releases, is the model's choice, log entry 31. -/
def Obligations.InputsAreFilteredAndHaltFollows : Prop :=
  ∀ (n : Fin 8) (s : State), observes s = true →
    isInputFunction s.startup.settings.lines[n].function = true →
    (haltAsserted s = true ↔ ∃ i : Fin 8,
      s.startup.settings.lines[i].function = .haltIn ∧ s.signal.inputs[i].filtered = true) ∧
    (closeAsserted s = true ↔ ∃ i : Fin 8,
      s.startup.settings.lines[i].function = .closeIn ∧ s.signal.inputs[i].filtered = true) ∧
    (∀ high, ∃ t, exec (.inputChange n high) s = .next t
      ∧ t = { s with signal := { s.signal with inputs := t.signal.inputs } }
      ∧ (∀ i : Fin 8, i ≠ n → t.signal.inputs[i] = s.signal.inputs[i])
      ∧ t.signal.inputs[n].raw = (high != s.startup.settings.lines[n].inverted)
      ∧ t.signal.inputs[n].filtered = s.signal.inputs[n].filtered
      ∧ (t.signal.inputs[n].raw = s.signal.inputs[n].filtered → t.signal.inputs[n].timer = none)
      ∧ (t.signal.inputs[n].raw ≠ s.signal.inputs[n].filtered →
          t.signal.inputs[n].timer =
            if s.signal.inputs[n].raw = s.signal.inputs[n].filtered then
              some (4 * 4 ^ s.startup.settings.filterCode * msUnits)
            else s.signal.inputs[n].timer)) ∧
    (s.signal.inputs[n].timer ≠ none → s.signal.inputs[n].raw ≠ s.signal.inputs[n].filtered →
      ∃ t, exec (.filterExpiry n) s = .next t
        ∧ (∀ i : Fin 8, i ≠ n → t.signal.inputs[i] = s.signal.inputs[i])
        ∧ t.signal.inputs[n] = { s.signal.inputs[n] with filtered := s.signal.inputs[n].raw, timer := none }
        ∧ RowUnchanged s t ∧ t.trucks = s.trucks ∧ t.frames = s.frames ∧ t.clock = s.clock
        ∧ t.port = s.port ∧ ControlUnchanged s t
        ∧ (haltAsserted t = haltAsserted s →
            t.signal.lamps = s.signal.lamps ∧ t.signal.horn = s.signal.horn ∧ t.arbiter = s.arbiter
              ∧ t.line = s.line)
        ∧ (haltAsserted t ≠ haltAsserted s →
            ((s.arbiter = .idle ∨ ∃ r, s.arbiter = .waiting r) →
              t.line = (followWant { s with arbiter := t.arbiter }).line)
            ∧ ((∃ r, s.arbiter = .calling r) ∨ (∃ r w k c, s.arbiter = .granting r w k c) →
                t.arbiter = s.arbiter ∧ t.line = s.line))
        ∧ (haltAsserted s = false → haltAsserted t = true →
            t.signal.horn = none ∧ (∀ r, s.arbiter = .waiting r → t.arbiter = .idle)
              ∧ ∀ i : Fin 8, t.signal.lamps[i] =
                  if isLampFunction s.startup.settings.lines[i].function = true then
                    { s.signal.lamps[i] with current := .halt, position := 0, staged := none }
                  else s.signal.lamps[i])
        ∧ (haltAsserted s = true → haltAsserted t = false →
            t.signal.horn = s.signal.horn
              ∧ ((s.arbiter = .idle ∨ ∃ r, s.arbiter = .waiting r) →
                  t.arbiter = arbiterOf (callChoice t))
              ∧ ∀ i : Fin 8, t.signal.lamps[i] =
                  if isLampFunction s.startup.settings.lines[i].function = true then
                    { s.signal.lamps[i] with
                      current := s.signal.lamps[i].latest, position := 0, staged := none }
                  else s.signal.lamps[i]))

/-- R140, R144, R145, R146, R148, R149: a request reaches every lamp of its function: under halt it is only
recorded, over OFF or STEADY it is shown at once, and otherwise it is staged until the cycle ends, when it
starts, or with nothing staged the cycle starts again. READY restarts its cycle. The horn falls silent when
its timer has run out, and sounds on for what is left of a timer that was started again. That the end of
one line's cycle ends that of every line with the same function is the model's deduction, log entry 20;
that the horn's command carries the time passed is its choice, log entry 19. -/
def Obligations.LampsStageRequestsUntilTheCycleEnds : Prop :=
  (∀ (g : FieldFunction) (p : Pattern) (s : State), isLampFunction g = true →
    requestPattern g p s =
        { s with signal := { s.signal with lamps := (requestPattern g p s).signal.lamps } } ∧
    ∀ i : Fin 8,
      (s.startup.settings.lines[i].function ≠ g →
        (requestPattern g p s).signal.lamps[i] = s.signal.lamps[i]) ∧
      (s.startup.settings.lines[i].function = g →
        (requestPattern g p s).signal.lamps[i] =
          if haltAsserted s then { s.signal.lamps[i] with latest := p }
          else if s.signal.lamps[i].current = .off ∨ s.signal.lamps[i].current = .steady then
            { current := p, position := 0, staged := none, latest := p }
          else { s.signal.lamps[i] with staged := some p, latest := p })) ∧
  (∀ (n : Fin 8) (s : State), observes s = true →
    isLampFunction s.startup.settings.lines[n].function = true →
    s.signal.lamps[n].current ≠ .off → s.signal.lamps[n].current ≠ .steady →
    ∃ t, exec (.cycleEnd (.fieldLine n)) s = .next t
      ∧ t = { s with signal := { s.signal with lamps := t.signal.lamps } }
      ∧ ∀ i : Fin 8,
        (s.startup.settings.lines[i].function ≠ s.startup.settings.lines[n].function →
          t.signal.lamps[i] = s.signal.lamps[i]) ∧
        (s.startup.settings.lines[i].function = s.startup.settings.lines[n].function →
          (s.signal.lamps[i].staged = none →
            t.signal.lamps[i] = { s.signal.lamps[i] with position := 0 }) ∧
          ∀ p, s.signal.lamps[i].staged = some p →
            t.signal.lamps[i] = { s.signal.lamps[i] with current := p, position := 0, staged := none })) ∧
  (∀ s : State, hasCycle (readyPattern s) = true →
    exec (.cycleEnd .ready) s = .next { s with signal := { s.signal with readyPosition := 0 } }) ∧
  ∀ (elapsed : Nat) (s : State),
    (s.signal.horn = none → exec (.hornExpiry elapsed) s = .next s) ∧
    ∀ left, s.signal.horn = some left →
      (left ≤ elapsed → exec (.hornExpiry elapsed) s = .next
        { s with signal := { s.signal with horn := none } }) ∧
      (elapsed < left → exec (.hornExpiry elapsed) s = .next
        { s with signal := { s.signal with horn := some (left - elapsed) } })

/-- R149: over every command, READY starts a new pattern's first cycle when its pattern changes, and runs
on in its cycle when it does not. -/
def Obligations.ReadyRestartsExactlyWithANewPattern : Prop :=
  ∀ (c : Instr) (s t : State), YardLineSound s → exec c s = .next t →
    (readyPattern t ≠ readyPattern s → t.signal.readyPosition = 0) ∧
    (readyPattern t = readyPattern s → c ≠ .fullReset → c ≠ .cycleEnd .ready →
      t.signal.readyPosition = s.signal.readyPosition)

/-- R140, R143, R147, R148, R149, R150, R158: when a pattern is lit, at each millisecond of its cycle; what
each field line reads in STATUS; the level an output is driven to through its polarity, and which lines are
not driven; when LINE OK is lit; and the pattern of READY, which is driven to its active level exactly
while that pattern is lit. -/
def Obligations.OutputsAreLitByTheirPatterns : Prop :=
  (∀ t : Nat, litAt .off t = false ∧ litAt .steady t = true ∧ (litAt .slow t = true ↔ t < 500)
    ∧ (litAt .fast t = true ↔ t < 125) ∧ (litAt .halt t = true ↔ t < 100)) ∧
  (∀ n k r : Nat,
    (r < 500 → (litAt (.burst n) (500 * k + r) = true ↔ k < n ∧ r < 250)) ∧
    (r < 250 → (litAt (.quickBurst n) (250 * k + r) = true ↔ k < n ∧ r < 125)) ∧
    cycleMs (.burst n) = 500 * n + 1500 ∧ cycleMs (.quickBurst n) = 250 * n + 1500) ∧
  cycleMs .slow = 1000 ∧ cycleMs .fast = 250 ∧ cycleMs .halt = 1000 ∧
  (∀ s : State, lineOkLit s = true ↔
    s.startup.station = .service ∧ (s.line.condition = .quiet ∨ s.line.condition = .busy)) ∧
  (∀ s : State, readyLit s = litAt (readyPattern s) (s.signal.readyPosition / 2000)
    ∧ readyPattern s = (match s.startup.station with
        | .config => .off
        | .configFault => .fast
        | .listen => .slow
        | .duplicate => .fast
        | .service =>
          if s.line.condition = .quiet ∨ s.line.condition = .busy then .steady else .burst 3)) ∧
  ∀ (s : State) (i : Fin 8),
    let line := s.startup.settings.lines[i]
    (observes s = false → fieldReading s i = false ∧ fieldDrive s i = none) ∧
    (observes s = true →
      (line.function = .unused → fieldReading s i = false ∧ fieldDrive s i = none) ∧
      (line.function = .haltIn ∨ line.function = .closeIn →
        fieldReading s i = s.signal.inputs[i].filtered ∧ fieldDrive s i = none) ∧
      (line.function = .horn → (fieldReading s i = true ↔ s.signal.horn ≠ none)) ∧
      (line.function = .lineOk → fieldReading s i = lineOkLit s) ∧
      (isLampFunction line.function = true →
        fieldReading s i = litAt s.signal.lamps[i].current (s.signal.lamps[i].position / 2000)) ∧
      (line.function ≠ .unused → line.function ≠ .haltIn → line.function ≠ .closeIn →
        fieldDrive s i = some (if line.inverted then !fieldReading s i else fieldReading s i)))

/-! ### The truck table and the call (chapters 6 and 7) -/

/-- R120, R121: the chosen truck line is the lowest-numbered OPEN line with fewer than 8 open award records
of the earliest truck at a bay that has one, and there is no choice exactly when no truck at a bay has
one. A gate in SERVICE with halt not asserted makes that choice for its table, any other station none: an
arbiter that is IDLE or WAITING then waits with the choice's call, or is IDLE. -/
def Obligations.ChosenCallIsTheEarliestCallableLine : Prop :=
  (∀ s : State,
    let mayCall : Prop := s.startup.station = .service ∧ s.startup.settings.role = .gate
      ∧ haltAsserted s = false
    (mayCall → callChoice s = chosenCall s.trucks) ∧ (¬ mayCall → callChoice s = none) ∧
    (arbiterOf none = .idle ∧ ∀ r, arbiterOf (some r) = .waiting r)) ∧
  ∀ trucks : List Truck,
    let callable := fun (l : OrderLine) => lineState l = .openLine ∧ l.awards.length < 8
    (chosenCall trucks = none ↔ ∀ u ∈ trucks, u.bay = 0 ∨ ∀ l ∈ u.lines, ¬ callable l) ∧
    ∀ r : CallRecord, chosenCall trucks = some r ↔
      ∃ earlier u later lower l upper, trucks = earlier ++ u :: later
        ∧ (∀ w ∈ earlier, w.bay = 0 ∨ ∀ m ∈ w.lines, ¬ callable m)
        ∧ u.bay ≠ 0 ∧ u.lines = lower ++ l :: upper ∧ (∀ m ∈ lower, ¬ callable m) ∧ callable l
        ∧ r = { ticket := u.ticket, bay := u.bay, line := lower.length + 1, spec := l.spec
                upgrade := l.upgrade, wanted := min 99 (lineOpen l) }

/-- R100, R101, R102, R114, R115, R116, R162: the state of a sound order line, of a truck and of a bay, the
pattern of each bay condition, the trucks that are LOADED now and were not before, in the order of the
table, and the characters of the two reports. -/
def Obligations.LineTruckAndBayStates : Prop :=
  (∀ l : OrderLine, orderLineSound l →
    lineGranted l = l.closed + (l.awards.map fun a => a.granted).sum
      ∧ lineTaken l = l.closed + (l.awards.map fun a => a.taken).sum
      ∧ lineOpen l = l.wanted - lineGranted l
      ∧ (lineState l = .done ↔ lineTaken l = l.wanted)
      ∧ (lineState l = .covered ↔ lineGranted l = l.wanted ∧ lineTaken l < l.wanted)
      ∧ (lineState l = .openLine ↔ lineGranted l < l.wanted ∧ l.emptyRounds < 3)
      ∧ (lineState l = .short ↔ lineGranted l < l.wanted ∧ l.emptyRounds = 3)) ∧
  (∀ u : Truck,
    (truckState u = .parked ↔ u.bay = 0) ∧
    (truckState u = .loaded ↔ u.bay ≠ 0 ∧ ∀ l ∈ u.lines, lineState l = .done) ∧
    (truckState u = .active ↔ u.bay ≠ 0 ∧ ∃ l ∈ u.lines, lineState l ≠ .done)) ∧
  (∀ (trucks : List Truck) (bay : Nat), TrucksSound trucks → 1 ≤ bay →
    (bayCondition trucks bay = .empty ↔ ∀ u ∈ trucks, u.bay ≠ bay) ∧
    ∀ u ∈ trucks, u.bay = bay →
      (bayCondition trucks bay = .loaded ↔ truckState u = .loaded) ∧
      (bayCondition trucks bay = .short ↔
        truckState u = .active ∧ ∃ l ∈ u.lines, lineState l = .short) ∧
      (bayCondition trucks bay = .working ↔
        truckState u = .active ∧ ∀ l ∈ u.lines, lineState l ≠ .short)) ∧
  (bayPattern .empty = .off ∧ bayPattern .working = .slow ∧ bayPattern .short = .fast
    ∧ bayPattern .loaded = .steady) ∧
  (∀ before after : List Truck, (before.map fun u => u.ticket).Nodup →
    List.Sublist (newlyLoaded before after) (after.map fun u => u.ticket) ∧
    ∀ ticket, ticket ∈ newlyLoaded before after ↔ ∃ u ∈ after, u.ticket = ticket ∧
      truckState u = .loaded ∧ ∀ w ∈ before, w.ticket = ticket → truckState w ≠ .loaded) ∧
  ∀ ticket line : Nat, ticket ≤ 65535 → line ≤ 4 →
    loadedReport ticket = [0x51, BitVec.ofNat 8 (ticket / 256), BitVec.ofNat 8 (ticket % 256)]
      ∧ shortReport ticket line
        = [0x52, BitVec.ofNat 8 (ticket / 256), BitVec.ofNat 8 (ticket % 256), BitVec.ofNat 8 line]

/-- R20, R21, R101, R102, R115, R116, R121, R156: a change of the truck table gives one LOADED report for
every truck that is LOADED now and was not before, requests the pattern of every bay whose condition
changed, and brings the arbiter's choice up to date, with which a recovery of a STUCK line starts or
stops; a call under way is left alone. -/
def Obligations.TableChangesAreAnnounced : Prop :=
  ∀ (trucks : List Truck) (s : State),
    let t := gateChanged trucks s
    let entered := (newlyLoaded s.trucks trucks).map loadedReport
    t.trucks = trucks
      ∧ (s.port.transmit.length ≤ 4 →
          t.port.transmit = s.port.transmit ++ entered.take (4 - s.port.transmit.length)
          ∧ t.port.flags = { s.port.flags with
              reportLost := s.port.flags.reportLost
                || decide (4 < s.port.transmit.length + entered.length) })
      ∧ (∀ (i : Fin 8) (bay : Fin 8), s.startup.settings.lines[i].function = .bayLamp (bay + 1) →
          t.signal.lamps[i] =
            if bayCondition s.trucks (bay + 1) = bayCondition trucks (bay + 1) then s.signal.lamps[i]
            else requestLamp (haltAsserted s) (bayPattern (bayCondition trucks (bay + 1))) s.signal.lamps[i])
      ∧ ((s.arbiter = .idle ∨ ∃ r, s.arbiter = .waiting r) →
          t.arbiter = arbiterOf (callChoice t)
            ∧ t.line = (followWant { s with arbiter := t.arbiter }).line)
      ∧ ((∃ r, s.arbiter = .calling r) ∨ (∃ r w k c, s.arbiter = .granting r w k c) →
          t.arbiter = s.arbiter ∧ t.line = s.line)
      ∧ RowUnchanged s t ∧ t.frames = s.frames ∧ t.clock = s.clock ∧ ControlUnchanged s t
      ∧ t.signal.inputs = s.signal.inputs ∧ t.signal.horn = s.signal.horn

/-! ### The terminal port (chapter 10) -/

/-- R151, R152, R153, R155, R156, R157, R160, R161, R162: a marked character begins a message, with
FRAGMENT when it drops a partial one; an unmarked one joins the message in assembly or is ignored; a
complete message waits, or is dropped with OVERRUN. A message is complete at the number of characters its
code gives, TRUCK IN at the number its line count gives, an unknown code at once. The layouts of the
requests. A flawed character drops the message in assembly with FLAW. A BREAK empties the buffers and the
flags, and until the wire is high again nothing is received. A sent message leaves the transmit queue. The
levels of a character on either wire, bit by bit, and what is a flaw in one; the levels of the send wire,
with the queue's messages in order, the first character of each marked, high where nothing is sent and in
CONFIG, and what follows a BREAK there. That how far the sending has come is no state, and is given to
finishedAtBreak, is the model's choice, log entry 21; that the port leaves no gap between characters or
messages, its choice, log entry 30. -/
def Obligations.CharactersMakeMessagesAndBreakEmptiesThePort : Prop :=
  ((∀ (parity : Bool) (c : TermChar),
      (terminalFlaw parity c = true ↔ c.stop = false ∨ (parity = true ∧
        (countOnes c.data + (if c.mark then 1 else 0) + (if c.parity then 1 else 0)) % 2 = 1)) ∧
      wireBits parity c =
        [false, c.data.getLsbD 0, c.data.getLsbD 1, c.data.getLsbD 2, c.data.getLsbD 3, c.data.getLsbD 4,
          c.data.getLsbD 5, c.data.getLsbD 6, c.data.getLsbD 7, c.mark]
          ++ (if parity then [c.parity, c.stop] else [c.stop]) ∧
      charOfWire parity (wireBits parity c) = some { c with
        parity := if parity then c.parity
          else decide ((countOnes c.data + if c.mark then 1 else 0) % 2 = 1) }) ∧
    ∀ (code : Byte) (rest : List Byte), let sent := terminalCharacters (code :: rest)
      sent.map (fun c => c.data) = code :: rest
        ∧ sent.map (fun c => c.mark) = true :: rest.map (fun _ => false)
        ∧ (∀ c ∈ sent, terminalFlaw true c = false)
        ∧ ∀ parity, messageBits parity (code :: rest) = sent.flatMap (wireBits parity)) ∧
  (∀ s : State,
    (s.startup.station = .configFault → portParity s = false ∧ portBaud s = 9600) ∧
    (s.startup.station ≠ .configFault →
      portParity s = s.startup.settings.terminalParity
        ∧ (s.startup.settings.terminalSpeed = 0 → portBaud s = 4800)
        ∧ (s.startup.settings.terminalSpeed = 1 → portBaud s = 9600)
        ∧ (s.startup.settings.terminalSpeed = 2 → portBaud s = 19200)) ∧
    (s.startup.station = .config → ∀ n, sendLevel n s = true) ∧
    (s.startup.station ≠ .config → sendBits s = s.port.transmit.flatMap (messageBits (portParity s))) ∧
    (∀ n, ((sendBits s).length ≤ n → sendLevel n s = true)
      ∧ ∀ level, (sendBits s)[n]? = some level → sendLevel n s = level) ∧
    (∀ before c after sent, s.startup.station ≠ .config →
      s.port.transmit.flatMap terminalCharacters = before ++ c :: after → sent ≤ characterBits s →
      finishedAtBreak (before.length * characterBits s + sent) s
        = if sent = 0 then [] else (wireBits (portParity s) c).drop sent)) ∧
  ((∀ tag : BitVec 32,
      let t := [tag.extractLsb' 24 8, tag.extractLsb' 16 8, tag.extractLsb' 8 8, tag.extractLsb' 0 8]
      (∀ family size grade stack : Byte,
        putMessage tag family size grade stack = [0x21] ++ t ++ [family, size, grade, stack]) ∧
      takeMessage tag = [0x22] ++ t ∧ (∀ stack : Byte, shiftMessage tag stack = [0x23] ++ t ++ [stack]) ∧
      holdPackMessage tag = [0x24] ++ t ∧ freePackMessage tag = [0x25] ++ t) ∧
    (∀ stack : Byte, listStackMessage stack = [0x26, stack]) ∧ listPicksMessage = [0x27] ∧
    (∀ ticket : BitVec 16,
      let high := ticket.extractLsb' 8 8
      let low := ticket.extractLsb' 0 8
      (∀ (bay count : Byte) (lines : List OrderFields), truckInMessage ticket bay count lines
        = [0x31, high, low, bay, count]
          ++ lines.flatMap fun o => [o.family, o.size, o.grade, o.upgrade, o.wanted]) ∧
      (∀ bay : Byte, truckBayMessage ticket bay = [0x32, high, low, bay]) ∧
      truckOutMessage ticket = [0x33, high, low] ∧ listTruckMessage ticket = [0x34, high, low]) ∧
    statusMessage = [0x40]) ∧
  (∀ (code : Byte) (rest : List Byte),
    let long := fun (n : Nat) => messageComplete (code :: rest) = true ↔ rest.length + 1 = n
    (code = 0x21 → long 9) ∧ (code = 0x23 → long 6) ∧ (code = 0x32 → long 4) ∧ (code = 0x26 → long 2) ∧
    (code ∈ [0x22, 0x24, (0x25 : Byte)] → long 5) ∧ (code ∈ [0x33, (0x34 : Byte)] → long 3) ∧
    (code ∈ [0x27, (0x40 : Byte)] ∨ codeKnown code = false → long 1) ∧
    (code = 0x31 →
      (rest.length < 4 → messageComplete (code :: rest) = false) ∧
      ∀ count, rest[3]? = some count →
        (1 ≤ count.toNat → count.toNat ≤ 4 → long (5 + 5 * count.toNat)) ∧
        (count = 0 ∨ 4 < count.toNat → long 5))) ∧
  (∀ code : Byte, codeKnown code = true ↔
    code ∈ [0x21, 0x22, 0x23, 0x24, 0x25, 0x26, 0x27, 0x31, 0x32, 0x33, 0x34, (0x40 : Byte)]) ∧
  ∀ s : State,
    exec .receiveWireHighAfterBreak s = .next { s with port := { s.port with breakHeld := false } } ∧
    (s.startup.station ≠ .config →
      exec .messageSent s = .next { s with port := { s.port with transmit := s.port.transmit.tail } }) ∧
    (s.startup.station ≠ .config → s.port.breakHeld = true → ∀ c,
      exec (.terminalCharacter c) s = .next s ∧ exec (.flawedCharacter c) s = .next s) ∧
    (s.startup.station ≠ .config → s.port.breakHeld = false →
      exec .breakCondition s = .next
        { s with
          port := { assembly := [], waiting := none, transmit := [], breakHeld := true
                    flags := { flaw := false, fragment := false, overrun := false, reportLost := false
                               noticeLoss := false, strayTake := false, surplus := false
                               clockConflict := false } } } ∧
      (∀ c, terminalFlaw (portParity s) c = true → exec (.flawedCharacter c) s = .next
        { s with port := { s.port with assembly := [], flags := { s.port.flags with flaw := true } } }) ∧
      ∀ c, terminalFlaw (portParity s) c = false →
        (c.mark = false → s.port.assembly = [] → exec (.terminalCharacter c) s = .next s) ∧
        (c.mark = true ∨ s.port.assembly ≠ [] →
          let m := if c.mark then [c.data] else s.port.assembly ++ [c.data]
          let flags : StickyFlags :=
            { s.port.flags with
              fragment := s.port.flags.fragment || (c.mark && decide (s.port.assembly ≠ [])) }
          (messageComplete m = false → exec (.terminalCharacter c) s = .next
            { s with port := { s.port with assembly := m, flags := flags } }) ∧
          (messageComplete m = true → s.port.waiting = none → exec (.terminalCharacter c) s = .next
            { s with port := { s.port with assembly := [], waiting := some m, flags := flags } }) ∧
          (messageComplete m = true → s.port.waiting ≠ none → exec (.terminalCharacter c) s = .next
            { s with
              port := { s.port with assembly := [], flags := { flags with overrun := true } } })))

/-- R73, R123, R154, R155, R157, R158, R162: a row defers while its Bid Unit is not IDLE, a gate while it is
CALLING or GRANTING. A waiting message is processed in a state that does not defer with room for the reply,
and waits otherwise. The port answers STATUS and unknown codes itself and refuses what
the role or the station state does not allow; STATUS carries the state in the encodings of R162 and clears
the flags it carries. That a processing
command before its time changes nothing is the model's choice, log entry 1. -/
def Obligations.PortAnswersAndRefusesByItself : Prop :=
  (∀ s : State,
    (s.startup.settings.role = .row → (deferring s = true ↔ s.bid ≠ .idle)) ∧
    (s.startup.settings.role = .gate →
      (deferring s = true ↔
        (∃ r, s.arbiter = .calling r) ∨ ∃ r w k c, s.arbiter = .granting r w k c)) ∧
    ∀ n : Fin 8, (fieldLinesByte s).getLsbD n = fieldReading s n) ∧
  (stationByte .configFault = 1 ∧ stationByte .listen = 2 ∧ stationByte .service = 3
    ∧ stationByte .duplicate = 4 ∧ conditionByte .quiet = 0 ∧ conditionByte .busy = 1
    ∧ conditionByte .held = 2 ∧ conditionByte .stuck = 3 ∧ conditionByte .recovering = 4) ∧
  (∀ (m : List Byte) (code : Byte) (owner : State → State) (s : State), s.port.waiting = some m →
    (s.startup.station = .config ∨ deferring s = true ∨ 4 ≤ s.port.transmit.length →
      processMessage m code owner s = s) ∧
    (s.startup.station ≠ .config → deferring s = false → s.port.transmit.length < 4 →
      codeKnown code = true →
      let otherRole : Prop :=
        (s.startup.settings.role = .row ∧ code ∈ [0x31, 0x32, 0x33, 0x34])
          ∨ (s.startup.settings.role = .gate ∧ code ∈ [0x21, 0x22, 0x23, 0x24, 0x25, 0x26, 0x27])
      let taken : State := { s with port := { s.port with waiting := none } }
      (s.startup.station = .configFault → code ≠ 0x40 →
        processMessage m code owner s = answered [code + 0x80, 0x0B] s) ∧
      (s.startup.station ≠ .configFault → otherRole →
        processMessage m code owner s = answered [code + 0x80, 0x0A] s) ∧
      (¬ otherRole → s.startup.station = .listen → code ≠ 0x40 →
        processMessage m code owner s = answered [code + 0x80, 0x0B] s) ∧
      (¬ otherRole → s.startup.station = .duplicate → code ∉ [0x40, 0x26, 0x27, 0x34] →
        processMessage m code owner s = answered [code + 0x80, 0x0B] s) ∧
      (¬ otherRole → s.startup.station = .duplicate → code ∈ [0x40, 0x26, 0x27, 0x34] →
        processMessage m code owner s = owner taken) ∧
      (¬ otherRole → s.startup.station = .service → processMessage m code owner s = owner taken))) ∧
  ∀ s : State, s.startup.station ≠ .config → deferring s = false → s.port.transmit.length < 4 →
    (∀ code, codeKnown code = false → s.port.waiting = some [code] →
      exec (.unknownMessage code) s = .next (answered [0x80, 0x0C, code] s)) ∧
    (s.port.waiting = some [0x40] →
      let identity : List Byte :=
        if s.startup.station = .configFault then [0xFF, 0xFF]
        else [if s.startup.settings.role = .gate then 1 else 0, byte s.startup.settings.number]
      let f := s.port.flags
      let flags : Byte := byte (bit f.flaw + 2 * bit f.fragment + 4 * bit f.overrun
        + 8 * bit f.reportLost + 16 * bit f.noticeLoss + 32 * bit f.strayTake + 64 * bit f.surplus
        + 128 * bit f.clockConflict)
      exec .status s = .next
        { s with
          port := { s.port with
            waiting := none
            flags := { flaw := false, fragment := false, overrun := false, reportLost := false
                       noticeLoss := false, strayTake := false, surplus := false, clockConflict := false }
            transmit := s.port.transmit ++
              [[0xC0, 0x00] ++ identity ++ bytes32 s.startup.serial
                ++ [stationByte s.startup.station, conditionByte s.line.condition,
                  if s.clock.isSet then 1 else 0]
                ++ bytes16 s.clock.minute
                ++ [if haltAsserted s then (if closeAsserted s then 3 else 1)
                    else (if closeAsserted s then 2 else 0),
                  fieldLinesByte s, flags]] } })

/-! ### The loader's messages (chapters 3 and 5) -/

/-- R45, R46, R51, R52: an accepted PUT puts a FREE record of age 0 on top of the stack, gives an ARRIVE of
its spec and answers OK with the stack and tier. -/
def Obligations.PutAddsAFreePackOnTop : Prop :=
  ∀ (tag : BitVec 32) (family size grade stack : Byte) (s : State),
    RowTakes (putMessage tag family size grade stack) s → s.startup.settings.stackLimit ≤ 16 →
    1 ≤ tag.toNat → family.toNat ≤ 63 → size.toNat ≤ 15 → grade.toNat ≤ 7 →
    stack.toNat < s.startup.settings.stackLimit →
    (∀ p ∈ allPacks s.stock, p.tag ≠ tag.toNat) →
    (stackAt s.stock stack.toNat).length < s.startup.settings.tierLimit →
    let spec : PackSpec := { family := family.toNat, size := size.toNat, grade := grade.toNat }
    ∃ t, exec (.put tag family size grade stack) s = .next t
      ∧ stackAt t.stock stack.toNat
          = stackAt s.stock stack.toNat ++ [{ tag := tag.toNat, spec := spec, age := 0, state := .free }]
      ∧ (∀ n, n ≠ stack.toNat → stackAt t.stock n = stackAt s.stock n)
      ∧ t.port = { s.port with
          waiting := none
          transmit := s.port.transmit
            ++ [[0xA1, 0x00, stack, byte ((stackAt s.stock stack.toNat).length + 1)]] }
      ∧ t.frames = (takeNotice (.arrive spec) s).frames
      ∧ t.line = (giveNotice (.arrive spec) s).line
      ∧ t.bid = s.bid ∧ t.hold = s.hold ∧ t.picks = s.picks ∧ GateUnchanged s t ∧ t.clock = s.clock
      ∧ t.signal = s.signal ∧ ControlUnchanged s t

/-- R45, R46, R53, R54, R87: an accepted TAKE removes the pack on top and answers OK with the stack and
the former state; a FREE pack sets STRAY TAKE, a RESERVED one loses its pick entry and gives a TAKEN of
count 1, a QHOLD one nothing more. -/
def Obligations.TakeRemovesTheTopPack : Prop :=
  ∀ (tag : BitVec 32) (n : Nat) (below : List Pack) (p : Pack) (s : State),
    RowTakes (takeMessage tag) s → ((allPacks s.stock).map fun q => q.tag).Nodup → n < 16 →
    stackAt s.stock n = below ++ [p] → p.tag = tag.toNat → p.state ≠ .held →
    ∃ t, exec (.take tag) s = .next t
      ∧ stackAt t.stock n = below ∧ (∀ m, m ≠ n → stackAt t.stock m = stackAt s.stock m)
      ∧ t.port.waiting = none ∧ t.port.assembly = s.port.assembly
      ∧ t.port.transmit = s.port.transmit ++ [[0xA2, 0x00, byte n,
          match p.state with
          | .free => 0
          | .held => 1
          | .reserved _ => 2
          | .qhold => 3]]
      ∧ t.bid = s.bid ∧ t.hold = s.hold ∧ GateUnchanged s t ∧ t.clock = s.clock ∧ ControlUnchanged s t
      ∧ (p.state = .free ∨ p.state = .qhold →
          t.picks = s.picks ∧ t.frames = s.frames ∧ t.line = s.line ∧ t.signal = s.signal
            ∧ t.port.flags = { s.port.flags with
                strayTake := s.port.flags.strayTake || decide (p.state = .free) })
      ∧ ∀ o, p.state = .reserved o →
          let taken : NoticeBody := .taken { gate := o.gate, ticket := o.ticket, line := o.line } 1
          t.picks = s.picks.filter (fun e => e.tag ≠ tag.toNat)
            ∧ t.signal = (withPicks (s.picks.filter (fun e => e.tag ≠ tag.toNat)) s).signal
            ∧ t.frames = (takeNotice taken s).frames ∧ t.line = (giveNotice taken s).line
            ∧ t.port.flags = (takeNotice taken s).port.flags

/-- R45, R46, R55, R56, R89: an accepted SHIFT moves the pack on top to the top of another stack with its
state kept, its pick entry following in place; to its own stack it changes nothing. -/
def Obligations.ShiftMovesTheTopPack : Prop :=
  ∀ (tag : BitVec 32) (stack : Byte) (n : Nat) (below : List Pack) (p : Pack) (s : State),
    RowTakes (shiftMessage tag stack) s → ((allPacks s.stock).map fun q => q.tag).Nodup → n < 16 →
    stackAt s.stock n = below ++ [p] → p.tag = tag.toNat → p.state ≠ .held →
    s.startup.settings.stackLimit ≤ 16 → stack.toNat < s.startup.settings.stackLimit →
    (stack.toNat = n → exec (.shift tag stack) s
      = .next (answered [0xA3, 0x00, stack, byte (below.length + 1)] s)) ∧
    (stack.toNat ≠ n → (stackAt s.stock stack.toNat).length < s.startup.settings.tierLimit →
      let moved := s.picks.map fun e => if e.tag = tag.toNat then { e with stack := stack.toNat } else e
      ∃ t, exec (.shift tag stack) s = .next t
        ∧ stackAt t.stock n = below
        ∧ stackAt t.stock stack.toNat = stackAt s.stock stack.toNat ++ [p]
        ∧ (∀ m, m ≠ n → m ≠ stack.toNat → stackAt t.stock m = stackAt s.stock m)
        ∧ t.port = { s.port with
            waiting := none
            transmit := s.port.transmit
              ++ [[0xA3, 0x00, stack, byte ((stackAt s.stock stack.toNat).length + 1)]] }
        ∧ (isReserved p.state = true → t.picks = moved ∧ t.signal = (withPicks moved s).signal)
        ∧ (isReserved p.state = false → t.picks = s.picks ∧ t.signal = s.signal)
        ∧ t.bid = s.bid ∧ t.hold = s.hold ∧ GateUnchanged s t ∧ t.frames = s.frames ∧ t.line = s.line
        ∧ t.clock = s.clock ∧ ControlUnchanged s t)

/-- R47, R57, R58, R88: HOLD PACK puts a pack in QHOLD where it lies and answers OK with the former state;
a RESERVED one loses its pick entry and gives a LAPSE of count 1. FREE PACK makes a QHOLD pack FREE. -/
def Obligations.HoldPackAndFreePackSetTheState : Prop :=
  ∀ (tag : BitVec 32) (p : Pack) (s : State), ((allPacks s.stock).map fun q => q.tag).Nodup →
    p ∈ allPacks s.stock → p.tag = tag.toNat →
    let become := fun (state : PackState) =>
      mapPacks (fun q => if q.tag = tag.toNat then { q with state := state } else q) s.stock
    (RowTakes (holdPackMessage tag) s →
      (p.state = .free → exec (.holdPack tag) s
        = .next { answered [0xA4, 0x00, 0x00] s with stock := become .qhold }) ∧
      (p.state = .qhold → exec (.holdPack tag) s = .next (answered [0xA4, 0x00, 0x03] s)) ∧
      (∀ o, p.state = .reserved o →
        let lapse : NoticeBody := .lapse { gate := o.gate, ticket := o.ticket, line := o.line } 1
        let left := s.picks.filter (fun e => e.tag ≠ tag.toNat)
        ∃ t, exec (.holdPack tag) s = .next t
          ∧ t.stock = become .qhold ∧ t.picks = left ∧ t.signal = (withPicks left s).signal
          ∧ t.frames = (takeNotice lapse s).frames ∧ t.line = (giveNotice lapse s).line
          ∧ t.port = { s.port with
              waiting := none
              transmit := s.port.transmit ++ [[0xA4, 0x00, 0x02]]
              flags := (takeNotice lapse s).port.flags }
          ∧ t.bid = s.bid ∧ t.hold = s.hold ∧ GateUnchanged s t ∧ t.clock = s.clock
          ∧ ControlUnchanged s t)) ∧
    (RowTakes (freePackMessage tag) s → p.state = .qhold → exec (.freePack tag) s
      = .next { answered [0xA5, 0x00] s with stock := become .free })

/-- R59, R93, R113, R155, R162: in SERVICE and in DUPLICATE the lists answer with their entries, byte by
byte, with the encodings of the states, and change nothing else. -/
def Obligations.ListsAnswerWithTheirEntries : Prop :=
  (packStateByte .free = 0 ∧ packStateByte .held = 1 ∧ (∀ o, packStateByte (.reserved o) = 2)
    ∧ packStateByte .qhold = 3 ∧ truckStateByte .parked = 0 ∧ truckStateByte .active = 1
    ∧ truckStateByte .loaded = 2 ∧ lineStateByte .openLine = 0 ∧ lineStateByte .short = 1
    ∧ lineStateByte .covered = 2 ∧ lineStateByte .done = 3) ∧
  ∀ s : State,
    (∀ stack : Byte, RowAnswers (listStackMessage stack) s →
      stack.toNat < s.startup.settings.stackLimit →
      exec (.listStack stack) s = .next (answered
        ([0xA6, 0x00, byte (stackAt s.stock stack.toNat).length]
          ++ (stackAt s.stock stack.toNat).flatMap fun p =>
            bytes32 (BitVec.ofNat 32 p.tag) ++ [packStateByte p.state, byte p.spec.family,
              byte p.spec.size, byte p.spec.grade, byte p.age]) s)) ∧
    (RowAnswers listPicksMessage s →
      exec .listPicks s = .next (answered
        ([0xA7, 0x00, byte s.picks.length] ++ (s.picks.take 8).flatMap fun e =>
          bytes32 (BitVec.ofNat 32 e.tag) ++ [byte e.stack] ++ bytes16 (BitVec.ofNat 16 e.order.ticket)
            ++ [byte e.order.line, byte e.order.bay, if e.overdue then 1 else 0]) s)) ∧
    ∀ (ticket : BitVec 16) (u : Truck), GateAnswers (listTruckMessage ticket) s →
      findTruck ticket.toNat s.trucks = some u →
      exec (.listTruck ticket) s = .next (answered
        ([0xB4, 0x00] ++ bytes16 ticket ++ [byte u.bay] ++ bytes16 u.arrival
          ++ [truckStateByte (truckState u), byte u.lines.length]
          ++ u.lines.flatMap fun l =>
            [byte l.wanted, byte (lineGranted l), byte (lineTaken l), lineStateByte (lineState l)]) s)

/-! ### The clerk's messages (chapter 6) -/

/-- R98, R109, R110, R111, R112: TRUCK IN joins the tail with the yard minute and untouched accounts; TRUCK
BAY moves a truck with its empty-round counts at 0; TRUCK OUT removes it, with one VOID when an award
record of it is open. What follows a change of the table is gateChanged's. -/
def Obligations.ClerkMessagesChangeTheTable : Prop :=
  ∀ (ticket : BitVec 16) (bay : Byte) (s : State),
    let free := bay = 0 ∨ ∀ u ∈ s.trucks, u.bay = bay.toNat → u.ticket = ticket.toNat
    (∀ (count : Byte) (lines : List OrderFields), GateTakes (truckInMessage ticket bay count lines) s →
      1 ≤ ticket.toNat → bay.toNat ≤ 8 → 1 ≤ count.toNat → count.toNat ≤ 4 →
      (∀ o ∈ lines, o.family.toNat ≤ 63 ∧ o.size.toNat ≤ 15 ∧ o.grade.toNat ≤ 7 ∧ o.upgrade.toNat ≤ 1
        ∧ 1 ≤ o.wanted.toNat ∧ o.wanted.toNat ≤ 99) →
      (∀ u ∈ s.trucks, u.ticket ≠ ticket.toNat) → s.trucks.length < 12 → free →
      exec (.truckIn ticket bay count lines) s = .next (gateChanged
        (s.trucks ++ [
          { ticket := ticket.toNat, bay := bay.toNat, arrival := s.clock.minute
            lines := lines.map fun (o : OrderFields) =>
              { spec := { family := o.family.toNat, size := o.size.toNat, grade := o.grade.toNat }
                upgrade := decide (o.upgrade = 1), wanted := o.wanted.toNat, closed := 0, emptyRounds := 0
                awards := [] } }])
        (answered [0xB1, 0x00] s))) ∧
    (GateTakes (truckBayMessage ticket bay) s → (∃ u ∈ s.trucks, u.ticket = ticket.toNat) →
      bay.toNat ≤ 8 → free →
      exec (.truckBay ticket bay) s = .next (gateChanged
        (s.trucks.map fun u =>
          if u.ticket = ticket.toNat then
            { u with bay := bay.toNat, lines := u.lines.map fun l => { l with emptyRounds := 0 } }
          else u)
        (answered [0xB2, 0x00] s))) ∧
    (∀ u, GateTakes (truckOutMessage ticket) s → findTruck ticket.toNat s.trucks = some u →
      ((∀ l ∈ u.lines, ∀ a ∈ l.awards, a.granted ≤ a.taken) →
        exec (.truckOut ticket) s = .next (gateChanged
          (s.trucks.filter (fun v => v.ticket ≠ ticket.toNat)) (answered [0xB3, 0x00] s))) ∧
      ((∃ l ∈ u.lines, ∃ a ∈ l.awards, a.taken < a.granted) →
        exec (.truckOut ticket) s = .next (gateChanged
          (s.trucks.filter (fun v => v.ticket ≠ ticket.toNat))
          (answered [0xB3, 0x00] (giveNotice (.void ticket.toNat) s)))))

/-- R51, R53, R55, R57, R58, R59, R110, R111, R112, R113, R162: a message its owner refuses is answered with
the first result code that applies, and changes nothing else, a list's in DUPLICATE too. -/
def Obligations.RefusedMessagesChangeNothing : Prop :=
  ∀ s : State,
    (∀ (tag : BitVec 32) (family size grade stack : Byte),
      RowTakes (putMessage tag family size grade stack) s →
      let outOfRange : Prop := tag = 0 ∨ 63 < family.toNat ∨ 15 < size.toNat ∨ 7 < grade.toNat
        ∨ s.startup.settings.stackLimit ≤ stack.toNat
      let present : Prop := ∃ p ∈ allPacks s.stock, p.tag = tag.toNat
      let result := exec (.put tag family size grade stack) s
      (outOfRange → result = .next (answered [0xA1, 0x01] s)) ∧
      (¬ outOfRange → present → result = .next (answered [0xA1, 0x02] s)) ∧
      (¬ outOfRange → ¬ present →
        s.startup.settings.tierLimit ≤ (stackAt s.stock stack.toNat).length →
        result = .next (answered [0xA1, 0x03] s))) ∧
    (∀ (tag : BitVec 32) (stack : Byte), (∀ p ∈ allPacks s.stock, p.tag ≠ tag.toNat) →
      (RowTakes (takeMessage tag) s → exec (.take tag) s = .next (answered [0xA2, 0x07] s)) ∧
      (RowTakes (shiftMessage tag stack) s →
        exec (.shift tag stack) s = .next (answered [0xA3, 0x07] s)) ∧
      (RowTakes (holdPackMessage tag) s → exec (.holdPack tag) s = .next (answered [0xA4, 0x07] s)) ∧
      (RowTakes (freePackMessage tag) s → exec (.freePack tag) s = .next (answered [0xA5, 0x07] s))) ∧
    (∀ (tag : BitVec 32) (stack : Byte) (n : Nat) (below above : List Pack) (p : Pack),
      ((allPacks s.stock).map fun q => q.tag).Nodup → n < 16 →
      stackAt s.stock n = below ++ p :: above → p.tag = tag.toNat →
      (RowTakes (takeMessage tag) s →
        (above ≠ [] → exec (.take tag) s = .next (answered [0xA2, 0x04] s)) ∧
        (above = [] → p.state = .held → exec (.take tag) s = .next (answered [0xA2, 0x05] s))) ∧
      (RowTakes (shiftMessage tag stack) s →
        (s.startup.settings.stackLimit ≤ stack.toNat →
          exec (.shift tag stack) s = .next (answered [0xA3, 0x01] s)) ∧
        (stack.toNat < s.startup.settings.stackLimit →
          (above ≠ [] → exec (.shift tag stack) s = .next (answered [0xA3, 0x04] s)) ∧
          (above = [] → p.state = .held →
            exec (.shift tag stack) s = .next (answered [0xA3, 0x05] s)) ∧
          (above = [] → p.state ≠ .held → stack.toNat ≠ n →
            s.startup.settings.tierLimit ≤ (stackAt s.stock stack.toNat).length →
            exec (.shift tag stack) s = .next (answered [0xA3, 0x03] s)))) ∧
      (RowTakes (holdPackMessage tag) s → p.state = .held →
        exec (.holdPack tag) s = .next (answered [0xA4, 0x05] s)) ∧
      (RowTakes (freePackMessage tag) s → p.state ≠ .qhold →
        exec (.freePack tag) s = .next (answered [0xA5, 0x06] s))) ∧
    (∀ stack : Byte, RowAnswers (listStackMessage stack) s →
      s.startup.settings.stackLimit ≤ stack.toNat →
      exec (.listStack stack) s = .next (answered [0xA6, 0x01] s)) ∧
    (∀ (ticket : BitVec 16) (bay count : Byte) (lines : List OrderFields),
      let present : Prop := ∃ u ∈ s.trucks, u.ticket = ticket.toNat
      let bayTaken : Prop := bay ≠ 0 ∧ ∃ u ∈ s.trucks, u.bay = bay.toNat ∧ u.ticket ≠ ticket.toNat
      (GateTakes (truckInMessage ticket bay count lines) s →
        let outOfRange : Prop := ticket = 0 ∨ 8 < bay.toNat ∨ count = 0 ∨ 4 < count.toNat
          ∨ ∃ o ∈ lines, 63 < o.family.toNat ∨ 15 < o.size.toNat ∨ 7 < o.grade.toNat
            ∨ 1 < o.upgrade.toNat ∨ o.wanted = 0 ∨ 99 < o.wanted.toNat
        let result := exec (.truckIn ticket bay count lines) s
        (outOfRange → result = .next (answered [0xB1, 0x01] s)) ∧
        (¬ outOfRange → present → result = .next (answered [0xB1, 0x02] s)) ∧
        (¬ outOfRange → ¬ present → 12 ≤ s.trucks.length → result = .next (answered [0xB1, 0x03] s)) ∧
        (¬ outOfRange → ¬ present → s.trucks.length < 12 → bayTaken →
          result = .next (answered [0xB1, 0x09] s))) ∧
      (GateTakes (truckBayMessage ticket bay) s →
        (¬ present → exec (.truckBay ticket bay) s = .next (answered [0xB2, 0x08] s)) ∧
        (present → 8 < bay.toNat → exec (.truckBay ticket bay) s = .next (answered [0xB2, 0x01] s)) ∧
        (present → bay.toNat ≤ 8 → bayTaken →
          exec (.truckBay ticket bay) s = .next (answered [0xB2, 0x09] s))) ∧
      (GateTakes (truckOutMessage ticket) s → ¬ present →
        exec (.truckOut ticket) s = .next (answered [0xB3, 0x08] s)) ∧
      (GateAnswers (listTruckMessage ticket) s → ¬ present →
        exec (.listTruck ticket) s = .next (answered [0xB4, 0x08] s)))

/-! ### What every step keeps -/

/-- R46, R47, R63, R78, R86: at a row the stock, the hold, the pick list and the bid agree with one another
after every step. -/
def Obligations.EveryStepKeepsTheRowSound : Prop :=
  ∀ s t : State, RowSound s → step s = .next t → RowSound t

/-- R98, R99, R100, R127: the truck table and its accounts are sound after every step, and a decided grant
still fits its line, when every command that waits is well formed. -/
def Obligations.EveryStepKeepsTheGateSound : Prop :=
  ∀ s t : State, GateSound s → step s = .next t → GateSound t

/-- R10, R20, R21, R41, R42, R130, R152, R156, R164: the counters stay in their ranges, the port's buffers
hold what they may. -/
def Obligations.EveryStepKeepsCountersAndPortSound : Prop :=
  ∀ s t : State, CountersSound s → PortSound s → step s = .next t → CountersSound t ∧ PortSound t

/-- The state after reset is sound in every block. -/
def Obligations.ResetIsSound : Prop :=
  YardLineSound State.reset ∧ RowSound State.reset ∧ GateSound State.reset
    ∧ CountersSound State.reset ∧ PortSound State.reset

end
end

