-- ==== Sys2Proof/Laws/State.lean ====
section
/-! SUPPORT. What each update of the state leaves alone and what it writes: one lemma per field per
update, each true by rfl, so that no later proof unfolds a record update. -/

namespace Sys2Proof.Machine

variable (s : State)

/-! withFlags -/

@[simp] theorem withFlags_startup (flags : StickyFlags) :
    (withFlags flags s).startup = s.startup := rfl

@[simp] theorem withFlags_line (flags : StickyFlags) :
    (withFlags flags s).line = s.line := rfl

@[simp] theorem withFlags_frames (flags : StickyFlags) :
    (withFlags flags s).frames = s.frames := rfl

@[simp] theorem withFlags_stock (flags : StickyFlags) :
    (withFlags flags s).stock = s.stock := rfl

@[simp] theorem withFlags_bid (flags : StickyFlags) :
    (withFlags flags s).bid = s.bid := rfl

@[simp] theorem withFlags_hold (flags : StickyFlags) :
    (withFlags flags s).hold = s.hold := rfl

@[simp] theorem withFlags_picks (flags : StickyFlags) :
    (withFlags flags s).picks = s.picks := rfl

@[simp] theorem withFlags_trucks (flags : StickyFlags) :
    (withFlags flags s).trucks = s.trucks := rfl

@[simp] theorem withFlags_arbiter (flags : StickyFlags) :
    (withFlags flags s).arbiter = s.arbiter := rfl

@[simp] theorem withFlags_clock (flags : StickyFlags) :
    (withFlags flags s).clock = s.clock := rfl

@[simp] theorem withFlags_signal (flags : StickyFlags) :
    (withFlags flags s).signal = s.signal := rfl

@[simp] theorem withFlags_pending (flags : StickyFlags) :
    (withFlags flags s).pending = s.pending := rfl

/-! flagFlaw -/

@[simp] theorem flagFlaw_startup :
    (flagFlaw s).startup = s.startup := rfl

@[simp] theorem flagFlaw_line :
    (flagFlaw s).line = s.line := rfl

@[simp] theorem flagFlaw_frames :
    (flagFlaw s).frames = s.frames := rfl

@[simp] theorem flagFlaw_stock :
    (flagFlaw s).stock = s.stock := rfl

@[simp] theorem flagFlaw_bid :
    (flagFlaw s).bid = s.bid := rfl

@[simp] theorem flagFlaw_hold :
    (flagFlaw s).hold = s.hold := rfl

@[simp] theorem flagFlaw_picks :
    (flagFlaw s).picks = s.picks := rfl

@[simp] theorem flagFlaw_trucks :
    (flagFlaw s).trucks = s.trucks := rfl

@[simp] theorem flagFlaw_arbiter :
    (flagFlaw s).arbiter = s.arbiter := rfl

@[simp] theorem flagFlaw_clock :
    (flagFlaw s).clock = s.clock := rfl

@[simp] theorem flagFlaw_signal :
    (flagFlaw s).signal = s.signal := rfl

@[simp] theorem flagFlaw_pending :
    (flagFlaw s).pending = s.pending := rfl

/-! flagFragment -/

@[simp] theorem flagFragment_startup :
    (flagFragment s).startup = s.startup := rfl

@[simp] theorem flagFragment_line :
    (flagFragment s).line = s.line := rfl

@[simp] theorem flagFragment_frames :
    (flagFragment s).frames = s.frames := rfl

@[simp] theorem flagFragment_stock :
    (flagFragment s).stock = s.stock := rfl

@[simp] theorem flagFragment_bid :
    (flagFragment s).bid = s.bid := rfl

@[simp] theorem flagFragment_hold :
    (flagFragment s).hold = s.hold := rfl

@[simp] theorem flagFragment_picks :
    (flagFragment s).picks = s.picks := rfl

@[simp] theorem flagFragment_trucks :
    (flagFragment s).trucks = s.trucks := rfl

@[simp] theorem flagFragment_arbiter :
    (flagFragment s).arbiter = s.arbiter := rfl

@[simp] theorem flagFragment_clock :
    (flagFragment s).clock = s.clock := rfl

@[simp] theorem flagFragment_signal :
    (flagFragment s).signal = s.signal := rfl

@[simp] theorem flagFragment_pending :
    (flagFragment s).pending = s.pending := rfl

/-! flagOverrun -/

@[simp] theorem flagOverrun_startup :
    (flagOverrun s).startup = s.startup := rfl

@[simp] theorem flagOverrun_line :
    (flagOverrun s).line = s.line := rfl

@[simp] theorem flagOverrun_frames :
    (flagOverrun s).frames = s.frames := rfl

@[simp] theorem flagOverrun_stock :
    (flagOverrun s).stock = s.stock := rfl

@[simp] theorem flagOverrun_bid :
    (flagOverrun s).bid = s.bid := rfl

@[simp] theorem flagOverrun_hold :
    (flagOverrun s).hold = s.hold := rfl

@[simp] theorem flagOverrun_picks :
    (flagOverrun s).picks = s.picks := rfl

@[simp] theorem flagOverrun_trucks :
    (flagOverrun s).trucks = s.trucks := rfl

@[simp] theorem flagOverrun_arbiter :
    (flagOverrun s).arbiter = s.arbiter := rfl

@[simp] theorem flagOverrun_clock :
    (flagOverrun s).clock = s.clock := rfl

@[simp] theorem flagOverrun_signal :
    (flagOverrun s).signal = s.signal := rfl

@[simp] theorem flagOverrun_pending :
    (flagOverrun s).pending = s.pending := rfl

/-! flagReportLost -/

@[simp] theorem flagReportLost_startup :
    (flagReportLost s).startup = s.startup := rfl

@[simp] theorem flagReportLost_line :
    (flagReportLost s).line = s.line := rfl

@[simp] theorem flagReportLost_frames :
    (flagReportLost s).frames = s.frames := rfl

@[simp] theorem flagReportLost_stock :
    (flagReportLost s).stock = s.stock := rfl

@[simp] theorem flagReportLost_bid :
    (flagReportLost s).bid = s.bid := rfl

@[simp] theorem flagReportLost_hold :
    (flagReportLost s).hold = s.hold := rfl

@[simp] theorem flagReportLost_picks :
    (flagReportLost s).picks = s.picks := rfl

@[simp] theorem flagReportLost_trucks :
    (flagReportLost s).trucks = s.trucks := rfl

@[simp] theorem flagReportLost_arbiter :
    (flagReportLost s).arbiter = s.arbiter := rfl

@[simp] theorem flagReportLost_clock :
    (flagReportLost s).clock = s.clock := rfl

@[simp] theorem flagReportLost_signal :
    (flagReportLost s).signal = s.signal := rfl

@[simp] theorem flagReportLost_pending :
    (flagReportLost s).pending = s.pending := rfl

/-! flagNoticeLoss -/

@[simp] theorem flagNoticeLoss_startup :
    (flagNoticeLoss s).startup = s.startup := rfl

@[simp] theorem flagNoticeLoss_line :
    (flagNoticeLoss s).line = s.line := rfl

@[simp] theorem flagNoticeLoss_frames :
    (flagNoticeLoss s).frames = s.frames := rfl

@[simp] theorem flagNoticeLoss_stock :
    (flagNoticeLoss s).stock = s.stock := rfl

@[simp] theorem flagNoticeLoss_bid :
    (flagNoticeLoss s).bid = s.bid := rfl

@[simp] theorem flagNoticeLoss_hold :
    (flagNoticeLoss s).hold = s.hold := rfl

@[simp] theorem flagNoticeLoss_picks :
    (flagNoticeLoss s).picks = s.picks := rfl

@[simp] theorem flagNoticeLoss_trucks :
    (flagNoticeLoss s).trucks = s.trucks := rfl

@[simp] theorem flagNoticeLoss_arbiter :
    (flagNoticeLoss s).arbiter = s.arbiter := rfl

@[simp] theorem flagNoticeLoss_clock :
    (flagNoticeLoss s).clock = s.clock := rfl

@[simp] theorem flagNoticeLoss_signal :
    (flagNoticeLoss s).signal = s.signal := rfl

@[simp] theorem flagNoticeLoss_pending :
    (flagNoticeLoss s).pending = s.pending := rfl

/-! flagStrayTake -/

@[simp] theorem flagStrayTake_startup :
    (flagStrayTake s).startup = s.startup := rfl

@[simp] theorem flagStrayTake_line :
    (flagStrayTake s).line = s.line := rfl

@[simp] theorem flagStrayTake_frames :
    (flagStrayTake s).frames = s.frames := rfl

@[simp] theorem flagStrayTake_stock :
    (flagStrayTake s).stock = s.stock := rfl

@[simp] theorem flagStrayTake_bid :
    (flagStrayTake s).bid = s.bid := rfl

@[simp] theorem flagStrayTake_hold :
    (flagStrayTake s).hold = s.hold := rfl

@[simp] theorem flagStrayTake_picks :
    (flagStrayTake s).picks = s.picks := rfl

@[simp] theorem flagStrayTake_trucks :
    (flagStrayTake s).trucks = s.trucks := rfl

@[simp] theorem flagStrayTake_arbiter :
    (flagStrayTake s).arbiter = s.arbiter := rfl

@[simp] theorem flagStrayTake_clock :
    (flagStrayTake s).clock = s.clock := rfl

@[simp] theorem flagStrayTake_signal :
    (flagStrayTake s).signal = s.signal := rfl

@[simp] theorem flagStrayTake_pending :
    (flagStrayTake s).pending = s.pending := rfl

/-! flagSurplus -/

@[simp] theorem flagSurplus_startup :
    (flagSurplus s).startup = s.startup := rfl

@[simp] theorem flagSurplus_line :
    (flagSurplus s).line = s.line := rfl

@[simp] theorem flagSurplus_frames :
    (flagSurplus s).frames = s.frames := rfl

@[simp] theorem flagSurplus_stock :
    (flagSurplus s).stock = s.stock := rfl

@[simp] theorem flagSurplus_bid :
    (flagSurplus s).bid = s.bid := rfl

@[simp] theorem flagSurplus_hold :
    (flagSurplus s).hold = s.hold := rfl

@[simp] theorem flagSurplus_picks :
    (flagSurplus s).picks = s.picks := rfl

@[simp] theorem flagSurplus_trucks :
    (flagSurplus s).trucks = s.trucks := rfl

@[simp] theorem flagSurplus_arbiter :
    (flagSurplus s).arbiter = s.arbiter := rfl

@[simp] theorem flagSurplus_clock :
    (flagSurplus s).clock = s.clock := rfl

@[simp] theorem flagSurplus_signal :
    (flagSurplus s).signal = s.signal := rfl

@[simp] theorem flagSurplus_pending :
    (flagSurplus s).pending = s.pending := rfl

/-! flagClockConflict -/

@[simp] theorem flagClockConflict_startup :
    (flagClockConflict s).startup = s.startup := rfl

@[simp] theorem flagClockConflict_line :
    (flagClockConflict s).line = s.line := rfl

@[simp] theorem flagClockConflict_frames :
    (flagClockConflict s).frames = s.frames := rfl

@[simp] theorem flagClockConflict_stock :
    (flagClockConflict s).stock = s.stock := rfl

@[simp] theorem flagClockConflict_bid :
    (flagClockConflict s).bid = s.bid := rfl

@[simp] theorem flagClockConflict_hold :
    (flagClockConflict s).hold = s.hold := rfl

@[simp] theorem flagClockConflict_picks :
    (flagClockConflict s).picks = s.picks := rfl

@[simp] theorem flagClockConflict_trucks :
    (flagClockConflict s).trucks = s.trucks := rfl

@[simp] theorem flagClockConflict_arbiter :
    (flagClockConflict s).arbiter = s.arbiter := rfl

@[simp] theorem flagClockConflict_clock :
    (flagClockConflict s).clock = s.clock := rfl

@[simp] theorem flagClockConflict_signal :
    (flagClockConflict s).signal = s.signal := rfl

@[simp] theorem flagClockConflict_pending :
    (flagClockConflict s).pending = s.pending := rfl

/-! mapLamps -/

@[simp] theorem mapLamps_startup (which : FieldFunction → Bool) (f : Lamp → Lamp) :
    (mapLamps which f s).startup = s.startup := rfl

@[simp] theorem mapLamps_line (which : FieldFunction → Bool) (f : Lamp → Lamp) :
    (mapLamps which f s).line = s.line := rfl

@[simp] theorem mapLamps_frames (which : FieldFunction → Bool) (f : Lamp → Lamp) :
    (mapLamps which f s).frames = s.frames := rfl

@[simp] theorem mapLamps_stock (which : FieldFunction → Bool) (f : Lamp → Lamp) :
    (mapLamps which f s).stock = s.stock := rfl

@[simp] theorem mapLamps_bid (which : FieldFunction → Bool) (f : Lamp → Lamp) :
    (mapLamps which f s).bid = s.bid := rfl

@[simp] theorem mapLamps_hold (which : FieldFunction → Bool) (f : Lamp → Lamp) :
    (mapLamps which f s).hold = s.hold := rfl

@[simp] theorem mapLamps_picks (which : FieldFunction → Bool) (f : Lamp → Lamp) :
    (mapLamps which f s).picks = s.picks := rfl

@[simp] theorem mapLamps_trucks (which : FieldFunction → Bool) (f : Lamp → Lamp) :
    (mapLamps which f s).trucks = s.trucks := rfl

@[simp] theorem mapLamps_arbiter (which : FieldFunction → Bool) (f : Lamp → Lamp) :
    (mapLamps which f s).arbiter = s.arbiter := rfl

@[simp] theorem mapLamps_clock (which : FieldFunction → Bool) (f : Lamp → Lamp) :
    (mapLamps which f s).clock = s.clock := rfl

@[simp] theorem mapLamps_port (which : FieldFunction → Bool) (f : Lamp → Lamp) :
    (mapLamps which f s).port = s.port := rfl

@[simp] theorem mapLamps_pending (which : FieldFunction → Bool) (f : Lamp → Lamp) :
    (mapLamps which f s).pending = s.pending := rfl

/-! requestPattern -/

@[simp] theorem requestPattern_startup (g : FieldFunction) (p : Pattern) :
    (requestPattern g p s).startup = s.startup := rfl

@[simp] theorem requestPattern_line (g : FieldFunction) (p : Pattern) :
    (requestPattern g p s).line = s.line := rfl

@[simp] theorem requestPattern_frames (g : FieldFunction) (p : Pattern) :
    (requestPattern g p s).frames = s.frames := rfl

@[simp] theorem requestPattern_stock (g : FieldFunction) (p : Pattern) :
    (requestPattern g p s).stock = s.stock := rfl

@[simp] theorem requestPattern_bid (g : FieldFunction) (p : Pattern) :
    (requestPattern g p s).bid = s.bid := rfl

@[simp] theorem requestPattern_hold (g : FieldFunction) (p : Pattern) :
    (requestPattern g p s).hold = s.hold := rfl

@[simp] theorem requestPattern_picks (g : FieldFunction) (p : Pattern) :
    (requestPattern g p s).picks = s.picks := rfl

@[simp] theorem requestPattern_trucks (g : FieldFunction) (p : Pattern) :
    (requestPattern g p s).trucks = s.trucks := rfl

@[simp] theorem requestPattern_arbiter (g : FieldFunction) (p : Pattern) :
    (requestPattern g p s).arbiter = s.arbiter := rfl

@[simp] theorem requestPattern_clock (g : FieldFunction) (p : Pattern) :
    (requestPattern g p s).clock = s.clock := rfl

@[simp] theorem requestPattern_port (g : FieldFunction) (p : Pattern) :
    (requestPattern g p s).port = s.port := rfl

@[simp] theorem requestPattern_pending (g : FieldFunction) (p : Pattern) :
    (requestPattern g p s).pending = s.pending := rfl

/-! haltOutputs -/

@[simp] theorem haltOutputs_startup :
    (haltOutputs s).startup = s.startup := rfl

@[simp] theorem haltOutputs_line :
    (haltOutputs s).line = s.line := rfl

@[simp] theorem haltOutputs_frames :
    (haltOutputs s).frames = s.frames := rfl

@[simp] theorem haltOutputs_stock :
    (haltOutputs s).stock = s.stock := rfl

@[simp] theorem haltOutputs_bid :
    (haltOutputs s).bid = s.bid := rfl

@[simp] theorem haltOutputs_hold :
    (haltOutputs s).hold = s.hold := rfl

@[simp] theorem haltOutputs_picks :
    (haltOutputs s).picks = s.picks := rfl

@[simp] theorem haltOutputs_trucks :
    (haltOutputs s).trucks = s.trucks := rfl

@[simp] theorem haltOutputs_arbiter :
    (haltOutputs s).arbiter = s.arbiter := rfl

@[simp] theorem haltOutputs_clock :
    (haltOutputs s).clock = s.clock := rfl

@[simp] theorem haltOutputs_port :
    (haltOutputs s).port = s.port := rfl

@[simp] theorem haltOutputs_pending :
    (haltOutputs s).pending = s.pending := rfl

/-! releaseOutputs -/

@[simp] theorem releaseOutputs_startup :
    (releaseOutputs s).startup = s.startup := rfl

@[simp] theorem releaseOutputs_line :
    (releaseOutputs s).line = s.line := rfl

@[simp] theorem releaseOutputs_frames :
    (releaseOutputs s).frames = s.frames := rfl

@[simp] theorem releaseOutputs_stock :
    (releaseOutputs s).stock = s.stock := rfl

@[simp] theorem releaseOutputs_bid :
    (releaseOutputs s).bid = s.bid := rfl

@[simp] theorem releaseOutputs_hold :
    (releaseOutputs s).hold = s.hold := rfl

@[simp] theorem releaseOutputs_picks :
    (releaseOutputs s).picks = s.picks := rfl

@[simp] theorem releaseOutputs_trucks :
    (releaseOutputs s).trucks = s.trucks := rfl

@[simp] theorem releaseOutputs_arbiter :
    (releaseOutputs s).arbiter = s.arbiter := rfl

@[simp] theorem releaseOutputs_clock :
    (releaseOutputs s).clock = s.clock := rfl

@[simp] theorem releaseOutputs_port :
    (releaseOutputs s).port = s.port := rfl

@[simp] theorem releaseOutputs_pending :
    (releaseOutputs s).pending = s.pending := rfl

/-! mapInput -/

@[simp] theorem mapInput_startup (n : Nat) (f : InputLine → InputLine) :
    (mapInput n f s).startup = s.startup := rfl

@[simp] theorem mapInput_line (n : Nat) (f : InputLine → InputLine) :
    (mapInput n f s).line = s.line := rfl

@[simp] theorem mapInput_frames (n : Nat) (f : InputLine → InputLine) :
    (mapInput n f s).frames = s.frames := rfl

@[simp] theorem mapInput_stock (n : Nat) (f : InputLine → InputLine) :
    (mapInput n f s).stock = s.stock := rfl

@[simp] theorem mapInput_bid (n : Nat) (f : InputLine → InputLine) :
    (mapInput n f s).bid = s.bid := rfl

@[simp] theorem mapInput_hold (n : Nat) (f : InputLine → InputLine) :
    (mapInput n f s).hold = s.hold := rfl

@[simp] theorem mapInput_picks (n : Nat) (f : InputLine → InputLine) :
    (mapInput n f s).picks = s.picks := rfl

@[simp] theorem mapInput_trucks (n : Nat) (f : InputLine → InputLine) :
    (mapInput n f s).trucks = s.trucks := rfl

@[simp] theorem mapInput_arbiter (n : Nat) (f : InputLine → InputLine) :
    (mapInput n f s).arbiter = s.arbiter := rfl

@[simp] theorem mapInput_clock (n : Nat) (f : InputLine → InputLine) :
    (mapInput n f s).clock = s.clock := rfl

@[simp] theorem mapInput_port (n : Nat) (f : InputLine → InputLine) :
    (mapInput n f s).port = s.port := rfl

@[simp] theorem mapInput_pending (n : Nat) (f : InputLine → InputLine) :
    (mapInput n f s).pending = s.pending := rfl

/-! lineQuiet -/

@[simp] theorem lineQuiet_startup :
    (lineQuiet s).startup = s.startup := rfl

@[simp] theorem lineQuiet_frames :
    (lineQuiet s).frames = s.frames := rfl

@[simp] theorem lineQuiet_stock :
    (lineQuiet s).stock = s.stock := rfl

@[simp] theorem lineQuiet_bid :
    (lineQuiet s).bid = s.bid := rfl

@[simp] theorem lineQuiet_hold :
    (lineQuiet s).hold = s.hold := rfl

@[simp] theorem lineQuiet_picks :
    (lineQuiet s).picks = s.picks := rfl

@[simp] theorem lineQuiet_trucks :
    (lineQuiet s).trucks = s.trucks := rfl

@[simp] theorem lineQuiet_arbiter :
    (lineQuiet s).arbiter = s.arbiter := rfl

@[simp] theorem lineQuiet_clock :
    (lineQuiet s).clock = s.clock := rfl

@[simp] theorem lineQuiet_signal :
    (lineQuiet s).signal = s.signal := rfl

@[simp] theorem lineQuiet_port :
    (lineQuiet s).port = s.port := rfl

@[simp] theorem lineQuiet_pending :
    (lineQuiet s).pending = s.pending := rfl

/-! lineDwPulled -/

@[simp] theorem lineDwPulled_startup :
    (lineDwPulled s).startup = s.startup := rfl

@[simp] theorem lineDwPulled_frames :
    (lineDwPulled s).frames = s.frames := rfl

@[simp] theorem lineDwPulled_stock :
    (lineDwPulled s).stock = s.stock := rfl

@[simp] theorem lineDwPulled_bid :
    (lineDwPulled s).bid = s.bid := rfl

@[simp] theorem lineDwPulled_hold :
    (lineDwPulled s).hold = s.hold := rfl

@[simp] theorem lineDwPulled_picks :
    (lineDwPulled s).picks = s.picks := rfl

@[simp] theorem lineDwPulled_trucks :
    (lineDwPulled s).trucks = s.trucks := rfl

@[simp] theorem lineDwPulled_arbiter :
    (lineDwPulled s).arbiter = s.arbiter := rfl

@[simp] theorem lineDwPulled_clock :
    (lineDwPulled s).clock = s.clock := rfl

@[simp] theorem lineDwPulled_signal :
    (lineDwPulled s).signal = s.signal := rfl

@[simp] theorem lineDwPulled_port :
    (lineDwPulled s).port = s.port := rfl

@[simp] theorem lineDwPulled_pending :
    (lineDwPulled s).pending = s.pending := rfl

/-! lineStartMark -/

@[simp] theorem lineStartMark_startup :
    (lineStartMark s).startup = s.startup := rfl

@[simp] theorem lineStartMark_frames :
    (lineStartMark s).frames = s.frames := rfl

@[simp] theorem lineStartMark_stock :
    (lineStartMark s).stock = s.stock := rfl

@[simp] theorem lineStartMark_bid :
    (lineStartMark s).bid = s.bid := rfl

@[simp] theorem lineStartMark_hold :
    (lineStartMark s).hold = s.hold := rfl

@[simp] theorem lineStartMark_picks :
    (lineStartMark s).picks = s.picks := rfl

@[simp] theorem lineStartMark_trucks :
    (lineStartMark s).trucks = s.trucks := rfl

@[simp] theorem lineStartMark_arbiter :
    (lineStartMark s).arbiter = s.arbiter := rfl

@[simp] theorem lineStartMark_clock :
    (lineStartMark s).clock = s.clock := rfl

@[simp] theorem lineStartMark_signal :
    (lineStartMark s).signal = s.signal := rfl

@[simp] theorem lineStartMark_port :
    (lineStartMark s).port = s.port := rfl

@[simp] theorem lineStartMark_pending :
    (lineStartMark s).pending = s.pending := rfl

/-! lineBusy -/

@[simp] theorem lineBusy_startup (a : Activity) :
    (lineBusy a s).startup = s.startup := rfl

@[simp] theorem lineBusy_frames (a : Activity) :
    (lineBusy a s).frames = s.frames := rfl

@[simp] theorem lineBusy_stock (a : Activity) :
    (lineBusy a s).stock = s.stock := rfl

@[simp] theorem lineBusy_bid (a : Activity) :
    (lineBusy a s).bid = s.bid := rfl

@[simp] theorem lineBusy_hold (a : Activity) :
    (lineBusy a s).hold = s.hold := rfl

@[simp] theorem lineBusy_picks (a : Activity) :
    (lineBusy a s).picks = s.picks := rfl

@[simp] theorem lineBusy_trucks (a : Activity) :
    (lineBusy a s).trucks = s.trucks := rfl

@[simp] theorem lineBusy_arbiter (a : Activity) :
    (lineBusy a s).arbiter = s.arbiter := rfl

@[simp] theorem lineBusy_clock (a : Activity) :
    (lineBusy a s).clock = s.clock := rfl

@[simp] theorem lineBusy_signal (a : Activity) :
    (lineBusy a s).signal = s.signal := rfl

@[simp] theorem lineBusy_port (a : Activity) :
    (lineBusy a s).port = s.port := rfl

@[simp] theorem lineBusy_pending (a : Activity) :
    (lineBusy a s).pending = s.pending := rfl

/-! drive -/

@[simp] theorem drive_startup (d : Driving) :
    (drive d s).startup = s.startup := rfl

@[simp] theorem drive_frames (d : Driving) :
    (drive d s).frames = s.frames := rfl

@[simp] theorem drive_stock (d : Driving) :
    (drive d s).stock = s.stock := rfl

@[simp] theorem drive_bid (d : Driving) :
    (drive d s).bid = s.bid := rfl

@[simp] theorem drive_hold (d : Driving) :
    (drive d s).hold = s.hold := rfl

@[simp] theorem drive_picks (d : Driving) :
    (drive d s).picks = s.picks := rfl

@[simp] theorem drive_trucks (d : Driving) :
    (drive d s).trucks = s.trucks := rfl

@[simp] theorem drive_arbiter (d : Driving) :
    (drive d s).arbiter = s.arbiter := rfl

@[simp] theorem drive_clock (d : Driving) :
    (drive d s).clock = s.clock := rfl

@[simp] theorem drive_signal (d : Driving) :
    (drive d s).signal = s.signal := rfl

@[simp] theorem drive_port (d : Driving) :
    (drive d s).port = s.port := rfl

@[simp] theorem drive_pending (d : Driving) :
    (drive d s).pending = s.pending := rfl

/-! report -/

@[simp] theorem report_startup (r : FrameReport) :
    (report r s).startup = s.startup := rfl

@[simp] theorem report_frames (r : FrameReport) :
    (report r s).frames = s.frames := rfl

@[simp] theorem report_stock (r : FrameReport) :
    (report r s).stock = s.stock := rfl

@[simp] theorem report_bid (r : FrameReport) :
    (report r s).bid = s.bid := rfl

@[simp] theorem report_hold (r : FrameReport) :
    (report r s).hold = s.hold := rfl

@[simp] theorem report_picks (r : FrameReport) :
    (report r s).picks = s.picks := rfl

@[simp] theorem report_trucks (r : FrameReport) :
    (report r s).trucks = s.trucks := rfl

@[simp] theorem report_arbiter (r : FrameReport) :
    (report r s).arbiter = s.arbiter := rfl

@[simp] theorem report_clock (r : FrameReport) :
    (report r s).clock = s.clock := rfl

@[simp] theorem report_signal (r : FrameReport) :
    (report r s).signal = s.signal := rfl

@[simp] theorem report_port (r : FrameReport) :
    (report r s).port = s.port := rfl

@[simp] theorem report_pending (r : FrameReport) :
    (report r s).pending = s.pending := rfl

/-! reportSent -/

@[simp] theorem reportSent_startup (o : ReportOutcome) (x y : Bool) :
    (reportSent o x y s).startup = s.startup := rfl

@[simp] theorem reportSent_frames (o : ReportOutcome) (x y : Bool) :
    (reportSent o x y s).frames = s.frames := rfl

@[simp] theorem reportSent_stock (o : ReportOutcome) (x y : Bool) :
    (reportSent o x y s).stock = s.stock := rfl

@[simp] theorem reportSent_bid (o : ReportOutcome) (x y : Bool) :
    (reportSent o x y s).bid = s.bid := rfl

@[simp] theorem reportSent_hold (o : ReportOutcome) (x y : Bool) :
    (reportSent o x y s).hold = s.hold := rfl

@[simp] theorem reportSent_picks (o : ReportOutcome) (x y : Bool) :
    (reportSent o x y s).picks = s.picks := rfl

@[simp] theorem reportSent_trucks (o : ReportOutcome) (x y : Bool) :
    (reportSent o x y s).trucks = s.trucks := rfl

@[simp] theorem reportSent_arbiter (o : ReportOutcome) (x y : Bool) :
    (reportSent o x y s).arbiter = s.arbiter := rfl

@[simp] theorem reportSent_clock (o : ReportOutcome) (x y : Bool) :
    (reportSent o x y s).clock = s.clock := rfl

@[simp] theorem reportSent_signal (o : ReportOutcome) (x y : Bool) :
    (reportSent o x y s).signal = s.signal := rfl

@[simp] theorem reportSent_port (o : ReportOutcome) (x y : Bool) :
    (reportSent o x y s).port = s.port := rfl

@[simp] theorem reportSent_pending (o : ReportOutcome) (x y : Bool) :
    (reportSent o x y s).pending = s.pending := rfl

/-! withQueue -/

@[simp] theorem withQueue_startup (queue : List Notice) :
    (withQueue queue s).startup = s.startup := rfl

@[simp] theorem withQueue_line (queue : List Notice) :
    (withQueue queue s).line = s.line := rfl

@[simp] theorem withQueue_stock (queue : List Notice) :
    (withQueue queue s).stock = s.stock := rfl

@[simp] theorem withQueue_bid (queue : List Notice) :
    (withQueue queue s).bid = s.bid := rfl

@[simp] theorem withQueue_hold (queue : List Notice) :
    (withQueue queue s).hold = s.hold := rfl

@[simp] theorem withQueue_picks (queue : List Notice) :
    (withQueue queue s).picks = s.picks := rfl

@[simp] theorem withQueue_trucks (queue : List Notice) :
    (withQueue queue s).trucks = s.trucks := rfl

@[simp] theorem withQueue_arbiter (queue : List Notice) :
    (withQueue queue s).arbiter = s.arbiter := rfl

@[simp] theorem withQueue_clock (queue : List Notice) :
    (withQueue queue s).clock = s.clock := rfl

@[simp] theorem withQueue_signal (queue : List Notice) :
    (withQueue queue s).signal = s.signal := rfl

@[simp] theorem withQueue_port (queue : List Notice) :
    (withQueue queue s).port = s.port := rfl

@[simp] theorem withQueue_pending (queue : List Notice) :
    (withQueue queue s).pending = s.pending := rfl

/-! transmit -/

@[simp] theorem transmit_startup (m : List Byte) :
    (transmit m s).startup = s.startup := rfl

@[simp] theorem transmit_line (m : List Byte) :
    (transmit m s).line = s.line := rfl

@[simp] theorem transmit_frames (m : List Byte) :
    (transmit m s).frames = s.frames := rfl

@[simp] theorem transmit_stock (m : List Byte) :
    (transmit m s).stock = s.stock := rfl

@[simp] theorem transmit_bid (m : List Byte) :
    (transmit m s).bid = s.bid := rfl

@[simp] theorem transmit_hold (m : List Byte) :
    (transmit m s).hold = s.hold := rfl

@[simp] theorem transmit_picks (m : List Byte) :
    (transmit m s).picks = s.picks := rfl

@[simp] theorem transmit_trucks (m : List Byte) :
    (transmit m s).trucks = s.trucks := rfl

@[simp] theorem transmit_arbiter (m : List Byte) :
    (transmit m s).arbiter = s.arbiter := rfl

@[simp] theorem transmit_clock (m : List Byte) :
    (transmit m s).clock = s.clock := rfl

@[simp] theorem transmit_signal (m : List Byte) :
    (transmit m s).signal = s.signal := rfl

@[simp] theorem transmit_pending (m : List Byte) :
    (transmit m s).pending = s.pending := rfl

/-! reply -/

@[simp] theorem reply_startup (code : Byte) (r : ResultCode) (data : List Byte) :
    (reply code r data s).startup = s.startup := rfl

@[simp] theorem reply_line (code : Byte) (r : ResultCode) (data : List Byte) :
    (reply code r data s).line = s.line := rfl

@[simp] theorem reply_frames (code : Byte) (r : ResultCode) (data : List Byte) :
    (reply code r data s).frames = s.frames := rfl

@[simp] theorem reply_stock (code : Byte) (r : ResultCode) (data : List Byte) :
    (reply code r data s).stock = s.stock := rfl

@[simp] theorem reply_bid (code : Byte) (r : ResultCode) (data : List Byte) :
    (reply code r data s).bid = s.bid := rfl

@[simp] theorem reply_hold (code : Byte) (r : ResultCode) (data : List Byte) :
    (reply code r data s).hold = s.hold := rfl

@[simp] theorem reply_picks (code : Byte) (r : ResultCode) (data : List Byte) :
    (reply code r data s).picks = s.picks := rfl

@[simp] theorem reply_trucks (code : Byte) (r : ResultCode) (data : List Byte) :
    (reply code r data s).trucks = s.trucks := rfl

@[simp] theorem reply_arbiter (code : Byte) (r : ResultCode) (data : List Byte) :
    (reply code r data s).arbiter = s.arbiter := rfl

@[simp] theorem reply_clock (code : Byte) (r : ResultCode) (data : List Byte) :
    (reply code r data s).clock = s.clock := rfl

@[simp] theorem reply_signal (code : Byte) (r : ResultCode) (data : List Byte) :
    (reply code r data s).signal = s.signal := rfl

@[simp] theorem reply_pending (code : Byte) (r : ResultCode) (data : List Byte) :
    (reply code r data s).pending = s.pending := rfl

/-! clearWaiting -/

@[simp] theorem clearWaiting_startup :
    (clearWaiting s).startup = s.startup := rfl

@[simp] theorem clearWaiting_line :
    (clearWaiting s).line = s.line := rfl

@[simp] theorem clearWaiting_frames :
    (clearWaiting s).frames = s.frames := rfl

@[simp] theorem clearWaiting_stock :
    (clearWaiting s).stock = s.stock := rfl

@[simp] theorem clearWaiting_bid :
    (clearWaiting s).bid = s.bid := rfl

@[simp] theorem clearWaiting_hold :
    (clearWaiting s).hold = s.hold := rfl

@[simp] theorem clearWaiting_picks :
    (clearWaiting s).picks = s.picks := rfl

@[simp] theorem clearWaiting_trucks :
    (clearWaiting s).trucks = s.trucks := rfl

@[simp] theorem clearWaiting_arbiter :
    (clearWaiting s).arbiter = s.arbiter := rfl

@[simp] theorem clearWaiting_clock :
    (clearWaiting s).clock = s.clock := rfl

@[simp] theorem clearWaiting_signal :
    (clearWaiting s).signal = s.signal := rfl

@[simp] theorem clearWaiting_pending :
    (clearWaiting s).pending = s.pending := rfl

/-! withStock -/

@[simp] theorem withStock_startup (stock : Stock) :
    (withStock stock s).startup = s.startup := rfl

@[simp] theorem withStock_line (stock : Stock) :
    (withStock stock s).line = s.line := rfl

@[simp] theorem withStock_frames (stock : Stock) :
    (withStock stock s).frames = s.frames := rfl

@[simp] theorem withStock_bid (stock : Stock) :
    (withStock stock s).bid = s.bid := rfl

@[simp] theorem withStock_hold (stock : Stock) :
    (withStock stock s).hold = s.hold := rfl

@[simp] theorem withStock_picks (stock : Stock) :
    (withStock stock s).picks = s.picks := rfl

@[simp] theorem withStock_trucks (stock : Stock) :
    (withStock stock s).trucks = s.trucks := rfl

@[simp] theorem withStock_arbiter (stock : Stock) :
    (withStock stock s).arbiter = s.arbiter := rfl

@[simp] theorem withStock_clock (stock : Stock) :
    (withStock stock s).clock = s.clock := rfl

@[simp] theorem withStock_signal (stock : Stock) :
    (withStock stock s).signal = s.signal := rfl

@[simp] theorem withStock_port (stock : Stock) :
    (withStock stock s).port = s.port := rfl

@[simp] theorem withStock_pending (stock : Stock) :
    (withStock stock s).pending = s.pending := rfl

/-! withRound -/

@[simp] theorem withRound_startup (round : Option RoundView) :
    (withRound round s).startup = s.startup := rfl

@[simp] theorem withRound_line (round : Option RoundView) :
    (withRound round s).line = s.line := rfl

@[simp] theorem withRound_stock (round : Option RoundView) :
    (withRound round s).stock = s.stock := rfl

@[simp] theorem withRound_bid (round : Option RoundView) :
    (withRound round s).bid = s.bid := rfl

@[simp] theorem withRound_hold (round : Option RoundView) :
    (withRound round s).hold = s.hold := rfl

@[simp] theorem withRound_picks (round : Option RoundView) :
    (withRound round s).picks = s.picks := rfl

@[simp] theorem withRound_trucks (round : Option RoundView) :
    (withRound round s).trucks = s.trucks := rfl

@[simp] theorem withRound_arbiter (round : Option RoundView) :
    (withRound round s).arbiter = s.arbiter := rfl

@[simp] theorem withRound_clock (round : Option RoundView) :
    (withRound round s).clock = s.clock := rfl

@[simp] theorem withRound_signal (round : Option RoundView) :
    (withRound round s).signal = s.signal := rfl

@[simp] theorem withRound_port (round : Option RoundView) :
    (withRound round s).port = s.port := rfl

@[simp] theorem withRound_pending (round : Option RoundView) :
    (withRound round s).pending = s.pending := rfl

/-! withPart -/

@[simp] theorem withPart_startup (part : RowPart) :
    (withPart part s).startup = s.startup := rfl

@[simp] theorem withPart_line (part : RowPart) :
    (withPart part s).line = s.line := rfl

@[simp] theorem withPart_stock (part : RowPart) :
    (withPart part s).stock = s.stock := rfl

@[simp] theorem withPart_bid (part : RowPart) :
    (withPart part s).bid = s.bid := rfl

@[simp] theorem withPart_hold (part : RowPart) :
    (withPart part s).hold = s.hold := rfl

@[simp] theorem withPart_picks (part : RowPart) :
    (withPart part s).picks = s.picks := rfl

@[simp] theorem withPart_trucks (part : RowPart) :
    (withPart part s).trucks = s.trucks := rfl

@[simp] theorem withPart_arbiter (part : RowPart) :
    (withPart part s).arbiter = s.arbiter := rfl

@[simp] theorem withPart_clock (part : RowPart) :
    (withPart part s).clock = s.clock := rfl

@[simp] theorem withPart_signal (part : RowPart) :
    (withPart part s).signal = s.signal := rfl

@[simp] theorem withPart_port (part : RowPart) :
    (withPart part s).port = s.port := rfl

@[simp] theorem withPart_pending (part : RowPart) :
    (withPart part s).pending = s.pending := rfl

/-! ownRound -/

@[simp] theorem ownRound_startup :
    (ownRound s).startup = s.startup := rfl

@[simp] theorem ownRound_line :
    (ownRound s).line = s.line := rfl

@[simp] theorem ownRound_stock :
    (ownRound s).stock = s.stock := rfl

@[simp] theorem ownRound_bid :
    (ownRound s).bid = s.bid := rfl

@[simp] theorem ownRound_hold :
    (ownRound s).hold = s.hold := rfl

@[simp] theorem ownRound_picks :
    (ownRound s).picks = s.picks := rfl

@[simp] theorem ownRound_trucks :
    (ownRound s).trucks = s.trucks := rfl

@[simp] theorem ownRound_arbiter :
    (ownRound s).arbiter = s.arbiter := rfl

@[simp] theorem ownRound_clock :
    (ownRound s).clock = s.clock := rfl

@[simp] theorem ownRound_signal :
    (ownRound s).signal = s.signal := rfl

@[simp] theorem ownRound_port :
    (ownRound s).port = s.port := rfl

@[simp] theorem ownRound_pending :
    (ownRound s).pending = s.pending := rfl

/-! dropBid -/

@[simp] theorem dropBid_startup :
    (dropBid s).startup = s.startup := rfl

@[simp] theorem dropBid_line :
    (dropBid s).line = s.line := rfl

@[simp] theorem dropBid_frames :
    (dropBid s).frames = s.frames := rfl

@[simp] theorem dropBid_stock :
    (dropBid s).stock = s.stock := rfl

@[simp] theorem dropBid_hold :
    (dropBid s).hold = s.hold := rfl

@[simp] theorem dropBid_picks :
    (dropBid s).picks = s.picks := rfl

@[simp] theorem dropBid_trucks :
    (dropBid s).trucks = s.trucks := rfl

@[simp] theorem dropBid_arbiter :
    (dropBid s).arbiter = s.arbiter := rfl

@[simp] theorem dropBid_clock :
    (dropBid s).clock = s.clock := rfl

@[simp] theorem dropBid_signal :
    (dropBid s).signal = s.signal := rfl

@[simp] theorem dropBid_port :
    (dropBid s).port = s.port := rfl

@[simp] theorem dropBid_pending :
    (dropBid s).pending = s.pending := rfl

/-! createHold -/

@[simp] theorem createHold_startup (o : Reservation) (tags : List Nat) :
    (createHold o tags s).startup = s.startup := rfl

@[simp] theorem createHold_line (o : Reservation) (tags : List Nat) :
    (createHold o tags s).line = s.line := rfl

@[simp] theorem createHold_frames (o : Reservation) (tags : List Nat) :
    (createHold o tags s).frames = s.frames := rfl

@[simp] theorem createHold_bid (o : Reservation) (tags : List Nat) :
    (createHold o tags s).bid = s.bid := rfl

@[simp] theorem createHold_picks (o : Reservation) (tags : List Nat) :
    (createHold o tags s).picks = s.picks := rfl

@[simp] theorem createHold_trucks (o : Reservation) (tags : List Nat) :
    (createHold o tags s).trucks = s.trucks := rfl

@[simp] theorem createHold_arbiter (o : Reservation) (tags : List Nat) :
    (createHold o tags s).arbiter = s.arbiter := rfl

@[simp] theorem createHold_clock (o : Reservation) (tags : List Nat) :
    (createHold o tags s).clock = s.clock := rfl

@[simp] theorem createHold_signal (o : Reservation) (tags : List Nat) :
    (createHold o tags s).signal = s.signal := rfl

@[simp] theorem createHold_port (o : Reservation) (tags : List Nat) :
    (createHold o tags s).port = s.port := rfl

@[simp] theorem createHold_pending (o : Reservation) (tags : List Nat) :
    (createHold o tags s).pending = s.pending := rfl

/-! withTrucks -/

@[simp] theorem withTrucks_startup (trucks : List Truck) :
    (withTrucks trucks s).startup = s.startup := rfl

@[simp] theorem withTrucks_line (trucks : List Truck) :
    (withTrucks trucks s).line = s.line := rfl

@[simp] theorem withTrucks_frames (trucks : List Truck) :
    (withTrucks trucks s).frames = s.frames := rfl

@[simp] theorem withTrucks_stock (trucks : List Truck) :
    (withTrucks trucks s).stock = s.stock := rfl

@[simp] theorem withTrucks_bid (trucks : List Truck) :
    (withTrucks trucks s).bid = s.bid := rfl

@[simp] theorem withTrucks_hold (trucks : List Truck) :
    (withTrucks trucks s).hold = s.hold := rfl

@[simp] theorem withTrucks_picks (trucks : List Truck) :
    (withTrucks trucks s).picks = s.picks := rfl

@[simp] theorem withTrucks_arbiter (trucks : List Truck) :
    (withTrucks trucks s).arbiter = s.arbiter := rfl

@[simp] theorem withTrucks_clock (trucks : List Truck) :
    (withTrucks trucks s).clock = s.clock := rfl

@[simp] theorem withTrucks_signal (trucks : List Truck) :
    (withTrucks trucks s).signal = s.signal := rfl

@[simp] theorem withTrucks_port (trucks : List Truck) :
    (withTrucks trucks s).port = s.port := rfl

@[simp] theorem withTrucks_pending (trucks : List Truck) :
    (withTrucks trucks s).pending = s.pending := rfl

/-! setMinute -/

@[simp] theorem setMinute_startup (m : Minute) :
    (setMinute m s).startup = s.startup := rfl

@[simp] theorem setMinute_line (m : Minute) :
    (setMinute m s).line = s.line := rfl

@[simp] theorem setMinute_frames (m : Minute) :
    (setMinute m s).frames = s.frames := rfl

@[simp] theorem setMinute_stock (m : Minute) :
    (setMinute m s).stock = s.stock := rfl

@[simp] theorem setMinute_bid (m : Minute) :
    (setMinute m s).bid = s.bid := rfl

@[simp] theorem setMinute_hold (m : Minute) :
    (setMinute m s).hold = s.hold := rfl

@[simp] theorem setMinute_picks (m : Minute) :
    (setMinute m s).picks = s.picks := rfl

@[simp] theorem setMinute_trucks (m : Minute) :
    (setMinute m s).trucks = s.trucks := rfl

@[simp] theorem setMinute_arbiter (m : Minute) :
    (setMinute m s).arbiter = s.arbiter := rfl

@[simp] theorem setMinute_signal (m : Minute) :
    (setMinute m s).signal = s.signal := rfl

@[simp] theorem setMinute_port (m : Minute) :
    (setMinute m s).port = s.port := rfl

@[simp] theorem setMinute_pending (m : Minute) :
    (setMinute m s).pending = s.pending := rfl

/-! toGrantWait -/

@[simp] theorem toGrantWait_startup :
    (toGrantWait s).startup = s.startup := rfl

@[simp] theorem toGrantWait_stock :
    (toGrantWait s).stock = s.stock := rfl

@[simp] theorem toGrantWait_bid :
    (toGrantWait s).bid = s.bid := rfl

@[simp] theorem toGrantWait_hold :
    (toGrantWait s).hold = s.hold := rfl

@[simp] theorem toGrantWait_picks :
    (toGrantWait s).picks = s.picks := rfl

@[simp] theorem toGrantWait_trucks :
    (toGrantWait s).trucks = s.trucks := rfl

@[simp] theorem toGrantWait_arbiter :
    (toGrantWait s).arbiter = s.arbiter := rfl

@[simp] theorem toGrantWait_clock :
    (toGrantWait s).clock = s.clock := rfl

@[simp] theorem toGrantWait_signal :
    (toGrantWait s).signal = s.signal := rfl

@[simp] theorem toGrantWait_port :
    (toGrantWait s).port = s.port := rfl

@[simp] theorem toGrantWait_pending :
    (toGrantWait s).pending = s.pending := rfl

/-! rewriteGrantMinutes -/

@[simp] theorem rewriteGrantMinutes_startup :
    (rewriteGrantMinutes s).startup = s.startup := rfl

@[simp] theorem rewriteGrantMinutes_line :
    (rewriteGrantMinutes s).line = s.line := rfl

@[simp] theorem rewriteGrantMinutes_frames :
    (rewriteGrantMinutes s).frames = s.frames := rfl

@[simp] theorem rewriteGrantMinutes_stock :
    (rewriteGrantMinutes s).stock = s.stock := rfl

@[simp] theorem rewriteGrantMinutes_bid :
    (rewriteGrantMinutes s).bid = s.bid := rfl

@[simp] theorem rewriteGrantMinutes_hold :
    (rewriteGrantMinutes s).hold = s.hold := rfl

@[simp] theorem rewriteGrantMinutes_trucks :
    (rewriteGrantMinutes s).trucks = s.trucks := rfl

@[simp] theorem rewriteGrantMinutes_arbiter :
    (rewriteGrantMinutes s).arbiter = s.arbiter := rfl

@[simp] theorem rewriteGrantMinutes_clock :
    (rewriteGrantMinutes s).clock = s.clock := rfl

@[simp] theorem rewriteGrantMinutes_signal :
    (rewriteGrantMinutes s).signal = s.signal := rfl

@[simp] theorem rewriteGrantMinutes_port :
    (rewriteGrantMinutes s).port = s.port := rfl

@[simp] theorem rewriteGrantMinutes_pending :
    (rewriteGrantMinutes s).pending = s.pending := rfl

/-! The fields that are written -/

@[simp] theorem withQueue_queue (queue : List Notice) :
    (withQueue queue s).frames.queue = queue := rfl

@[simp] theorem withQueue_round (queue : List Notice) :
    (withQueue queue s).frames.round = s.frames.round := rfl

@[simp] theorem withQueue_yieldRecord (queue : List Notice) :
    (withQueue queue s).frames.yieldRecord = s.frames.yieldRecord := rfl

@[simp] theorem withRound_round (round : Option RoundView) :
    (withRound round s).frames.round = round := rfl

@[simp] theorem withRound_queue (round : Option RoundView) :
    (withRound round s).frames.queue = s.frames.queue := rfl

@[simp] theorem withRound_yieldRecord (round : Option RoundView) :
    (withRound round s).frames.yieldRecord = s.frames.yieldRecord := rfl

@[simp] theorem withStock_stock (stock : Stock) :
    (withStock stock s).stock = stock := rfl

@[simp] theorem withTrucks_trucks (trucks : List Truck) :
    (withTrucks trucks s).trucks = trucks := rfl

@[simp] theorem dropBid_bid :
    (dropBid s).bid = .idle := rfl

@[simp] theorem createHold_hold (o : Reservation) (tags : List Nat) :
    (createHold o tags s).hold = some (newHold o tags) := rfl

@[simp] theorem createHold_stock (o : Reservation) (tags : List Nat) :
    (createHold o tags s).stock = holdPacks tags s.stock := rfl

@[simp] theorem setMinute_clock (m : Minute) :
    (setMinute m s).clock = { minute := m, second := 0, fraction := 0, isSet := s.clock.isSet } := rfl

@[simp] theorem lineQuiet_line :
    (lineQuiet s).line =
      { s.line with condition := .quiet, activity := .nothing, idleCount := 0, stuckCount := 0 } := rfl

@[simp] theorem lineDwPulled_line :
    (lineDwPulled s).line =
      { s.line with condition := .busy, activity := .dwPulled, idleCount := 0, stuckCount := 0 } := rfl

@[simp] theorem lineStartMark_line :
    (lineStartMark s).line =
      { s.line with condition := .busy, activity := .startMark, idleCount := 0, stuckCount := 0 } := rfl

@[simp] theorem lineBusy_line (a : Activity) :
    (lineBusy a s).line =
      { s.line with condition := .busy, activity := a, idleCount := 0, stuckCount := 0 } := rfl

@[simp] theorem drive_line (d : Driving) :
    (drive d s).line = { s.line with driving := d } := rfl

@[simp] theorem report_line (r : FrameReport) :
    (report r s).line = { s.line with report := some r } := rfl

@[simp] theorem transmit_transmit (m : List Byte) :
    (transmit m s).port.transmit = s.port.transmit ++ [m] := rfl

@[simp] theorem transmit_waiting (m : List Byte) :
    (transmit m s).port.waiting = s.port.waiting := rfl

@[simp] theorem transmit_assembly (m : List Byte) :
    (transmit m s).port.assembly = s.port.assembly := rfl

@[simp] theorem transmit_flags (m : List Byte) :
    (transmit m s).port.flags = s.port.flags := rfl

@[simp] theorem transmit_breakHeld (m : List Byte) :
    (transmit m s).port.breakHeld = s.port.breakHeld := rfl

@[simp] theorem reply_port (code : Byte) (r : ResultCode) (data : List Byte) :
    (reply code r data s).port =
      { s.port with transmit := s.port.transmit ++ [replyMessage code r data] } := rfl

@[simp] theorem clearWaiting_port :
    (clearWaiting s).port = { s.port with waiting := none } := rfl

@[simp] theorem withFlags_port (flags : StickyFlags) :
    (withFlags flags s).port = { s.port with flags := flags } := rfl

@[simp] theorem mapLamps_inputs (which : FieldFunction → Bool) (f : Lamp → Lamp) :
    (mapLamps which f s).signal.inputs = s.signal.inputs := rfl

@[simp] theorem mapLamps_horn (which : FieldFunction → Bool) (f : Lamp → Lamp) :
    (mapLamps which f s).signal.horn = s.signal.horn := rfl

@[simp] theorem mapLamps_readyPosition (which : FieldFunction → Bool) (f : Lamp → Lamp) :
    (mapLamps which f s).signal.readyPosition = s.signal.readyPosition := rfl

@[simp] theorem requestPattern_inputs (g : FieldFunction) (p : Pattern) :
    (requestPattern g p s).signal.inputs = s.signal.inputs := rfl

@[simp] theorem requestPattern_horn (g : FieldFunction) (p : Pattern) :
    (requestPattern g p s).signal.horn = s.signal.horn := rfl

@[simp] theorem requestPattern_readyPosition (g : FieldFunction) (p : Pattern) :
    (requestPattern g p s).signal.readyPosition = s.signal.readyPosition := rfl

end Sys2Proof.Machine
end

