-- ==== Sys2Proof/Laws/Frames.lean ====
section
/-! SUPPORT. What each shared operation leaves alone: one lemma per field the operation never touches. -/

namespace Sys2Proof.Machine

variable (s : State)

/-! refreshReady -/

@[simp] theorem refreshReady_startup (before : State) :
    (refreshReady before s).startup = s.startup := by
  unfold refreshReady; split <;> rfl

@[simp] theorem refreshReady_line (before : State) :
    (refreshReady before s).line = s.line := by
  unfold refreshReady; split <;> rfl

@[simp] theorem refreshReady_frames (before : State) :
    (refreshReady before s).frames = s.frames := by
  unfold refreshReady; split <;> rfl

@[simp] theorem refreshReady_stock (before : State) :
    (refreshReady before s).stock = s.stock := by
  unfold refreshReady; split <;> rfl

@[simp] theorem refreshReady_bid (before : State) :
    (refreshReady before s).bid = s.bid := by
  unfold refreshReady; split <;> rfl

@[simp] theorem refreshReady_hold (before : State) :
    (refreshReady before s).hold = s.hold := by
  unfold refreshReady; split <;> rfl

@[simp] theorem refreshReady_picks (before : State) :
    (refreshReady before s).picks = s.picks := by
  unfold refreshReady; split <;> rfl

@[simp] theorem refreshReady_trucks (before : State) :
    (refreshReady before s).trucks = s.trucks := by
  unfold refreshReady; split <;> rfl

@[simp] theorem refreshReady_arbiter (before : State) :
    (refreshReady before s).arbiter = s.arbiter := by
  unfold refreshReady; split <;> rfl

@[simp] theorem refreshReady_clock (before : State) :
    (refreshReady before s).clock = s.clock := by
  unfold refreshReady; split <;> rfl

@[simp] theorem refreshReady_port (before : State) :
    (refreshReady before s).port = s.port := by
  unfold refreshReady; split <;> rfl

@[simp] theorem refreshReady_pending (before : State) :
    (refreshReady before s).pending = s.pending := by
  unfold refreshReady; split <;> rfl

/-! followWant -/

@[simp] theorem followWant_startup :
    (followWant s).startup = s.startup := by
  unfold followWant; repeat' split
  all_goals rfl

@[simp] theorem followWant_frames :
    (followWant s).frames = s.frames := by
  unfold followWant; repeat' split
  all_goals rfl

@[simp] theorem followWant_stock :
    (followWant s).stock = s.stock := by
  unfold followWant; repeat' split
  all_goals rfl

@[simp] theorem followWant_bid :
    (followWant s).bid = s.bid := by
  unfold followWant; repeat' split
  all_goals rfl

@[simp] theorem followWant_hold :
    (followWant s).hold = s.hold := by
  unfold followWant; repeat' split
  all_goals rfl

@[simp] theorem followWant_picks :
    (followWant s).picks = s.picks := by
  unfold followWant; repeat' split
  all_goals rfl

@[simp] theorem followWant_trucks :
    (followWant s).trucks = s.trucks := by
  unfold followWant; repeat' split
  all_goals rfl

@[simp] theorem followWant_arbiter :
    (followWant s).arbiter = s.arbiter := by
  unfold followWant; repeat' split
  all_goals rfl

@[simp] theorem followWant_clock :
    (followWant s).clock = s.clock := by
  unfold followWant; repeat' split
  all_goals rfl

@[simp] theorem followWant_signal :
    (followWant s).signal = s.signal := by
  unfold followWant; repeat' split
  all_goals rfl

@[simp] theorem followWant_port :
    (followWant s).port = s.port := by
  unfold followWant; repeat' split
  all_goals rfl

@[simp] theorem followWant_pending :
    (followWant s).pending = s.pending := by
  unfold followWant; repeat' split
  all_goals rfl

/-! requestHorn -/

@[simp] theorem requestHorn_startup :
    (requestHorn s).startup = s.startup := by
  unfold requestHorn; split <;> rfl

@[simp] theorem requestHorn_line :
    (requestHorn s).line = s.line := by
  unfold requestHorn; split <;> rfl

@[simp] theorem requestHorn_frames :
    (requestHorn s).frames = s.frames := by
  unfold requestHorn; split <;> rfl

@[simp] theorem requestHorn_stock :
    (requestHorn s).stock = s.stock := by
  unfold requestHorn; split <;> rfl

@[simp] theorem requestHorn_bid :
    (requestHorn s).bid = s.bid := by
  unfold requestHorn; split <;> rfl

@[simp] theorem requestHorn_hold :
    (requestHorn s).hold = s.hold := by
  unfold requestHorn; split <;> rfl

@[simp] theorem requestHorn_picks :
    (requestHorn s).picks = s.picks := by
  unfold requestHorn; split <;> rfl

@[simp] theorem requestHorn_trucks :
    (requestHorn s).trucks = s.trucks := by
  unfold requestHorn; split <;> rfl

@[simp] theorem requestHorn_arbiter :
    (requestHorn s).arbiter = s.arbiter := by
  unfold requestHorn; split <;> rfl

@[simp] theorem requestHorn_clock :
    (requestHorn s).clock = s.clock := by
  unfold requestHorn; split <;> rfl

@[simp] theorem requestHorn_port :
    (requestHorn s).port = s.port := by
  unfold requestHorn; split <;> rfl

@[simp] theorem requestHorn_pending :
    (requestHorn s).pending = s.pending := by
  unfold requestHorn; split <;> rfl

/-! enqueue -/

@[simp] theorem enqueue_startup (body : NoticeBody) :
    (enqueue body s).startup = s.startup := by
  unfold enqueue; repeat' split
  all_goals simp

@[simp] theorem enqueue_line (body : NoticeBody) :
    (enqueue body s).line = s.line := by
  unfold enqueue; repeat' split
  all_goals simp

@[simp] theorem enqueue_stock (body : NoticeBody) :
    (enqueue body s).stock = s.stock := by
  unfold enqueue; repeat' split
  all_goals simp

@[simp] theorem enqueue_bid (body : NoticeBody) :
    (enqueue body s).bid = s.bid := by
  unfold enqueue; repeat' split
  all_goals simp

@[simp] theorem enqueue_hold (body : NoticeBody) :
    (enqueue body s).hold = s.hold := by
  unfold enqueue; repeat' split
  all_goals simp

@[simp] theorem enqueue_picks (body : NoticeBody) :
    (enqueue body s).picks = s.picks := by
  unfold enqueue; repeat' split
  all_goals simp

@[simp] theorem enqueue_trucks (body : NoticeBody) :
    (enqueue body s).trucks = s.trucks := by
  unfold enqueue; repeat' split
  all_goals simp

@[simp] theorem enqueue_arbiter (body : NoticeBody) :
    (enqueue body s).arbiter = s.arbiter := by
  unfold enqueue; repeat' split
  all_goals simp

@[simp] theorem enqueue_clock (body : NoticeBody) :
    (enqueue body s).clock = s.clock := by
  unfold enqueue; repeat' split
  all_goals simp

@[simp] theorem enqueue_signal (body : NoticeBody) :
    (enqueue body s).signal = s.signal := by
  unfold enqueue; repeat' split
  all_goals simp

@[simp] theorem enqueue_pending (body : NoticeBody) :
    (enqueue body s).pending = s.pending := by
  unfold enqueue; repeat' split
  all_goals simp

/-! takeNotice -/

@[simp] theorem takeNotice_startup (body : NoticeBody) :
    (takeNotice body s).startup = s.startup := by
  unfold takeNotice; repeat' split
  all_goals simp

@[simp] theorem takeNotice_line (body : NoticeBody) :
    (takeNotice body s).line = s.line := by
  unfold takeNotice; repeat' split
  all_goals simp

@[simp] theorem takeNotice_stock (body : NoticeBody) :
    (takeNotice body s).stock = s.stock := by
  unfold takeNotice; repeat' split
  all_goals simp

@[simp] theorem takeNotice_bid (body : NoticeBody) :
    (takeNotice body s).bid = s.bid := by
  unfold takeNotice; repeat' split
  all_goals simp

@[simp] theorem takeNotice_hold (body : NoticeBody) :
    (takeNotice body s).hold = s.hold := by
  unfold takeNotice; repeat' split
  all_goals simp

@[simp] theorem takeNotice_picks (body : NoticeBody) :
    (takeNotice body s).picks = s.picks := by
  unfold takeNotice; repeat' split
  all_goals simp

@[simp] theorem takeNotice_trucks (body : NoticeBody) :
    (takeNotice body s).trucks = s.trucks := by
  unfold takeNotice; repeat' split
  all_goals simp

@[simp] theorem takeNotice_arbiter (body : NoticeBody) :
    (takeNotice body s).arbiter = s.arbiter := by
  unfold takeNotice; repeat' split
  all_goals simp

@[simp] theorem takeNotice_clock (body : NoticeBody) :
    (takeNotice body s).clock = s.clock := by
  unfold takeNotice; repeat' split
  all_goals simp

@[simp] theorem takeNotice_signal (body : NoticeBody) :
    (takeNotice body s).signal = s.signal := by
  unfold takeNotice; repeat' split
  all_goals simp

@[simp] theorem takeNotice_pending (body : NoticeBody) :
    (takeNotice body s).pending = s.pending := by
  unfold takeNotice; repeat' split
  all_goals simp

/-! giveNotice -/

@[simp] theorem giveNotice_startup (body : NoticeBody) :
    (giveNotice body s).startup = s.startup := by
  simp [giveNotice]

@[simp] theorem giveNotice_stock (body : NoticeBody) :
    (giveNotice body s).stock = s.stock := by
  simp [giveNotice]

@[simp] theorem giveNotice_bid (body : NoticeBody) :
    (giveNotice body s).bid = s.bid := by
  simp [giveNotice]

@[simp] theorem giveNotice_hold (body : NoticeBody) :
    (giveNotice body s).hold = s.hold := by
  simp [giveNotice]

@[simp] theorem giveNotice_picks (body : NoticeBody) :
    (giveNotice body s).picks = s.picks := by
  simp [giveNotice]

@[simp] theorem giveNotice_trucks (body : NoticeBody) :
    (giveNotice body s).trucks = s.trucks := by
  simp [giveNotice]

@[simp] theorem giveNotice_arbiter (body : NoticeBody) :
    (giveNotice body s).arbiter = s.arbiter := by
  simp [giveNotice]

@[simp] theorem giveNotice_clock (body : NoticeBody) :
    (giveNotice body s).clock = s.clock := by
  simp [giveNotice]

@[simp] theorem giveNotice_signal (body : NoticeBody) :
    (giveNotice body s).signal = s.signal := by
  simp [giveNotice]

@[simp] theorem giveNotice_pending (body : NoticeBody) :
    (giveNotice body s).pending = s.pending := by
  simp [giveNotice]

/-! giveReport -/

@[simp] theorem giveReport_startup (m : List Byte) :
    (giveReport m s).startup = s.startup := by
  unfold giveReport; split <;> simp

@[simp] theorem giveReport_line (m : List Byte) :
    (giveReport m s).line = s.line := by
  unfold giveReport; split <;> simp

@[simp] theorem giveReport_frames (m : List Byte) :
    (giveReport m s).frames = s.frames := by
  unfold giveReport; split <;> simp

@[simp] theorem giveReport_stock (m : List Byte) :
    (giveReport m s).stock = s.stock := by
  unfold giveReport; split <;> simp

@[simp] theorem giveReport_bid (m : List Byte) :
    (giveReport m s).bid = s.bid := by
  unfold giveReport; split <;> simp

@[simp] theorem giveReport_hold (m : List Byte) :
    (giveReport m s).hold = s.hold := by
  unfold giveReport; split <;> simp

@[simp] theorem giveReport_picks (m : List Byte) :
    (giveReport m s).picks = s.picks := by
  unfold giveReport; split <;> simp

@[simp] theorem giveReport_trucks (m : List Byte) :
    (giveReport m s).trucks = s.trucks := by
  unfold giveReport; split <;> simp

@[simp] theorem giveReport_arbiter (m : List Byte) :
    (giveReport m s).arbiter = s.arbiter := by
  unfold giveReport; split <;> simp

@[simp] theorem giveReport_clock (m : List Byte) :
    (giveReport m s).clock = s.clock := by
  unfold giveReport; split <;> simp

@[simp] theorem giveReport_signal (m : List Byte) :
    (giveReport m s).signal = s.signal := by
  unfold giveReport; split <;> simp

@[simp] theorem giveReport_pending (m : List Byte) :
    (giveReport m s).pending = s.pending := by
  unfold giveReport; split <;> simp

/-! withPicks -/

@[simp] theorem withPicks_startup (picks : List PickEntry) :
    (withPicks picks s).startup = s.startup := by
  unfold withPicks; dsimp only; split <;> simp

@[simp] theorem withPicks_line (picks : List PickEntry) :
    (withPicks picks s).line = s.line := by
  unfold withPicks; dsimp only; split <;> simp

@[simp] theorem withPicks_frames (picks : List PickEntry) :
    (withPicks picks s).frames = s.frames := by
  unfold withPicks; dsimp only; split <;> simp

@[simp] theorem withPicks_stock (picks : List PickEntry) :
    (withPicks picks s).stock = s.stock := by
  unfold withPicks; dsimp only; split <;> simp

@[simp] theorem withPicks_bid (picks : List PickEntry) :
    (withPicks picks s).bid = s.bid := by
  unfold withPicks; dsimp only; split <;> simp

@[simp] theorem withPicks_hold (picks : List PickEntry) :
    (withPicks picks s).hold = s.hold := by
  unfold withPicks; dsimp only; split <;> simp

@[simp] theorem withPicks_trucks (picks : List PickEntry) :
    (withPicks picks s).trucks = s.trucks := by
  unfold withPicks; dsimp only; split <;> simp

@[simp] theorem withPicks_arbiter (picks : List PickEntry) :
    (withPicks picks s).arbiter = s.arbiter := by
  unfold withPicks; dsimp only; split <;> simp

@[simp] theorem withPicks_clock (picks : List PickEntry) :
    (withPicks picks s).clock = s.clock := by
  unfold withPicks; dsimp only; split <;> simp

@[simp] theorem withPicks_port (picks : List PickEntry) :
    (withPicks picks s).port = s.port := by
  unfold withPicks; dsimp only; split <;> simp

@[simp] theorem withPicks_pending (picks : List PickEntry) :
    (withPicks picks s).pending = s.pending := by
  unfold withPicks; dsimp only; split <;> simp

/-! endHold -/

@[simp] theorem endHold_startup :
    (endHold s).startup = s.startup := by
  unfold endHold; split <;> rfl

@[simp] theorem endHold_line :
    (endHold s).line = s.line := by
  unfold endHold; split <;> rfl

@[simp] theorem endHold_frames :
    (endHold s).frames = s.frames := by
  unfold endHold; split <;> rfl

@[simp] theorem endHold_bid :
    (endHold s).bid = s.bid := by
  unfold endHold; split <;> rfl

@[simp] theorem endHold_picks :
    (endHold s).picks = s.picks := by
  unfold endHold; split <;> rfl

@[simp] theorem endHold_trucks :
    (endHold s).trucks = s.trucks := by
  unfold endHold; split <;> rfl

@[simp] theorem endHold_arbiter :
    (endHold s).arbiter = s.arbiter := by
  unfold endHold; split <;> rfl

@[simp] theorem endHold_clock :
    (endHold s).clock = s.clock := by
  unfold endHold; split <;> rfl

@[simp] theorem endHold_signal :
    (endHold s).signal = s.signal := by
  unfold endHold; split <;> rfl

@[simp] theorem endHold_port :
    (endHold s).port = s.port := by
  unfold endHold; split <;> rfl

@[simp] theorem endHold_pending :
    (endHold s).pending = s.pending := by
  unfold endHold; split <;> rfl

/-! receiveHold -/

@[simp] theorem receiveHold_startup :
    (receiveHold s).startup = s.startup := by
  unfold receiveHold; split <;> rfl

@[simp] theorem receiveHold_line :
    (receiveHold s).line = s.line := by
  unfold receiveHold; split <;> rfl

@[simp] theorem receiveHold_frames :
    (receiveHold s).frames = s.frames := by
  unfold receiveHold; split <;> rfl

@[simp] theorem receiveHold_stock :
    (receiveHold s).stock = s.stock := by
  unfold receiveHold; split <;> rfl

@[simp] theorem receiveHold_bid :
    (receiveHold s).bid = s.bid := by
  unfold receiveHold; split <;> rfl

@[simp] theorem receiveHold_picks :
    (receiveHold s).picks = s.picks := by
  unfold receiveHold; split <;> rfl

@[simp] theorem receiveHold_trucks :
    (receiveHold s).trucks = s.trucks := by
  unfold receiveHold; split <;> rfl

@[simp] theorem receiveHold_arbiter :
    (receiveHold s).arbiter = s.arbiter := by
  unfold receiveHold; split <;> rfl

@[simp] theorem receiveHold_clock :
    (receiveHold s).clock = s.clock := by
  unfold receiveHold; split <;> rfl

@[simp] theorem receiveHold_signal :
    (receiveHold s).signal = s.signal := by
  unfold receiveHold; split <;> rfl

@[simp] theorem receiveHold_port :
    (receiveHold s).port = s.port := by
  unfold receiveHold; split <;> rfl

@[simp] theorem receiveHold_pending :
    (receiveHold s).pending = s.pending := by
  unfold receiveHold; split <;> rfl

/-! settleConfirmed -/

@[simp] theorem settleConfirmed_startup (h : Hold) (count : Nat) :
    (settleConfirmed h count s).startup = s.startup := by
  unfold settleConfirmed; dsimp only; split <;> simp

@[simp] theorem settleConfirmed_line (h : Hold) (count : Nat) :
    (settleConfirmed h count s).line = s.line := by
  unfold settleConfirmed; dsimp only; split <;> simp

@[simp] theorem settleConfirmed_frames (h : Hold) (count : Nat) :
    (settleConfirmed h count s).frames = s.frames := by
  unfold settleConfirmed; dsimp only; split <;> simp

@[simp] theorem settleConfirmed_bid (h : Hold) (count : Nat) :
    (settleConfirmed h count s).bid = s.bid := by
  unfold settleConfirmed; dsimp only; split <;> simp

@[simp] theorem settleConfirmed_trucks (h : Hold) (count : Nat) :
    (settleConfirmed h count s).trucks = s.trucks := by
  unfold settleConfirmed; dsimp only; split <;> simp

@[simp] theorem settleConfirmed_arbiter (h : Hold) (count : Nat) :
    (settleConfirmed h count s).arbiter = s.arbiter := by
  unfold settleConfirmed; dsimp only; split <;> simp

@[simp] theorem settleConfirmed_clock (h : Hold) (count : Nat) :
    (settleConfirmed h count s).clock = s.clock := by
  unfold settleConfirmed; dsimp only; split <;> simp

@[simp] theorem settleConfirmed_port (h : Hold) (count : Nat) :
    (settleConfirmed h count s).port = s.port := by
  unfold settleConfirmed; dsimp only; split <;> simp

@[simp] theorem settleConfirmed_pending (h : Hold) (count : Nat) :
    (settleConfirmed h count s).pending = s.pending := by
  unfold settleConfirmed; dsimp only; split <;> simp

/-! releaseEntries -/

@[simp] theorem releaseEntries_startup (which : PickEntry → Bool) :
    (releaseEntries which s).startup = s.startup := by
  simp [releaseEntries]

@[simp] theorem releaseEntries_line (which : PickEntry → Bool) :
    (releaseEntries which s).line = s.line := by
  simp [releaseEntries]

@[simp] theorem releaseEntries_frames (which : PickEntry → Bool) :
    (releaseEntries which s).frames = s.frames := by
  simp [releaseEntries]

@[simp] theorem releaseEntries_bid (which : PickEntry → Bool) :
    (releaseEntries which s).bid = s.bid := by
  simp [releaseEntries]

@[simp] theorem releaseEntries_hold (which : PickEntry → Bool) :
    (releaseEntries which s).hold = s.hold := by
  simp [releaseEntries]

@[simp] theorem releaseEntries_trucks (which : PickEntry → Bool) :
    (releaseEntries which s).trucks = s.trucks := by
  simp [releaseEntries]

@[simp] theorem releaseEntries_arbiter (which : PickEntry → Bool) :
    (releaseEntries which s).arbiter = s.arbiter := by
  simp [releaseEntries]

@[simp] theorem releaseEntries_clock (which : PickEntry → Bool) :
    (releaseEntries which s).clock = s.clock := by
  simp [releaseEntries]

@[simp] theorem releaseEntries_port (which : PickEntry → Bool) :
    (releaseEntries which s).port = s.port := by
  simp [releaseEntries]

@[simp] theorem releaseEntries_pending (which : PickEntry → Bool) :
    (releaseEntries which s).pending = s.pending := by
  simp [releaseEntries]

/-! endHoldIf -/

@[simp] theorem endHoldIf_startup (which : Reservation → Bool) :
    (endHoldIf which s).startup = s.startup := by
  unfold endHoldIf; repeat' split
  all_goals simp

@[simp] theorem endHoldIf_line (which : Reservation → Bool) :
    (endHoldIf which s).line = s.line := by
  unfold endHoldIf; repeat' split
  all_goals simp

@[simp] theorem endHoldIf_frames (which : Reservation → Bool) :
    (endHoldIf which s).frames = s.frames := by
  unfold endHoldIf; repeat' split
  all_goals simp

@[simp] theorem endHoldIf_bid (which : Reservation → Bool) :
    (endHoldIf which s).bid = s.bid := by
  unfold endHoldIf; repeat' split
  all_goals simp

@[simp] theorem endHoldIf_picks (which : Reservation → Bool) :
    (endHoldIf which s).picks = s.picks := by
  unfold endHoldIf; repeat' split
  all_goals simp

@[simp] theorem endHoldIf_trucks (which : Reservation → Bool) :
    (endHoldIf which s).trucks = s.trucks := by
  unfold endHoldIf; repeat' split
  all_goals simp

@[simp] theorem endHoldIf_arbiter (which : Reservation → Bool) :
    (endHoldIf which s).arbiter = s.arbiter := by
  unfold endHoldIf; repeat' split
  all_goals simp

@[simp] theorem endHoldIf_clock (which : Reservation → Bool) :
    (endHoldIf which s).clock = s.clock := by
  unfold endHoldIf; repeat' split
  all_goals simp

@[simp] theorem endHoldIf_signal (which : Reservation → Bool) :
    (endHoldIf which s).signal = s.signal := by
  unfold endHoldIf; repeat' split
  all_goals simp

@[simp] theorem endHoldIf_port (which : Reservation → Bool) :
    (endHoldIf which s).port = s.port := by
  unfold endHoldIf; repeat' split
  all_goals simp

@[simp] theorem endHoldIf_pending (which : Reservation → Bool) :
    (endHoldIf which s).pending = s.pending := by
  unfold endHoldIf; repeat' split
  all_goals simp

/-! releaseVoid -/

@[simp] theorem releaseVoid_startup (gate ticket : Nat) :
    (releaseVoid gate ticket s).startup = s.startup := by
  simp [releaseVoid]

@[simp] theorem releaseVoid_line (gate ticket : Nat) :
    (releaseVoid gate ticket s).line = s.line := by
  simp [releaseVoid]

@[simp] theorem releaseVoid_frames (gate ticket : Nat) :
    (releaseVoid gate ticket s).frames = s.frames := by
  simp [releaseVoid]

@[simp] theorem releaseVoid_bid (gate ticket : Nat) :
    (releaseVoid gate ticket s).bid = s.bid := by
  simp [releaseVoid]

@[simp] theorem releaseVoid_trucks (gate ticket : Nat) :
    (releaseVoid gate ticket s).trucks = s.trucks := by
  simp [releaseVoid]

@[simp] theorem releaseVoid_arbiter (gate ticket : Nat) :
    (releaseVoid gate ticket s).arbiter = s.arbiter := by
  simp [releaseVoid]

@[simp] theorem releaseVoid_clock (gate ticket : Nat) :
    (releaseVoid gate ticket s).clock = s.clock := by
  simp [releaseVoid]

@[simp] theorem releaseVoid_port (gate ticket : Nat) :
    (releaseVoid gate ticket s).port = s.port := by
  simp [releaseVoid]

@[simp] theorem releaseVoid_pending (gate ticket : Nat) :
    (releaseVoid gate ticket s).pending = s.pending := by
  simp [releaseVoid]

/-! releaseGate -/

@[simp] theorem releaseGate_startup (gate : Nat) :
    (releaseGate gate s).startup = s.startup := by
  simp [releaseGate]

@[simp] theorem releaseGate_line (gate : Nat) :
    (releaseGate gate s).line = s.line := by
  simp [releaseGate]

@[simp] theorem releaseGate_frames (gate : Nat) :
    (releaseGate gate s).frames = s.frames := by
  simp [releaseGate]

@[simp] theorem releaseGate_bid (gate : Nat) :
    (releaseGate gate s).bid = s.bid := by
  simp [releaseGate]

@[simp] theorem releaseGate_trucks (gate : Nat) :
    (releaseGate gate s).trucks = s.trucks := by
  simp [releaseGate]

@[simp] theorem releaseGate_arbiter (gate : Nat) :
    (releaseGate gate s).arbiter = s.arbiter := by
  simp [releaseGate]

@[simp] theorem releaseGate_clock (gate : Nat) :
    (releaseGate gate s).clock = s.clock := by
  simp [releaseGate]

@[simp] theorem releaseGate_port (gate : Nat) :
    (releaseGate gate s).port = s.port := by
  simp [releaseGate]

@[simp] theorem releaseGate_pending (gate : Nat) :
    (releaseGate gate s).pending = s.pending := by
  simp [releaseGate]

/-! releaseAll -/

@[simp] theorem releaseAll_startup :
    (releaseAll s).startup = s.startup := by
  simp [releaseAll]

@[simp] theorem releaseAll_line :
    (releaseAll s).line = s.line := by
  simp [releaseAll]

@[simp] theorem releaseAll_frames :
    (releaseAll s).frames = s.frames := by
  simp [releaseAll]

@[simp] theorem releaseAll_bid :
    (releaseAll s).bid = s.bid := by
  simp [releaseAll]

@[simp] theorem releaseAll_trucks :
    (releaseAll s).trucks = s.trucks := by
  simp [releaseAll]

@[simp] theorem releaseAll_arbiter :
    (releaseAll s).arbiter = s.arbiter := by
  simp [releaseAll]

@[simp] theorem releaseAll_clock :
    (releaseAll s).clock = s.clock := by
  simp [releaseAll]

@[simp] theorem releaseAll_port :
    (releaseAll s).port = s.port := by
  simp [releaseAll]

@[simp] theorem releaseAll_pending :
    (releaseAll s).pending = s.pending := by
  simp [releaseAll]

/-! removeEntry -/

@[simp] theorem removeEntry_startup (tag : Nat) :
    (removeEntry tag s).startup = s.startup := by
  simp [removeEntry]

@[simp] theorem removeEntry_line (tag : Nat) :
    (removeEntry tag s).line = s.line := by
  simp [removeEntry]

@[simp] theorem removeEntry_frames (tag : Nat) :
    (removeEntry tag s).frames = s.frames := by
  simp [removeEntry]

@[simp] theorem removeEntry_stock (tag : Nat) :
    (removeEntry tag s).stock = s.stock := by
  simp [removeEntry]

@[simp] theorem removeEntry_bid (tag : Nat) :
    (removeEntry tag s).bid = s.bid := by
  simp [removeEntry]

@[simp] theorem removeEntry_hold (tag : Nat) :
    (removeEntry tag s).hold = s.hold := by
  simp [removeEntry]

@[simp] theorem removeEntry_trucks (tag : Nat) :
    (removeEntry tag s).trucks = s.trucks := by
  simp [removeEntry]

@[simp] theorem removeEntry_arbiter (tag : Nat) :
    (removeEntry tag s).arbiter = s.arbiter := by
  simp [removeEntry]

@[simp] theorem removeEntry_clock (tag : Nat) :
    (removeEntry tag s).clock = s.clock := by
  simp [removeEntry]

@[simp] theorem removeEntry_port (tag : Nat) :
    (removeEntry tag s).port = s.port := by
  simp [removeEntry]

@[simp] theorem removeEntry_pending (tag : Nat) :
    (removeEntry tag s).pending = s.pending := by
  simp [removeEntry]

/-! moveEntry -/

@[simp] theorem moveEntry_startup (tag stack : Nat) :
    (moveEntry tag stack s).startup = s.startup := by
  simp [moveEntry]

@[simp] theorem moveEntry_line (tag stack : Nat) :
    (moveEntry tag stack s).line = s.line := by
  simp [moveEntry]

@[simp] theorem moveEntry_frames (tag stack : Nat) :
    (moveEntry tag stack s).frames = s.frames := by
  simp [moveEntry]

@[simp] theorem moveEntry_stock (tag stack : Nat) :
    (moveEntry tag stack s).stock = s.stock := by
  simp [moveEntry]

@[simp] theorem moveEntry_bid (tag stack : Nat) :
    (moveEntry tag stack s).bid = s.bid := by
  simp [moveEntry]

@[simp] theorem moveEntry_hold (tag stack : Nat) :
    (moveEntry tag stack s).hold = s.hold := by
  simp [moveEntry]

@[simp] theorem moveEntry_trucks (tag stack : Nat) :
    (moveEntry tag stack s).trucks = s.trucks := by
  simp [moveEntry]

@[simp] theorem moveEntry_arbiter (tag stack : Nat) :
    (moveEntry tag stack s).arbiter = s.arbiter := by
  simp [moveEntry]

@[simp] theorem moveEntry_clock (tag stack : Nat) :
    (moveEntry tag stack s).clock = s.clock := by
  simp [moveEntry]

@[simp] theorem moveEntry_port (tag stack : Nat) :
    (moveEntry tag stack s).port = s.port := by
  simp [moveEntry]

@[simp] theorem moveEntry_pending (tag stack : Nat) :
    (moveEntry tag stack s).pending = s.pending := by
  simp [moveEntry]

/-! overdueSweep -/

@[simp] theorem overdueSweep_startup :
    (overdueSweep s).startup = s.startup := by
  simp [overdueSweep]

@[simp] theorem overdueSweep_line :
    (overdueSweep s).line = s.line := by
  simp [overdueSweep]

@[simp] theorem overdueSweep_frames :
    (overdueSweep s).frames = s.frames := by
  simp [overdueSweep]

@[simp] theorem overdueSweep_stock :
    (overdueSweep s).stock = s.stock := by
  simp [overdueSweep]

@[simp] theorem overdueSweep_bid :
    (overdueSweep s).bid = s.bid := by
  simp [overdueSweep]

@[simp] theorem overdueSweep_hold :
    (overdueSweep s).hold = s.hold := by
  simp [overdueSweep]

@[simp] theorem overdueSweep_trucks :
    (overdueSweep s).trucks = s.trucks := by
  simp [overdueSweep]

@[simp] theorem overdueSweep_arbiter :
    (overdueSweep s).arbiter = s.arbiter := by
  simp [overdueSweep]

@[simp] theorem overdueSweep_clock :
    (overdueSweep s).clock = s.clock := by
  simp [overdueSweep]

@[simp] theorem overdueSweep_port :
    (overdueSweep s).port = s.port := by
  simp [overdueSweep]

@[simp] theorem overdueSweep_pending :
    (overdueSweep s).pending = s.pending := by
  simp [overdueSweep]

/-! hourStep -/

@[simp] theorem hourStep_startup :
    (hourStep s).startup = s.startup := by
  unfold hourStep; split <;> simp

@[simp] theorem hourStep_line :
    (hourStep s).line = s.line := by
  unfold hourStep; split <;> simp

@[simp] theorem hourStep_frames :
    (hourStep s).frames = s.frames := by
  unfold hourStep; split <;> simp

@[simp] theorem hourStep_bid :
    (hourStep s).bid = s.bid := by
  unfold hourStep; split <;> simp

@[simp] theorem hourStep_hold :
    (hourStep s).hold = s.hold := by
  unfold hourStep; split <;> simp

@[simp] theorem hourStep_picks :
    (hourStep s).picks = s.picks := by
  unfold hourStep; split <;> simp

@[simp] theorem hourStep_trucks :
    (hourStep s).trucks = s.trucks := by
  unfold hourStep; split <;> simp

@[simp] theorem hourStep_arbiter :
    (hourStep s).arbiter = s.arbiter := by
  unfold hourStep; split <;> simp

@[simp] theorem hourStep_clock :
    (hourStep s).clock = s.clock := by
  unfold hourStep; split <;> simp

@[simp] theorem hourStep_signal :
    (hourStep s).signal = s.signal := by
  unfold hourStep; split <;> simp

@[simp] theorem hourStep_port :
    (hourStep s).port = s.port := by
  unfold hourStep; split <;> simp

@[simp] theorem hourStep_pending :
    (hourStep s).pending = s.pending := by
  unfold hourStep; split <;> simp

/-! sweep -/

@[simp] theorem sweep_startup :
    (sweep s).startup = s.startup := by
  unfold sweep; split <;> simp

@[simp] theorem sweep_line :
    (sweep s).line = s.line := by
  unfold sweep; split <;> simp

@[simp] theorem sweep_frames :
    (sweep s).frames = s.frames := by
  unfold sweep; split <;> simp

@[simp] theorem sweep_stock :
    (sweep s).stock = s.stock := by
  unfold sweep; split <;> simp

@[simp] theorem sweep_bid :
    (sweep s).bid = s.bid := by
  unfold sweep; split <;> simp

@[simp] theorem sweep_hold :
    (sweep s).hold = s.hold := by
  unfold sweep; split <;> simp

@[simp] theorem sweep_trucks :
    (sweep s).trucks = s.trucks := by
  unfold sweep; split <;> simp

@[simp] theorem sweep_arbiter :
    (sweep s).arbiter = s.arbiter := by
  unfold sweep; split <;> simp

@[simp] theorem sweep_clock :
    (sweep s).clock = s.clock := by
  unfold sweep; split <;> simp

@[simp] theorem sweep_port :
    (sweep s).port = s.port := by
  unfold sweep; split <;> simp

@[simp] theorem sweep_pending :
    (sweep s).pending = s.pending := by
  unfold sweep; split <;> simp

/-! becomeSet -/

@[simp] theorem becomeSet_startup (m : Minute) :
    (becomeSet m s).startup = s.startup := by
  unfold becomeSet; dsimp only; split <;> simp

@[simp] theorem becomeSet_line (m : Minute) :
    (becomeSet m s).line = s.line := by
  unfold becomeSet; dsimp only; split <;> simp

@[simp] theorem becomeSet_frames (m : Minute) :
    (becomeSet m s).frames = s.frames := by
  unfold becomeSet; dsimp only; split <;> simp

@[simp] theorem becomeSet_stock (m : Minute) :
    (becomeSet m s).stock = s.stock := by
  unfold becomeSet; dsimp only; split <;> simp

@[simp] theorem becomeSet_bid (m : Minute) :
    (becomeSet m s).bid = s.bid := by
  unfold becomeSet; dsimp only; split <;> simp

@[simp] theorem becomeSet_hold (m : Minute) :
    (becomeSet m s).hold = s.hold := by
  unfold becomeSet; dsimp only; split <;> simp

@[simp] theorem becomeSet_trucks (m : Minute) :
    (becomeSet m s).trucks = s.trucks := by
  unfold becomeSet; dsimp only; split <;> simp

@[simp] theorem becomeSet_arbiter (m : Minute) :
    (becomeSet m s).arbiter = s.arbiter := by
  unfold becomeSet; dsimp only; split <;> simp

@[simp] theorem becomeSet_signal (m : Minute) :
    (becomeSet m s).signal = s.signal := by
  unfold becomeSet; dsimp only; split <;> simp

@[simp] theorem becomeSet_port (m : Minute) :
    (becomeSet m s).port = s.port := by
  unfold becomeSet; dsimp only; split <;> simp

@[simp] theorem becomeSet_pending (m : Minute) :
    (becomeSet m s).pending = s.pending := by
  unfold becomeSet; dsimp only; split <;> simp

/-! jumpForward -/

@[simp] theorem jumpForward_startup (delta : Nat) :
    (jumpForward delta s).startup = s.startup := by
  unfold jumpForward; dsimp only; split <;> simp

@[simp] theorem jumpForward_line (delta : Nat) :
    (jumpForward delta s).line = s.line := by
  unfold jumpForward; dsimp only; split <;> simp

@[simp] theorem jumpForward_frames (delta : Nat) :
    (jumpForward delta s).frames = s.frames := by
  unfold jumpForward; dsimp only; split <;> simp

@[simp] theorem jumpForward_bid (delta : Nat) :
    (jumpForward delta s).bid = s.bid := by
  unfold jumpForward; dsimp only; split <;> simp

@[simp] theorem jumpForward_hold (delta : Nat) :
    (jumpForward delta s).hold = s.hold := by
  unfold jumpForward; dsimp only; split <;> simp

@[simp] theorem jumpForward_trucks (delta : Nat) :
    (jumpForward delta s).trucks = s.trucks := by
  unfold jumpForward; dsimp only; split <;> simp

@[simp] theorem jumpForward_arbiter (delta : Nat) :
    (jumpForward delta s).arbiter = s.arbiter := by
  unfold jumpForward; dsimp only; split <;> simp

@[simp] theorem jumpForward_port (delta : Nat) :
    (jumpForward delta s).port = s.port := by
  unfold jumpForward; dsimp only; split <;> simp

@[simp] theorem jumpForward_pending (delta : Nat) :
    (jumpForward delta s).pending = s.pending := by
  unfold jumpForward; dsimp only; split <;> simp

/-! hearMinute -/

@[simp] theorem hearMinute_startup (m : Minute) (b : Bool) :
    (hearMinute m b s).startup = s.startup := by
  unfold hearMinute; dsimp only; repeat' split
  all_goals simp

@[simp] theorem hearMinute_line (m : Minute) (b : Bool) :
    (hearMinute m b s).line = s.line := by
  unfold hearMinute; dsimp only; repeat' split
  all_goals simp

@[simp] theorem hearMinute_frames (m : Minute) (b : Bool) :
    (hearMinute m b s).frames = s.frames := by
  unfold hearMinute; dsimp only; repeat' split
  all_goals simp

@[simp] theorem hearMinute_bid (m : Minute) (b : Bool) :
    (hearMinute m b s).bid = s.bid := by
  unfold hearMinute; dsimp only; repeat' split
  all_goals simp

@[simp] theorem hearMinute_hold (m : Minute) (b : Bool) :
    (hearMinute m b s).hold = s.hold := by
  unfold hearMinute; dsimp only; repeat' split
  all_goals simp

@[simp] theorem hearMinute_trucks (m : Minute) (b : Bool) :
    (hearMinute m b s).trucks = s.trucks := by
  unfold hearMinute; dsimp only; repeat' split
  all_goals simp

@[simp] theorem hearMinute_arbiter (m : Minute) (b : Bool) :
    (hearMinute m b s).arbiter = s.arbiter := by
  unfold hearMinute; dsimp only; repeat' split
  all_goals simp

@[simp] theorem hearMinute_pending (m : Minute) (b : Bool) :
    (hearMinute m b s).pending = s.pending := by
  unfold hearMinute; dsimp only; repeat' split
  all_goals simp

/-! minuteStep -/

@[simp] theorem minuteStep_startup :
    (minuteStep s).startup = s.startup := by
  unfold minuteStep; dsimp only; repeat' split
  all_goals simp

@[simp] theorem minuteStep_line :
    (minuteStep s).line = s.line := by
  unfold minuteStep; dsimp only; repeat' split
  all_goals simp

@[simp] theorem minuteStep_frames :
    (minuteStep s).frames = s.frames := by
  unfold minuteStep; dsimp only; repeat' split
  all_goals simp

@[simp] theorem minuteStep_bid :
    (minuteStep s).bid = s.bid := by
  unfold minuteStep; dsimp only; repeat' split
  all_goals simp

@[simp] theorem minuteStep_hold :
    (minuteStep s).hold = s.hold := by
  unfold minuteStep; dsimp only; repeat' split
  all_goals simp

@[simp] theorem minuteStep_trucks :
    (minuteStep s).trucks = s.trucks := by
  unfold minuteStep; dsimp only; repeat' split
  all_goals simp

@[simp] theorem minuteStep_arbiter :
    (minuteStep s).arbiter = s.arbiter := by
  unfold minuteStep; dsimp only; repeat' split
  all_goals simp

@[simp] theorem minuteStep_port :
    (minuteStep s).port = s.port := by
  unfold minuteStep; dsimp only; repeat' split
  all_goals simp

@[simp] theorem minuteStep_pending :
    (minuteStep s).pending = s.pending := by
  unfold minuteStep; dsimp only; repeat' split
  all_goals simp

/-! timeSourceRule -/

@[simp] theorem timeSourceRule_startup :
    (timeSourceRule s).startup = s.startup := by
  unfold timeSourceRule; split <;> simp

@[simp] theorem timeSourceRule_line :
    (timeSourceRule s).line = s.line := by
  unfold timeSourceRule; split <;> simp

@[simp] theorem timeSourceRule_frames :
    (timeSourceRule s).frames = s.frames := by
  unfold timeSourceRule; split <;> simp

@[simp] theorem timeSourceRule_stock :
    (timeSourceRule s).stock = s.stock := by
  unfold timeSourceRule; split <;> simp

@[simp] theorem timeSourceRule_bid :
    (timeSourceRule s).bid = s.bid := by
  unfold timeSourceRule; split <;> simp

@[simp] theorem timeSourceRule_hold :
    (timeSourceRule s).hold = s.hold := by
  unfold timeSourceRule; split <;> simp

@[simp] theorem timeSourceRule_trucks :
    (timeSourceRule s).trucks = s.trucks := by
  unfold timeSourceRule; split <;> simp

@[simp] theorem timeSourceRule_arbiter :
    (timeSourceRule s).arbiter = s.arbiter := by
  unfold timeSourceRule; split <;> simp

@[simp] theorem timeSourceRule_signal :
    (timeSourceRule s).signal = s.signal := by
  unfold timeSourceRule; split <;> simp

@[simp] theorem timeSourceRule_port :
    (timeSourceRule s).port = s.port := by
  unfold timeSourceRule; split <;> simp

@[simp] theorem timeSourceRule_pending :
    (timeSourceRule s).pending = s.pending := by
  unfold timeSourceRule; split <;> simp

/-! requestBay -/

@[simp] theorem requestBay_startup (before : List Truck) (bay : Nat) :
    (requestBay before s bay).startup = s.startup := by
  unfold requestBay; split <;> simp

@[simp] theorem requestBay_line (before : List Truck) (bay : Nat) :
    (requestBay before s bay).line = s.line := by
  unfold requestBay; split <;> simp

@[simp] theorem requestBay_frames (before : List Truck) (bay : Nat) :
    (requestBay before s bay).frames = s.frames := by
  unfold requestBay; split <;> simp

@[simp] theorem requestBay_stock (before : List Truck) (bay : Nat) :
    (requestBay before s bay).stock = s.stock := by
  unfold requestBay; split <;> simp

@[simp] theorem requestBay_bid (before : List Truck) (bay : Nat) :
    (requestBay before s bay).bid = s.bid := by
  unfold requestBay; split <;> simp

@[simp] theorem requestBay_hold (before : List Truck) (bay : Nat) :
    (requestBay before s bay).hold = s.hold := by
  unfold requestBay; split <;> simp

@[simp] theorem requestBay_picks (before : List Truck) (bay : Nat) :
    (requestBay before s bay).picks = s.picks := by
  unfold requestBay; split <;> simp

@[simp] theorem requestBay_trucks (before : List Truck) (bay : Nat) :
    (requestBay before s bay).trucks = s.trucks := by
  unfold requestBay; split <;> simp

@[simp] theorem requestBay_arbiter (before : List Truck) (bay : Nat) :
    (requestBay before s bay).arbiter = s.arbiter := by
  unfold requestBay; split <;> simp

@[simp] theorem requestBay_clock (before : List Truck) (bay : Nat) :
    (requestBay before s bay).clock = s.clock := by
  unfold requestBay; split <;> simp

@[simp] theorem requestBay_port (before : List Truck) (bay : Nat) :
    (requestBay before s bay).port = s.port := by
  unfold requestBay; split <;> simp

@[simp] theorem requestBay_pending (before : List Truck) (bay : Nat) :
    (requestBay before s bay).pending = s.pending := by
  unfold requestBay; split <;> simp

/-! requestBays -/

@[simp] theorem requestBays_startup (before : List Truck) :
    (requestBays before s).startup = s.startup := by
  simp [requestBays]

@[simp] theorem requestBays_line (before : List Truck) :
    (requestBays before s).line = s.line := by
  simp [requestBays]

@[simp] theorem requestBays_frames (before : List Truck) :
    (requestBays before s).frames = s.frames := by
  simp [requestBays]

@[simp] theorem requestBays_stock (before : List Truck) :
    (requestBays before s).stock = s.stock := by
  simp [requestBays]

@[simp] theorem requestBays_bid (before : List Truck) :
    (requestBays before s).bid = s.bid := by
  simp [requestBays]

@[simp] theorem requestBays_hold (before : List Truck) :
    (requestBays before s).hold = s.hold := by
  simp [requestBays]

@[simp] theorem requestBays_picks (before : List Truck) :
    (requestBays before s).picks = s.picks := by
  simp [requestBays]

@[simp] theorem requestBays_trucks (before : List Truck) :
    (requestBays before s).trucks = s.trucks := by
  simp [requestBays]

@[simp] theorem requestBays_arbiter (before : List Truck) :
    (requestBays before s).arbiter = s.arbiter := by
  simp [requestBays]

@[simp] theorem requestBays_clock (before : List Truck) :
    (requestBays before s).clock = s.clock := by
  simp [requestBays]

@[simp] theorem requestBays_port (before : List Truck) :
    (requestBays before s).port = s.port := by
  simp [requestBays]

@[simp] theorem requestBays_pending (before : List Truck) :
    (requestBays before s).pending = s.pending := by
  simp [requestBays]

/-! announceTrucks -/

theorem giveReports_startup (tickets : List Nat) :
    (tickets.foldl (fun t ticket => giveReport (loadedReport ticket) t) s).startup = s.startup := by
  induction tickets generalizing s with
  | nil => rfl
  | cons a rest ih => simp [ih]

theorem giveReports_line (tickets : List Nat) :
    (tickets.foldl (fun t ticket => giveReport (loadedReport ticket) t) s).line = s.line := by
  induction tickets generalizing s with
  | nil => rfl
  | cons a rest ih => simp [ih]

theorem giveReports_frames (tickets : List Nat) :
    (tickets.foldl (fun t ticket => giveReport (loadedReport ticket) t) s).frames = s.frames := by
  induction tickets generalizing s with
  | nil => rfl
  | cons a rest ih => simp [ih]

theorem giveReports_stock (tickets : List Nat) :
    (tickets.foldl (fun t ticket => giveReport (loadedReport ticket) t) s).stock = s.stock := by
  induction tickets generalizing s with
  | nil => rfl
  | cons a rest ih => simp [ih]

theorem giveReports_bid (tickets : List Nat) :
    (tickets.foldl (fun t ticket => giveReport (loadedReport ticket) t) s).bid = s.bid := by
  induction tickets generalizing s with
  | nil => rfl
  | cons a rest ih => simp [ih]

theorem giveReports_hold (tickets : List Nat) :
    (tickets.foldl (fun t ticket => giveReport (loadedReport ticket) t) s).hold = s.hold := by
  induction tickets generalizing s with
  | nil => rfl
  | cons a rest ih => simp [ih]

theorem giveReports_picks (tickets : List Nat) :
    (tickets.foldl (fun t ticket => giveReport (loadedReport ticket) t) s).picks = s.picks := by
  induction tickets generalizing s with
  | nil => rfl
  | cons a rest ih => simp [ih]

theorem giveReports_trucks (tickets : List Nat) :
    (tickets.foldl (fun t ticket => giveReport (loadedReport ticket) t) s).trucks = s.trucks := by
  induction tickets generalizing s with
  | nil => rfl
  | cons a rest ih => simp [ih]

theorem giveReports_arbiter (tickets : List Nat) :
    (tickets.foldl (fun t ticket => giveReport (loadedReport ticket) t) s).arbiter = s.arbiter := by
  induction tickets generalizing s with
  | nil => rfl
  | cons a rest ih => simp [ih]

theorem giveReports_clock (tickets : List Nat) :
    (tickets.foldl (fun t ticket => giveReport (loadedReport ticket) t) s).clock = s.clock := by
  induction tickets generalizing s with
  | nil => rfl
  | cons a rest ih => simp [ih]

theorem giveReports_pending (tickets : List Nat) :
    (tickets.foldl (fun t ticket => giveReport (loadedReport ticket) t) s).pending = s.pending := by
  induction tickets generalizing s with
  | nil => rfl
  | cons a rest ih => simp [ih]

@[simp] theorem announceTrucks_startup (before : List Truck) :
    (announceTrucks before s).startup = s.startup := by
  simp [announceTrucks, giveReports_startup]

@[simp] theorem announceTrucks_line (before : List Truck) :
    (announceTrucks before s).line = s.line := by
  simp [announceTrucks, giveReports_line]

@[simp] theorem announceTrucks_frames (before : List Truck) :
    (announceTrucks before s).frames = s.frames := by
  simp [announceTrucks, giveReports_frames]

@[simp] theorem announceTrucks_stock (before : List Truck) :
    (announceTrucks before s).stock = s.stock := by
  simp [announceTrucks, giveReports_stock]

@[simp] theorem announceTrucks_bid (before : List Truck) :
    (announceTrucks before s).bid = s.bid := by
  simp [announceTrucks, giveReports_bid]

@[simp] theorem announceTrucks_hold (before : List Truck) :
    (announceTrucks before s).hold = s.hold := by
  simp [announceTrucks, giveReports_hold]

@[simp] theorem announceTrucks_picks (before : List Truck) :
    (announceTrucks before s).picks = s.picks := by
  simp [announceTrucks, giveReports_picks]

@[simp] theorem announceTrucks_trucks (before : List Truck) :
    (announceTrucks before s).trucks = s.trucks := by
  simp [announceTrucks, giveReports_trucks]

@[simp] theorem announceTrucks_arbiter (before : List Truck) :
    (announceTrucks before s).arbiter = s.arbiter := by
  simp [announceTrucks, giveReports_arbiter]

@[simp] theorem announceTrucks_clock (before : List Truck) :
    (announceTrucks before s).clock = s.clock := by
  simp [announceTrucks, giveReports_clock]

@[simp] theorem announceTrucks_pending (before : List Truck) :
    (announceTrucks before s).pending = s.pending := by
  simp [announceTrucks, giveReports_pending]

/-! rechoose -/

@[simp] theorem rechoose_startup :
    (rechoose s).startup = s.startup := by
  unfold rechoose; split <;> simp

@[simp] theorem rechoose_frames :
    (rechoose s).frames = s.frames := by
  unfold rechoose; split <;> simp

@[simp] theorem rechoose_stock :
    (rechoose s).stock = s.stock := by
  unfold rechoose; split <;> simp

@[simp] theorem rechoose_bid :
    (rechoose s).bid = s.bid := by
  unfold rechoose; split <;> simp

@[simp] theorem rechoose_hold :
    (rechoose s).hold = s.hold := by
  unfold rechoose; split <;> simp

@[simp] theorem rechoose_picks :
    (rechoose s).picks = s.picks := by
  unfold rechoose; split <;> simp

@[simp] theorem rechoose_trucks :
    (rechoose s).trucks = s.trucks := by
  unfold rechoose; split <;> simp

@[simp] theorem rechoose_clock :
    (rechoose s).clock = s.clock := by
  unfold rechoose; split <;> simp

@[simp] theorem rechoose_signal :
    (rechoose s).signal = s.signal := by
  unfold rechoose; split <;> simp

@[simp] theorem rechoose_port :
    (rechoose s).port = s.port := by
  unfold rechoose; split <;> simp

@[simp] theorem rechoose_pending :
    (rechoose s).pending = s.pending := by
  unfold rechoose; split <;> simp

/-! arbiterFree -/

@[simp] theorem arbiterFree_startup :
    (arbiterFree s).startup = s.startup := by
  simp [arbiterFree]

@[simp] theorem arbiterFree_frames :
    (arbiterFree s).frames = s.frames := by
  simp [arbiterFree]

@[simp] theorem arbiterFree_stock :
    (arbiterFree s).stock = s.stock := by
  simp [arbiterFree]

@[simp] theorem arbiterFree_bid :
    (arbiterFree s).bid = s.bid := by
  simp [arbiterFree]

@[simp] theorem arbiterFree_hold :
    (arbiterFree s).hold = s.hold := by
  simp [arbiterFree]

@[simp] theorem arbiterFree_picks :
    (arbiterFree s).picks = s.picks := by
  simp [arbiterFree]

@[simp] theorem arbiterFree_trucks :
    (arbiterFree s).trucks = s.trucks := by
  simp [arbiterFree]

@[simp] theorem arbiterFree_clock :
    (arbiterFree s).clock = s.clock := by
  simp [arbiterFree]

@[simp] theorem arbiterFree_signal :
    (arbiterFree s).signal = s.signal := by
  simp [arbiterFree]

@[simp] theorem arbiterFree_port :
    (arbiterFree s).port = s.port := by
  simp [arbiterFree]

@[simp] theorem arbiterFree_pending :
    (arbiterFree s).pending = s.pending := by
  simp [arbiterFree]

/-! arbiterRoundOver -/

@[simp] theorem arbiterRoundOver_startup :
    (arbiterRoundOver s).startup = s.startup := by
  unfold arbiterRoundOver; split <;> simp

@[simp] theorem arbiterRoundOver_frames :
    (arbiterRoundOver s).frames = s.frames := by
  unfold arbiterRoundOver; split <;> simp

@[simp] theorem arbiterRoundOver_stock :
    (arbiterRoundOver s).stock = s.stock := by
  unfold arbiterRoundOver; split <;> simp

@[simp] theorem arbiterRoundOver_bid :
    (arbiterRoundOver s).bid = s.bid := by
  unfold arbiterRoundOver; split <;> simp

@[simp] theorem arbiterRoundOver_hold :
    (arbiterRoundOver s).hold = s.hold := by
  unfold arbiterRoundOver; split <;> simp

@[simp] theorem arbiterRoundOver_picks :
    (arbiterRoundOver s).picks = s.picks := by
  unfold arbiterRoundOver; split <;> simp

@[simp] theorem arbiterRoundOver_trucks :
    (arbiterRoundOver s).trucks = s.trucks := by
  unfold arbiterRoundOver; split <;> simp

@[simp] theorem arbiterRoundOver_clock :
    (arbiterRoundOver s).clock = s.clock := by
  unfold arbiterRoundOver; split <;> simp

@[simp] theorem arbiterRoundOver_signal :
    (arbiterRoundOver s).signal = s.signal := by
  unfold arbiterRoundOver; split <;> simp

@[simp] theorem arbiterRoundOver_port :
    (arbiterRoundOver s).port = s.port := by
  unfold arbiterRoundOver; split <;> simp

@[simp] theorem arbiterRoundOver_pending :
    (arbiterRoundOver s).pending = s.pending := by
  unfold arbiterRoundOver; split <;> simp

/-! gateChanged -/

@[simp] theorem gateChanged_startup (trucks : List Truck) :
    (gateChanged trucks s).startup = s.startup := by
  simp [gateChanged]

@[simp] theorem gateChanged_frames (trucks : List Truck) :
    (gateChanged trucks s).frames = s.frames := by
  simp [gateChanged]

@[simp] theorem gateChanged_stock (trucks : List Truck) :
    (gateChanged trucks s).stock = s.stock := by
  simp [gateChanged]

@[simp] theorem gateChanged_bid (trucks : List Truck) :
    (gateChanged trucks s).bid = s.bid := by
  simp [gateChanged]

@[simp] theorem gateChanged_hold (trucks : List Truck) :
    (gateChanged trucks s).hold = s.hold := by
  simp [gateChanged]

@[simp] theorem gateChanged_picks (trucks : List Truck) :
    (gateChanged trucks s).picks = s.picks := by
  simp [gateChanged]

@[simp] theorem gateChanged_clock (trucks : List Truck) :
    (gateChanged trucks s).clock = s.clock := by
  simp [gateChanged]

@[simp] theorem gateChanged_pending (trucks : List Truck) :
    (gateChanged trucks s).pending = s.pending := by
  simp [gateChanged]

/-! emptyRound -/

@[simp] theorem emptyRound_startup (r : CallRecord) :
    (emptyRound r s).startup = s.startup := by
  unfold emptyRound; dsimp only; repeat' split
  all_goals simp

@[simp] theorem emptyRound_line (r : CallRecord) :
    (emptyRound r s).line = s.line := by
  unfold emptyRound; dsimp only; repeat' split
  all_goals simp

@[simp] theorem emptyRound_frames (r : CallRecord) :
    (emptyRound r s).frames = s.frames := by
  unfold emptyRound; dsimp only; repeat' split
  all_goals simp

@[simp] theorem emptyRound_stock (r : CallRecord) :
    (emptyRound r s).stock = s.stock := by
  unfold emptyRound; dsimp only; repeat' split
  all_goals simp

@[simp] theorem emptyRound_bid (r : CallRecord) :
    (emptyRound r s).bid = s.bid := by
  unfold emptyRound; dsimp only; repeat' split
  all_goals simp

@[simp] theorem emptyRound_hold (r : CallRecord) :
    (emptyRound r s).hold = s.hold := by
  unfold emptyRound; dsimp only; repeat' split
  all_goals simp

@[simp] theorem emptyRound_picks (r : CallRecord) :
    (emptyRound r s).picks = s.picks := by
  unfold emptyRound; dsimp only; repeat' split
  all_goals simp

@[simp] theorem emptyRound_arbiter (r : CallRecord) :
    (emptyRound r s).arbiter = s.arbiter := by
  unfold emptyRound; dsimp only; repeat' split
  all_goals simp

@[simp] theorem emptyRound_clock (r : CallRecord) :
    (emptyRound r s).clock = s.clock := by
  unfold emptyRound; dsimp only; repeat' split
  all_goals simp

@[simp] theorem emptyRound_pending (r : CallRecord) :
    (emptyRound r s).pending = s.pending := by
  unfold emptyRound; dsimp only; repeat' split
  all_goals simp

/-! applyGrant -/

@[simp] theorem applyGrant_startup (r : CallRecord) (winner count : Nat) :
    (applyGrant r winner count s).startup = s.startup := by
  simp [applyGrant]

@[simp] theorem applyGrant_line (r : CallRecord) (winner count : Nat) :
    (applyGrant r winner count s).line = s.line := by
  simp [applyGrant]

@[simp] theorem applyGrant_frames (r : CallRecord) (winner count : Nat) :
    (applyGrant r winner count s).frames = s.frames := by
  simp [applyGrant]

@[simp] theorem applyGrant_stock (r : CallRecord) (winner count : Nat) :
    (applyGrant r winner count s).stock = s.stock := by
  simp [applyGrant]

@[simp] theorem applyGrant_bid (r : CallRecord) (winner count : Nat) :
    (applyGrant r winner count s).bid = s.bid := by
  simp [applyGrant]

@[simp] theorem applyGrant_hold (r : CallRecord) (winner count : Nat) :
    (applyGrant r winner count s).hold = s.hold := by
  simp [applyGrant]

@[simp] theorem applyGrant_picks (r : CallRecord) (winner count : Nat) :
    (applyGrant r winner count s).picks = s.picks := by
  simp [applyGrant]

@[simp] theorem applyGrant_arbiter (r : CallRecord) (winner count : Nat) :
    (applyGrant r winner count s).arbiter = s.arbiter := by
  simp [applyGrant]

@[simp] theorem applyGrant_clock (r : CallRecord) (winner count : Nat) :
    (applyGrant r winner count s).clock = s.clock := by
  simp [applyGrant]

@[simp] theorem applyGrant_pending (r : CallRecord) (winner count : Nat) :
    (applyGrant r winner count s).pending = s.pending := by
  simp [applyGrant]

/-! lineFreed -/

@[simp] theorem lineFreed_startup (d : Bool) :
    (lineFreed d s).startup = s.startup := by
  unfold lineFreed; split <;> simp

@[simp] theorem lineFreed_frames (d : Bool) :
    (lineFreed d s).frames = s.frames := by
  unfold lineFreed; split <;> simp

@[simp] theorem lineFreed_stock (d : Bool) :
    (lineFreed d s).stock = s.stock := by
  unfold lineFreed; split <;> simp

@[simp] theorem lineFreed_bid (d : Bool) :
    (lineFreed d s).bid = s.bid := by
  unfold lineFreed; split <;> simp

@[simp] theorem lineFreed_hold (d : Bool) :
    (lineFreed d s).hold = s.hold := by
  unfold lineFreed; split <;> simp

@[simp] theorem lineFreed_picks (d : Bool) :
    (lineFreed d s).picks = s.picks := by
  unfold lineFreed; split <;> simp

@[simp] theorem lineFreed_trucks (d : Bool) :
    (lineFreed d s).trucks = s.trucks := by
  unfold lineFreed; split <;> simp

@[simp] theorem lineFreed_arbiter (d : Bool) :
    (lineFreed d s).arbiter = s.arbiter := by
  unfold lineFreed; split <;> simp

@[simp] theorem lineFreed_clock (d : Bool) :
    (lineFreed d s).clock = s.clock := by
  unfold lineFreed; split <;> simp

@[simp] theorem lineFreed_signal (d : Bool) :
    (lineFreed d s).signal = s.signal := by
  unfold lineFreed; split <;> simp

@[simp] theorem lineFreed_port (d : Bool) :
    (lineFreed d s).port = s.port := by
  unfold lineFreed; split <;> simp

@[simp] theorem lineFreed_pending (d : Bool) :
    (lineFreed d s).pending = s.pending := by
  unfold lineFreed; split <;> simp

/-! dropRound -/

@[simp] theorem dropRound_startup :
    (dropRound s).startup = s.startup := by
  unfold dropRound; split <;> rfl

@[simp] theorem dropRound_line :
    (dropRound s).line = s.line := by
  unfold dropRound; split <;> rfl

@[simp] theorem dropRound_stock :
    (dropRound s).stock = s.stock := by
  unfold dropRound; split <;> rfl

@[simp] theorem dropRound_bid :
    (dropRound s).bid = s.bid := by
  unfold dropRound; split <;> rfl

@[simp] theorem dropRound_hold :
    (dropRound s).hold = s.hold := by
  unfold dropRound; split <;> rfl

@[simp] theorem dropRound_picks :
    (dropRound s).picks = s.picks := by
  unfold dropRound; split <;> rfl

@[simp] theorem dropRound_trucks :
    (dropRound s).trucks = s.trucks := by
  unfold dropRound; split <;> rfl

@[simp] theorem dropRound_arbiter :
    (dropRound s).arbiter = s.arbiter := by
  unfold dropRound; split <;> rfl

@[simp] theorem dropRound_clock :
    (dropRound s).clock = s.clock := by
  unfold dropRound; split <;> rfl

@[simp] theorem dropRound_signal :
    (dropRound s).signal = s.signal := by
  unfold dropRound; split <;> rfl

@[simp] theorem dropRound_port :
    (dropRound s).port = s.port := by
  unfold dropRound; split <;> rfl

@[simp] theorem dropRound_pending :
    (dropRound s).pending = s.pending := by
  unfold dropRound; split <;> rfl

/-! endRound -/

@[simp] theorem endRound_startup (d : Bool) :
    (endRound d s).startup = s.startup := by
  unfold endRound; dsimp only; split <;> simp

@[simp] theorem endRound_stock (d : Bool) :
    (endRound d s).stock = s.stock := by
  unfold endRound; dsimp only; split <;> simp

@[simp] theorem endRound_bid (d : Bool) :
    (endRound d s).bid = s.bid := by
  unfold endRound; dsimp only; split <;> simp

@[simp] theorem endRound_hold (d : Bool) :
    (endRound d s).hold = s.hold := by
  unfold endRound; dsimp only; split <;> simp

@[simp] theorem endRound_picks (d : Bool) :
    (endRound d s).picks = s.picks := by
  unfold endRound; dsimp only; split <;> simp

@[simp] theorem endRound_trucks (d : Bool) :
    (endRound d s).trucks = s.trucks := by
  unfold endRound; dsimp only; split <;> simp

@[simp] theorem endRound_clock (d : Bool) :
    (endRound d s).clock = s.clock := by
  unfold endRound; dsimp only; split <;> simp

@[simp] theorem endRound_signal (d : Bool) :
    (endRound d s).signal = s.signal := by
  unfold endRound; dsimp only; split <;> simp

@[simp] theorem endRound_port (d : Bool) :
    (endRound d s).port = s.port := by
  unfold endRound; dsimp only; split <;> simp

@[simp] theorem endRound_pending (d : Bool) :
    (endRound d s).pending = s.pending := by
  unfold endRound; dsimp only; split <;> simp

/-! dropAbandoned -/

@[simp] theorem dropAbandoned_startup :
    (dropAbandoned s).startup = s.startup := by
  simp [dropAbandoned]

@[simp] theorem dropAbandoned_line :
    (dropAbandoned s).line = s.line := by
  simp [dropAbandoned]

@[simp] theorem dropAbandoned_picks :
    (dropAbandoned s).picks = s.picks := by
  simp [dropAbandoned]

@[simp] theorem dropAbandoned_trucks :
    (dropAbandoned s).trucks = s.trucks := by
  simp [dropAbandoned]

@[simp] theorem dropAbandoned_arbiter :
    (dropAbandoned s).arbiter = s.arbiter := by
  simp [dropAbandoned]

@[simp] theorem dropAbandoned_clock :
    (dropAbandoned s).clock = s.clock := by
  simp [dropAbandoned]

@[simp] theorem dropAbandoned_signal :
    (dropAbandoned s).signal = s.signal := by
  simp [dropAbandoned]

@[simp] theorem dropAbandoned_port :
    (dropAbandoned s).port = s.port := by
  simp [dropAbandoned]

@[simp] theorem dropAbandoned_pending :
    (dropAbandoned s).pending = s.pending := by
  simp [dropAbandoned]

/-! abandonRound -/

@[simp] theorem abandonRound_startup (d : Bool) :
    (abandonRound d s).startup = s.startup := by
  unfold abandonRound; dsimp only; split <;> simp

@[simp] theorem abandonRound_picks (d : Bool) :
    (abandonRound d s).picks = s.picks := by
  unfold abandonRound; dsimp only; split <;> simp

@[simp] theorem abandonRound_trucks (d : Bool) :
    (abandonRound d s).trucks = s.trucks := by
  unfold abandonRound; dsimp only; split <;> simp

@[simp] theorem abandonRound_clock (d : Bool) :
    (abandonRound d s).clock = s.clock := by
  unfold abandonRound; dsimp only; split <;> simp

@[simp] theorem abandonRound_signal (d : Bool) :
    (abandonRound d s).signal = s.signal := by
  unfold abandonRound; dsimp only; split <;> simp

@[simp] theorem abandonRound_port (d : Bool) :
    (abandonRound d s).port = s.port := by
  unfold abandonRound; dsimp only; split <;> simp

@[simp] theorem abandonRound_pending (d : Bool) :
    (abandonRound d s).pending = s.pending := by
  unfold abandonRound; dsimp only; split <;> simp

/-! endFrame -/

@[simp] theorem endFrame_startup :
    (endFrame s).startup = s.startup := by
  unfold endFrame; split <;> simp

@[simp] theorem endFrame_stock :
    (endFrame s).stock = s.stock := by
  unfold endFrame; split <;> simp

@[simp] theorem endFrame_bid :
    (endFrame s).bid = s.bid := by
  unfold endFrame; split <;> simp

@[simp] theorem endFrame_hold :
    (endFrame s).hold = s.hold := by
  unfold endFrame; split <;> simp

@[simp] theorem endFrame_picks :
    (endFrame s).picks = s.picks := by
  unfold endFrame; split <;> simp

@[simp] theorem endFrame_trucks :
    (endFrame s).trucks = s.trucks := by
  unfold endFrame; split <;> simp

@[simp] theorem endFrame_clock :
    (endFrame s).clock = s.clock := by
  unfold endFrame; split <;> simp

@[simp] theorem endFrame_signal :
    (endFrame s).signal = s.signal := by
  unfold endFrame; split <;> simp

@[simp] theorem endFrame_port :
    (endFrame s).port = s.port := by
  unfold endFrame; split <;> simp

@[simp] theorem endFrame_pending :
    (endFrame s).pending = s.pending := by
  unfold endFrame; split <;> simp

/-! enterDuplicate -/

@[simp] theorem enterDuplicate_clock :
    (enterDuplicate s).clock = s.clock := by
  simp [enterDuplicate]

@[simp] theorem enterDuplicate_port :
    (enterDuplicate s).port = s.port := by
  simp [enterDuplicate]

@[simp] theorem enterDuplicate_pending :
    (enterDuplicate s).pending = s.pending := by
  simp [enterDuplicate]

/-! closingStart -/

@[simp] theorem closingStart_startup :
    (closingStart s).startup = s.startup := by
  unfold closingStart; repeat' split
  all_goals simp

@[simp] theorem closingStart_line :
    (closingStart s).line = s.line := by
  unfold closingStart; repeat' split
  all_goals simp

@[simp] theorem closingStart_stock :
    (closingStart s).stock = s.stock := by
  unfold closingStart; repeat' split
  all_goals simp

@[simp] theorem closingStart_bid :
    (closingStart s).bid = s.bid := by
  unfold closingStart; repeat' split
  all_goals simp

@[simp] theorem closingStart_picks :
    (closingStart s).picks = s.picks := by
  unfold closingStart; repeat' split
  all_goals simp

@[simp] theorem closingStart_trucks :
    (closingStart s).trucks = s.trucks := by
  unfold closingStart; repeat' split
  all_goals simp

@[simp] theorem closingStart_arbiter :
    (closingStart s).arbiter = s.arbiter := by
  unfold closingStart; repeat' split
  all_goals simp

@[simp] theorem closingStart_clock :
    (closingStart s).clock = s.clock := by
  unfold closingStart; repeat' split
  all_goals simp

@[simp] theorem closingStart_signal :
    (closingStart s).signal = s.signal := by
  unfold closingStart; repeat' split
  all_goals simp

@[simp] theorem closingStart_port :
    (closingStart s).port = s.port := by
  unfold closingStart; repeat' split
  all_goals simp

@[simp] theorem closingStart_pending :
    (closingStart s).pending = s.pending := by
  unfold closingStart; repeat' split
  all_goals simp

/-! closingOtherKind -/

@[simp] theorem closingOtherKind_startup :
    (closingOtherKind s).startup = s.startup := by
  unfold closingOtherKind; repeat' split
  all_goals simp

@[simp] theorem closingOtherKind_line :
    (closingOtherKind s).line = s.line := by
  unfold closingOtherKind; repeat' split
  all_goals simp

@[simp] theorem closingOtherKind_frames :
    (closingOtherKind s).frames = s.frames := by
  unfold closingOtherKind; repeat' split
  all_goals simp

@[simp] theorem closingOtherKind_bid :
    (closingOtherKind s).bid = s.bid := by
  unfold closingOtherKind; repeat' split
  all_goals simp

@[simp] theorem closingOtherKind_picks :
    (closingOtherKind s).picks = s.picks := by
  unfold closingOtherKind; repeat' split
  all_goals simp

@[simp] theorem closingOtherKind_trucks :
    (closingOtherKind s).trucks = s.trucks := by
  unfold closingOtherKind; repeat' split
  all_goals simp

@[simp] theorem closingOtherKind_arbiter :
    (closingOtherKind s).arbiter = s.arbiter := by
  unfold closingOtherKind; repeat' split
  all_goals simp

@[simp] theorem closingOtherKind_clock :
    (closingOtherKind s).clock = s.clock := by
  unfold closingOtherKind; repeat' split
  all_goals simp

@[simp] theorem closingOtherKind_signal :
    (closingOtherKind s).signal = s.signal := by
  unfold closingOtherKind; repeat' split
  all_goals simp

@[simp] theorem closingOtherKind_port :
    (closingOtherKind s).port = s.port := by
  unfold closingOtherKind; repeat' split
  all_goals simp

@[simp] theorem closingOtherKind_pending :
    (closingOtherKind s).pending = s.pending := by
  unfold closingOtherKind; repeat' split
  all_goals simp

/-! passRound -/

@[simp] theorem passRound_startup :
    (passRound s).startup = s.startup := by
  unfold passRound; dsimp only; split <;> simp

@[simp] theorem passRound_bid :
    (passRound s).bid = s.bid := by
  unfold passRound; dsimp only; split <;> simp

@[simp] theorem passRound_picks :
    (passRound s).picks = s.picks := by
  unfold passRound; dsimp only; split <;> simp

@[simp] theorem passRound_trucks :
    (passRound s).trucks = s.trucks := by
  unfold passRound; dsimp only; split <;> simp

@[simp] theorem passRound_clock :
    (passRound s).clock = s.clock := by
  unfold passRound; dsimp only; split <;> simp

@[simp] theorem passRound_signal :
    (passRound s).signal = s.signal := by
  unfold passRound; dsimp only; split <;> simp

@[simp] theorem passRound_port :
    (passRound s).port = s.port := by
  unfold passRound; dsimp only; split <;> simp

@[simp] theorem passRound_pending :
    (passRound s).pending = s.pending := by
  unfold passRound; dsimp only; split <;> simp

/-! partFrame -/

@[simp] theorem partFrame_startup (sampled : List Byte) :
    (partFrame sampled s).startup = s.startup := by
  unfold partFrame; repeat' split
  all_goals simp

@[simp] theorem partFrame_bid (sampled : List Byte) :
    (partFrame sampled s).bid = s.bid := by
  unfold partFrame; repeat' split
  all_goals simp

@[simp] theorem partFrame_picks (sampled : List Byte) :
    (partFrame sampled s).picks = s.picks := by
  unfold partFrame; repeat' split
  all_goals simp

@[simp] theorem partFrame_trucks (sampled : List Byte) :
    (partFrame sampled s).trucks = s.trucks := by
  unfold partFrame; repeat' split
  all_goals simp

@[simp] theorem partFrame_clock (sampled : List Byte) :
    (partFrame sampled s).clock = s.clock := by
  unfold partFrame; repeat' split
  all_goals simp

@[simp] theorem partFrame_signal (sampled : List Byte) :
    (partFrame sampled s).signal = s.signal := by
  unfold partFrame; repeat' split
  all_goals simp

@[simp] theorem partFrame_port (sampled : List Byte) :
    (partFrame sampled s).port = s.port := by
  unfold partFrame; repeat' split
  all_goals simp

@[simp] theorem partFrame_pending (sampled : List Byte) :
    (partFrame sampled s).pending = s.pending := by
  unfold partFrame; repeat' split
  all_goals simp

/-! mapHead -/

@[simp] theorem mapHead_startup (f : Notice → Notice) :
    (mapHead f s).startup = s.startup := by
  unfold mapHead; split <;> simp

@[simp] theorem mapHead_line (f : Notice → Notice) :
    (mapHead f s).line = s.line := by
  unfold mapHead; split <;> simp

@[simp] theorem mapHead_stock (f : Notice → Notice) :
    (mapHead f s).stock = s.stock := by
  unfold mapHead; split <;> simp

@[simp] theorem mapHead_bid (f : Notice → Notice) :
    (mapHead f s).bid = s.bid := by
  unfold mapHead; split <;> simp

@[simp] theorem mapHead_hold (f : Notice → Notice) :
    (mapHead f s).hold = s.hold := by
  unfold mapHead; split <;> simp

@[simp] theorem mapHead_picks (f : Notice → Notice) :
    (mapHead f s).picks = s.picks := by
  unfold mapHead; split <;> simp

@[simp] theorem mapHead_trucks (f : Notice → Notice) :
    (mapHead f s).trucks = s.trucks := by
  unfold mapHead; split <;> simp

@[simp] theorem mapHead_arbiter (f : Notice → Notice) :
    (mapHead f s).arbiter = s.arbiter := by
  unfold mapHead; split <;> simp

@[simp] theorem mapHead_clock (f : Notice → Notice) :
    (mapHead f s).clock = s.clock := by
  unfold mapHead; split <;> simp

@[simp] theorem mapHead_signal (f : Notice → Notice) :
    (mapHead f s).signal = s.signal := by
  unfold mapHead; split <;> simp

@[simp] theorem mapHead_port (f : Notice → Notice) :
    (mapHead f s).port = s.port := by
  unfold mapHead; split <;> simp

@[simp] theorem mapHead_pending (f : Notice → Notice) :
    (mapHead f s).pending = s.pending := by
  unfold mapHead; split <;> simp

/-! clearInFlight -/

@[simp] theorem clearInFlight_startup :
    (clearInFlight s).startup = s.startup := by
  simp [clearInFlight]

@[simp] theorem clearInFlight_line :
    (clearInFlight s).line = s.line := by
  simp [clearInFlight]

@[simp] theorem clearInFlight_stock :
    (clearInFlight s).stock = s.stock := by
  simp [clearInFlight]

@[simp] theorem clearInFlight_bid :
    (clearInFlight s).bid = s.bid := by
  simp [clearInFlight]

@[simp] theorem clearInFlight_hold :
    (clearInFlight s).hold = s.hold := by
  simp [clearInFlight]

@[simp] theorem clearInFlight_picks :
    (clearInFlight s).picks = s.picks := by
  simp [clearInFlight]

@[simp] theorem clearInFlight_trucks :
    (clearInFlight s).trucks = s.trucks := by
  simp [clearInFlight]

@[simp] theorem clearInFlight_arbiter :
    (clearInFlight s).arbiter = s.arbiter := by
  simp [clearInFlight]

@[simp] theorem clearInFlight_clock :
    (clearInFlight s).clock = s.clock := by
  simp [clearInFlight]

@[simp] theorem clearInFlight_signal :
    (clearInFlight s).signal = s.signal := by
  simp [clearInFlight]

@[simp] theorem clearInFlight_port :
    (clearInFlight s).port = s.port := by
  simp [clearInFlight]

@[simp] theorem clearInFlight_pending :
    (clearInFlight s).pending = s.pending := by
  simp [clearInFlight]

/-! removeHead -/

@[simp] theorem removeHead_startup :
    (removeHead s).startup = s.startup := by
  simp [removeHead]

@[simp] theorem removeHead_line :
    (removeHead s).line = s.line := by
  simp [removeHead]

@[simp] theorem removeHead_stock :
    (removeHead s).stock = s.stock := by
  simp [removeHead]

@[simp] theorem removeHead_bid :
    (removeHead s).bid = s.bid := by
  simp [removeHead]

@[simp] theorem removeHead_hold :
    (removeHead s).hold = s.hold := by
  simp [removeHead]

@[simp] theorem removeHead_picks :
    (removeHead s).picks = s.picks := by
  simp [removeHead]

@[simp] theorem removeHead_trucks :
    (removeHead s).trucks = s.trucks := by
  simp [removeHead]

@[simp] theorem removeHead_arbiter :
    (removeHead s).arbiter = s.arbiter := by
  simp [removeHead]

@[simp] theorem removeHead_clock :
    (removeHead s).clock = s.clock := by
  simp [removeHead]

@[simp] theorem removeHead_signal :
    (removeHead s).signal = s.signal := by
  simp [removeHead]

@[simp] theorem removeHead_port :
    (removeHead s).port = s.port := by
  simp [removeHead]

@[simp] theorem removeHead_pending :
    (removeHead s).pending = s.pending := by
  simp [removeHead]

/-! countFlaw -/

@[simp] theorem countFlaw_startup :
    (countFlaw s).startup = s.startup := by
  unfold countFlaw; repeat' split
  all_goals simp

@[simp] theorem countFlaw_line :
    (countFlaw s).line = s.line := by
  unfold countFlaw; repeat' split
  all_goals simp

@[simp] theorem countFlaw_stock :
    (countFlaw s).stock = s.stock := by
  unfold countFlaw; repeat' split
  all_goals simp

@[simp] theorem countFlaw_bid :
    (countFlaw s).bid = s.bid := by
  unfold countFlaw; repeat' split
  all_goals simp

@[simp] theorem countFlaw_hold :
    (countFlaw s).hold = s.hold := by
  unfold countFlaw; repeat' split
  all_goals simp

@[simp] theorem countFlaw_picks :
    (countFlaw s).picks = s.picks := by
  unfold countFlaw; repeat' split
  all_goals simp

@[simp] theorem countFlaw_trucks :
    (countFlaw s).trucks = s.trucks := by
  unfold countFlaw; repeat' split
  all_goals simp

@[simp] theorem countFlaw_arbiter :
    (countFlaw s).arbiter = s.arbiter := by
  unfold countFlaw; repeat' split
  all_goals simp

@[simp] theorem countFlaw_clock :
    (countFlaw s).clock = s.clock := by
  unfold countFlaw; repeat' split
  all_goals simp

@[simp] theorem countFlaw_signal :
    (countFlaw s).signal = s.signal := by
  unfold countFlaw; repeat' split
  all_goals simp

@[simp] theorem countFlaw_pending :
    (countFlaw s).pending = s.pending := by
  unfold countFlaw; repeat' split
  all_goals simp

/-! beginFrame -/

@[simp] theorem beginFrame_startup (o : Offer) :
    (beginFrame o s).startup = s.startup := by
  unfold beginFrame; split <;> simp

@[simp] theorem beginFrame_stock (o : Offer) :
    (beginFrame o s).stock = s.stock := by
  unfold beginFrame; split <;> simp

@[simp] theorem beginFrame_bid (o : Offer) :
    (beginFrame o s).bid = s.bid := by
  unfold beginFrame; split <;> simp

@[simp] theorem beginFrame_hold (o : Offer) :
    (beginFrame o s).hold = s.hold := by
  unfold beginFrame; split <;> simp

@[simp] theorem beginFrame_picks (o : Offer) :
    (beginFrame o s).picks = s.picks := by
  unfold beginFrame; split <;> simp

@[simp] theorem beginFrame_trucks (o : Offer) :
    (beginFrame o s).trucks = s.trucks := by
  unfold beginFrame; split <;> simp

@[simp] theorem beginFrame_clock (o : Offer) :
    (beginFrame o s).clock = s.clock := by
  unfold beginFrame; split <;> simp

@[simp] theorem beginFrame_signal (o : Offer) :
    (beginFrame o s).signal = s.signal := by
  unfold beginFrame; split <;> simp

@[simp] theorem beginFrame_port (o : Offer) :
    (beginFrame o s).port = s.port := by
  unfold beginFrame; split <;> simp

@[simp] theorem beginFrame_pending (o : Offer) :
    (beginFrame o s).pending = s.pending := by
  unfold beginFrame; split <;> simp

/-! loseContention -/

@[simp] theorem loseContention_startup :
    (loseContention s).startup = s.startup := by
  unfold loseContention; split <;> simp

@[simp] theorem loseContention_stock :
    (loseContention s).stock = s.stock := by
  unfold loseContention; split <;> simp

@[simp] theorem loseContention_bid :
    (loseContention s).bid = s.bid := by
  unfold loseContention; split <;> simp

@[simp] theorem loseContention_hold :
    (loseContention s).hold = s.hold := by
  unfold loseContention; split <;> simp

@[simp] theorem loseContention_picks :
    (loseContention s).picks = s.picks := by
  unfold loseContention; split <;> simp

@[simp] theorem loseContention_trucks :
    (loseContention s).trucks = s.trucks := by
  unfold loseContention; split <;> simp

@[simp] theorem loseContention_clock :
    (loseContention s).clock = s.clock := by
  unfold loseContention; split <;> simp

@[simp] theorem loseContention_signal :
    (loseContention s).signal = s.signal := by
  unfold loseContention; split <;> simp

@[simp] theorem loseContention_port :
    (loseContention s).port = s.port := by
  unfold loseContention; split <;> simp

@[simp] theorem loseContention_pending :
    (loseContention s).pending = s.pending := by
  unfold loseContention; split <;> simp

/-! abandonSent -/

@[simp] theorem abandonSent_startup (b : Bool) (n : Nat) :
    (abandonSent b n s).startup = s.startup := by
  unfold abandonSent; dsimp only; repeat' split
  all_goals simp

@[simp] theorem abandonSent_stock (b : Bool) (n : Nat) :
    (abandonSent b n s).stock = s.stock := by
  unfold abandonSent; dsimp only; repeat' split
  all_goals simp

@[simp] theorem abandonSent_bid (b : Bool) (n : Nat) :
    (abandonSent b n s).bid = s.bid := by
  unfold abandonSent; dsimp only; repeat' split
  all_goals simp

@[simp] theorem abandonSent_hold (b : Bool) (n : Nat) :
    (abandonSent b n s).hold = s.hold := by
  unfold abandonSent; dsimp only; repeat' split
  all_goals simp

@[simp] theorem abandonSent_picks (b : Bool) (n : Nat) :
    (abandonSent b n s).picks = s.picks := by
  unfold abandonSent; dsimp only; repeat' split
  all_goals simp

@[simp] theorem abandonSent_trucks (b : Bool) (n : Nat) :
    (abandonSent b n s).trucks = s.trucks := by
  unfold abandonSent; dsimp only; repeat' split
  all_goals simp

@[simp] theorem abandonSent_arbiter (b : Bool) (n : Nat) :
    (abandonSent b n s).arbiter = s.arbiter := by
  unfold abandonSent; dsimp only; repeat' split
  all_goals simp

@[simp] theorem abandonSent_clock (b : Bool) (n : Nat) :
    (abandonSent b n s).clock = s.clock := by
  unfold abandonSent; dsimp only; repeat' split
  all_goals simp

@[simp] theorem abandonSent_signal (b : Bool) (n : Nat) :
    (abandonSent b n s).signal = s.signal := by
  unfold abandonSent; dsimp only; repeat' split
  all_goals simp

@[simp] theorem abandonSent_port (b : Bool) (n : Nat) :
    (abandonSent b n s).port = s.port := by
  unfold abandonSent; dsimp only; repeat' split
  all_goals simp

@[simp] theorem abandonSent_pending (b : Bool) (n : Nat) :
    (abandonSent b n s).pending = s.pending := by
  unfold abandonSent; dsimp only; repeat' split
  all_goals simp

/-! enterHeld -/

@[simp] theorem enterHeld_startup (b : Bool) (sampled : List Byte) :
    (enterHeld b sampled s).startup = s.startup := by
  unfold enterHeld; dsimp only; split <;> simp

@[simp] theorem enterHeld_picks (b : Bool) (sampled : List Byte) :
    (enterHeld b sampled s).picks = s.picks := by
  unfold enterHeld; dsimp only; split <;> simp

@[simp] theorem enterHeld_trucks (b : Bool) (sampled : List Byte) :
    (enterHeld b sampled s).trucks = s.trucks := by
  unfold enterHeld; dsimp only; split <;> simp

@[simp] theorem enterHeld_clock (b : Bool) (sampled : List Byte) :
    (enterHeld b sampled s).clock = s.clock := by
  unfold enterHeld; dsimp only; split <;> simp

@[simp] theorem enterHeld_port (b : Bool) (sampled : List Byte) :
    (enterHeld b sampled s).port = s.port := by
  unfold enterHeld; dsimp only; split <;> simp

@[simp] theorem enterHeld_pending (b : Bool) (sampled : List Byte) :
    (enterHeld b sampled s).pending = s.pending := by
  unfold enterHeld; dsimp only; split <;> simp

/-! windowPulse -/

@[simp] theorem windowPulse_startup (dw : Bool) (v : RoundView) :
    (windowPulse dw v s).startup = s.startup := by
  unfold windowPulse; dsimp only; repeat' split
  all_goals rfl

@[simp] theorem windowPulse_frames (dw : Bool) (v : RoundView) :
    (windowPulse dw v s).frames = s.frames := by
  unfold windowPulse; dsimp only; repeat' split
  all_goals rfl

@[simp] theorem windowPulse_stock (dw : Bool) (v : RoundView) :
    (windowPulse dw v s).stock = s.stock := by
  unfold windowPulse; dsimp only; repeat' split
  all_goals rfl

@[simp] theorem windowPulse_hold (dw : Bool) (v : RoundView) :
    (windowPulse dw v s).hold = s.hold := by
  unfold windowPulse; dsimp only; repeat' split
  all_goals rfl

@[simp] theorem windowPulse_picks (dw : Bool) (v : RoundView) :
    (windowPulse dw v s).picks = s.picks := by
  unfold windowPulse; dsimp only; repeat' split
  all_goals rfl

@[simp] theorem windowPulse_trucks (dw : Bool) (v : RoundView) :
    (windowPulse dw v s).trucks = s.trucks := by
  unfold windowPulse; dsimp only; repeat' split
  all_goals rfl

@[simp] theorem windowPulse_arbiter (dw : Bool) (v : RoundView) :
    (windowPulse dw v s).arbiter = s.arbiter := by
  unfold windowPulse; dsimp only; repeat' split
  all_goals rfl

@[simp] theorem windowPulse_clock (dw : Bool) (v : RoundView) :
    (windowPulse dw v s).clock = s.clock := by
  unfold windowPulse; dsimp only; repeat' split
  all_goals rfl

@[simp] theorem windowPulse_signal (dw : Bool) (v : RoundView) :
    (windowPulse dw v s).signal = s.signal := by
  unfold windowPulse; dsimp only; repeat' split
  all_goals rfl

@[simp] theorem windowPulse_port (dw : Bool) (v : RoundView) :
    (windowPulse dw v s).port = s.port := by
  unfold windowPulse; dsimp only; repeat' split
  all_goals rfl

@[simp] theorem windowPulse_pending (dw : Bool) (v : RoundView) :
    (windowPulse dw v s).pending = s.pending := by
  unfold windowPulse; dsimp only; repeat' split
  all_goals rfl

/-! closeBid -/

@[simp] theorem closeBid_startup (w : BidWord) :
    (closeBid w s).startup = s.startup := by
  unfold closeBid; dsimp only; repeat' split
  all_goals simp

@[simp] theorem closeBid_line (w : BidWord) :
    (closeBid w s).line = s.line := by
  unfold closeBid; dsimp only; repeat' split
  all_goals simp

@[simp] theorem closeBid_picks (w : BidWord) :
    (closeBid w s).picks = s.picks := by
  unfold closeBid; dsimp only; repeat' split
  all_goals simp

@[simp] theorem closeBid_trucks (w : BidWord) :
    (closeBid w s).trucks = s.trucks := by
  unfold closeBid; dsimp only; repeat' split
  all_goals simp

@[simp] theorem closeBid_arbiter (w : BidWord) :
    (closeBid w s).arbiter = s.arbiter := by
  unfold closeBid; dsimp only; repeat' split
  all_goals simp

@[simp] theorem closeBid_clock (w : BidWord) :
    (closeBid w s).clock = s.clock := by
  unfold closeBid; dsimp only; repeat' split
  all_goals simp

@[simp] theorem closeBid_signal (w : BidWord) :
    (closeBid w s).signal = s.signal := by
  unfold closeBid; dsimp only; repeat' split
  all_goals simp

@[simp] theorem closeBid_port (w : BidWord) :
    (closeBid w s).port = s.port := by
  unfold closeBid; dsimp only; repeat' split
  all_goals simp

@[simp] theorem closeBid_pending (w : BidWord) :
    (closeBid w s).pending = s.pending := by
  unfold closeBid; dsimp only; repeat' split
  all_goals simp

/-! closeNoBid -/

@[simp] theorem closeNoBid_startup :
    (closeNoBid s).startup = s.startup := by
  unfold closeNoBid; split <;> simp

@[simp] theorem closeNoBid_line :
    (closeNoBid s).line = s.line := by
  unfold closeNoBid; split <;> simp

@[simp] theorem closeNoBid_frames :
    (closeNoBid s).frames = s.frames := by
  unfold closeNoBid; split <;> simp

@[simp] theorem closeNoBid_stock :
    (closeNoBid s).stock = s.stock := by
  unfold closeNoBid; split <;> simp

@[simp] theorem closeNoBid_bid :
    (closeNoBid s).bid = s.bid := by
  unfold closeNoBid; split <;> simp

@[simp] theorem closeNoBid_hold :
    (closeNoBid s).hold = s.hold := by
  unfold closeNoBid; split <;> simp

@[simp] theorem closeNoBid_picks :
    (closeNoBid s).picks = s.picks := by
  unfold closeNoBid; split <;> simp

@[simp] theorem closeNoBid_arbiter :
    (closeNoBid s).arbiter = s.arbiter := by
  unfold closeNoBid; split <;> simp

@[simp] theorem closeNoBid_clock :
    (closeNoBid s).clock = s.clock := by
  unfold closeNoBid; split <;> simp

@[simp] theorem closeNoBid_pending :
    (closeNoBid s).pending = s.pending := by
  unfold closeNoBid; split <;> simp

/-! closeWithBid -/

@[simp] theorem closeWithBid_startup (w : BidWord) :
    (closeWithBid w s).startup = s.startup := by
  unfold closeWithBid; split <;> rfl

@[simp] theorem closeWithBid_line (w : BidWord) :
    (closeWithBid w s).line = s.line := by
  unfold closeWithBid; split <;> rfl

@[simp] theorem closeWithBid_frames (w : BidWord) :
    (closeWithBid w s).frames = s.frames := by
  unfold closeWithBid; split <;> rfl

@[simp] theorem closeWithBid_stock (w : BidWord) :
    (closeWithBid w s).stock = s.stock := by
  unfold closeWithBid; split <;> rfl

@[simp] theorem closeWithBid_bid (w : BidWord) :
    (closeWithBid w s).bid = s.bid := by
  unfold closeWithBid; split <;> rfl

@[simp] theorem closeWithBid_hold (w : BidWord) :
    (closeWithBid w s).hold = s.hold := by
  unfold closeWithBid; split <;> rfl

@[simp] theorem closeWithBid_picks (w : BidWord) :
    (closeWithBid w s).picks = s.picks := by
  unfold closeWithBid; split <;> rfl

@[simp] theorem closeWithBid_trucks (w : BidWord) :
    (closeWithBid w s).trucks = s.trucks := by
  unfold closeWithBid; split <;> rfl

@[simp] theorem closeWithBid_clock (w : BidWord) :
    (closeWithBid w s).clock = s.clock := by
  unfold closeWithBid; split <;> rfl

@[simp] theorem closeWithBid_signal (w : BidWord) :
    (closeWithBid w s).signal = s.signal := by
  unfold closeWithBid; split <;> rfl

@[simp] theorem closeWithBid_port (w : BidWord) :
    (closeWithBid w s).port = s.port := by
  unfold closeWithBid; split <;> rfl

@[simp] theorem closeWithBid_pending (w : BidWord) :
    (closeWithBid w s).pending = s.pending := by
  unfold closeWithBid; split <;> rfl

/-! settleGrant -/

@[simp] theorem settleGrant_startup (c : Bool) :
    (settleGrant c s).startup = s.startup := by
  unfold settleGrant; repeat' split
  all_goals simp

@[simp] theorem settleGrant_line (c : Bool) :
    (settleGrant c s).line = s.line := by
  unfold settleGrant; repeat' split
  all_goals simp

@[simp] theorem settleGrant_frames (c : Bool) :
    (settleGrant c s).frames = s.frames := by
  unfold settleGrant; repeat' split
  all_goals simp

@[simp] theorem settleGrant_stock (c : Bool) :
    (settleGrant c s).stock = s.stock := by
  unfold settleGrant; repeat' split
  all_goals simp

@[simp] theorem settleGrant_bid (c : Bool) :
    (settleGrant c s).bid = s.bid := by
  unfold settleGrant; repeat' split
  all_goals simp

@[simp] theorem settleGrant_hold (c : Bool) :
    (settleGrant c s).hold = s.hold := by
  unfold settleGrant; repeat' split
  all_goals simp

@[simp] theorem settleGrant_picks (c : Bool) :
    (settleGrant c s).picks = s.picks := by
  unfold settleGrant; repeat' split
  all_goals simp

@[simp] theorem settleGrant_arbiter (c : Bool) :
    (settleGrant c s).arbiter = s.arbiter := by
  unfold settleGrant; repeat' split
  all_goals simp

@[simp] theorem settleGrant_clock (c : Bool) :
    (settleGrant c s).clock = s.clock := by
  unfold settleGrant; repeat' split
  all_goals simp

@[simp] theorem settleGrant_pending (c : Bool) :
    (settleGrant c s).pending = s.pending := by
  unfold settleGrant; repeat' split
  all_goals simp

/-! grantOver -/

@[simp] theorem grantOver_startup :
    (grantOver s).startup = s.startup := by
  simp [grantOver]

@[simp] theorem grantOver_stock :
    (grantOver s).stock = s.stock := by
  simp [grantOver]

@[simp] theorem grantOver_bid :
    (grantOver s).bid = s.bid := by
  simp [grantOver]

@[simp] theorem grantOver_hold :
    (grantOver s).hold = s.hold := by
  simp [grantOver]

@[simp] theorem grantOver_picks :
    (grantOver s).picks = s.picks := by
  simp [grantOver]

@[simp] theorem grantOver_trucks :
    (grantOver s).trucks = s.trucks := by
  simp [grantOver]

@[simp] theorem grantOver_clock :
    (grantOver s).clock = s.clock := by
  simp [grantOver]

@[simp] theorem grantOver_signal :
    (grantOver s).signal = s.signal := by
  simp [grantOver]

@[simp] theorem grantOver_port :
    (grantOver s).port = s.port := by
  simp [grantOver]

@[simp] theorem grantOver_pending :
    (grantOver s).pending = s.pending := by
  simp [grantOver]

/-! callSent -/

@[simp] theorem callSent_startup :
    (callSent s).startup = s.startup := by
  simp [callSent]

@[simp] theorem callSent_stock :
    (callSent s).stock = s.stock := by
  simp [callSent]

@[simp] theorem callSent_bid :
    (callSent s).bid = s.bid := by
  simp [callSent]

@[simp] theorem callSent_hold :
    (callSent s).hold = s.hold := by
  simp [callSent]

@[simp] theorem callSent_picks :
    (callSent s).picks = s.picks := by
  simp [callSent]

@[simp] theorem callSent_trucks :
    (callSent s).trucks = s.trucks := by
  simp [callSent]

@[simp] theorem callSent_arbiter :
    (callSent s).arbiter = s.arbiter := by
  simp [callSent]

@[simp] theorem callSent_clock :
    (callSent s).clock = s.clock := by
  simp [callSent]

@[simp] theorem callSent_signal :
    (callSent s).signal = s.signal := by
  simp [callSent]

@[simp] theorem callSent_port :
    (callSent s).port = s.port := by
  simp [callSent]

@[simp] theorem callSent_pending :
    (callSent s).pending = s.pending := by
  simp [callSent]

/-! decideConfirm -/

@[simp] theorem decideConfirm_startup (f : RxFrame 5) :
    (decideConfirm f s).startup = s.startup := by
  unfold decideConfirm; repeat' split
  all_goals rfl

@[simp] theorem decideConfirm_line (f : RxFrame 5) :
    (decideConfirm f s).line = s.line := by
  unfold decideConfirm; repeat' split
  all_goals rfl

@[simp] theorem decideConfirm_frames (f : RxFrame 5) :
    (decideConfirm f s).frames = s.frames := by
  unfold decideConfirm; repeat' split
  all_goals rfl

@[simp] theorem decideConfirm_stock (f : RxFrame 5) :
    (decideConfirm f s).stock = s.stock := by
  unfold decideConfirm; repeat' split
  all_goals rfl

@[simp] theorem decideConfirm_bid (f : RxFrame 5) :
    (decideConfirm f s).bid = s.bid := by
  unfold decideConfirm; repeat' split
  all_goals rfl

@[simp] theorem decideConfirm_picks (f : RxFrame 5) :
    (decideConfirm f s).picks = s.picks := by
  unfold decideConfirm; repeat' split
  all_goals rfl

@[simp] theorem decideConfirm_trucks (f : RxFrame 5) :
    (decideConfirm f s).trucks = s.trucks := by
  unfold decideConfirm; repeat' split
  all_goals rfl

@[simp] theorem decideConfirm_arbiter (f : RxFrame 5) :
    (decideConfirm f s).arbiter = s.arbiter := by
  unfold decideConfirm; repeat' split
  all_goals rfl

@[simp] theorem decideConfirm_clock (f : RxFrame 5) :
    (decideConfirm f s).clock = s.clock := by
  unfold decideConfirm; repeat' split
  all_goals rfl

@[simp] theorem decideConfirm_signal (f : RxFrame 5) :
    (decideConfirm f s).signal = s.signal := by
  unfold decideConfirm; repeat' split
  all_goals rfl

@[simp] theorem decideConfirm_port (f : RxFrame 5) :
    (decideConfirm f s).port = s.port := by
  unfold decideConfirm; repeat' split
  all_goals rfl

@[simp] theorem decideConfirm_pending (f : RxFrame 5) :
    (decideConfirm f s).pending = s.pending := by
  unfold decideConfirm; repeat' split
  all_goals rfl

/-! settleHold -/

@[simp] theorem settleHold_startup (f : RxFrame 5) :
    (settleHold f s).startup = s.startup := by
  unfold settleHold; repeat' split
  all_goals simp

@[simp] theorem settleHold_line (f : RxFrame 5) :
    (settleHold f s).line = s.line := by
  unfold settleHold; repeat' split
  all_goals simp

@[simp] theorem settleHold_frames (f : RxFrame 5) :
    (settleHold f s).frames = s.frames := by
  unfold settleHold; repeat' split
  all_goals simp

@[simp] theorem settleHold_bid (f : RxFrame 5) :
    (settleHold f s).bid = s.bid := by
  unfold settleHold; repeat' split
  all_goals simp

@[simp] theorem settleHold_trucks (f : RxFrame 5) :
    (settleHold f s).trucks = s.trucks := by
  unfold settleHold; repeat' split
  all_goals simp

@[simp] theorem settleHold_arbiter (f : RxFrame 5) :
    (settleHold f s).arbiter = s.arbiter := by
  unfold settleHold; repeat' split
  all_goals simp

@[simp] theorem settleHold_clock (f : RxFrame 5) :
    (settleHold f s).clock = s.clock := by
  unfold settleHold; repeat' split
  all_goals simp

@[simp] theorem settleHold_port (f : RxFrame 5) :
    (settleHold f s).port = s.port := by
  unfold settleHold; repeat' split
  all_goals simp

@[simp] theorem settleHold_pending (f : RxFrame 5) :
    (settleHold f s).pending = s.pending := by
  unfold settleHold; repeat' split
  all_goals simp

/-! followHalt -/

@[simp] theorem followHalt_startup (b : Bool) :
    (followHalt b s).startup = s.startup := by
  unfold followHalt; repeat' split
  all_goals simp

@[simp] theorem followHalt_frames (b : Bool) :
    (followHalt b s).frames = s.frames := by
  unfold followHalt; repeat' split
  all_goals simp

@[simp] theorem followHalt_stock (b : Bool) :
    (followHalt b s).stock = s.stock := by
  unfold followHalt; repeat' split
  all_goals simp

@[simp] theorem followHalt_bid (b : Bool) :
    (followHalt b s).bid = s.bid := by
  unfold followHalt; repeat' split
  all_goals simp

@[simp] theorem followHalt_hold (b : Bool) :
    (followHalt b s).hold = s.hold := by
  unfold followHalt; repeat' split
  all_goals simp

@[simp] theorem followHalt_picks (b : Bool) :
    (followHalt b s).picks = s.picks := by
  unfold followHalt; repeat' split
  all_goals simp

@[simp] theorem followHalt_trucks (b : Bool) :
    (followHalt b s).trucks = s.trucks := by
  unfold followHalt; repeat' split
  all_goals simp

@[simp] theorem followHalt_clock (b : Bool) :
    (followHalt b s).clock = s.clock := by
  unfold followHalt; repeat' split
  all_goals simp

@[simp] theorem followHalt_port (b : Bool) :
    (followHalt b s).port = s.port := by
  unfold followHalt; repeat' split
  all_goals simp

@[simp] theorem followHalt_pending (b : Bool) :
    (followHalt b s).pending = s.pending := by
  unfold followHalt; repeat' split
  all_goals simp

/-! endRecovery -/

@[simp] theorem endRecovery_startup :
    (endRecovery s).startup = s.startup := by
  simp [endRecovery]

@[simp] theorem endRecovery_frames :
    (endRecovery s).frames = s.frames := by
  simp [endRecovery]

@[simp] theorem endRecovery_stock :
    (endRecovery s).stock = s.stock := by
  simp [endRecovery]

@[simp] theorem endRecovery_bid :
    (endRecovery s).bid = s.bid := by
  simp [endRecovery]

@[simp] theorem endRecovery_hold :
    (endRecovery s).hold = s.hold := by
  simp [endRecovery]

@[simp] theorem endRecovery_picks :
    (endRecovery s).picks = s.picks := by
  simp [endRecovery]

@[simp] theorem endRecovery_trucks :
    (endRecovery s).trucks = s.trucks := by
  simp [endRecovery]

@[simp] theorem endRecovery_arbiter :
    (endRecovery s).arbiter = s.arbiter := by
  simp [endRecovery]

@[simp] theorem endRecovery_clock :
    (endRecovery s).clock = s.clock := by
  simp [endRecovery]

@[simp] theorem endRecovery_port :
    (endRecovery s).port = s.port := by
  simp [endRecovery]

@[simp] theorem endRecovery_pending :
    (endRecovery s).pending = s.pending := by
  simp [endRecovery]

/-! enterConfigFault -/

@[simp] theorem enterConfigFault_line :
    (enterConfigFault s).line = s.line := by
  simp [enterConfigFault]

@[simp] theorem enterConfigFault_frames :
    (enterConfigFault s).frames = s.frames := by
  simp [enterConfigFault]

@[simp] theorem enterConfigFault_stock :
    (enterConfigFault s).stock = s.stock := by
  simp [enterConfigFault]

@[simp] theorem enterConfigFault_bid :
    (enterConfigFault s).bid = s.bid := by
  simp [enterConfigFault]

@[simp] theorem enterConfigFault_hold :
    (enterConfigFault s).hold = s.hold := by
  simp [enterConfigFault]

@[simp] theorem enterConfigFault_picks :
    (enterConfigFault s).picks = s.picks := by
  simp [enterConfigFault]

@[simp] theorem enterConfigFault_trucks :
    (enterConfigFault s).trucks = s.trucks := by
  simp [enterConfigFault]

@[simp] theorem enterConfigFault_arbiter :
    (enterConfigFault s).arbiter = s.arbiter := by
  simp [enterConfigFault]

@[simp] theorem enterConfigFault_clock :
    (enterConfigFault s).clock = s.clock := by
  simp [enterConfigFault]

@[simp] theorem enterConfigFault_port :
    (enterConfigFault s).port = s.port := by
  simp [enterConfigFault]

@[simp] theorem enterConfigFault_pending :
    (enterConfigFault s).pending = s.pending := by
  simp [enterConfigFault]

/-! enterListen -/

@[simp] theorem enterListen_frames (c : Settings) (l : BitVec 8) :
    (enterListen c l s).frames = s.frames := by
  simp [enterListen]

@[simp] theorem enterListen_stock (c : Settings) (l : BitVec 8) :
    (enterListen c l s).stock = s.stock := by
  simp [enterListen]

@[simp] theorem enterListen_bid (c : Settings) (l : BitVec 8) :
    (enterListen c l s).bid = s.bid := by
  simp [enterListen]

@[simp] theorem enterListen_hold (c : Settings) (l : BitVec 8) :
    (enterListen c l s).hold = s.hold := by
  simp [enterListen]

@[simp] theorem enterListen_picks (c : Settings) (l : BitVec 8) :
    (enterListen c l s).picks = s.picks := by
  simp [enterListen]

@[simp] theorem enterListen_trucks (c : Settings) (l : BitVec 8) :
    (enterListen c l s).trucks = s.trucks := by
  simp [enterListen]

@[simp] theorem enterListen_arbiter (c : Settings) (l : BitVec 8) :
    (enterListen c l s).arbiter = s.arbiter := by
  simp [enterListen]

@[simp] theorem enterListen_clock (c : Settings) (l : BitVec 8) :
    (enterListen c l s).clock = s.clock := by
  simp [enterListen]

@[simp] theorem enterListen_port (c : Settings) (l : BitVec 8) :
    (enterListen c l s).port = s.port := by
  simp [enterListen]

@[simp] theorem enterListen_pending (c : Settings) (l : BitVec 8) :
    (enterListen c l s).pending = s.pending := by
  simp [enterListen]

/-! completeMessage -/

@[simp] theorem completeMessage_startup (m : List Byte) :
    (completeMessage m s).startup = s.startup := by
  unfold completeMessage; dsimp only; split <;> simp

@[simp] theorem completeMessage_line (m : List Byte) :
    (completeMessage m s).line = s.line := by
  unfold completeMessage; dsimp only; split <;> simp

@[simp] theorem completeMessage_frames (m : List Byte) :
    (completeMessage m s).frames = s.frames := by
  unfold completeMessage; dsimp only; split <;> simp

@[simp] theorem completeMessage_stock (m : List Byte) :
    (completeMessage m s).stock = s.stock := by
  unfold completeMessage; dsimp only; split <;> simp

@[simp] theorem completeMessage_bid (m : List Byte) :
    (completeMessage m s).bid = s.bid := by
  unfold completeMessage; dsimp only; split <;> simp

@[simp] theorem completeMessage_hold (m : List Byte) :
    (completeMessage m s).hold = s.hold := by
  unfold completeMessage; dsimp only; split <;> simp

@[simp] theorem completeMessage_picks (m : List Byte) :
    (completeMessage m s).picks = s.picks := by
  unfold completeMessage; dsimp only; split <;> simp

@[simp] theorem completeMessage_trucks (m : List Byte) :
    (completeMessage m s).trucks = s.trucks := by
  unfold completeMessage; dsimp only; split <;> simp

@[simp] theorem completeMessage_arbiter (m : List Byte) :
    (completeMessage m s).arbiter = s.arbiter := by
  unfold completeMessage; dsimp only; split <;> simp

@[simp] theorem completeMessage_clock (m : List Byte) :
    (completeMessage m s).clock = s.clock := by
  unfold completeMessage; dsimp only; split <;> simp

@[simp] theorem completeMessage_signal (m : List Byte) :
    (completeMessage m s).signal = s.signal := by
  unfold completeMessage; dsimp only; split <;> simp

@[simp] theorem completeMessage_pending (m : List Byte) :
    (completeMessage m s).pending = s.pending := by
  unfold completeMessage; dsimp only; split <;> simp

/-! assemble -/

@[simp] theorem assemble_startup (m : List Byte) :
    (assemble m s).startup = s.startup := by
  unfold assemble; split <;> simp

@[simp] theorem assemble_line (m : List Byte) :
    (assemble m s).line = s.line := by
  unfold assemble; split <;> simp

@[simp] theorem assemble_frames (m : List Byte) :
    (assemble m s).frames = s.frames := by
  unfold assemble; split <;> simp

@[simp] theorem assemble_stock (m : List Byte) :
    (assemble m s).stock = s.stock := by
  unfold assemble; split <;> simp

@[simp] theorem assemble_bid (m : List Byte) :
    (assemble m s).bid = s.bid := by
  unfold assemble; split <;> simp

@[simp] theorem assemble_hold (m : List Byte) :
    (assemble m s).hold = s.hold := by
  unfold assemble; split <;> simp

@[simp] theorem assemble_picks (m : List Byte) :
    (assemble m s).picks = s.picks := by
  unfold assemble; split <;> simp

@[simp] theorem assemble_trucks (m : List Byte) :
    (assemble m s).trucks = s.trucks := by
  unfold assemble; split <;> simp

@[simp] theorem assemble_arbiter (m : List Byte) :
    (assemble m s).arbiter = s.arbiter := by
  unfold assemble; split <;> simp

@[simp] theorem assemble_clock (m : List Byte) :
    (assemble m s).clock = s.clock := by
  unfold assemble; split <;> simp

@[simp] theorem assemble_signal (m : List Byte) :
    (assemble m s).signal = s.signal := by
  unfold assemble; split <;> simp

@[simp] theorem assemble_pending (m : List Byte) :
    (assemble m s).pending = s.pending := by
  unfold assemble; split <;> simp

/-! takeCharacter -/

@[simp] theorem takeCharacter_startup (c : TermChar) :
    (takeCharacter c s).startup = s.startup := by
  unfold takeCharacter; repeat' split
  all_goals simp

@[simp] theorem takeCharacter_line (c : TermChar) :
    (takeCharacter c s).line = s.line := by
  unfold takeCharacter; repeat' split
  all_goals simp

@[simp] theorem takeCharacter_frames (c : TermChar) :
    (takeCharacter c s).frames = s.frames := by
  unfold takeCharacter; repeat' split
  all_goals simp

@[simp] theorem takeCharacter_stock (c : TermChar) :
    (takeCharacter c s).stock = s.stock := by
  unfold takeCharacter; repeat' split
  all_goals simp

@[simp] theorem takeCharacter_bid (c : TermChar) :
    (takeCharacter c s).bid = s.bid := by
  unfold takeCharacter; repeat' split
  all_goals simp

@[simp] theorem takeCharacter_hold (c : TermChar) :
    (takeCharacter c s).hold = s.hold := by
  unfold takeCharacter; repeat' split
  all_goals simp

@[simp] theorem takeCharacter_picks (c : TermChar) :
    (takeCharacter c s).picks = s.picks := by
  unfold takeCharacter; repeat' split
  all_goals simp

@[simp] theorem takeCharacter_trucks (c : TermChar) :
    (takeCharacter c s).trucks = s.trucks := by
  unfold takeCharacter; repeat' split
  all_goals simp

@[simp] theorem takeCharacter_arbiter (c : TermChar) :
    (takeCharacter c s).arbiter = s.arbiter := by
  unfold takeCharacter; repeat' split
  all_goals simp

@[simp] theorem takeCharacter_clock (c : TermChar) :
    (takeCharacter c s).clock = s.clock := by
  unfold takeCharacter; repeat' split
  all_goals simp

@[simp] theorem takeCharacter_signal (c : TermChar) :
    (takeCharacter c s).signal = s.signal := by
  unfold takeCharacter; repeat' split
  all_goals simp

@[simp] theorem takeCharacter_pending (c : TermChar) :
    (takeCharacter c s).pending = s.pending := by
  unfold takeCharacter; repeat' split
  all_goals simp

/-! deliver -/

theorem takeCharacters_startup (cs : List TermChar) :
    (cs.foldl (fun t c => takeCharacter c t) s).startup = s.startup := by
  induction cs generalizing s with
  | nil => rfl
  | cons a rest ih => simp [ih]

theorem takeCharacters_line (cs : List TermChar) :
    (cs.foldl (fun t c => takeCharacter c t) s).line = s.line := by
  induction cs generalizing s with
  | nil => rfl
  | cons a rest ih => simp [ih]

theorem takeCharacters_frames (cs : List TermChar) :
    (cs.foldl (fun t c => takeCharacter c t) s).frames = s.frames := by
  induction cs generalizing s with
  | nil => rfl
  | cons a rest ih => simp [ih]

theorem takeCharacters_stock (cs : List TermChar) :
    (cs.foldl (fun t c => takeCharacter c t) s).stock = s.stock := by
  induction cs generalizing s with
  | nil => rfl
  | cons a rest ih => simp [ih]

theorem takeCharacters_bid (cs : List TermChar) :
    (cs.foldl (fun t c => takeCharacter c t) s).bid = s.bid := by
  induction cs generalizing s with
  | nil => rfl
  | cons a rest ih => simp [ih]

theorem takeCharacters_hold (cs : List TermChar) :
    (cs.foldl (fun t c => takeCharacter c t) s).hold = s.hold := by
  induction cs generalizing s with
  | nil => rfl
  | cons a rest ih => simp [ih]

theorem takeCharacters_picks (cs : List TermChar) :
    (cs.foldl (fun t c => takeCharacter c t) s).picks = s.picks := by
  induction cs generalizing s with
  | nil => rfl
  | cons a rest ih => simp [ih]

theorem takeCharacters_trucks (cs : List TermChar) :
    (cs.foldl (fun t c => takeCharacter c t) s).trucks = s.trucks := by
  induction cs generalizing s with
  | nil => rfl
  | cons a rest ih => simp [ih]

theorem takeCharacters_arbiter (cs : List TermChar) :
    (cs.foldl (fun t c => takeCharacter c t) s).arbiter = s.arbiter := by
  induction cs generalizing s with
  | nil => rfl
  | cons a rest ih => simp [ih]

theorem takeCharacters_clock (cs : List TermChar) :
    (cs.foldl (fun t c => takeCharacter c t) s).clock = s.clock := by
  induction cs generalizing s with
  | nil => rfl
  | cons a rest ih => simp [ih]

theorem takeCharacters_signal (cs : List TermChar) :
    (cs.foldl (fun t c => takeCharacter c t) s).signal = s.signal := by
  induction cs generalizing s with
  | nil => rfl
  | cons a rest ih => simp [ih]

theorem takeCharacters_pending (cs : List TermChar) :
    (cs.foldl (fun t c => takeCharacter c t) s).pending = s.pending := by
  induction cs generalizing s with
  | nil => rfl
  | cons a rest ih => simp [ih]

@[simp] theorem deliver_startup (m : List Byte) :
    (deliver m s).startup = s.startup := by
  simp [deliver, takeCharacters_startup, apply_ite]

@[simp] theorem deliver_line (m : List Byte) :
    (deliver m s).line = s.line := by
  simp [deliver, takeCharacters_line, apply_ite]

@[simp] theorem deliver_frames (m : List Byte) :
    (deliver m s).frames = s.frames := by
  simp [deliver, takeCharacters_frames, apply_ite]

@[simp] theorem deliver_stock (m : List Byte) :
    (deliver m s).stock = s.stock := by
  simp [deliver, takeCharacters_stock, apply_ite]

@[simp] theorem deliver_bid (m : List Byte) :
    (deliver m s).bid = s.bid := by
  simp [deliver, takeCharacters_bid, apply_ite]

@[simp] theorem deliver_hold (m : List Byte) :
    (deliver m s).hold = s.hold := by
  simp [deliver, takeCharacters_hold, apply_ite]

@[simp] theorem deliver_picks (m : List Byte) :
    (deliver m s).picks = s.picks := by
  simp [deliver, takeCharacters_picks, apply_ite]

@[simp] theorem deliver_trucks (m : List Byte) :
    (deliver m s).trucks = s.trucks := by
  simp [deliver, takeCharacters_trucks, apply_ite]

@[simp] theorem deliver_arbiter (m : List Byte) :
    (deliver m s).arbiter = s.arbiter := by
  simp [deliver, takeCharacters_arbiter, apply_ite]

@[simp] theorem deliver_clock (m : List Byte) :
    (deliver m s).clock = s.clock := by
  simp [deliver, takeCharacters_clock, apply_ite]

@[simp] theorem deliver_signal (m : List Byte) :
    (deliver m s).signal = s.signal := by
  simp [deliver, takeCharacters_signal, apply_ite]

@[simp] theorem deliver_pending (m : List Byte) :
    (deliver m s).pending = s.pending := by
  simp [deliver, takeCharacters_pending, apply_ite]

/-! arriveMessage -/

@[simp] theorem arriveMessage_startup (m : List Byte) :
    (arriveMessage m s).startup = s.startup := by
  unfold arriveMessage; split <;> simp

@[simp] theorem arriveMessage_line (m : List Byte) :
    (arriveMessage m s).line = s.line := by
  unfold arriveMessage; split <;> simp

@[simp] theorem arriveMessage_frames (m : List Byte) :
    (arriveMessage m s).frames = s.frames := by
  unfold arriveMessage; split <;> simp

@[simp] theorem arriveMessage_stock (m : List Byte) :
    (arriveMessage m s).stock = s.stock := by
  unfold arriveMessage; split <;> simp

@[simp] theorem arriveMessage_bid (m : List Byte) :
    (arriveMessage m s).bid = s.bid := by
  unfold arriveMessage; split <;> simp

@[simp] theorem arriveMessage_hold (m : List Byte) :
    (arriveMessage m s).hold = s.hold := by
  unfold arriveMessage; split <;> simp

@[simp] theorem arriveMessage_picks (m : List Byte) :
    (arriveMessage m s).picks = s.picks := by
  unfold arriveMessage; split <;> simp

@[simp] theorem arriveMessage_trucks (m : List Byte) :
    (arriveMessage m s).trucks = s.trucks := by
  unfold arriveMessage; split <;> simp

@[simp] theorem arriveMessage_arbiter (m : List Byte) :
    (arriveMessage m s).arbiter = s.arbiter := by
  unfold arriveMessage; split <;> simp

@[simp] theorem arriveMessage_clock (m : List Byte) :
    (arriveMessage m s).clock = s.clock := by
  unfold arriveMessage; split <;> simp

@[simp] theorem arriveMessage_signal (m : List Byte) :
    (arriveMessage m s).signal = s.signal := by
  unfold arriveMessage; split <;> simp

@[simp] theorem arriveMessage_pending (m : List Byte) :
    (arriveMessage m s).pending = s.pending := by
  unfold arriveMessage; split <;> simp

/-! grantWaitPull -/

@[simp] theorem grantWaitPull_startup (tw : Bool) :
    (grantWaitPull tw s).startup = s.startup := by
  cases tw <;> rfl

@[simp] theorem grantWaitPull_stock (tw : Bool) :
    (grantWaitPull tw s).stock = s.stock := by
  cases tw <;> rfl

@[simp] theorem grantWaitPull_bid (tw : Bool) :
    (grantWaitPull tw s).bid = s.bid := by
  cases tw <;> rfl

@[simp] theorem grantWaitPull_hold (tw : Bool) :
    (grantWaitPull tw s).hold = s.hold := by
  cases tw <;> rfl

@[simp] theorem grantWaitPull_picks (tw : Bool) :
    (grantWaitPull tw s).picks = s.picks := by
  cases tw <;> rfl

@[simp] theorem grantWaitPull_trucks (tw : Bool) :
    (grantWaitPull tw s).trucks = s.trucks := by
  cases tw <;> rfl

@[simp] theorem grantWaitPull_arbiter (tw : Bool) :
    (grantWaitPull tw s).arbiter = s.arbiter := by
  cases tw <;> rfl

@[simp] theorem grantWaitPull_clock (tw : Bool) :
    (grantWaitPull tw s).clock = s.clock := by
  cases tw <;> rfl

@[simp] theorem grantWaitPull_signal (tw : Bool) :
    (grantWaitPull tw s).signal = s.signal := by
  cases tw <;> rfl

@[simp] theorem grantWaitPull_port (tw : Bool) :
    (grantWaitPull tw s).port = s.port := by
  cases tw <;> rfl

@[simp] theorem grantWaitPull_pending (tw : Bool) :
    (grantWaitPull tw s).pending = s.pending := by
  cases tw <;> rfl

@[simp] theorem grantWaitPull_line (tw : Bool) :
    (grantWaitPull tw s).line = { s.line with activity := if tw then .stray else .nothing } := by
  cases tw <;> rfl

end Sys2Proof.Machine
end

