-- ==== Sys2Proof/Laws/Spec.lean ====
section
/-! SUPPORT. What the shared operations write: one lemma for each that says everything it does to the
fields it touches. What it leaves alone stands in Laws/Frames.lean. -/

namespace Sys2Proof.Machine

/-! ### Vectors, stacks and packs -/

theorem vmap_toList {α β : Type} {n : Nat} (f : α → β) (v : Vector α n) :
    (vmap f v).toList = v.toList.map f := by simp [vmap]

theorem vmapIdx_toList {α β : Type} {n : Nat} (f : Nat → α → β) (v : Vector α n) :
    (vmapIdx f v).toList = v.toList.mapIdx f := by simp [vmapIdx]

theorem vmapIdx_getElem {α β : Type} {n : Nat} (f : Nat → α → β) (v : Vector α n) (i : Nat)
    (h : i < n) : (vmapIdx f v)[i] = f i v[i] := by
  simp [vmapIdx]

theorem vmap_getElem {α β : Type} {n : Nat} (f : α → β) (v : Vector α n) (i : Nat) (h : i < n) :
    (vmap f v)[i] = f v[i] := by
  simp [vmap]

theorem stackAt_eq_getElem (stock : Stock) (n : Nat) (h : n < 16) : stackAt stock n = stock[n] := by
  simp [stackAt, h]

theorem stackAt_beyond (stock : Stock) (n : Nat) (h : 16 ≤ n) : stackAt stock n = [] := by
  simp [stackAt, h]

theorem stackAt_setStack (stock : Stock) (n m : Nat) (packs : List Pack) :
    stackAt (setStack stock n packs) m = if m = n ∧ n < 16 then packs else stackAt stock m := by
  by_cases hm : m < 16
  · rw [stackAt_eq_getElem _ _ hm, stackAt_eq_getElem _ _ hm, setStack,
      Vector.getElem_setIfInBounds]
    by_cases h : n = m
    · subst h; simp [hm]
    · simp [h, Ne.symm h]
  · have h16 : 16 ≤ m := by omega
    rw [stackAt_beyond _ _ h16, stackAt_beyond _ _ h16]
    split
    · omega
    · rfl

/-- R46: a record joins the top of its stack and no other stack changes. -/
theorem stackAt_pushPack (stock : Stock) (n m : Nat) (p : Pack) (h : n < 16) :
    stackAt (pushPack n p stock) m = if m = n then stackAt stock n ++ [p] else stackAt stock m := by
  simp [pushPack, stackAt_setStack, h]

/-- R46: the record on top leaves its stack and no other stack changes. -/
theorem stackAt_popPack (stock : Stock) (n m : Nat) (h : n < 16) :
    stackAt (popPack n stock) m
      = if m = n then (stackAt stock n).dropLast else stackAt stock m := by
  simp [popPack, stackAt_setStack, h]

theorem stackAt_mapPacks (f : Pack → Pack) (stock : Stock) (n : Nat) :
    stackAt (mapPacks f stock) n = (stackAt stock n).map f := by
  simp only [stackAt, mapPacks, vmap_toList, List.getElem?_map]
  cases stock.toList[n]? <;> simp

theorem allPacks_mapPacks (f : Pack → Pack) (stock : Stock) :
    allPacks (mapPacks f stock) = (allPacks stock).map f := by
  simp [allPacks, mapPacks, vmap_toList, List.map_flatten]

theorem mem_allPacks (stock : Stock) (p : Pack) :
    p ∈ allPacks stock ↔ ∃ n < 16, p ∈ stackAt stock n := by
  simp only [allPacks, List.mem_flatten]
  constructor
  · rintro ⟨l, hl, hp⟩
    obtain ⟨n, hn, rfl⟩ := List.mem_iff_getElem.mp hl
    have h16 : n < 16 := by simpa using hn
    exact ⟨n, h16, by simpa [stackAt, h16] using hp⟩
  · rintro ⟨n, hn, hp⟩
    refine ⟨stackAt stock n, ?_, hp⟩
    simp [stackAt, hn]

/-! ### Characters (R3) -/

theorem dataBits_withParity (b : Byte) : dataBits (withParity b) = b := by
  revert b; decide

theorem charFlaw_withParity (b : Byte) : charFlaw (withParity b) = false := by
  revert b; decide

@[simp] theorem sentCharacters_length (l : List Byte) : (sentCharacters l).length = l.length := by
  simp [sentCharacters]

theorem sentCharacters_append (l m : List Byte) :
    sentCharacters (l ++ m) = sentCharacters l ++ sentCharacters m := by
  simp [sentCharacters]

/-- R3: what a station sends reads back character by character. -/
theorem sentCharacters_dataBits (l : List Byte) : (sentCharacters l).map dataBits = l := by
  induction l with
  | nil => rfl
  | cons b l ih => simpa [sentCharacters, dataBits_withParity] using ih

/-- R3: no character a station sends has a flaw. -/
theorem sentCharacters_charFlaw (l : List Byte) : ∀ c ∈ sentCharacters l, charFlaw c = false := by
  simp [sentCharacters, charFlaw_withParity]

/-! ### Terminal characters on a wire (R151, R156) -/

@[simp] theorem wireBits_length (parity : Bool) (c : TermChar) :
    (wireBits parity c).length = if parity then 12 else 11 := by
  cases parity <;> rfl

/-- R151: a byte is read back from its bits, least significant first. -/
theorem byteOfBits_bits (b : Byte) :
    byteOfBits [b.getLsbD 0, b.getLsbD 1, b.getLsbD 2, b.getLsbD 3, b.getLsbD 4, b.getLsbD 5, b.getLsbD 6,
      b.getLsbD 7] = b := by
  revert b; decide

/-- R151: the receiver reads a character off its levels as it was sampled; without parity configured its
parity bit is not on the wire. -/
theorem charOfWire_wireBits (parity : Bool) (c : TermChar) :
    charOfWire parity (wireBits parity c)
      = some { c with parity := if parity then c.parity else terminalParityBit c.data c.mark } := by
  have h := byteOfBits_bits c.data
  cases parity <;>
    simp only [wireBits, charOfWire, List.range, List.range.loop, List.map_cons, List.map_nil,
      List.cons_append, List.nil_append, Bool.false_eq_true, ↓reduceIte, h]

/-- R151, R156: what a sender sends has even parity and a high stop bit, and so no flaw. -/
theorem terminalCharacters_flaw (parity : Bool) (m : List Byte) :
    ∀ c ∈ terminalCharacters m, terminalFlaw parity c = false := by
  cases m <;> simp [terminalCharacters, sentTermChar, terminalFlaw]

@[simp] theorem terminalCharacters_length (m : List Byte) : (terminalCharacters m).length = m.length := by
  cases m <;> simp [terminalCharacters]

/-- R151: a message's length on the wire. -/
theorem messageBits_length (parity : Bool) (m : List Byte) :
    (messageBits parity m).length = (if parity then 12 else 11) * m.length := by
  simp [messageBits, List.length_flatMap, Nat.mul_comm]

/-- R151, R161: the send wire is high in CONFIG. -/
theorem sendLevel_config (n : Nat) (s : State) (h : s.startup.station = .config) :
    sendLevel n s = true := by
  simp [sendLevel, sendBits, portRuns, h]

/-- R156: the send wire is high with nothing to send. -/
theorem sendLevel_empty (n : Nat) (s : State) (h : s.port.transmit = []) : sendLevel n s = true := by
  simp [sendLevel, sendBits, h]

/-! ### The line (R10, R18) -/

theorem beginsToObserve_iff (s : State) : beginsToObserve s = true ↔ BeginsToObserve s := by
  simp only [beginsToObserve, BeginsToObserve, Bool.and_eq_true, Bool.or_eq_true, beq_iff_eq, and_assoc]
  refine and_congr_right fun _ => and_congr_right fun _ => ⟨?_, ?_⟩
  · rintro ((h | h) | h) <;> exact ⟨_, h⟩
  · rintro ⟨w, h⟩; cases w <;> simp [h]

theorem betweenFrames_iff (s : State) : betweenFrames s = true ↔ BetweenFrames s := by
  simp [betweenFrames, BetweenFrames, and_assoc, or_assoc]

/-- R42: a pull of TW in GRANT WAIT sets the silence count to 0; without it the round is as it was. -/
theorem grantWaitPull_round (tw : Bool) (s : State) :
    (grantWaitPull tw s).frames.round
      = s.frames.round.map fun v => { v with silence := if tw then 0 else v.silence } := by
  cases tw <;> cases h : s.frames.round <;> simp [grantWaitPull, withRound, h]


@[simp] theorem lineFreed_line (dw : Bool) (s : State) (h : s.line.driving = .nothing) :
    (lineFreed dw s).line = freedLine dw s.line := by
  cases dw <;> simp [lineFreed, lineDwPulled, lineQuiet, freedLine, h]

/-- R38, R44: a round that is gone leaves the queue and sets the yield record. -/
theorem dropRound_frames (s : State) (v : RoundView) (h : s.frames.round = some v) :
    (dropRound s).frames = { s.frames with round := none, yieldRecord := v.own } := by
  simp [dropRound, h]

/-- R20, R21: the wish to send never touches the line outside STUCK and RECOVERING. -/
theorem followWant_line (s : State) (h : s.line.condition = .quiet ∨ s.line.condition = .busy) :
    (followWant s).line = s.line := by
  unfold followWant
  rcases h with h | h <;> simp [h]

/-! ### The hold and the pick list (R78 to R97) -/

theorem withPicks_picks (picks : List PickEntry) (s : State) : (withPicks picks s).picks = picks := by
  unfold withPicks; dsimp only; split <;> simp [requestPattern, mapLamps]

theorem endHold_hold (s : State) : (endHold s).hold = none := by
  unfold endHold; split <;> simp [*]

theorem endHold_stock (s : State) : (endHold s).stock = stockWithoutHold s := by
  unfold endHold stockWithoutHold; split <;> simp_all

theorem receiveHold_hold (s : State) (h : Hold) (hs : s.hold = some h) :
    (receiveHold s).hold = some { h with phase := .receiving, grantWait := none } := by
  simp [receiveHold, hs]

/-- R83, R84: a confirmed settlement, in the stock and the list. -/
theorem settleConfirmed_spec (h : Hold) (count : Nat) (s : State) :
    (settleConfirmed h count s).hold = none
      ∧ (settleConfirmed h count s).stock
          = settlePacks h.packs (h.packs.take count) h.order s.stock
      ∧ (settleConfirmed h count s).picks
          = s.picks ++ newEntries (h.packs.take count) h.order s.clock.minute s.stock := by
  unfold settleConfirmed
  dsimp only
  split
  · simp [withPicks_picks, requestHorn, apply_ite]
  · simp [withPicks_picks]

/-- R90, R91: the named entries leave and their packs are released. -/
theorem releaseEntries_spec (which : PickEntry → Bool) (s : State) :
    (releaseEntries which s).picks = s.picks.filter (fun e => !which e)
      ∧ (releaseEntries which s).stock
          = releasePacks ((s.picks.filter which).map fun e => e.tag) s.stock := by
  simp [releaseEntries, withPicks_picks]

/-! ### The clock (R130 to R137) -/

theorem jumpForward_clock (delta : Nat) (s : State) :
    (jumpForward delta s).clock
      = { s.clock with minute := s.clock.minute + BitVec.ofNat 16 delta, second := 0, fraction := 0 } := by
  unfold jumpForward; dsimp only; split <;> simp [setMinute]

theorem becomeSet_clock (m : Minute) (s : State) :
    (becomeSet m s).clock = { minute := m, second := 0, fraction := 0, isSet := true } := by
  unfold becomeSet; dsimp only; split <;> simp [setMinute, rewriteGrantMinutes]

/-- R130: an accepted header never unsets the clock. -/
theorem hearMinute_isSet (m : Minute) (b : Bool) (s : State) (h : s.clock.isSet = true) :
    (hearMinute m b s).clock.isSet = true := by
  unfold hearMinute
  dsimp only
  repeat' split
  all_goals simp_all [jumpForward_clock]

/-! ### The arbiter and the truck table (R115 to R121) -/

theorem callChoice_congr (s t : State) (hst : t.startup = s.startup)
    (hsig : t.signal.inputs = s.signal.inputs) (htr : t.trucks = s.trucks) : callChoice t = callChoice s := by
  unfold callChoice inService isGate haltAsserted inputAsserted
  rw [hst, hsig, htr]

/-- R120, R121: the arbiter after a choice. -/
theorem rechoose_arbiter (s : State) :
    (rechoose s).arbiter = (match s.arbiter with
      | .idle => arbiterOf (callChoice s)
      | .waiting _ => arbiterOf (callChoice s)
      | .calling r => .calling r
      | .granting r w k c => .granting r w k c) := by
  unfold rechoose
  split <;> simp_all

theorem gateChanged_trucks (trucks : List Truck) (s : State) : (gateChanged trucks s).trucks = trucks := by
  simp [gateChanged]

/-! ### The bid window and the horn's timer (R16, R74, R148) -/

/-- A bit that is sent advances the row's place and tells whether it was lost. -/
theorem sendBit_sends (dw : Bool) (word : BidWord) (r : BidRecord) (hl : r.lost = false) (hs : r.sent < 27) :
    sendBit dw word r
      = { r with sent := r.sent + 1, lost := dw && word.getLsbD (26 - r.sent) } := by
  have h : ¬ 27 ≤ r.sent := by omega
  simp [sendBit, hl, h, Config.wordBits]

/-- After a loss, and after 27 bits, no more are sent. -/
theorem sendBit_over (dw : Bool) (word : BidWord) (r : BidRecord) (h : r.lost = true ∨ 27 ≤ r.sent) :
    sendBit dw word r = r := by
  simp [sendBit, Config.wordBits, h]

/-- A pulse keeps the row's place in its word and its loss in order. -/
theorem sendBit_sound (dw : Bool) (word : BidWord) (r : BidRecord) (res : BidResult)
    (h : bidProgressSound (.bidding r res)) : bidProgressSound (.bidding (sendBit dw word r) res) := by
  by_cases hd : r.lost = true ∨ 27 ≤ r.sent
  · rw [sendBit_over dw word r hd]; exact h
  · have hl : r.lost = false := by simpa using fun hx => hd (.inl hx)
    rw [sendBit_sends dw word r hl (by omega)]
    exact ⟨by simp only; omega, fun _ => by simp only; omega⟩

theorem runDown_none (elapsed : Nat) : runDown elapsed none = none := rfl

/-- A timer has run out exactly when no more than the time passed was left. -/
theorem runDown_some (elapsed left : Nat) :
    runDown elapsed (some left) = if left ≤ elapsed then none else some (left - elapsed) := rfl

/-! ### Messages (R154, R155) -/

/-- A row in SERVICE hands a loader's message to its owner. -/
theorem processMessage_row (m : List Byte) (code : Byte) (owner : State → State) (s : State)
    (h : RowTakes m s) (hc : code ∈ [0x21, 0x22, 0x23, 0x24, 0x25, 0x26, 0x27, (0x40 : Byte)]) :
    processMessage m code owner s = owner (clearWaiting s) := by
  obtain ⟨hs, -, hr, hb, hw, ht⟩ := h
  have hp : canProcess s = true := by
    simp [canProcess, portRuns, deferring, hs, hr, hb, Config.transmitLimit, ht]
  have hn : portRefusal code s = none := by
    simp only [List.mem_cons, List.not_mem_nil, or_false] at hc
    rcases hc with rfl | rfl | rfl | rfl | rfl | rfl | rfl | rfl <;>
      simp [portRefusal, codeKnown, knownCodes, wrongRole, hs, hr]
  simp [processMessage, arriveMessage, hw, hp, hn]

/-- A gate in SERVICE hands a clerk's message to its owner. -/
theorem processMessage_gate (m : List Byte) (code : Byte) (owner : State → State) (s : State)
    (h : GateTakes m s) (hc : code ∈ [0x31, 0x32, 0x33, 0x34, (0x40 : Byte)]) :
    processMessage m code owner s = owner (clearWaiting s) := by
  obtain ⟨hs, -, hr, ha, hw, ht⟩ := h
  have hd : deferring s = false := by
    rcases ha with ha | ⟨r, ha⟩ <;> simp [deferring, hr, ha]
  have hp : canProcess s = true := by
    simp [canProcess, portRuns, hd, hs, Config.transmitLimit, ht]
  have hn : portRefusal code s = none := by
    simp only [List.mem_cons, List.not_mem_nil, or_false] at hc
    rcases hc with rfl | rfl | rfl | rfl | rfl <;>
      simp [portRefusal, codeKnown, knownCodes, wrongRole, hs, hr]
  simp [processMessage, arriveMessage, hw, hp, hn]

/-- A row in SERVICE or DUPLICATE hands LIST STACK, LIST PICKS and STATUS to their owners. -/
theorem processMessage_rowList (m : List Byte) (code : Byte) (owner : State → State) (s : State)
    (h : RowAnswers m s) (hc : code ∈ [0x26, 0x27, (0x40 : Byte)]) :
    processMessage m code owner s = owner (clearWaiting s) := by
  obtain ⟨hs, hr, hb, hw, ht⟩ := h
  have hp : canProcess s = true := by
    rcases hs with hs | hs <;> simp [canProcess, portRuns, deferring, hs, hr, hb, Config.transmitLimit, ht]
  have hn : portRefusal code s = none := by
    simp only [List.mem_cons, List.not_mem_nil, or_false] at hc
    rcases hs with hs | hs <;> rcases hc with rfl | rfl | rfl <;>
      simp [portRefusal, codeKnown, knownCodes, wrongRole, hs, hr]
  simp [processMessage, arriveMessage, hw, hp, hn]

/-- A gate in SERVICE or DUPLICATE hands LIST TRUCK and STATUS to their owners. -/
theorem processMessage_gateList (m : List Byte) (code : Byte) (owner : State → State) (s : State)
    (h : GateAnswers m s) (hc : code ∈ [0x34, (0x40 : Byte)]) :
    processMessage m code owner s = owner (clearWaiting s) := by
  obtain ⟨hs, hr, ha, hw, ht⟩ := h
  have hd : deferring s = false := by
    rcases ha with ha | ⟨r, ha⟩ <;> simp [deferring, hr, ha]
  have hp : canProcess s = true := by
    rcases hs with hs | hs <;> simp [canProcess, portRuns, hd, hs, Config.transmitLimit, ht]
  have hn : portRefusal code s = none := by
    simp only [List.mem_cons, List.not_mem_nil, or_false] at hc
    rcases hs with hs | hs <;> rcases hc with rfl | rfl <;>
      simp [portRefusal, codeKnown, knownCodes, wrongRole, hs, hr]
  simp [processMessage, arriveMessage, hw, hp, hn]

/-- A reply to a message taken from the waiting buffer, and nothing else. -/
theorem reply_clearWaiting (code : Byte) (result : ResultCode) (data : List Byte) (s : State) :
    reply code result data (clearWaiting s) = answered (replyMessage code result data) s := rfl

/-! ### Heard frames (R22, R23) -/

theorem frameAccepted_congr {n : Nat} (f : RxFrame n) (s t : State)
    (h : t.startup.station = s.startup.station) : frameAccepted f t = frameAccepted f s := by
  simp [frameAccepted, flawSlotReads, pullsFlawSlot, inService, h]

theorem hearHeader_eq_heard {n : Nat} (f : RxFrame n) (s : State) : hearHeader f s = heard f s := rfl

@[simp] theorem heard_line {n : Nat} (f : RxFrame n) (s : State) : (heard f s).line = s.line := by
  unfold heard; split <;> simp

@[simp] theorem heard_frames {n : Nat} (f : RxFrame n) (s : State) : (heard f s).frames = s.frames := by
  unfold heard; split <;> simp

/-- The Yard Clock neither reads nor writes the line. -/
theorem hearMinute_withLine (m : Minute) (b : Bool) (line : LineInterface) (s : State) :
    hearMinute m b { s with line := line } = { hearMinute m b s with line := line } := by
  have hp : ∀ (picks : List PickEntry) (t : State),
      withPicks picks { t with line := line } = { withPicks picks t with line := line } := by
    intro picks t; unfold withPicks; dsimp only; split <;> rfl
  have hs : ∀ t : State, sweep { t with line := line } = { sweep t with line := line } := by
    intro t; unfold sweep overdueSweep
    cases h : isRow t
    · have h' : isRow { t with line := line } = false := h
      simp only [h', Bool.false_eq_true, if_false]
    · have h' : isRow { t with line := line } = true := h
      simpa only [h', if_true] using hp _ _
  have hh : ∀ t : State, hourStep { t with line := line } = { hourStep t with line := line } := by
    intro t; unfold hourStep
    cases h : isRow t
    · have h' : isRow { t with line := line } = false := h
      simp only [h', Bool.false_eq_true, if_false]
    · have h' : isRow { t with line := line } = true := h
      simp only [h', if_true]; rfl
  have hj : ∀ (delta : Nat) (t : State),
      jumpForward delta { t with line := line } = { jumpForward delta t with line := line } := by
    intro delta t
    have h := hs (setMinute (t.clock.minute + BitVec.ofNat 16 delta) t)
    have h' := (congrArg sweep (hh (setMinute (t.clock.minute + BitVec.ofNat 16 delta) t))).trans
      (hs (hourStep (setMinute (t.clock.minute + BitVec.ofNat 16 delta) t)))
    unfold jumpForward; dsimp only; split
    · exact h'
    · exact h
  have hb : becomeSet m { s with line := line } = { becomeSet m s with line := line } := by
    unfold becomeSet
    cases h : isRow s
    · have h' : isRow { s with line := line } = false := h
      simp only [h', Bool.false_eq_true, if_false]; rfl
    · have h' : isRow { s with line := line } = true := h
      simp only [h', if_true]; rfl
  unfold hearMinute
  dsimp only
  split
  · rfl
  split
  · exact hb
  split
  · rfl
  split
  · exact hj _ _
  · rfl

/-- Outside a round a followed frame that reaches no owner leads to frameOver. -/
theorem endFrame_frameOver {n : Nat} (f : RxFrame n) (s : State) (h : s.frames.round = none) :
    endFrame (hearHeader f (reportHeard f false s)) = frameOver f s := by
  have hc : frameAccepted f (reportHeard f false s) = frameAccepted f s := frameAccepted_congr f _ _ rfl
  have hm := hearMinute_withLine (headerMinute f) (headerSet f) (reportHeard f false s).line s
  have hr : (reportHeard f false s).frames.round = none := h
  cases ha : frameAccepted f s
  · have hh : hearHeader f (reportHeard f false s) = reportHeard f false s := by
      simp [hearHeader, hc, ha]
    rw [hh, endFrame, hr]
    simp [frameOver, heard, ha, reportHeard, report, lineQuiet, drive, freedLine]
  · have hh : hearHeader f (reportHeard f false s)
        = { hearMinute (headerMinute f) (headerSet f) s with line := (reportHeard f false s).line } := by
      simp only [hearHeader, hc, ha, if_true]; exact hm
    have hn : (hearMinute (headerMinute f) (headerSet f) s).frames.round = none := by simpa using h
    rw [hh, endFrame]
    simp only [hn]
    simp [frameOver, heard, ha, reportHeard, report, lineQuiet, drive, freedLine]

/-- Outside a round a notice is heard with no hold of this station in reception. -/
theorem hearNotice_outside {n : Nat} (f : RxFrame n) (valid : Bool) (owners : State → State) (s : State)
    (hs : hearsFrame s = true) (hh : ∀ h, s.hold = some h → h.phase = .waiting) :
    hearNotice f valid owners s =
      if frameAccepted f s && inService s && valid then
        owners (endFrame (hearHeader f (reportHeard f false s)))
      else endFrame (hearHeader f (reportHeard f false s)) := by
  have hr : s.frames.round = none := by
    simp only [hearsFrame, Bool.and_eq_true, Option.isNone_iff_eq_none] at hs
    exact hs.1.2
  have hc : closingStart s = s := by simp [closingStart, hr]
  have ho : closingOtherKind s = s := by
    unfold closingOtherKind
    split
    · rfl
    · rename_i h hh'
      simp [hh h hh']
  simp [hearNotice, canHear, hs, hc, ho]

/-! ### One step -/

/-- The two cases of a step. -/
theorem step_cases (s : State) :
    (s.pending = [] ∧ step s = .next (tick s))
      ∨ ∃ c rest, s.pending = c :: rest ∧ step s = exec c { s with pending := rest } := by
  cases h : s.pending with
  | nil => exact .inl ⟨rfl, by simp [step, h]⟩
  | cons c rest => exact .inr ⟨c, rest, rfl, by simp [step, h]⟩

/-- Every command answers a next state: the block has no fault and no refusal. -/
theorem exec_answers (c : Instr) (s : State) : ∃ t, exec c s = .next t := by
  cases c <;> exact ⟨_, rfl⟩

end Sys2Proof.Machine
end

