-- ==== Sys2Proof/Tests/Slice0.lean ====
section
/-! SUPPORT. The tests: ill-formed commands that the check refuses, small steps against the manual's
worked examples, and for every statement with hypotheses the states and operands that meet them. -/

namespace Sys2Proof.Tests

open Sys2Proof.Machine

/-! ### States the tests start from -/

/-- The state a command leads to. -/
def after (c : Instr) (s : State) : State :=
  match exec c s with
  | .next t => t
  | .fault _ => s
  | .refused _ => s

/-- The field lines of the example row of 9.7, with a CLOSE IN line. -/
def rowLines : Vector FieldLine 8 :=
  #v[⟨.haltIn, false⟩, ⟨.closeIn, true⟩, ⟨.pickLamp, false⟩, ⟨.unused, false⟩, ⟨.lineOk, false⟩,
    ⟨.horn, false⟩, ⟨.unused, false⟩, ⟨.unused, false⟩]

/-- A row's configuration: number 7, four stacks of three tiers, 100 m to every bay but bay 8. -/
def rowSettings : Settings :=
  { resetSettings with
    number := 7, lineSpeed := 1, stretchLimit := 2, stackLimit := 4, tierLimit := 3, ageCap := 96
    pickLimit := 5, distances := #v[10, 10, 14, 10, 10, 10, 10, 63], hornLength := 8
    lines := rowLines, filterCode := 1 }

/-- A gate's configuration: number 40, a lamp for bays 1 and 2. -/
def gateSettings : Settings :=
  { resetSettings with
    role := .gate, number := 40, lineSpeed := 1, stretchLimit := 2
    lines := #v[⟨.haltIn, false⟩, ⟨.bayLamp 1, false⟩, ⟨.bayLamp 2, false⟩, ⟨.unused, false⟩,
      ⟨.unused, false⟩, ⟨.unused, false⟩, ⟨.unused, false⟩, ⟨.unused, false⟩] }

/-- A station in SERVICE with these settings, a set clock at minute 100, and nothing stored. -/
def serving (settings : Settings) : State :=
  { State.reset with
    startup := { State.reset.startup with
      station := .service, resetHeld := false, serial := 5, settings := settings }
    clock := { minute := 100, second := 7, fraction := 0, isSet := true } }

/-- The row. -/
def row : State := serving rowSettings

/-- The gate. -/
def gate : State := serving gateSettings

/-- The state with this line condition and activity. -/
def onLine (condition : LineCondition) (activity : Activity) (s : State) : State :=
  { s with line := { s.line with condition := condition, activity := activity } }

/-- The state with this notice queue. -/
def queued (queue : List Notice) (s : State) : State := withQueue queue s

/-- The state in a round of this owner and phase. -/
def inRound (owner : Nat) (own : Bool) (phase : RoundPhase) (pulsing : Bool) (s : State) : State :=
  withRound (some { newRound owner own with phase := phase, pulsing := pulsing })
    (onLine .busy .nothing s)

/-- The state with this message waiting. -/
def waitingFor (m : List Byte) (s : State) : State := { s with port := { s.port with waiting := some m } }

/-- A pack. -/
def pack (tag family size grade age : Nat) (state : PackState) : Pack :=
  { tag := tag, spec := { family := family, size := size, grade := grade }, age := age, state := state }

/-- A reservation of gate 40. -/
def order : Reservation := { gate := 40, ticket := 1207, line := 2, bay := 3 }

/-- A stock with these packs in stacks 0 and 1. -/
def stock (a b : List Pack) : Stock :=
  #v[a, b, [], [], [], [], [], [], [], [], [], [], [], [], [], []]

/-- The row with packs: FREE under RESERVED in stack 0, QHOLD in stack 1. -/
def stocked : State :=
  { row with
    stock := stock [pack 1 12 5 2 30 .free, pack 2 12 5 2 4 (.reserved order)] [pack 3 12 5 1 0 .qhold]
    picks := [{ tag := 2, stack := 0, order := order, grantMinute := 98, overdue := false }] }

/-- The row with a hold of its two FREE packs. -/
def holding : State :=
  { row with
    stock := stock [pack 1 12 5 2 30 .held, pack 2 12 5 2 4 .held] []
    hold := some (newHold order [2, 1]) }

/-- A line of the example order, with these award records and empty rounds. -/
def orderLine (wanted emptyRounds : Nat) (awards : List Award) : OrderLine :=
  { spec := { family := 12, size := 5, grade := 2 }, upgrade := true, wanted := wanted, closed := 0
    emptyRounds := emptyRounds, awards := awards }

/-- A truck at a bay. -/
def truck (ticket bay : Nat) (lines : List OrderLine) : Truck :=
  { ticket := ticket, bay := bay, arrival := 90, lines := lines }

/-- The gate with the truck of ticket 1207 at bay 3. -/
def loading : State :=
  { gate with
    trucks := [truck 1207 3 [orderLine 4 0 [{ row := 9, granted := 4, taken := 1 }], orderLine 5 2 []]] }

/-- The call of the example truck's second line. -/
def call : CallRecord :=
  { ticket := 1207, bay := 3, line := 2, spec := { family := 12, size := 5, grade := 2 }, upgrade := true
    wanted := 5 }

/-- The characters of a frame of this kind from this station at minute 103 with the clock set, as sent. -/
def characters (kind : FrameKind) (role : Role) (number : Nat) (body : List Byte) : List Sampled :=
  sentCharacters ([kindCode kind, senderCharacter role number, 0, 103, 1] ++ body)

/-! ### Ill-formed commands (WellFormed) -/

theorem test_wellFormed_refuses_a_report_of_too_many_characters :
    (Instr.noticeReport (.abandoned 12)).wellFormed = false := by decide
theorem test_wellFormed_refuses_a_call_report_of_too_many_characters :
    (Instr.callReport (.abandoned 12)).wellFormed = false := by decide
theorem test_wellFormed_refuses_a_lost_grant :
    (Instr.grantReport .lost).wellFormed = false := by decide
theorem test_wellFormed_refuses_a_grant_collision :
    (Instr.grantReport .collision).wellFormed = false := by decide
theorem test_wellFormed_refuses_a_frame_of_another_kind :
    (Instr.hailReceived (cleanFrame 4 (characters .call .gate 40 [0, 0, 0, 5]))).wellFormed = false := by
  decide
theorem test_wellFormed_refuses_a_short_body_of_an_unknown_kind :
    let f := { cleanFrame 4 (characters .hail .gate 40 [0, 0, 0, 5]) with kindChar := withParity 0x06 }
    (Instr.hailReceived f).wellFormed = false
      ∧ (Instr.hailReceived { f with framing := .atFlawSlot }).wellFormed = true := by decide
theorem test_wellFormed_refuses_a_void_with_another_kind :
    (Instr.voidReceived (cleanFrame 2 (characters .arrive .gate 40 [0, 1]))).wellFormed = false := by
  decide
theorem test_wellFormed_refuses_a_taken_with_the_code_of_lapse :
    (Instr.takenReceived (cleanFrame 5 (characters .lapse .row 7 [40, 0, 1, 1, 1]))).wellFormed
      = false := by decide
theorem test_wellFormed_refuses_a_lapse_with_the_code_of_taken :
    (Instr.lapseReceived (cleanFrame 5 (characters .taken .row 7 [40, 0, 1, 1, 1]))).wellFormed
      = false := by decide
theorem test_wellFormed_refuses_an_arrive_with_another_kind :
    (Instr.arriveReceived (cleanFrame 2 (characters .void .row 7 [12, 0x52]))).wellFormed = false := by
  decide
theorem test_wellFormed_refuses_a_call_with_another_kind :
    (Instr.callReceived (cleanFrame 6 (characters .grant .gate 40 [0, 1, 0x11, 1, 0x10, 1])) true).wellFormed
      = false := by decide
theorem test_wellFormed_refuses_a_grant_with_another_kind :
    (Instr.grantReceived (cleanFrame 5 (characters .taken .gate 40 [0, 1, 1, 7, 2]))).wellFormed
      = false := by decide
theorem test_wellFormed_refuses_a_frame_longer_than_any :
    (Instr.unfinishedFrame (List.replicate 12 0) false).wellFormed = false := by decide
theorem test_wellFormed_refuses_a_held_frame_longer_than_any :
    (Instr.heldEntry (List.replicate 12 0)).wellFormed = false := by decide
theorem test_wellFormed_refuses_activity_without_a_pulled_wire :
    (Instr.strayActivity false false).wellFormed = false := by decide
theorem test_wellFormed_refuses_a_good_character_with_its_stop_bit_low :
    (Instr.terminalCharacter { data := 0x40, mark := true, parity := true, stop := false }).wellFormed
      = false := by decide
theorem test_wellFormed_refuses_a_known_code_as_unknown :
    (Instr.unknownMessage 0x40).wellFormed = false := by decide
theorem test_wellFormed_refuses_a_truck_with_fewer_lines_than_it_says :
    (Instr.truckIn 1207 3 2 [⟨12, 5, 2, 1, 5⟩]).wellFormed = false := by decide

/-! ### Commands against the manual's examples -/

/-- 4.9, case 1: a pack under two others, 30 h old, at distance 14. -/
theorem test_packCost_of_P1 :
    packCost { gate := 40, ticket := 1207, line := 2, bay := 3, spec := ⟨12, 5, 2⟩, upgrade := true
               wanted := 5 } 14 96
      { tag := 1, spec := ⟨12, 5, 2⟩, stack := 2, tier := 3, dig := 2, age := 30, state := .free }
      = 368 := by decide
/-- 4.9, case 1: the age credit stops at the cap, and a better grade is charged. -/
theorem test_packCost_of_P3 :
    packCost { gate := 40, ticket := 1207, line := 2, bay := 3, spec := ⟨12, 5, 2⟩, upgrade := true
               wanted := 5 } 14 96
      { tag := 3, spec := ⟨12, 5, 1⟩, stack := 9, tier := 1, dig := 3, age := 120, state := .free }
      = 414 := by decide
/-- 4.9, case 1: row 7's score. -/
theorem test_offerScore_of_row_7 :
    offerScore 5 [⟨2, 2, 5, 266⟩, ⟨4, 9, 4, 270⟩, ⟨1, 2, 3, 368⟩, ⟨3, 9, 1, 414⟩] = 361 := by decide
/-- 4.9, case 1: row 19's word, bit by bit. -/
theorem test_bidWord_of_row_19 : bidWord 246 3 19 = 0b001111011100110001000100111#27 := by decide
/-- 4.9, case 1: row 7's word, bit by bit. -/
theorem test_bidWord_of_row_7 : bidWord 361 4 7 = 0b010110100011000000000001111#27 := by decide
/-- 4.9, case 1: row 7 loses to row 19's word. -/
theorem test_row_7_loses : rowLost (bidWord 361 4 7) (bidWord 246 3 19) = true := by decide

/-- The CALL of the example at gate 40. -/
def callFrame : RxFrame 6 := cleanFrame 6 (characters .call .gate 40 (callBytes call))
/-- A computation over this many records. -/
def record (records : Nat) : BidRecord :=
  { call := callFields callFrame
    view := List.replicate records
      { tag := 1, spec := ⟨12, 5, 2⟩, stack := 0, tier := 1, dig := 0, age := 0, state := .free }
    distance := 14, freeEntries := 24, limit := some 4000 }
/-- The row's result in the example. -/
def result : BidResult :=
  { selection := [⟨2, 2, 5, 266⟩, ⟨4, 9, 4, 270⟩], score := 361, shortfall := 4, word := bidWord 361 4 7 }

/-! ### Small steps -/

/-- R165: the block of a row is accepted; with a stretch limit of 61 it is not. -/
def rowBlock (stretch : Byte) : Vector Byte 32 :=
  #v[0x5A, 0, 7, 1, stretch, 1, 1, 1, 4, 3, 96, 5, 10, 10, 14, 10, 10, 10, 10, 63, 8,
    3, 0x84, 1, 0, 5, 2, 0, 0, 1, 0, 0]

/-- A station whose RESET pin was released, in CONFIG. -/
def reading : State := { State.reset with startup := { State.reset.startup with resetHeld := false } }

theorem test_config_accepts_its_limits :
    blockAccepted (rowBlock 60) = true ∧ blockAccepted (rowBlock 61) = false
      ∧ blockAccepted (rowBlock 0) = false := by decide
theorem test_config_fault_on_a_bad_block :
    (after (.configReadComplete (rowBlock 0) 0) reading).startup.station = .configFault := by decide
/-- 2.6: a TAKEN merges into the waiting entry of count 3. -/
theorem test_taken_merges :
    (takeNotice (.taken ⟨40, 1207, 2⟩ 1)
      (queued [⟨.arrive ⟨12, 5, 2⟩, 0, false⟩, ⟨.taken ⟨40, 1207, 2⟩ 3, 1, false⟩] row)).frames.queue
      = [⟨.arrive ⟨12, 5, 2⟩, 0, false⟩, ⟨.taken ⟨40, 1207, 2⟩ 4, 1, false⟩] := by decide
/-- 2.6: the target at 8 is full, and the notice becomes a new entry. -/
theorem test_taken_meets_a_full_target :
    (takeNotice (.taken ⟨40, 1207, 2⟩ 1) (queued [⟨.taken ⟨40, 1207, 2⟩ 8, 0, false⟩] row)).frames.queue
      = [⟨.taken ⟨40, 1207, 2⟩ 8, 0, false⟩, ⟨.taken ⟨40, 1207, 2⟩ 1, 0, false⟩] := by decide
/-- R36: the third flawed attempt gives the notice up. -/
theorem test_third_flaw_gives_up :
    (countFlaw (queued [⟨.void 9, 2, true⟩, ⟨.void 10, 0, false⟩] gate)).frames.queue
        = [⟨.void 10, 0, false⟩]
      ∧ (countFlaw (queued [⟨.void 9, 2, true⟩] gate)).port.flags.noticeLoss = true := by decide
/-- R4, R11, R20: a start mark seen where the own one was due can turn out to be a STUCK line. -/
theorem test_start_mark_seen_becomes_stuck :
    (after (.frameStart 12 true) (queued [⟨.arrive ⟨12, 5, 2⟩, 0, false⟩] row)).line.activity = .startMark
      ∧ (after .stuckEntry
          (after (.frameStart 12 true) (queued [⟨.arrive ⟨12, 5, 2⟩, 0, false⟩] row))).line.condition
        = .recovering := by decide
/-- R22: a frame cut by HELD is reported discarded. -/
theorem test_frame_cut_by_held_is_discarded :
    ((after (.heldEntry [1, 2]) row).line.report.map fun r => r.outcome) = some .discarded
      ∧ ((after (.heldEntry [] true) row).line.report.map fun r => r.outcome) = some .discarded
      ∧ (after (.heldEntry []) row).line.report = none := by decide
/-- R16, R74, 4.9: row 7's word 0101... meets row 19's word 0011...: the second bit is lost, noted at once,
and nothing is driven from then on. -/
theorem test_a_loss_is_noted_at_its_bit :
    let first := after .bidWindowStart (inRound 40 false .window false
      { row with bid := .bidding (record 0) result })
    let second := after (.bidWindowStart true) first
    (first.line.driving = .bidWord ∧ first.bid = .bidding { record 0 with sent := 1 } result)
      ∧ second.line.driving = .nothing
      ∧ second.bid = .bidding { record 0 with sent := 2, lost := true } result
      ∧ (after (.bidWindowClose (bidWord 246 3 19) false) second).hold = none := by decide
/-- R148: at one moment the request starts the timer again and the expiry that comes second finds it
running; a timer that has run out leaves the horn silent. -/
theorem test_horn_sounds_its_full_length_after_a_request :
    let s : State := { row with signal := { row.signal with horn := some 0 } }
    (after .hornExpiry (requestHorn s)).signal.horn
        = some (row.startup.settings.hornLength * secondUnits)
      ∧ (after .hornExpiry s).signal.horn = none := by decide
/-- R6: a CALL is 104 bt from start mark to end mark, a GRANT 95 bt (2.5). -/
theorem test_frame_lengths : frameLength .call = 104 ∧ frameLength .grant = 95 := by decide
/-- R143: the cycles of 9.7. -/
theorem test_cycles : cycleMs (.burst 3) = 3000 ∧ cycleMs (.quickBurst 16) = 5500 := by decide
/-- R53, R54: the pack under another one is BURIED. -/
theorem test_take_of_a_buried_pack :
    (after (.take 1) (waitingFor (takeMessage 1) stocked)).port.transmit = [[0xA2, 0x04]] := by decide
/-- R87: the pack on top was RESERVED. -/
theorem test_take_of_a_reserved_pack :
    (after (.take 2) stocked).port.transmit = [[0xA2, 0x00, 0x00, 0x02]]
      ∧ (after (.take 2) stocked).frames.queue = [⟨.taken ⟨40, 1207, 2⟩ 1, 0, false⟩] := by decide
/-- R51: a PUT whose characters come in one by one, and the ARRIVE. -/
theorem test_put_from_an_empty_buffer :
    (after (.put 77 12 5 2 1) stocked).port.transmit = [[0xA1, 0x00, 0x01, 0x02]]
      ∧ (after (.put 77 12 5 2 1) stocked).frames.queue = [⟨.arrive ⟨12, 5, 2⟩, 0, false⟩] := by decide
/-- R57, R88: a RESERVED pack on quality hold gives a LAPSE. -/
theorem test_hold_of_a_reserved_pack :
    (after (.holdPack 2) stocked).frames.queue = [⟨.lapse ⟨40, 1207, 2⟩ 1, 0, false⟩]
      ∧ (after (.holdPack 2) stocked).picks = [] := by decide
/-- R89: the pick entry follows a shifted pack. -/
theorem test_shift_of_a_reserved_pack :
    ((after (.shift 2 3) stocked).picks.map fun e => (e.tag, e.stack)) = [(2, 3)]
      ∧ (after (.shift 2 3) stocked).port.transmit = [[0xA3, 0x00, 0x03, 0x01]] := by decide
/-- R104: three packs taken of a record of 4 with 1 taken fold it into C. -/
theorem test_taken_folds_a_complete_record :
    (takenOnLine 9 3 (orderLine 4 0 [⟨9, 4, 1⟩])).closed = 4
      ∧ (takenOnLine 9 3 (orderLine 4 0 [⟨9, 4, 1⟩])).awards = []
      ∧ takenExcess 9 4 (orderLine 4 0 [⟨9, 4, 1⟩]) = 1 := by decide
/-- R105: a LAPSE lowers the newest record first. -/
theorem test_lapse_lowers_the_newest :
    (lapseOnLine 9 2 (orderLine 9 0 [⟨9, 4, 1⟩, ⟨9, 2, 1⟩])).awards = [⟨9, 3, 1⟩]
      ∧ (lapseOnLine 9 2 (orderLine 9 0 [⟨9, 4, 1⟩, ⟨9, 2, 1⟩])).closed = 1 := by decide
/-- R120, R126: the second line is OPEN at two empty rounds and SHORT at three. -/
theorem test_the_choice_and_short :
    chosenCall loading.trucks = some call ∧ lineState (orderLine 5 3 []) = .short := by decide
/-- R112: TRUCK OUT of a truck with an open award gives a VOID. -/
theorem test_truck_out_gives_a_void :
    (after (.truckOut 1207) loading).frames.queue = [⟨.void 1207, 0, false⟩]
      ∧ (after (.truckOut 1207) loading).trucks = [] := by decide
/-- R134: 30 minutes ahead is a jump, 31 a conflict. -/
theorem test_jump_and_conflict :
    (hearMinute 130 true row).clock.minute = 130 ∧ (hearMinute 131 true row).clock.minute = 100
      ∧ (hearMinute 131 true row).port.flags.clockConflict = true := by decide
/-- R132, R135: the jump from 100 to 120 ages once, the one to 119 not at all. -/
theorem test_jump_over_an_hour :
    (stackAt (hearMinute 120 true stocked).stock 1).map (fun p => p.age) = [1]
      ∧ (stackAt (hearMinute 119 true stocked).stock 1).map (fun p => p.age) = [0] := by decide
/-- R162: STATUS of the row, its flags cleared with it. -/
theorem test_status :
    (after .status (flagStrayTake row)).port.transmit
        = [[0xC0, 0, 0, 7, 0, 0, 0, 5, 3, 0, 1, 0, 100, 0, 0x10, 0x20]]
      ∧ (after .status (flagStrayTake row)).port.flags = clearFlags := by decide
/-- R155: a clerk's message at a row. -/
theorem test_wrong_role :
    (after (.truckOut 1207) row).port.transmit = [[0xB3, 0x0A]] := by decide
/-- R151, R156: LIST PICKS' reply OK of an empty list, A7h marked, then 00h and 00h: A7h is 1010 0111b, sent
from its least significant bit. Of a BREAK after 13 bits the rest of the second character is finished. -/
theorem test_levels_of_the_send_wire :
    let s := transmit [0xA7, 0x00, 0x00] row
    (sendBits s).take 12
        = [false, true, true, true, false, false, true, false, true, true, true, false]
      ∧ (sendBits s).length = 33 ∧ sendLevel 0 s = false ∧ sendLevel 33 s = true ∧ sendLevel 0 row = true
      ∧ finishedAtBreak 13 s = List.replicate 8 false ++ [true] ∧ finishedAtBreak 11 s = [] := by decide
theorem test_parity_goes_over_the_wire_when_configured :
    wireBits true (sentTermChar true 0xA7)
        = [false, true, true, true, false, false, true, false, true, true, false, true]
      ∧ charOfWire true [false, true, true, true, false, false, true, false, true, true, false, true]
        = some (sentTermChar true 0xA7) := by decide
/-- R155: an unknown code is answered with code 80h and carried back. -/
theorem test_unknown_message : (after (.unknownMessage 0x55) row).port.transmit = [[0x80, 0x0C, 0x55]] := by
  decide
/-- R141, R145: 9.7 at 5200, halt stops the horn and shows HALT. -/
theorem test_halt :
    let asserted := after (.filterExpiry 0) (after (.inputChange 0 true)
      (requestHorn (requestPattern .pickLamp (.burst 7) row)))
    haltAsserted asserted = true ∧ asserted.signal.horn = none
      ∧ asserted.signal.lamps[2] = { current := .halt, position := 0, staged := none, latest := .burst 7 } := by
  decide
/-- R138, R6: the HAIL of row 7 at minute 103, as it is sent and as it is heard. -/
theorem test_hail_is_a_duplicate :
    (after (.hailReceived (cleanFrame 4 (characters .hail .row 7 [0, 0, 0, 9]))) row).startup.station
      = .duplicate := by decide

/-- R3, R6: the kind and sender characters of row 7's HAIL, each with its parity bit. -/
theorem test_sent_characters_carry_parity :
    (sentCharacters (headerBytes .hail row)).take 2 = [0b000000011#9, 0b000001111#9] := by decide
/-- R7: a receiver of an unknown kind pulls the flaw slot after a body of 6 characters alone. -/
theorem test_unknown_kind_pulls_after_six_characters :
    pullsFlawSlot { cleanFrame 6 (characters .call .gate 40 []) with kindChar := withParity 0x06 } row = true
      ∧ pullsFlawSlot { cleanFrame 4 (characters .hail .gate 40 []) with kindChar := withParity 0x06 } row
        = false := by decide
/-- R20: a pull of TW restarts the count of STUCK, at the start of observation too. -/
theorem test_pull_of_tw_restarts_the_stuck_count :
    let s : State :=
      { row with line := { row.line with condition := .busy, activity := .dwPulled, stuckCount := 31 } }
    (after (.strayActivity true true) s).line.stuckCount = 0
      ∧ (tick (after (.strayActivity false true) (onLine .busy (.observing .slack) row))).line.stuckCount = 1 := by
  decide
/-- R10, R18: the quiet period is the idle count's first 96 bt. -/
theorem test_quiet_period_is_counted :
    (after (.quietPeriod 95) (tick (onLine .busy (.observing .slack) row))).line.condition = .quiet
      ∧ (after (.quietPeriod 94) (tick (onLine .busy (.observing .slack) row))).line.idleCount = 95 := by decide
/-- R22: a sender that a full reset stops. -/
theorem test_full_reset_of_a_sender_is_abandoned :
    ((after .fullReset
      (onLine .busy (.sending { kind := .grant, characters := [] }) gate)).line.report.map fun r => r.outcome)
      = some .abandoned := by decide
/-- R41: an owner that stops partway through its window leaves a silence that rises. -/
theorem test_silence_rises_within_the_window :
    ((tick (after .bidWindowStart (inRound 40 false .window true row))).frames.round.map fun v => v.silence)
      = some 1 := by decide
/-- R42: a stray pull of TW in GRANT WAIT sets the silence count to 0, and it stays 0 during the pull. -/
theorem test_stray_pull_in_grant_wait :
    let s := tick (inRound 40 false .grantWait false row)
    (s.frames.round.map fun v => v.silence) = some 1
      ∧ ((tick (after (.strayActivity true false) s)).frames.round.map fun v => v.silence) = some 0 := by decide
/-- R5, R18: an end mark outside a frame ends no round. -/
theorem test_end_mark_in_grant_wait :
    (after .endMarkOutsideFrame (inRound 40 false .grantWait false row)).line.condition = .busy := by decide
/-- R136: a minute step and a header of the next minute, in both orders. -/
theorem test_minute_step_and_header_in_both_orders :
    (after (.minuteStep 0) (hearMinute 101 true row)).clock.minute = 101
      ∧ (hearMinute 101 true (after (.minuteStep 53) row)).clock.minute = 101
      ∧ (after (.minuteStep 52) row).clock.second = 59 := by decide
/-- R149, R150: READY of a listening station, in the two halves of SLOW. -/
theorem test_ready_is_lit :
    let s : State := { row with startup := { row.startup with station := .listen } }
    readyLit s = true ∧ readyLit { s with signal := { s.signal with readyPosition := 1000000 } } = false := by
  decide

/-! ### The hypotheses of the statements, clause by clause -/

/-! One step and start-up -/

theorem witness_StepRunsTheFrontCommand :
    ({ row with pending := [.hornExpiry, .status] } : State).pending = .hornExpiry :: [.status] := rfl
theorem witness_EmptyQueueLetsOneBitTimePass_held :
    State.reset.pending = [] ∧ State.reset.startup.resetHeld = true := by decide
theorem witness_EmptyQueueLetsOneBitTimePass_idle :
    row.pending = [] ∧ row.startup.resetHeld = false ∧ observes row = true ∧ row.line.condition = .quiet
      ∧ row.line.activity = .nothing ∧ row.frames.round = none := by decide
theorem witness_EmptyQueueLetsOneBitTimePass_stuck :
    (onLine .busy .dwPulled row).line.activity = .dwPulled
      ∧ (onLine .busy .dwPulled row).line.condition ≠ .quiet := by decide
theorem witness_EmptyQueueLetsOneBitTimePass_observing :
    let s := onLine .busy (.observing .slack) row
    observes s = true ∧ s.line.condition = .busy ∧ s.line.activity = .observing .slack
      ∧ s.line.idleCount < 96 ∧ s.line.activity ∉ [.dwPulled, .startMark, .observing .dwPulled]
      ∧ Activity.observing .dwPulled ∈ [.dwPulled, .startMark, .observing .dwPulled] := by decide
theorem witness_EmptyQueueLetsOneBitTimePass_hold :
    holding.pending = [] ∧ holding.startup.resetHeld = false
      ∧ ∃ h k, holding.hold = some h ∧ h.grantWait = some k := ⟨rfl, rfl, _, _, rfl, rfl⟩
theorem witness_FullResetRestoresEveryBlock :
    sentFrame row = none
      ∧ sentFrame (onLine .busy (.sending { kind := .call, characters := [] }) gate)
        = some { kind := .call, characters := [] } := by decide
/-- CONFIG with this many interruptions behind it. -/
def interrupted (n : Nat) : State :=
  { reading with startup := { reading.startup with interruptions := n } }
theorem witness_ConfigReadRestartsThreeTimes :
    (interrupted 2).startup.station = .config ∧ (interrupted 2).startup.resetHeld = false
      ∧ (interrupted 2).startup.interruptions < 3
      ∧ (interrupted 3).startup.station = .config ∧ (interrupted 3).startup.resetHeld = false
      ∧ (interrupted 3).startup.interruptions = 3 := by decide
theorem witness_ConfigReadEntersListenOrFault :
    reading.startup.station = .config ∧ reading.startup.resetHeld = false
      ∧ blockAccepted (rowBlock 60) = true ∧ blockAccepted (rowBlock 61) = false := by decide
/-- A station that has entered DUPLICATE, its stores left as they are. -/
def doubled (s : State) : State := { s with startup := { s.startup with station := .duplicate } }
/-- The row still listening. -/
def listening : State := { row with startup := { row.startup with station := .listen } }
theorem witness_ListenExpiryEntersService :
    listening.startup.station = .listen ∧ listening.arbiter = .idle
      ∧ listening.frames.queue.length < 16 ∧ listening.trucks = [] := by decide
theorem yardLineSound_interrupted : YardLineSound (interrupted 3) := by
  refine ⟨by decide, by decide, ?_, by decide, ?_, by decide, by decide, by decide, fun _ => rfl⟩
  · intro n hn; cases hn
  · simp [interrupted, reading, State.reset, resetValues, resetLine, sentKind, sentFrame]
theorem witness_StationStateTransitions :
    YardLineSound (interrupted 3)
      ∧ exec .configInterruption (interrupted 3) = .next (after .configInterruption (interrupted 3))
      ∧ exec .hornExpiry row = .next (after .hornExpiry row) ∧ Instr.hornExpiry ≠ .fullReset
      ∧ row.startup.station ≠ .config :=
  ⟨yardLineSound_interrupted, rfl, rfl, by decide, by decide⟩

/-! The yard line -/

theorem betweenFrames_row (condition : LineCondition) : BetweenFrames (onLine condition .nothing row) :=
  ⟨rfl, rfl, .inl rfl⟩
theorem witness_WiresOutsideFramesMoveTheLine_quietPeriod :
    let s := onLine .busy (.observing .slack) row
    observes s = true ∧ s.line.activity = .observing .slack ∧ s.line.condition = .busy
      ∧ s.line.idleCount + 95 < 96 ∧ 96 ≤ s.line.idleCount + 96 := by decide
theorem beginsToObserve_row (wires : ObservedWires) :
    BeginsToObserve (onLine .busy (.observing wires) row) := ⟨rfl, rfl, wires, rfl⟩
theorem witness_WiresOutsideFramesMoveTheLine_observing :
    BeginsToObserve (onLine .busy (.observing .dwPulled) row) := beginsToObserve_row _
theorem witness_WiresOutsideFramesMoveTheLine_inRound :
    (inRound 40 false .grantWait false row).frames.round ≠ none
      ∧ ∀ wires, (inRound 40 false .grantWait false row).line.activity ≠ .observing wires :=
  ⟨by decide, fun _ h => by cases h⟩
theorem witness_WiresOutsideFramesMoveTheLine_between :
    (BetweenFrames (onLine .quiet .nothing row) ∧ (onLine .quiet .nothing row).line.condition = .quiet)
      ∧ (BetweenFrames (onLine .busy .nothing row) ∧ (onLine .busy .nothing row).line.condition = .busy)
      ∧ (BetweenFrames (onLine .stuck .nothing row) ∧ (onLine .stuck .nothing row).line.condition = .stuck) :=
  ⟨⟨betweenFrames_row _, rfl⟩, ⟨betweenFrames_row _, rfl⟩, ⟨betweenFrames_row _, rfl⟩⟩
theorem witness_WiresOutsideFramesMoveTheLine_held :
    observes (onLine .held .nothing row) = true ∧ (onLine .held .nothing row).line.condition = .held := by
  decide
/-- The row with a VOID that waits. -/
def wishing (condition : LineCondition) : State :=
  onLine condition .nothing (queued [⟨.arrive ⟨12, 5, 2⟩, 0, false⟩] row)
theorem wants_wishing (condition : LineCondition) : WantsToSend (wishing condition) :=
  ⟨rfl, .inl ⟨_, List.mem_cons_self, rfl⟩⟩
theorem not_wants_row (condition : LineCondition) : ¬ WantsToSend (onLine condition .nothing row) := by
  rintro ⟨-, ⟨n, hn, -⟩ | ⟨r, hr⟩⟩
  · cases hn
  · cases hr
theorem witness_StuckLine_entry :
    (BetweenFrames (wishing .busy) ∧ WantsToSend (wishing .busy) ∧ (wishing .busy).line.backOff = none)
      ∧ (BetweenFrames (onLine .quiet .nothing row) ∧ ¬ WantsToSend (onLine .quiet .nothing row))
      ∧ BeginsToObserve (onLine .busy (.observing .dwPulled) row) :=
  ⟨⟨⟨rfl, rfl, .inl rfl⟩, wants_wishing _, rfl⟩, ⟨betweenFrames_row _, not_wants_row _⟩,
    beginsToObserve_row _⟩
/-- The row recovering a stuck line, after this many pulses. -/
def recovering (pulses : Nat) : State :=
  { wishing .recovering with
    line := { (wishing .recovering).line with driving := .recovery, pulseCount := pulses } }
theorem witness_StuckLine_pulses :
    (recovering 0).line.condition = .recovering ∧ (recovering 7).line.pulseCount < 8
      ∧ (recovering 8).line.condition = .recovering ∧ (recovering 8).line.pulseCount = 8 := by decide
theorem witness_StuckLine_backOff :
    let s : State := { wishing .stuck with line := { (wishing .stuck).line with backOff := some 0 } }
    s.line.backOff = some 0 ∧ s.line.condition = .stuck ∧ WantsToSend s :=
  ⟨rfl, rfl, rfl, .inl ⟨_, List.mem_cons_self, rfl⟩⟩
theorem witness_StuckLine_backOff_without_a_wish :
    let s : State := { onLine .stuck .nothing row with line :=
      { (onLine .stuck .nothing row).line with backOff := some 0 } }
    s.line.backOff = some 0 ∧ s.line.condition = .stuck ∧ ¬ WantsToSend s :=
  ⟨rfl, rfl, by rintro ⟨-, ⟨n, hn, -⟩ | ⟨r, hr⟩⟩; · cases hn
                · cases hr⟩
theorem witness_StuckLine_wish :
    ((wishing .stuck).line.condition = .stuck ∧ WantsToSend (wishing .stuck)
        ∧ (wishing .stuck).line.backOff = none)
      ∧ ((onLine .recovering .nothing row).line.condition = .recovering
        ∧ ¬ WantsToSend (onLine .recovering .nothing row))
      ∧ (onLine .quiet .nothing row).line.condition ≠ .stuck
      ∧ (onLine .quiet .nothing row).line.condition ≠ .recovering :=
  ⟨⟨rfl, wants_wishing _, rfl⟩, ⟨rfl, not_wants_row _⟩, by decide, by decide⟩
/-- The row that follows a round in GRANT WAIT with a hold. -/
def waitingForGrant : State := inRound 40 false .grantWait false holding
theorem witness_HeldLineAbandonsFrameRoundAndHold :
    observes waitingForGrant = true ∧ waitingForGrant.line.condition ≠ .held
      ∧ sentFrame waitingForGrant = none ∧ canHear waitingForGrant = true
      ∧ (onLine .busy .receiving row).line.activity = .receiving
      ∧ ¬ ((onLine .busy .stray row).line.activity = .receiving)
      ∧ canHear (onLine .busy .stray row) = false
      ∧ sentFrame (onLine .busy (.sending ⟨.call, []⟩) gate) ≠ none := by decide
theorem witness_UnfinishedFrameIsDiscarded :
    (¬ ∃ b rest, [(0x01 : Byte), 0x28] = 0x10 :: b :: rest)
      ∧ (∃ b rest, [(0x10 : Byte), 0x68] = 0x10 :: b :: rest)
      ∧ hearsFrame row = true ∧ awaitsClosing waitingForGrant = true
      ∧ ownsRound waitingForGrant = false :=
  ⟨fun ⟨_, _, h⟩ => (by cases h), ⟨_, _, rfl⟩, by decide, by decide, by decide⟩

/-! Frames this station sends -/

/-- A station that sends this frame. -/
def sending (kind : SentKind) (s : State) : State :=
  { onLine .busy (.sending { kind := kind, characters := [] }) s with
    line := { (onLine .busy (.sending { kind := kind, characters := [] }) s).line with driving := .frame } }
/-- The row with a notice in flight. -/
def sendingNotice (flaws : Nat) : State :=
  sending .notice (queued [⟨.taken ⟨40, 1207, 2⟩ 2, flaws, true⟩, ⟨.void 9, 0, false⟩] row)
/-- The gate with its CALL on the wire. -/
def sendingCall : State := sending .call { loading with arbiter := .calling call }
/-- The gate after a body collision in its CALL: it follows the surviving CALL. -/
def following : State := after .bodyCollision sendingCall
theorem witness_UnfinishedFrameIsDiscarded_followed :
    followsCall following = true ∧ ownsRound following = true := by decide
theorem witness_HeldLine_yieldRecord :
    (canHear row = true ∧ ∃ b rest, [(0x10 : Byte), 0x68] = 0x10 :: b :: rest)
      ∧ (sentKind sendingCall = some .call ∧ 2 ≤ (List.replicate 2 (0 : Byte)).length)
      ∧ (¬ (canHear waitingForGrant = true ∧ ∃ b rest, ([] : List Byte) = 0x10 :: b :: rest)
        ∧ ¬ (sentKind waitingForGrant = some .call ∧ 2 ≤ ([] : List Byte).length))
      ∧ row.frames.round = none :=
  ⟨⟨by decide, _, _, rfl⟩, by decide, ⟨fun ⟨_, _, _, h⟩ => (by cases h), by decide⟩, rfl⟩
theorem yardLineSound_sendingNotice : YardLineSound (sendingNotice 2) := by
  refine ⟨by decide, by decide, ?_, by decide, ?_, by decide, by decide, by decide, fun _ => rfl⟩
  · intro n hn
    simp only [sendingNotice, sending, onLine, queued, withQueue, List.mem_cons, List.not_mem_nil,
      or_false] at hn
    rcases hn with rfl | rfl <;> simp [noticeSound]
  · simp [sendingNotice, sending, sentKind, sentFrame, onLine, queued, withQueue]
theorem witness_EveryStepKeepsTheYardLineSound :
    YardLineSound (sendingNotice 2) ∧ ∃ t, step (sendingNotice 2) = .next t :=
  ⟨yardLineSound_sendingNotice, _, rfl⟩
theorem witness_FrameStartWaitsForItsGap_notice :
    let s := queued [⟨.void 9, 0, false⟩] gate
    s.startup.station = .service ∧ s.frames.round = none ∧ s.line.activity = .nothing
      ∧ s.line.condition = .quiet ∧ s.frames.queue = [⟨.void 9, 0, false⟩]
      ∧ min 255 (s.line.idleCount + 11) < 12 ∧ 12 ≤ s.line.idleCount + 12 := by decide
/-- The gate with a call request. -/
def requesting (yield : Bool) : State :=
  { loading with arbiter := .waiting call, frames := { loading.frames with yieldRecord := yield } }
theorem witness_FrameStartWaitsForItsGap_call (yield : Bool) :
    (requesting yield).startup.station = .service ∧ (requesting yield).frames.round = none
      ∧ (requesting yield).line.activity = .nothing ∧ (requesting yield).line.condition = .quiet
      ∧ (requesting yield).frames.queue = [] ∧ (requesting yield).arbiter = .waiting call
      ∧ min 255 ((requesting yield).line.idleCount + (if yield then 47 else 23))
          < (if (requesting yield).frames.yieldRecord then 48 else 24)
      ∧ (if (requesting yield).frames.yieldRecord then 48 else 24)
          ≤ (requesting yield).line.idleCount + (if yield then 48 else 24) := by cases yield <;> decide
theorem witness_ContentionLossAndBodyCollision_contention :
    ((sendingNotice 0).line.activity = .sending ⟨.notice, []⟩ ∧ (sendingNotice 0).frames.queue.length = 2)
      ∧ sendingCall.line.activity = .sending ⟨.call, []⟩ ∧ sendingCall.arbiter = .calling call := by decide
theorem witness_ContentionLossAndBodyCollision_collision :
    (sendingNotice 0).line.activity = .sending ⟨.notice, []⟩
      ∧ sendingCall.line.activity = .sending ⟨.call, []⟩ := by decide
theorem witness_NoticeReportsSettleTheHead :
    (sendingNotice 1).line.activity = .sending ⟨.notice, []⟩ ∧ (sendingNotice 1).frames.round = none
      ∧ ∃ n rest, (sendingNotice 1).frames.queue = n :: rest := ⟨rfl, rfl, _, _, rfl⟩
theorem witness_CallReportMovesTheOwnRound :
    sendingCall.line.activity = .sending ⟨.call, []⟩ ∧ sendingCall.arbiter = .calling call := by decide
/-- The gate that owns a round in this phase and has decided a grant of this count. -/
def granting (phase : RoundPhase) (count : Nat) : State :=
  { inRound 40 true phase false loading with arbiter := .granting call 7 5 count }
theorem witness_OwnerSendsItsGrantAndIsTold_sends :
    (granting .grantWait 5).startup.station = .service
      ∧ (∃ v, (granting .grantWait 5).frames.round = some v ∧ v.own = true ∧ v.phase = .grantWait)
      ∧ (granting .grantWait 5).line.activity = .nothing
      ∧ (granting .grantWait 5).arbiter = .granting call 7 5 5 := ⟨rfl, ⟨_, rfl, rfl, rfl⟩, rfl, rfl⟩
theorem witness_OwnerSendsItsGrantAndIsTold_isTold (count : Nat) :
    let s := sending .grant (granting .grant count)
    s.line.activity = .sending ⟨.grant, []⟩ ∧ (∃ v, s.frames.round = some v ∧ v.own = true)
      ∧ s.arbiter = .granting call 7 5 count
      ∧ ∃ l, findOrderLine call.ticket call.line s.trucks = some l ∧ l.awards.length < 8 :=
  ⟨rfl, ⟨_, rfl, rfl⟩, rfl, orderLine 5 2 [], rfl, by decide⟩

/-! The notice queue -/

/-- A full queue: this entry, then fifteen VOIDs. -/
def full (first : Notice) : State := queued (first :: List.replicate 15 ⟨.void 9, 0, false⟩) gate
theorem witness_NoticesMergeJoinOrEvict_arrive :
    let s := queued [⟨.arrive ⟨12, 5, 2⟩, 0, true⟩] row
    s.frames.queue.length < 16 ∧ ∃ n ∈ s.frames.queue, n.body = .arrive ⟨12, 5, 2⟩ := by decide
theorem witness_NoticesMergeJoinOrEvict_merge (count : Nat) :
    let target : Notice := ⟨.taken ⟨40, 1207, 2⟩ count, 1, false⟩
    let s := queued [⟨.taken ⟨40, 1207, 2⟩ 8, 0, true⟩, target, ⟨.void 9, 0, false⟩] row
    countOf (.taken ⟨40, 1207, 2⟩ 1) = 1
      ∧ s.frames.queue = [⟨.taken ⟨40, 1207, 2⟩ 8, 0, true⟩] ++ target :: [⟨.void 9, 0, false⟩]
      ∧ sameAccount target.body (.taken ⟨40, 1207, 2⟩ 1) = true ∧ target.inFlight = false
      ∧ ∀ n ∈ [(⟨.void 9, 0, false⟩ : Notice)],
          ¬ (sameAccount n.body (.taken ⟨40, 1207, 2⟩ 1) = true ∧ n.inFlight = false) :=
  ⟨rfl, rfl, by simp [sameAccount], rfl, by decide⟩
/-- 2.6, first row, with 16 entries. -/
theorem witness_NoticesMergeJoinOrEvict_merge_full :
    let target : Notice := ⟨.taken ⟨40, 1207, 2⟩ 7, 0, false⟩
    (full target).frames.queue = [] ++ target :: List.replicate 15 ⟨.void 9, 0, false⟩
      ∧ (full target).frames.queue.length = 16 ∧ countOf target.body < 8
      ∧ (takeNotice (.taken ⟨40, 1207, 2⟩ 1) (full target)).frames.queue.head?
        = some ⟨.taken ⟨40, 1207, 2⟩ 8, 0, false⟩ := by decide
theorem witness_NoticesMergeJoinOrEvict_join :
    let s := queued [⟨.taken ⟨40, 1207, 2⟩ 8, 0, true⟩] row
    s.frames.queue.length < 16
      ∧ (∀ n ∈ s.frames.queue, n.body ≠ .lapse ⟨40, 1207, 2⟩ 1)
      ∧ ∀ n ∈ s.frames.queue,
          ¬ (sameAccount n.body (.lapse ⟨40, 1207, 2⟩ 1) = true ∧ n.inFlight = false) := by decide
theorem witness_NoticesMergeJoinOrEvict_full :
    (full ⟨.arrive ⟨12, 5, 2⟩, 0, false⟩).frames.queue.length = 16
      ∧ isWaitingArrive ⟨.arrive ⟨12, 5, 2⟩, 0, false⟩ = true
      ∧ (full ⟨.arrive ⟨12, 5, 2⟩, 0, true⟩).frames.queue.length = 16
      ∧ (∀ n ∈ (full ⟨.arrive ⟨12, 5, 2⟩, 0, true⟩).frames.queue, isWaitingArrive n = false)
      ∧ ∀ n ∈ (full ⟨.arrive ⟨12, 5, 2⟩, 0, false⟩).frames.queue,
          sameAccount n.body (.void 10) = true → n.inFlight = false → 8 ≤ countOf n.body := by decide

/-! Heard frames -/

/-- A VOID of ticket 1207 from gate 40. -/
def voidFrame : RxFrame 2 := cleanFrame 2 (characters .void .gate 40 [0x04, 0xB7])
theorem witness_UnacceptedNoticesLeaveNoTrace :
    hearsFrame row = true ∧ (∀ h, row.hold = some h → h.phase = .waiting)
      ∧ frameAccepted { voidFrame with flawSlotPulled := true } row = false
      ∧ frameAccepted voidFrame listening = true ∧ hearsFrame listening = true
      ∧ listening.startup.station ≠ .service := by
  refine ⟨by decide, ?_, by decide, by decide, by decide, by decide⟩
  intro h hh; cases hh
theorem witness_UnacceptedNoticesLeaveNoTrace_unknown :
    kindOfCode (dataBits { voidFrame with kindChar := withParity 0x12 }.kindChar) = none
      ∧ canHear waitingForGrant = true := by decide
theorem witness_HeardMinutes_gate :
    gate.clock.isSet = true ∧ gate.startup.settings.role = .gate
      ∧ (gate.clock.minute + 30 - gate.clock.minute).toNat = 30 := by decide
theorem witness_HeardMinutes_adopts :
    reading.clock.isSet = false ∧ row.clock.isSet = true ∧ row.startup.settings.role = .row
      ∧ (101 - row.clock.minute).toNat = 1 ∧ (130 - row.clock.minute).toNat = 30
      ∧ (131 - row.clock.minute).toNat = 31 := by decide
theorem witness_RowReleasesForVoidAndGateHail_void :
    hearsFrame stocked = true ∧ stocked.startup.station = .service ∧ stocked.startup.settings.role = .row
      ∧ stocked.hold = none ∧ dataBits voidFrame.kindChar = 0x02 ∧ frameAccepted voidFrame stocked = true
      ∧ senderIsGate voidFrame = true ∧ 1 ≤ voidTicket voidFrame := by decide
/-- A HAIL of this sender and serial. -/
def hailFrame (role : Role) (number : Nat) (serial : Byte) : RxFrame 4 :=
  cleanFrame 4 (characters .hail role number [0, 0, 0, serial])
theorem witness_RowReleasesForVoidAndGateHail_hail :
    dataBits (hailFrame .gate 40 1).kindChar = 0x01
      ∧ frameAccepted (hailFrame .gate 40 1) stocked = true ∧ senderIsGate (hailFrame .gate 40 1) = true
      ∧ senderNumber (hailFrame .gate 40 1) ≠ stocked.startup.settings.number
      ∧ senderNumber (hailFrame .gate 7 5) = stocked.startup.settings.number
      ∧ hailSerial (hailFrame .gate 7 5) = stocked.startup.serial := by decide
theorem witness_HailOfTheOwnNumberIsADuplicate :
    hearsFrame stocked = true ∧ stocked.startup.station = .service
      ∧ frameAccepted (hailFrame .gate 7 9) stocked = true
      ∧ senderNumber (hailFrame .gate 7 9) = stocked.startup.settings.number
      ∧ hailSerial (hailFrame .gate 7 9) ≠ stocked.startup.serial
      ∧ senderNumber (hailFrame .row 7 5) = stocked.startup.settings.number
      ∧ hailSerial (hailFrame .row 7 5) = stocked.startup.serial := by decide
/-- A TAKEN or LAPSE of row 9 for line 1 of ticket 1207 at gate 40, by this count. -/
def countedFrame (kind : FrameKind) (count : Byte) : RxFrame 5 :=
  cleanFrame 5 (characters kind .row 9 [40, 0x04, 0xB7, 1, count])
theorem witness_GateSettles_taken_and_lapse (kind : FrameKind) (h : kind = .taken ∨ kind = .lapse) :
    hearsFrame loading = true ∧ loading.startup.station = .service
      ∧ loading.startup.settings.role = .gate ∧ loading.hold = none
      ∧ dataBits (countedFrame kind 8).kindChar = kindCode kind
      ∧ frameAccepted (countedFrame kind 8) loading = true ∧ senderIsGate (countedFrame kind 8) = false
      ∧ (noticeKey (countedFrame kind 8)).gate = loading.startup.settings.number
      ∧ loading.startup.settings.number ≤ 63 ∧ 1 ≤ (noticeKey (countedFrame kind 8)).ticket
      ∧ 1 ≤ (noticeKey (countedFrame kind 8)).line ∧ (noticeKey (countedFrame kind 8)).line ≤ 4
      ∧ 1 ≤ noticeCount (countedFrame kind 8) ∧ noticeCount (countedFrame kind 8) ≤ 8
      ∧ findOrderLine (noticeKey (countedFrame kind 8)).ticket (noticeKey (countedFrame kind 8)).line
          loading.trucks = some (orderLine 4 0 [⟨9, 4, 1⟩]) := by
  rcases h with rfl | rfl <;> decide
/-- An ARRIVE of row 9. -/
def arriveFrame : RxFrame 2 := cleanFrame 2 (characters .arrive .row 9 [12, 0x51])
theorem witness_GateSettles_arrive :
    dataBits arriveFrame.kindChar = 0x05 ∧ frameAccepted arriveFrame loading = true
      ∧ senderIsGate arriveFrame = false ∧ (arriveSpec arriveFrame).family ≤ 63
      ∧ bodyValue arriveFrame 1 / 8 % 2 = 0 := by decide
theorem witness_GateSettles_hail :
    dataBits (hailFrame .row 9 1).kindChar = 0x01 ∧ frameAccepted (hailFrame .row 9 1) loading = true
      ∧ senderNumber (hailFrame .row 9 1) ≠ loading.startup.settings.number
      ∧ senderIsGate (hailFrame .row 9 1) = false ∧ senderIsGate (hailFrame .gate 41 1) = true
      ∧ senderNumber (hailFrame .row 40 5) = loading.startup.settings.number
      ∧ hailSerial (hailFrame .row 40 5) = loading.startup.serial := by decide
theorem witness_GateSettles_none :
    let f := cleanFrame 5 (characters .taken .row 9 [40, 0x04, 0xB8, 1, 1])
    frameAccepted f loading = true ∧ dataBits f.kindChar = 0x04
      ∧ findOrderLine (noticeKey f).ticket (noticeKey f).line loading.trucks = none
      ∧ (noticeKey (cleanFrame 5 (characters .lapse .row 9 [41, 0x04, 0xB7, 1, 1]))).gate
        ≠ loading.startup.settings.number := by decide
theorem witness_RowReleases_no_owner :
    dataBits (countedFrame .taken 8).kindChar = 0x04 ∧ dataBits (countedFrame .lapse 8).kindChar = 0x03
      ∧ dataBits arriveFrame.kindChar = 0x05 ∧ dataBits (hailFrame .row 9 1).kindChar = 0x01
      ∧ senderIsGate (hailFrame .row 9 1) = false
      ∧ senderNumber (hailFrame .row 9 1) ≠ stocked.startup.settings.number := by decide
theorem orderLineSound_example : orderLineSound (orderLine 4 0 [⟨9, 4, 1⟩]) := by
  refine ⟨by decide, by decide, by decide, by decide, by decide, by decide, by decide, by decide,
    by decide, ?_⟩
  intro a ha
  simp only [orderLine, List.mem_singleton] at ha
  subst ha
  exact ⟨by decide, by decide, by decide⟩
theorem witness_NoticesSettleTheRowsOwnAwards :
    ∃ l, orderLineSound l ∧ l.awards = [] ++ { row := 9, granted := 4, taken := 1 } :: [] :=
  ⟨_, orderLineSound_example, rfl⟩
theorem witness_SentFramesAreReadBack :
    row.startup.settings.number ≤ 63 ∧ (headerBytes .hail row).length = 5 := by decide

/-! Rounds -/

theorem witness_CallOpensARound_computes :
    hearsFrame stocked = true ∧ stocked.hold = none ∧ dataBits callFrame.kindChar = 0x10
      ∧ flawSlotReads callFrame stocked = false
      ∧ frameAccepted callFrame stocked = true ∧ callValid callFrame = true
      ∧ stocked.startup.settings.role = .row ∧ stocked.startup.station = .service
      ∧ haltAsserted stocked = false ∧ closeAsserted stocked = false ∧ stocked.picks.length < 24
      ∧ distanceTo (callFields callFrame).bay stocked ≠ 63
      ∧ ∃ v ∈ viewOf stocked.stock, matchesCall (callFields callFrame) v = true := by decide
theorem witness_CallOpensARound_otherwise :
    flawSlotReads { callFrame with flawSlotPulled := true } row = true
      ∧ hearsFrame row = true ∧ row.hold = none ∧ flawSlotReads callFrame row = false
      ∧ ¬ ∃ v ∈ viewOf row.stock, matchesCall (callFields callFrame) v = true := by decide
/-- The row that computes over this many records, with a stretch limit of 1 ms. -/
def computing (records : Nat) : State :=
  { row with
    bid := .computing (record records)
    startup := { row.startup with settings := { rowSettings with stretchLimit := 1 } } }
theorem witness_ComputationMeetsItsLimit :
    (computing 66).bid = .computing (record 66)
      ∧ 10 + 15 * (record 66).view.length = 1000 * (computing 66).startup.settings.stretchLimit
      ∧ 10 + 15 * (record 65).view.length < 1000 * (computing 65).startup.settings.stretchLimit
      ∧ 1000 * (computing 67).startup.settings.stretchLimit < 10 + 15 * (record 67).view.length := by
  decide
theorem witness_SlotEnd :
    let s := inRound 40 false .stretch false { row with bid := .ready (record 2) result }
    observes s = true ∧ (∃ v, s.frames.round = some v ∧ v.phase = .stretch) ∧ s.line.driving ≠ .stretch
      ∧ s.bid = .ready (record 2) result ∧ (drive .stretch s).line.driving = .stretch
      ∧ (inRound 40 false .stretch false row).bid = .idle :=
  ⟨by decide, ⟨_, rfl, rfl⟩, by decide, rfl, rfl, rfl⟩
theorem witness_FirstPulse_bits :
    (record 2).lost = false ∧ (record 2).sent < 27 ∧ { record 2 with sent := 2, lost := true }.lost = true
      ∧ 27 ≤ { record 2 with sent := 27 }.sent := by decide
theorem witness_FirstPulse :
    let s := inRound 40 false .window false { row with bid := .bidding (record 2) result }
    let g := inRound 40 true .window false gate
    (∃ v, s.frames.round = some v ∧ v.phase = .window)
      ∧ s.startup.station = .service ∧ s.bid = .bidding (record 2) result
      ∧ (∃ v, g.frames.round = some v ∧ v.own = true) ∧ g.bid = .idle
      ∧ (inRound 40 false .window false listening).startup.station ≠ .service :=
  ⟨⟨_, rfl, rfl⟩, rfl, rfl, ⟨_, rfl, rfl⟩, rfl, by decide⟩
/-- The row whose word is on the wire. -/
def bidding : State := inRound 40 false .window true { row with bid := .bidding (record 2) result }
theorem witness_WindowCloseAtARow :
    observes bidding = true
      ∧ (∃ v, bidding.frames.round = some v ∧ v.phase = .window ∧ v.pulsing = true ∧ v.own = false)
      ∧ bidding.bid = .bidding (record 2) result
      ∧ classOfWord (bidWord 246 3 19) = .bid ∧ rowLost result.word (bidWord 246 3 19) = true
      ∧ classOfWord result.word = .bid ∧ rowLost result.word result.word = false
      ∧ classOfWord 1 ≠ .bid ∧ rowLost result.word 1 = true ∧ (record 2).lost = false
      ∧ (inRound 40 false .window true row).bid = .idle :=
  ⟨by decide, ⟨_, rfl, rfl, rfl, rfl⟩, rfl, by decide, by decide, by decide, by decide, by decide,
    by decide, rfl, rfl⟩
/-- The gate at the close of its own window. -/
def closing : State := { inRound 40 true .window true loading with arbiter := .calling call }
theorem trucksSound_loading : TrucksSound loading.trucks := by
  refine ⟨by decide, by decide, by decide, ?_⟩
  intro t ht
  simp only [loading, List.mem_singleton] at ht
  subst ht
  refine ⟨by decide, by decide, by decide, by decide, by decide, ?_⟩
  intro l hl
  simp only [truck, List.mem_cons, List.not_mem_nil, or_false] at hl
  rcases hl with rfl | rfl
  · exact orderLineSound_example
  · exact ⟨by decide, by decide, by decide, by decide, by decide, by decide, by decide, by decide,
      by decide, by intro a ha; cases ha⟩
theorem witness_WindowCloseAtTheOwner :
    closing.startup.station = .service
      ∧ (∃ v, closing.frames.round = some v ∧ v.phase = .window ∧ v.pulsing = true ∧ v.own = true)
      ∧ closing.bid = .idle ∧ closing.arbiter = .calling call
      ∧ findOrderLine call.ticket call.line closing.trucks = some (orderLine 5 2 [])
      ∧ lineState (orderLine 5 2 []) = .openLine ∧ TrucksSound closing.trucks
      ∧ classOfWord (BitVec.allOnes 27) = .noBid ∧ classOfWord 1 = .flawedWord
      ∧ classOfWord (bidWord 246 3 19) = .bid :=
  ⟨rfl, ⟨_, rfl, rfl, rfl, rfl⟩, rfl, rfl, rfl, by decide, trucksSound_loading, by decide, by decide,
    by decide⟩
theorem witness_OwnerSendsItsGrantAndIsTold_open :
    findOrderLine call.ticket call.line (sending .grant (granting .grant 5)).trucks
        = some (orderLine 5 2 [])
      ∧ lineState (orderLine 5 2 []) = .openLine
      ∧ TrucksSound (sending .grant (granting .grant 5)).trucks :=
  ⟨by decide, by decide, trucksSound_loading⟩
/-- A gate that met a body collision in its CALL and follows its own round in DUPLICATE. -/
def collided (phase : RoundPhase) (pulsing : Bool) : State := doubled (inRound 40 true phase pulsing gate)
theorem witness_WindowClose_collided :
    observes (collided .window true) = true
      ∧ (∃ v, (collided .window true).frames.round = some v ∧ v.phase = .window ∧ v.pulsing = true
        ∧ v.own = true)
      ∧ (collided .window true).bid = .idle ∧ (collided .window true).arbiter = .idle :=
  ⟨by decide, ⟨_, rfl, rfl, rfl, rfl⟩, rfl, rfl⟩
theorem witness_ClosingFrame_collided :
    observes (collided .grantWait false) = true ∧ awaitsClosing (collided .grantWait false) = true
      ∧ (∃ v, (collided .grantWait false).frames.round = some v ∧ v.own = true)
      ∧ (collided .grantWait false).arbiter = .idle ∧ (collided .grantWait false).hold = none :=
  ⟨by decide, by decide, ⟨_, rfl, rfl⟩, rfl, rfl⟩
theorem witness_SilenceAbandons :
    observes waitingForGrant = true
      ∧ (∃ v, waitingForGrant.frames.round = some v ∧ v.own = false ∧ v.phase = .grantWait)
      ∧ (∃ v, bidding.frames.round = some v ∧ v.own = false ∧ v.phase = .window)
      ∧ (∃ v, closing.frames.round = some v ∧ v.own = true ∧ v.phase = .window)
      ∧ closing.arbiter = .calling call
      ∧ (∃ v, (granting .grantWait 5).frames.round = some v ∧ v.own = true ∧ v.phase = .grantWait)
      ∧ ∃ h left, waitingForGrant.hold = some h ∧ h.phase = .waiting ∧ h.grantWait = some left :=
  ⟨by decide, ⟨_, rfl, rfl, rfl⟩, ⟨_, rfl, rfl, rfl⟩, ⟨_, rfl, rfl, rfl⟩, rfl, ⟨_, rfl, rfl, rfl⟩,
    _, _, rfl, rfl, rfl⟩
theorem witness_SilenceAbandons_stray :
    observes waitingForGrant = true ∧ (∃ v, waitingForGrant.frames.round = some v ∧ v.phase = .grantWait)
      ∧ waitingForGrant.line.condition = .busy ∧ waitingForGrant.line.activity = .nothing :=
  ⟨by decide, ⟨_, rfl, rfl⟩, rfl, rfl⟩
/-- The GRANT of the example to this row, by this count. -/
def grantFrame (count : Nat) : RxFrame 5 :=
  cleanFrame 5 (characters .grant .gate 40 (grantBytes call 7 count))
theorem witness_GrantSettlesTheHold (count : Nat) (h : count = 1 ∨ count = 8) :
    awaitsClosing waitingForGrant = true
      ∧ (∃ v, waitingForGrant.frames.round = some v ∧ v.own = false)
      ∧ (∃ d, waitingForGrant.hold = some d ∧ d.decision = .none
        ∧ senderNumber (grantFrame count) = d.order.gate
        ∧ (grantFields (grantFrame count)).ticket = d.order.ticket
        ∧ (grantFields (grantFrame count)).line = d.order.line)
      ∧ waitingForGrant.startup.settings.number ≤ 63 ∧ dataBits (grantFrame count).kindChar = 0x11
      ∧ (grantFrame count).framing ≠ .atFlawSlot ∧ flawSlotReads (grantFrame count) waitingForGrant = false
      ∧ flawBeforeSlot (grantFrame count) = false ∧ senderIsGate (grantFrame count) = true
      ∧ (grantFields (grantFrame count)).winner = waitingForGrant.startup.settings.number
      ∧ (grantFields (grantFrame count)).count = count
      ∧ haltAsserted waitingForGrant = false := by
  rcases h with rfl | rfl <;>
    exact ⟨by decide, ⟨_, rfl, rfl⟩, ⟨_, rfl, rfl, by decide, by decide, by decide⟩, by decide, by decide,
      by decide, by decide, by decide, by decide, by decide, by decide, by decide⟩
theorem witness_GrantSettlesTheHold_unconfirmed :
    (grantFields (grantFrame 0)).count = 0 ∧ dataBits (grantFrame 0).kindChar = 0x11 := by decide
theorem witness_GrantSettlesTheHold_no_hold :
    let s := inRound 40 false .grantWait false row
    row.hold = none ∧ hearsFrame row = true ∧ s.hold = none ∧ awaitsClosing s = true
      ∧ ∃ v, s.frames.round = some v ∧ v.own = false := ⟨rfl, by decide, rfl, by decide, _, rfl, rfl⟩
theorem witness_ClosingFrameThatIsNoGrant :
    (awaitsClosing waitingForGrant = true ∧ ∃ v, waitingForGrant.frames.round = some v ∧ v.own = false)
      ∧ (awaitsClosing (granting .grantWait 5) = true
        ∧ (∃ v, (granting .grantWait 5).frames.round = some v)
        ∧ ∃ r w k c, (granting .grantWait 5).arbiter = .granting r w k c)
      ∧ frameAccepted voidFrame waitingForGrant = true ∧ waitingForGrant.startup.station = .service
      ∧ frameAccepted { voidFrame with flawSlotPulled := true } waitingForGrant = false
      ∧ dataBits callFrame.kindChar = 0x10 :=
  ⟨⟨by decide, _, rfl, rfl⟩, ⟨by decide, ⟨_, rfl⟩, _, _, _, _, rfl⟩, by decide, rfl, by decide, by decide⟩
theorem witness_ClosingFrameThatIsNoGrant_followed :
    followsCall following = true ∧ following.startup.station ≠ .service
      ∧ (∃ v, following.frames.round = some v) ∧ following.arbiter = .idle ∧ following.hold = none
      ∧ flawSlotReads callFrame following = false
      ∧ flawSlotReads { callFrame with flawSlotPulled := true } following = true :=
  ⟨by decide, by decide, ⟨_, rfl⟩, by decide, by decide, by decide, by decide⟩
theorem witness_PickLampFollowsTheHead :
    let shown := fun (l : List PickEntry) => l.head?.map fun e => (e.tag, e.stack, e.overdue)
    shown [] ≠ shown stocked.picks ∧ shown stocked.picks ≠ shown []
      ∧ shown (stocked.picks ++ [⟨9, 2, order, 99, true⟩]) = shown stocked.picks
      ∧ shown [⟨2, 0, order, 98, true⟩] ≠ shown stocked.picks := by decide
theorem witness_NewEntriesStandByStackAndTier :
    ((allPacks holding.stock).map fun p => p.tag).Nodup
      ∧ newEntries [2, 1] order 100 holding.stock ≠ [] := by decide

/-! The bid's arithmetic -/

theorem witness_CostsAndScores :
    let c := callFields callFrame
    let v : ViewPack :=
      { tag := 1, spec := ⟨12, 5, 0⟩, stack := 0, tier := 1, dig := 5, age := 255, state := .free }
    v.dig ≤ 5 ∧ c.spec.grade ≤ 7 ∧ matchesCall c v = true
      ∧ packCost c 62 255 v = 256 + 320 + 62 + 96 - 255
      ∧ 1 ≤ result.selection.length ∧ result.selection.length ≤ min 5 8
      ∧ ∀ a ∈ result.selection, 1 ≤ a.cost ∧ a.cost ≤ 974 := by decide
theorem witness_ComputationSelects :
    ((viewOf stocked.stock).map fun v => (v.stack, v.tier)).Nodup ∧ viewOf stocked.stock ≠ [] := by decide
theorem witness_BidWords :
    (1022 ≤ 1022 ∧ 7 ≤ 7 ∧ 63 ≤ 63)
      ∧ (246 < 361 ∨ (246 = 361 ∧ (3 < 4 ∨ (3 = 4 ∧ 19 < 7))))
      ∧ (300 < 300 ∨ (300 = 300 ∧ (2 < 2 ∨ (2 = 2 ∧ 12 < 33)))) := by decide

/-! The clock and the field lines -/

theorem witness_MinuteStepMovesTheClock :
    State.reset.startup.resetHeld = true ∧ reading.startup.resetHeld = false ∧ reading.clock.isSet = false
      ∧ gate.startup.settings.role = .gate ∧ gate.startup.resetHeld = false
      ∧ stocked.clock.isSet = true ∧ stocked.startup.settings.role = .row
      ∧ stocked.startup.resetHeld = false ∧ stocked.picks ≠ []
      ∧ stocked.clock.second + stocked.clock.fraction / 2000000 + 52 < 60
      ∧ 60 ≤ stocked.clock.second + stocked.clock.fraction / 2000000 + 53 := by decide
theorem witness_OutputsAreLitByTheirPatterns :
    observes State.reset = false ∧ observes row = true
      ∧ row.startup.settings.lines[3].function = .unused
      ∧ row.startup.settings.lines[0].function = .haltIn
      ∧ row.startup.settings.lines[1].function = .closeIn
      ∧ row.startup.settings.lines[5].function = .horn
      ∧ row.startup.settings.lines[4].function = .lineOk
      ∧ isLampFunction row.startup.settings.lines[2].function = true := by decide
/-- The row whose HALT IN line's raw level has this value and whose filtered level has the other. -/
def switched (raw : Bool) : State :=
  { row with
    signal := { row.signal with
      inputs := row.signal.inputs.set 0 { raw := raw, filtered := !raw, timer := some 1 } } }
theorem witness_InputsAreFiltered :
    observes row = true ∧ isInputFunction row.startup.settings.lines[0].function = true
      ∧ (switched true).signal.inputs[0].timer ≠ none
      ∧ (switched true).signal.inputs[0].raw ≠ (switched true).signal.inputs[0].filtered
      ∧ haltAsserted (switched true) = false ∧ haltAsserted (after (.filterExpiry 0) (switched true)) = true
      ∧ haltAsserted (switched false) = true
      ∧ haltAsserted (after (.filterExpiry 0) (switched false)) = false
      ∧ haltAsserted (after (.filterExpiry 1) row) = haltAsserted row := by decide
/-- R142: two HALT IN lines due at one moment. Changing one way they make one change of halt; where one
asserts and the other releases the order decides, log entry 31. -/
theorem test_halt_lines_crossing :
    let s := fun (first second : Bool) => { row with
      startup := { row.startup with settings := { rowSettings with
        lines := rowLines.set 3 ⟨.haltIn, false⟩ } }
      signal := { row.signal with
        inputs := (row.signal.inputs.set 0 { raw := first, filtered := !first, timer := some 1 }).set 3
          { raw := second, filtered := !second, timer := some 1 } } }
    haltAsserted (after (.filterExpiry 0) (s true true)) = true
      ∧ after (.filterExpiry 3) (after (.filterExpiry 0) (s true true))
        = after (.filterExpiry 0) (after (.filterExpiry 3) (s true true))
      ∧ haltAsserted (after (.filterExpiry 0) (s false false)) = true
      ∧ haltAsserted (after (.filterExpiry 3) (after (.filterExpiry 0) (s false false))) = false
      ∧ haltAsserted (after (.filterExpiry 0) (s true false)) = true
      ∧ haltAsserted (after (.filterExpiry 3) (s true false)) = false := by decide
/-- R141, R142, R64: CLOSE IN is asserted and released through its filter; close moves no other thing, and a
row with it asserted is not eligible. -/
theorem test_close :
    let s : State := { stocked with
      signal := { stocked.signal with
        inputs := stocked.signal.inputs.set 1 { raw := true, filtered := false, timer := some 1 } } }
    let t := after (.filterExpiry 1) s
    closeAsserted s = false ∧ closeAsserted t = true ∧ haltAsserted t = false ∧ levelsByte t = 2
      ∧ t.signal.lamps = s.signal.lamps ∧ eligible (callFields callFrame) true s = true
      ∧ eligible (callFields callFrame) true t = false := by decide
theorem witness_LampsStageRequests :
    isLampFunction .pickLamp = true ∧ row.startup.settings.lines[2].function = .pickLamp
      ∧ row.signal.lamps[2].current = .off
      ∧ (requestPattern .pickLamp (.burst 3) row).signal.lamps[2].current ≠ .off
      ∧ (requestPattern .pickLamp (.burst 3) row).signal.lamps[2].current ≠ .steady
      ∧ (requestPattern .pickLamp (.burst 3) row).signal.lamps[2].staged = none
      ∧ (requestPattern .pickLamp (.burst 7) (requestPattern .pickLamp (.burst 3) row)).signal.lamps[2].staged
          = some (.burst 7)
      ∧ hasCycle (readyPattern listening) = true ∧ row.signal.horn = none := by decide
theorem witness_HornExpiry :
    { row.signal with horn := some 5 }.horn = some 5 ∧ 5 ≤ 5 ∧ 4 < 5 := by decide
theorem witness_ReadyRestarts :
    YardLineSound (sendingNotice 2)
      ∧ exec .bodyCollision (sendingNotice 2) = .next (after .bodyCollision (sendingNotice 2))
      ∧ readyPattern (after .bodyCollision (sendingNotice 2)) ≠ readyPattern (sendingNotice 2)
      ∧ readyPattern (after .hornExpiry (sendingNotice 2)) = readyPattern (sendingNotice 2) :=
  ⟨yardLineSound_sendingNotice, rfl, by decide, by decide⟩

/-! The truck table -/

theorem witness_LineTruckAndBayStates :
    orderLineSound (orderLine 4 0 [⟨9, 4, 1⟩]) ∧ TrucksSound loading.trucks
      ∧ (∃ u ∈ loading.trucks, u.bay = 3) ∧ (loading.trucks.map fun u => u.ticket).Nodup :=
  ⟨orderLineSound_example, trucksSound_loading, by decide, by decide⟩
theorem witness_ChosenCall :
    (gate.startup.station = .service ∧ gate.startup.settings.role = .gate ∧ haltAsserted gate = false)
      ∧ ¬ (row.startup.settings.role = .gate) := by decide
theorem witness_TableChangesAreAnnounced :
    loading.port.transmit.length ≤ 4 ∧ gate.startup.settings.lines[1].function = .bayLamp (0 + 1)
      ∧ (loading.arbiter = .idle) ∧ closing.arbiter = .calling call
      ∧ newlyLoaded loading.trucks [truck 1207 3 [{ orderLine 4 0 [] with closed := 4 }]] = [1207] := by
  decide

/-! The terminal port -/

/-- The row with these characters in assembly. -/
def assembling (m : List Byte) (s : State) : State := { s with port := { s.port with assembly := m } }
theorem witness_CharactersMakeMessages :
    row.startup.station ≠ .config ∧ row.port.breakHeld = false ∧ row.port.assembly = []
      ∧ terminalFlaw (portParity row) ⟨0x26, true, false, true⟩ = false
      ∧ terminalFlaw (portParity row) ⟨0x26, false, false, false⟩ = true
      ∧ messageComplete [0x26] = false ∧ messageComplete [0x26, 3] = true ∧ messageComplete [0x27] = true
      ∧ (assembling [0x26] row).port.assembly ≠ [] ∧ row.port.waiting = none
      ∧ (waitingFor [0x27] row).port.waiting ≠ none := by decide
/-- The row in this station state. -/
def inState (station : StationState) : State := { row with startup := { row.startup with station := station } }
theorem witness_CharactersMakeMessages_wire :
    let s := transmit [0xA6, 0x00] (transmit [0xB3, 0x00] row)
    s.startup.station ≠ .config
      ∧ s.port.transmit.flatMap terminalCharacters
        = [sentTermChar true 0xB3, sentTermChar false 0x00] ++ sentTermChar true 0xA6
          :: [sentTermChar false 0x00]
      ∧ 5 ≤ characterBits s ∧ (sendBits s)[0]? = some false ∧ (sendBits s).length ≤ 44
      ∧ reading.startup.station = .config ∧ (inState .configFault).startup.station = .configFault := by
  decide
theorem witness_CharactersMakeMessages_truckIn :
    [(0x04 : Byte), 0xB7, 3, 4][3]? = some 4 ∧ (4 : Byte).toNat ≤ 4 ∧ 4 < (5 : Byte).toNat
      ∧ codeKnown 0x41 = false := by decide
theorem witness_CharactersMakeMessages_break :
    (after .breakCondition row).startup.station ≠ .config ∧ (after .breakCondition row).port.breakHeld = true := by
  decide
theorem witness_PortAnswersAndRefuses :
    (∀ station, (waitingFor [0x27] (inState station)).port.waiting = some [0x27]
        ∧ deferring (waitingFor [0x27] (inState station)) = false
        ∧ (waitingFor [0x27] (inState station)).port.transmit.length < 4)
      ∧ deferring (computing 1) = true ∧ codeKnown 0x27 = true ∧ codeKnown 0x40 = true
      ∧ codeKnown 0x28 = false ∧ row.startup.settings.role = .row
      ∧ ((0x27 : Byte) ∈ [0x40, 0x26, 0x27, 0x34]) ∧ ((0x21 : Byte) ∉ [0x40, 0x26, 0x27, 0x34])
      ∧ ((0x34 : Byte) ∈ [0x31, 0x32, 0x33, (0x34 : Byte)])
      ∧ (waitingFor [0x40] (inState .configFault)).port.waiting = some [0x40] := by
  refine ⟨?_, by decide, by decide, by decide, by decide, by decide, by decide, by decide, by decide,
    by decide⟩
  intro station
  cases station <;> decide

/-! The loader's messages -/

theorem rowTakes (m : List Byte) : RowTakes m (waitingFor m stocked) :=
  ⟨rfl, .inl rfl, rfl, rfl, rfl, (by decide : 0 < 4)⟩
theorem witness_PutAddsAFreePackOnTop :
    RowTakes (putMessage 4294967295 63 15 7 3) (waitingFor (putMessage 4294967295 63 15 7 3) stocked)
      ∧ stocked.startup.settings.stackLimit ≤ 16 ∧ 1 ≤ (4294967295 : BitVec 32).toNat
      ∧ (63 : Byte).toNat ≤ 63 ∧ (15 : Byte).toNat ≤ 15 ∧ (7 : Byte).toNat ≤ 7
      ∧ (3 : Byte).toNat < stocked.startup.settings.stackLimit
      ∧ (∀ p ∈ allPacks stocked.stock, p.tag ≠ (4294967295 : BitVec 32).toNat)
      ∧ (stackAt stocked.stock 3).length < stocked.startup.settings.tierLimit :=
  ⟨rowTakes _, by decide, by decide, by decide, by decide, by decide, by decide, by decide, by decide⟩
theorem witness_TakeRemovesTheTopPack :
    RowTakes (takeMessage 2) (waitingFor (takeMessage 2) stocked)
      ∧ ((allPacks stocked.stock).map fun q => q.tag).Nodup
      ∧ stackAt stocked.stock 0 = [pack 1 12 5 2 30 .free] ++ [pack 2 12 5 2 4 (.reserved order)]
      ∧ (pack 2 12 5 2 4 (.reserved order)).tag = (2 : BitVec 32).toNat
      ∧ (pack 2 12 5 2 4 (.reserved order)).state ≠ .held
      ∧ stackAt stocked.stock 1 = [] ++ [pack 3 12 5 1 0 .qhold] :=
  ⟨rowTakes _, by decide, by decide, by decide, by decide, by decide⟩
theorem witness_ShiftMovesTheTopPack :
    RowTakes (shiftMessage 2 3) (waitingFor (shiftMessage 2 3) stocked)
      ∧ stocked.startup.settings.stackLimit ≤ 16 ∧ (3 : Byte).toNat < stocked.startup.settings.stackLimit
      ∧ (3 : Byte).toNat ≠ 0 ∧ (0 : Byte).toNat = 0
      ∧ (stackAt stocked.stock 3).length < stocked.startup.settings.tierLimit :=
  ⟨rowTakes _, by decide, by decide, by decide, by decide, by decide⟩
theorem witness_HoldPackAndFreePack :
    (RowTakes (holdPackMessage 1) (waitingFor (holdPackMessage 1) stocked)
      ∧ RowTakes (freePackMessage 3) (waitingFor (freePackMessage 3) stocked))
      ∧ pack 1 12 5 2 30 .free ∈ allPacks stocked.stock
      ∧ pack 2 12 5 2 4 (.reserved order) ∈ allPacks stocked.stock
      ∧ pack 3 12 5 1 0 .qhold ∈ allPacks stocked.stock :=
  ⟨⟨rowTakes _, rowTakes _⟩, by decide, by decide, by decide⟩
theorem gateTakes (m : List Byte) : GateTakes m (waitingFor m loading) :=
  ⟨rfl, .inl rfl, rfl, .inl rfl, rfl, (by decide : 0 < 4)⟩
theorem witness_ListsAnswer :
    RowAnswers (listStackMessage 3) (waitingFor (listStackMessage 3) stocked)
      ∧ RowAnswers (listStackMessage 3) (waitingFor (listStackMessage 3) (doubled stocked))
      ∧ (3 : Byte).toNat < stocked.startup.settings.stackLimit
      ∧ RowAnswers listPicksMessage (waitingFor listPicksMessage stocked)
      ∧ GateAnswers (listTruckMessage 1207) (waitingFor (listTruckMessage 1207) loading)
      ∧ GateAnswers (listTruckMessage 1207) (waitingFor (listTruckMessage 1207) (doubled loading))
      ∧ (findTruck (1207 : BitVec 16).toNat loading.trucks).isSome = true :=
  ⟨(rowTakes _).2, ⟨.inr rfl, rfl, rfl, rfl, by decide⟩, by decide, (rowTakes _).2, (gateTakes _).2,
    ⟨.inr rfl, rfl, .inl rfl, rfl, by decide⟩, by decide⟩
theorem witness_ClerkMessages :
    GateTakes (truckInMessage 1300 8 1 [⟨63, 15, 7, 1, 99⟩])
        (waitingFor (truckInMessage 1300 8 1 [⟨63, 15, 7, 1, 99⟩]) loading)
      ∧ (∀ u ∈ loading.trucks, u.ticket ≠ (1300 : BitVec 16).toNat) ∧ loading.trucks.length < 12
      ∧ (∀ u ∈ loading.trucks, u.bay = (8 : Byte).toNat → u.ticket = (1300 : BitVec 16).toNat)
      ∧ GateTakes (truckBayMessage 1207 0) (waitingFor (truckBayMessage 1207 0) loading)
      ∧ (∃ u ∈ loading.trucks, u.ticket = (1207 : BitVec 16).toNat)
      ∧ GateTakes (truckOutMessage 1207) (waitingFor (truckOutMessage 1207) loading)
      ∧ (∃ u, findTruck (1207 : BitVec 16).toNat loading.trucks = some u
          ∧ ∃ l ∈ u.lines, ∃ a ∈ l.awards, a.taken < a.granted)
      ∧ ∃ u, findTruck 9 [truck 9 0 [orderLine 5 0 []]] = some u
          ∧ ∀ l ∈ u.lines, ∀ a ∈ l.awards, a.granted ≤ a.taken :=
  ⟨gateTakes _, by decide, by decide, by decide, gateTakes _, by decide, gateTakes _,
    ⟨_, rfl, by decide⟩, _, rfl, by decide⟩
theorem witness_RefusedMessages_row :
    RowTakes (putMessage 0 12 5 2 0) (waitingFor (putMessage 0 12 5 2 0) stocked)
      ∧ RowTakes (putMessage 1 12 5 2 0) (waitingFor (putMessage 1 12 5 2 0) stocked)
      ∧ (∃ p ∈ allPacks stocked.stock, p.tag = (1 : BitVec 32).toNat)
      ∧ (∀ p ∈ allPacks stocked.stock, p.tag ≠ (9 : BitVec 32).toNat)
      ∧ stackAt stocked.stock 0 = [] ++ pack 1 12 5 2 30 .free :: [pack 2 12 5 2 4 (.reserved order)]
      ∧ stackAt holding.stock 0 = [pack 1 12 5 2 30 .held] ++ pack 2 12 5 2 4 .held :: []
      ∧ RowAnswers (listStackMessage 4) (waitingFor (listStackMessage 4) stocked)
      ∧ stocked.startup.settings.stackLimit ≤ (4 : Byte).toNat :=
  ⟨rowTakes _, rowTakes _, by decide, by decide, by decide, by decide, (rowTakes _).2, by decide⟩
theorem witness_RefusedMessages_full :
    let s : State := { stocked with
      stock := stock [pack 1 12 5 2 0 .free, pack 2 12 5 2 0 .free, pack 3 12 5 2 0 .free] [pack 4 12 5 2 0 .free] }
    RowTakes (putMessage 9 12 5 2 0) (waitingFor (putMessage 9 12 5 2 0) s)
      ∧ s.startup.settings.tierLimit ≤ (stackAt s.stock (0 : Byte).toNat).length
      ∧ RowTakes (shiftMessage 4 0) (waitingFor (shiftMessage 4 0) s)
      ∧ stackAt s.stock 1 = [] ++ pack 4 12 5 2 0 .free :: [] :=
  ⟨⟨rfl, .inl rfl, rfl, rfl, rfl, by decide⟩, by decide, ⟨rfl, .inl rfl, rfl, rfl, rfl, by decide⟩,
    by decide⟩
theorem witness_RefusedMessages_gate :
    GateTakes (truckInMessage 0 3 1 [⟨12, 5, 2, 1, 5⟩])
        (waitingFor (truckInMessage 0 3 1 [⟨12, 5, 2, 1, 5⟩]) loading)
      ∧ GateTakes (truckBayMessage 9 9) (waitingFor (truckBayMessage 9 9) loading)
      ∧ (∃ u ∈ loading.trucks, u.bay = (3 : Byte).toNat ∧ u.ticket ≠ (1300 : BitVec 16).toNat)
      ∧ 12 ≤ (List.replicate 12 (truck 9 0 [])).length
      ∧ ¬ ∃ u ∈ loading.trucks, u.ticket = (9 : BitVec 16).toNat :=
  ⟨gateTakes _, gateTakes _, by decide, by decide, by decide⟩

/-! The invariants, in states no reset gives -/

theorem rowSound_stocked : RowSound stocked := by
  refine ⟨⟨by decide, ?_, by decide, by decide, by decide, by decide⟩, ⟨by decide, by decide⟩,
    ⟨by decide, by decide, by decide, by decide⟩, .inl rfl⟩
  intro p hp
  have : p ∈ [pack 1 12 5 2 30 .free, pack 2 12 5 2 4 (.reserved order), pack 3 12 5 1 0 .qhold] := hp
  simp only [List.mem_cons, List.not_mem_nil, or_false] at this
  rcases this with rfl | rfl | rfl <;>
    exact ⟨by decide, by decide, by decide, by decide, by decide, by decide⟩
theorem witness_EveryStepKeepsTheRowSound : RowSound stocked ∧ ∃ t, step stocked = .next t :=
  ⟨rowSound_stocked, _, rfl⟩
theorem witness_EveryStepKeepsTheGateSound :
    GateSound (granting .grantWait 5) ∧ ∃ t, step (granting .grantWait 5) = .next t :=
  ⟨⟨trucksSound_loading, ⟨by decide, by decide, .inr ⟨orderLine 5 2 [], rfl, by decide⟩⟩,
    by intro c hc; cases hc⟩, _, rfl⟩
theorem witness_EveryStepKeepsCountersAndPortSound :
    CountersSound bidding ∧ PortSound (assembling [0x26] (waitingFor [0x27] bidding))
      ∧ ∃ t, step bidding = .next t :=
  ⟨⟨by decide, by decide, by decide, by intro v hv; cases hv; decide, ⟨by decide, by decide⟩, by decide, by decide, by decide⟩,
    ⟨by decide, by intro m hm; cases hm; decide, by decide⟩, _, rfl⟩

end Sys2Proof.Tests
end

