-- ==== Sys2Proof/Proofs/MoreLaws.lean ====
section
/-! PROOF. What the operations on heard frames and rounds leave alone, where Laws/ has no lemma for them: one
lemma per field. -/

namespace Sys2Proof.Machine

variable (s : State)

/-! reportHeard -/

@[simp] theorem reportHeard_startup {n : Nat} (f : RxFrame n) (confirm : Bool) :
    (reportHeard f confirm s).startup = s.startup := rfl

@[simp] theorem reportHeard_frames {n : Nat} (f : RxFrame n) (confirm : Bool) :
    (reportHeard f confirm s).frames = s.frames := rfl

@[simp] theorem reportHeard_stock {n : Nat} (f : RxFrame n) (confirm : Bool) :
    (reportHeard f confirm s).stock = s.stock := rfl

@[simp] theorem reportHeard_bid {n : Nat} (f : RxFrame n) (confirm : Bool) :
    (reportHeard f confirm s).bid = s.bid := rfl

@[simp] theorem reportHeard_hold {n : Nat} (f : RxFrame n) (confirm : Bool) :
    (reportHeard f confirm s).hold = s.hold := rfl

@[simp] theorem reportHeard_picks {n : Nat} (f : RxFrame n) (confirm : Bool) :
    (reportHeard f confirm s).picks = s.picks := rfl

@[simp] theorem reportHeard_trucks {n : Nat} (f : RxFrame n) (confirm : Bool) :
    (reportHeard f confirm s).trucks = s.trucks := rfl

@[simp] theorem reportHeard_arbiter {n : Nat} (f : RxFrame n) (confirm : Bool) :
    (reportHeard f confirm s).arbiter = s.arbiter := rfl

@[simp] theorem reportHeard_clock {n : Nat} (f : RxFrame n) (confirm : Bool) :
    (reportHeard f confirm s).clock = s.clock := rfl

@[simp] theorem reportHeard_signal {n : Nat} (f : RxFrame n) (confirm : Bool) :
    (reportHeard f confirm s).signal = s.signal := rfl

@[simp] theorem reportHeard_port {n : Nat} (f : RxFrame n) (confirm : Bool) :
    (reportHeard f confirm s).port = s.port := rfl

@[simp] theorem reportHeard_pending {n : Nat} (f : RxFrame n) (confirm : Bool) :
    (reportHeard f confirm s).pending = s.pending := rfl


/-- R22: of the line the report of a heard frame changes its field alone. -/
@[simp] theorem reportHeard_line {n : Nat} (f : RxFrame n) (confirm : Bool) :
    (reportHeard f confirm s).line = { s.line with
      report := some ⟨if frameAccepted f s then .accepted else .discarded, flawSlotReads f s,
        f.confirmSlotPulled || confirm, pullsFlawSlot f s, confirm⟩ } := rfl

/-! hearHeader -/

@[simp] theorem hearHeader_startup {n : Nat} (f : RxFrame n) :
    (hearHeader f s).startup = s.startup := by
  unfold hearHeader; split <;> simp

@[simp] theorem hearHeader_line {n : Nat} (f : RxFrame n) :
    (hearHeader f s).line = s.line := by
  unfold hearHeader; split <;> simp

@[simp] theorem hearHeader_frames {n : Nat} (f : RxFrame n) :
    (hearHeader f s).frames = s.frames := by
  unfold hearHeader; split <;> simp

@[simp] theorem hearHeader_bid {n : Nat} (f : RxFrame n) :
    (hearHeader f s).bid = s.bid := by
  unfold hearHeader; split <;> simp

@[simp] theorem hearHeader_hold {n : Nat} (f : RxFrame n) :
    (hearHeader f s).hold = s.hold := by
  unfold hearHeader; split <;> simp

@[simp] theorem hearHeader_trucks {n : Nat} (f : RxFrame n) :
    (hearHeader f s).trucks = s.trucks := by
  unfold hearHeader; split <;> simp

@[simp] theorem hearHeader_arbiter {n : Nat} (f : RxFrame n) :
    (hearHeader f s).arbiter = s.arbiter := by
  unfold hearHeader; split <;> simp

@[simp] theorem hearHeader_pending {n : Nat} (f : RxFrame n) :
    (hearHeader f s).pending = s.pending := by
  unfold hearHeader; split <;> simp


/-! heard -/

@[simp] theorem heard_startup {n : Nat} (f : RxFrame n) :
    (heard f s).startup = s.startup := by
  unfold heard; split <;> simp

@[simp] theorem heard_bid {n : Nat} (f : RxFrame n) :
    (heard f s).bid = s.bid := by
  unfold heard; split <;> simp

@[simp] theorem heard_hold {n : Nat} (f : RxFrame n) :
    (heard f s).hold = s.hold := by
  unfold heard; split <;> simp

@[simp] theorem heard_trucks {n : Nat} (f : RxFrame n) :
    (heard f s).trucks = s.trucks := by
  unfold heard; split <;> simp

@[simp] theorem heard_arbiter {n : Nat} (f : RxFrame n) :
    (heard f s).arbiter = s.arbiter := by
  unfold heard; split <;> simp

@[simp] theorem heard_pending {n : Nat} (f : RxFrame n) :
    (heard f s).pending = s.pending := by
  unfold heard; split <;> simp


/-! toStretch -/

@[simp] theorem toStretch_startup :
    (toStretch s).startup = s.startup := rfl

@[simp] theorem toStretch_stock :
    (toStretch s).stock = s.stock := rfl

@[simp] theorem toStretch_bid :
    (toStretch s).bid = s.bid := rfl

@[simp] theorem toStretch_hold :
    (toStretch s).hold = s.hold := rfl

@[simp] theorem toStretch_picks :
    (toStretch s).picks = s.picks := rfl

@[simp] theorem toStretch_trucks :
    (toStretch s).trucks = s.trucks := rfl

@[simp] theorem toStretch_arbiter :
    (toStretch s).arbiter = s.arbiter := rfl

@[simp] theorem toStretch_clock :
    (toStretch s).clock = s.clock := rfl

@[simp] theorem toStretch_signal :
    (toStretch s).signal = s.signal := rfl

@[simp] theorem toStretch_port :
    (toStretch s).port = s.port := rfl

@[simp] theorem toStretch_pending :
    (toStretch s).pending = s.pending := rfl


/-! beginComputing -/

@[simp] theorem beginComputing_startup (c : CallFields) :
    (beginComputing c s).startup = s.startup := rfl

@[simp] theorem beginComputing_stock (c : CallFields) :
    (beginComputing c s).stock = s.stock := rfl

@[simp] theorem beginComputing_hold (c : CallFields) :
    (beginComputing c s).hold = s.hold := rfl

@[simp] theorem beginComputing_picks (c : CallFields) :
    (beginComputing c s).picks = s.picks := rfl

@[simp] theorem beginComputing_trucks (c : CallFields) :
    (beginComputing c s).trucks = s.trucks := rfl

@[simp] theorem beginComputing_arbiter (c : CallFields) :
    (beginComputing c s).arbiter = s.arbiter := rfl

@[simp] theorem beginComputing_clock (c : CallFields) :
    (beginComputing c s).clock = s.clock := rfl

@[simp] theorem beginComputing_signal (c : CallFields) :
    (beginComputing c s).signal = s.signal := rfl

@[simp] theorem beginComputing_port (c : CallFields) :
    (beginComputing c s).port = s.port := rfl

@[simp] theorem beginComputing_pending (c : CallFields) :
    (beginComputing c s).pending = s.pending := rfl


/-! openRound -/

@[simp] theorem openRound_startup (f : RxFrame 6) :
    (openRound f s).startup = s.startup := by
  unfold openRound; split <;> simp

@[simp] theorem openRound_bid (f : RxFrame 6) :
    (openRound f s).bid = s.bid := by
  unfold openRound; split <;> simp

@[simp] theorem openRound_picks (f : RxFrame 6) :
    (openRound f s).picks = s.picks := by
  unfold openRound; split <;> simp

@[simp] theorem openRound_trucks (f : RxFrame 6) :
    (openRound f s).trucks = s.trucks := by
  unfold openRound; split <;> simp

@[simp] theorem openRound_clock (f : RxFrame 6) :
    (openRound f s).clock = s.clock := by
  unfold openRound; split <;> simp

@[simp] theorem openRound_signal (f : RxFrame 6) :
    (openRound f s).signal = s.signal := by
  unfold openRound; split <;> simp

@[simp] theorem openRound_port (f : RxFrame 6) :
    (openRound f s).port = s.port := by
  unfold openRound; split <;> simp

@[simp] theorem openRound_pending (f : RxFrame 6) :
    (openRound f s).pending = s.pending := by
  unfold openRound; split <;> simp

end Sys2Proof.Machine
end

