-- ==== Sys2Proof/Proofs/YardLineClauses.lean ====
section
/-! PROOF. How a statement about one step follows from one about every command, and what the sound yard
line of R1, R18, R33 and R37 asks of an operation. -/

namespace Sys2Proof.Machine

/-! ### One step, for any predicate -/

/-- Every next state the outcome answers meets P. -/
def Ensures (P : State → Prop) (o : Host.Outcome State Fault Refusal) : Prop :=
  ∀ t, o = .next t → P t

@[simp] theorem ensures_next (P : State → Prop) (t : State) : Ensures P (.next t) ↔ P t :=
  ⟨fun h => h t rfl, fun h u hu => by cases hu; exact h⟩

/-- A predicate that no command and no bt breaks, and that does not speak of the commands that wait, is
kept by every step. -/
theorem step_keeps {P : State → Prop}
    (hpending : ∀ s rest, P s → P { s with pending := rest })
    (htick : ∀ s, P s → P (tick s))
    (hexec : ∀ c s, P s → Ensures P (exec c s)) :
    ∀ s t, P s → step s = .next t → P t := by
  intro s t hs ht
  rcases step_cases s with ⟨-, hstep⟩ | ⟨c, rest, -, hstep⟩
  · rw [hstep] at ht
    cases ht
    exact htick s hs
  · rw [hstep] at ht
    exact hexec c _ (hpending s rest hs) t ht

/-! ### The sound yard line by named clauses -/

/-- The clauses of YardLineSound, by name. -/
structure YardLineClauses (s : State) : Prop where
  silent : s.startup.station ≠ .service →
    s.line.driving = .nothing ∧ sentFrame s = none ∧ s.line.condition ≠ .recovering ∧ s.arbiter = .idle
  room : s.frames.queue.length ≤ 16
  entries : ∀ n ∈ s.frames.queue, noticeSound n
  tailWaits : ∀ n ∈ s.frames.queue.tail, n.inFlight = false
  headFlies : sentKind s = some .notice ↔ ∃ n ∈ s.frames.queue.head?, n.inFlight = true
  outsideRound : sentKind s = some .notice ∨ sentKind s = some .call → s.frames.round = none
  sendsBusy : sentFrame s ≠ none → s.line.condition = .busy
  faultFollowsNothing : s.line.condition ≠ .quiet → s.line.condition ≠ .busy →
    s.line.activity = .nothing ∧ s.frames.round = none
  noRoundYet : (∃ wires, s.line.activity = .observing wires) ∨ s.startup.station = .config →
    s.frames.round = none

theorem yardLineSound_iff (s : State) : YardLineSound s ↔ YardLineClauses s :=
  ⟨fun ⟨h₁, h₂, h₃, h₄, h₅, h₆, h₇, h₈, h₉⟩ => ⟨h₁, h₂, h₃, h₄, h₅, h₆, h₇, h₈, h₉⟩,
    fun h => ⟨h.silent, h.room, h.entries, h.tailWaits, h.headFlies, h.outsideRound, h.sendsBusy,
      h.faultFollowsNothing, h.noRoundYet⟩⟩

theorem sentFrame_congr {s t : State} (h : t.line.activity = s.line.activity) :
    sentFrame t = sentFrame s := by
  unfold sentFrame; rw [h]

theorem sentKind_congr {s t : State} (h : t.line.activity = s.line.activity) :
    sentKind t = sentKind s := by
  unfold sentKind; rw [sentFrame_congr h]

/-- An activity of a station that sends no frame and is past the start of observation (R18). -/
def followsLine : Activity → Bool
  | .nothing => true
  | .observing _ => false
  | .stray => true
  | .dwPulled => true
  | .startMark => true
  | .receiving => true
  | .sending _ => false

theorem sentFrame_eq_none_iff (s : State) :
    sentFrame s = none ↔ ∀ f, s.line.activity ≠ .sending f := by
  unfold sentFrame
  cases s.line.activity <;> simp

theorem sentKind_of_sending {s : State} {f : SentFrame} (h : s.line.activity = .sending f) :
    sentKind s = some f.kind := by
  simp [sentKind, sentFrame, h]

theorem sentFrame_of_follows {s : State} (h : followsLine s.line.activity = true) :
    sentFrame s = none := by
  rw [sentFrame_eq_none_iff]
  intro f hf
  simp [hf, followsLine] at h

theorem sentKind_of_sentFrame {s : State} (h : sentFrame s = none) : sentKind s = none := by
  simp [sentKind, h]

/-- Entries that are sound and not in flight, at most 16 of them (R33). -/
def WaitingQueue (queue : List Notice) : Prop :=
  queue.length ≤ 16 ∧ ∀ n ∈ queue, noticeSound n ∧ n.inFlight = false

/-- While no notice is sent, every entry of the queue waits. -/
theorem YardLineSound.waitingQueue {s : State} (h : YardLineSound s)
    (hk : sentKind s ≠ some .notice) : WaitingQueue s.frames.queue := by
  have hc := (yardLineSound_iff s).1 h
  refine ⟨hc.room, fun n hn => ⟨hc.entries n hn, ?_⟩⟩
  have hhead : ¬ ∃ m ∈ s.frames.queue.head?, m.inFlight = true := fun hm => hk (hc.headFlies.2 hm)
  have htail := hc.tailWaits
  cases hq : s.frames.queue with
  | nil => simp [hq] at hn
  | cons m rest =>
    simp only [hq, List.head?_cons, Option.mem_some_iff, exists_eq_left', List.tail_cons, List.mem_cons]
      at hhead htail hn
    rcases hn with rfl | hn
    · simpa using hhead
    · exact htail n hn

/-- A station that sends nothing, with a queue that waits, is sound when its line is. -/
theorem yardLineSound_of_waiting {t : State}
    (hsilent : t.startup.station ≠ .service →
      t.line.driving = .nothing ∧ t.line.condition ≠ .recovering ∧ t.arbiter = .idle)
    (hqueue : WaitingQueue t.frames.queue) (hsent : sentFrame t = none)
    (hfault : t.line.condition ≠ .quiet → t.line.condition ≠ .busy →
      t.line.activity = .nothing ∧ t.frames.round = none)
    (hround : (∃ wires, t.line.activity = .observing wires) ∨ t.startup.station = .config →
      t.frames.round = none) : YardLineSound t := by
  have hkind := sentKind_of_sentFrame hsent
  refine (yardLineSound_iff t).2
    { silent := fun hst => ?_
      room := hqueue.1
      entries := fun n hn => (hqueue.2 n hn).1
      tailWaits := fun n hn => (hqueue.2 n (List.mem_of_mem_tail hn)).2
      headFlies := ?_
      outsideRound := by simp [hkind]
      sendsBusy := fun hs => absurd hsent hs
      faultFollowsNothing := hfault
      noRoundYet := hround }
  · obtain ⟨hdriving, hcondition, harbiter⟩ := hsilent hst
    exact ⟨hdriving, hsent, hcondition, harbiter⟩
  · simp only [hkind, reduceCtorEq, false_iff, not_exists, not_and, Bool.not_eq_true]
    exact fun n hn => (hqueue.2 n (List.mem_of_mem_head? hn)).2

/-- What carries the yard line over from one state to the next: the same station state, activity, line
condition and queue, a round where there was one; and outside SERVICE a station that drives nothing and an
arbiter that is IDLE stay so. -/
structure SameLine (s t : State) : Prop where
  station : t.startup.station = s.startup.station
  driving : t.startup.station ≠ .service → s.line.driving = .nothing → t.line.driving = .nothing
  activity : t.line.activity = s.line.activity
  condition : t.line.condition = s.line.condition
  queue : t.frames.queue = s.frames.queue
  round : t.frames.round = none ↔ s.frames.round = none
  arbiter : t.startup.station ≠ .service → s.arbiter = .idle → t.arbiter = .idle

theorem YardLineSound.carry {s t : State} (h : YardLineSound s) (e : SameLine s t) :
    YardLineSound t := by
  have hc := (yardLineSound_iff s).1 h
  have hf := sentFrame_congr e.activity
  have hk := sentKind_congr e.activity
  refine (yardLineSound_iff t).2
    { silent := fun hst => ?_
      room := by rw [e.queue]; exact hc.room
      entries := by rw [e.queue]; exact hc.entries
      tailWaits := by rw [e.queue]; exact hc.tailWaits
      headFlies := by rw [e.queue, hk]; exact hc.headFlies
      outsideRound := by rw [hk, e.round]; exact hc.outsideRound
      sendsBusy := by rw [hf, e.condition]; exact hc.sendsBusy
      faultFollowsNothing := by rw [e.condition, e.activity, e.round]; exact hc.faultFollowsNothing
      noRoundYet := by rw [e.activity, e.station, e.round]; exact hc.noRoundYet }
  obtain ⟨hdriving, hsent, hcondition, harbiter⟩ := hc.silent (e.station ▸ hst)
  exact ⟨e.driving hst hdriving, hf.trans hsent, e.condition ▸ hcondition, e.arbiter hst harbiter⟩

/-- An operation that leaves start-up, line, frames and arbiter alone. -/
theorem SameLine.of_eq {s t : State}
    (e : t.startup = s.startup ∧ t.line = s.line ∧ t.frames = s.frames ∧ t.arbiter = s.arbiter) :
    SameLine s t := by
  obtain ⟨hst, hl, hf, ha⟩ := e
  constructor <;> simp [hst, hl, hf, ha]

theorem YardLineSound.same {s t : State} (h : YardLineSound s)
    (e : t.startup = s.startup ∧ t.line = s.line ∧ t.frames = s.frames ∧ t.arbiter = s.arbiter) :
    YardLineSound t :=
  h.carry (.of_eq e)

/-- A command that changes nothing but where its condition holds. -/
theorem YardLineSound.ite {s t : State} (h : YardLineSound s) (e : SameLine s t) (c : Prop)
    [Decidable c] : YardLineSound (if c then t else s) := by
  split
  · exact h.carry e
  · exact h

/-- What ends a frame, a round or an activity outside frames: the queue waits, the line is QUIET or BUSY
from now on, and the station sends no frame. -/
theorem YardLineSound.settleQueue {s t : State} (h : YardLineSound s)
    (hqueue : WaitingQueue t.frames.queue)
    (hst : t.startup.station = s.startup.station)
    (hdriving : t.startup.station ≠ .service → s.line.driving = .nothing → t.line.driving = .nothing)
    (hcondition : t.line.condition = .quiet ∨ t.line.condition = .busy)
    (hactivity : followsLine t.line.activity = true)
    (hround : t.startup.station = .config → s.frames.round = none → t.frames.round = none)
    (harbiter : t.startup.station ≠ .service → s.arbiter = .idle → t.arbiter = .idle) :
    YardLineSound t := by
  have hc := (yardLineSound_iff s).1 h
  refine yardLineSound_of_waiting (fun hser => ?_) hqueue
    (sentFrame_of_follows hactivity) (fun hq hb => ?_) (fun hor => ?_)
  · obtain ⟨hd, -, -, ha⟩ := hc.silent (hst ▸ hser)
    refine ⟨hdriving hser hd, ?_, harbiter hser ha⟩
    rcases hcondition with hq | hb <;> simp [*]
  · exact absurd hcondition (by simp [hq, hb])
  · rcases hor with ⟨w, hw⟩ | hconf
    · simp [hw, followsLine] at hactivity
    · exact hround hconf (hc.noRoundYet (.inr (hst ▸ hconf)))

/-- The same where the queue stays and no notice was being sent. -/
theorem YardLineSound.settle {s t : State} (h : YardLineSound s) (hk : sentKind s ≠ some .notice)
    (hst : t.startup.station = s.startup.station)
    (hdriving : t.startup.station ≠ .service → s.line.driving = .nothing → t.line.driving = .nothing)
    (hcondition : t.line.condition = .quiet ∨ t.line.condition = .busy)
    (hactivity : followsLine t.line.activity = true)
    (hqueue : t.frames.queue = s.frames.queue)
    (hround : t.startup.station = .config → s.frames.round = none → t.frames.round = none)
    (harbiter : t.startup.station ≠ .service → s.arbiter = .idle → t.arbiter = .idle) :
    YardLineSound t :=
  h.settleQueue (hqueue ▸ h.waitingQueue hk) hst hdriving hcondition hactivity hround harbiter

end Sys2Proof.Machine
end

