-- ==== Sys2Proof/Proofs/Answers.lean ====
section
/-! PROOF. What the terminal's messages can do to a predicate of the state: an answer is made of a few
updates, so a predicate that these updates keep is kept by every message. -/

namespace Sys2Proof.Machine

/-! R27, R28, R33: the notices that producers give are sound. -/

/-- What R33 asks of a body that a producer gives. -/
def givable (body : NoticeBody) : Prop := noticeSound (newEntry body)

theorem givable_hail (serial : BitVec 32) : givable (.hail serial) := ⟨Nat.zero_le 2, trivial⟩

theorem givable_void (ticket : Nat) : givable (.void ticket) := ⟨Nat.zero_le 2, trivial⟩

theorem givable_arrive (spec : PackSpec) : givable (.arrive spec) := ⟨Nat.zero_le 2, trivial⟩

theorem givable_taken_one (key : OrderKey) : givable (.taken key 1) :=
  ⟨Nat.zero_le 2, Nat.le_refl 1, by decide⟩

theorem givable_lapse_one (key : OrderKey) : givable (.lapse key 1) :=
  ⟨Nat.zero_le 2, Nat.le_refl 1, by decide⟩

/-! The updates that answers are made of -/

/-- P holds while an owner works on the message, Q once the reply is in the queue, and between messages. -/
structure AnswerRules (P Q : State → Prop) : Prop where
  arrive : ∀ m s, Q s → Q (arriveMessage m s)
  take : ∀ s, Q s → canProcess s = true → P (clearWaiting s)
  stock : ∀ stock s, P s → P (withStock stock s)
  picks : ∀ picks s, P s → P (withPicks picks s)
  strayTake : ∀ s, P s → P (flagStrayTake s)
  notice : ∀ body s, givable body → P s → P (giveNotice body s)
  reply : ∀ code r data s, P s → Q (reply code r data s)
  table : ∀ trucks s, Q s → Q (gateChanged trucks s)
  flags : ∀ flags s, Q s → Q (withFlags flags s)

namespace AnswerRules

variable {P Q : State → Prop} {s : State}

/-- R154, R155: a message is refused by the port, or answered by its owner, or waits. -/
theorem processMessage (r : AnswerRules P Q) {owner : State → State} (howner : ∀ u, P u → Q (owner u))
    (m : List Byte) (code : Byte) (h : Q s) : Q (processMessage m code owner s) := by
  have ht := r.arrive m s h
  unfold Machine.processMessage
  dsimp only
  split
  · rename_i hp
    have hp := r.take _ ht hp.2
    split
    · exact r.reply _ _ _ _ hp
    · exact howner _ hp
  · exact ht

theorem answerStatus (r : AnswerRules P Q) (h : P s) : Q (answerStatus s) :=
  r.flags _ _ (r.reply _ _ _ _ h)

theorem answerPut (r : AnswerRules P Q) (tag : BitVec 32) (family size grade stack : Byte) (h : P s) :
    Q (answerPut tag family size grade stack s) := by
  unfold Machine.answerPut
  repeat' split
  · exact r.reply _ _ _ _ h
  · exact r.reply _ _ _ _ h
  · exact r.reply _ _ _ _ h
  · exact r.reply _ _ _ _ (r.notice _ _ (givable_arrive _) (r.stock _ _ h))

theorem takeEffect (r : AnswerRules P Q) (tag : Nat) (former : PackState) (h : P s) :
    P (takeEffect tag former s) := by
  cases former with
  | free => exact r.strayTake s h
  | held => exact h
  | reserved o => exact r.notice _ _ (givable_taken_one _) (r.picks _ _ h)
  | qhold => exact h

theorem answerTake (r : AnswerRules P Q) (tag : BitVec 32) (h : P s) : Q (answerTake tag s) := by
  unfold Machine.answerTake
  split
  · repeat' split
    · exact r.reply _ _ _ _ h
    · exact r.reply _ _ _ _ h
    · exact r.reply _ _ _ _ (r.takeEffect _ _ (r.stock _ _ h))
  · exact r.reply _ _ _ _ h

theorem shiftEffect (r : AnswerRules P Q) (tag stack : Nat) (state : PackState) (h : P s) :
    P (shiftEffect tag stack state s) := by
  cases state with
  | free => exact h
  | held => exact h
  | reserved o => exact r.picks _ _ h
  | qhold => exact h

theorem answerShift (r : AnswerRules P Q) (tag : BitVec 32) (stack : Byte) (h : P s) :
    Q (answerShift tag stack s) := by
  unfold Machine.answerShift
  split
  · repeat' split
    · exact r.reply _ _ _ _ h
    · exact r.reply _ _ _ _ h
    · exact r.reply _ _ _ _ h
    · exact r.reply _ _ _ _ h
    · exact r.reply _ _ _ _ h
    · exact r.reply _ _ _ _ (r.shiftEffect _ _ _ (r.stock _ _ h))
  · exact r.reply _ _ _ _ h

theorem holdEffect (r : AnswerRules P Q) (tag : Nat) (former : PackState) (h : P s) :
    P (holdEffect tag former s) := by
  cases former with
  | free => exact r.stock _ _ h
  | held => exact h
  | reserved o => exact r.notice _ _ (givable_lapse_one _) (r.picks _ _ (r.stock _ _ h))
  | qhold => exact h

theorem answerHoldPack (r : AnswerRules P Q) (tag : BitVec 32) (h : P s) : Q (answerHoldPack tag s) := by
  unfold Machine.answerHoldPack
  repeat' split
  · exact r.reply _ _ _ _ h
  · exact r.reply _ _ _ _ h
  · exact r.reply _ _ _ _ (r.holdEffect _ _ h)

theorem answerFreePack (r : AnswerRules P Q) (tag : BitVec 32) (h : P s) : Q (answerFreePack tag s) := by
  unfold Machine.answerFreePack
  repeat' split
  · exact r.reply _ _ _ _ h
  · exact r.reply _ _ _ _ (r.stock _ _ h)
  · exact r.reply _ _ _ _ h

theorem answerListStack (r : AnswerRules P Q) (stack : Byte) (h : P s) :
    Q (answerListStack stack s) := by
  unfold Machine.answerListStack
  split
  · exact r.reply _ _ _ _ h
  · exact r.reply _ _ _ _ h

theorem answerTruckIn (r : AnswerRules P Q) (ticket : BitVec 16) (bay count : Byte)
    (lines : List OrderFields) (h : P s) : Q (answerTruckIn ticket bay count lines s) := by
  unfold Machine.answerTruckIn
  repeat' split
  · exact r.reply _ _ _ _ h
  · exact r.reply _ _ _ _ h
  · exact r.reply _ _ _ _ h
  · exact r.reply _ _ _ _ h
  · exact r.table _ _ (r.reply _ _ _ _ h)

theorem answerTruckBay (r : AnswerRules P Q) (ticket : BitVec 16) (bay : Byte) (h : P s) :
    Q (answerTruckBay ticket bay s) := by
  unfold Machine.answerTruckBay
  repeat' split
  · exact r.reply _ _ _ _ h
  · exact r.reply _ _ _ _ h
  · exact r.reply _ _ _ _ h
  · exact r.table _ _ (r.reply _ _ _ _ h)

theorem answerTruckOut (r : AnswerRules P Q) (ticket : BitVec 16) (h : P s) :
    Q (answerTruckOut ticket s) := by
  unfold Machine.answerTruckOut
  split
  · exact r.reply _ _ _ _ h
  · refine r.table _ _ (r.reply _ _ _ _ ?_)
    split
    · exact r.notice _ _ (givable_void _) h
    · exact h

theorem answerListTruck (r : AnswerRules P Q) (ticket : BitVec 16) (h : P s) :
    Q (answerListTruck ticket s) := by
  unfold Machine.answerListTruck
  split
  · exact r.reply _ _ _ _ h
  · exact r.reply _ _ _ _ h

end AnswerRules

/-- The commands that stand for a terminal message with an owner (R154, R162). -/
def isMessage : Instr → Bool
  | .status | .put _ _ _ _ _ | .take _ | .shift _ _ | .holdPack _ | .freePack _ | .listStack _
  | .listPicks | .truckIn _ _ _ _ | .truckBay _ _ | .truckOut _ | .listTruck _ => true
  | _ => false

/-- Every message keeps what the rules keep. -/
theorem AnswerRules.exec {P Q : State → Prop} {s : State} (r : AnswerRules P Q) {c : Instr}
    (hc : isMessage c = true) (h : Q s) : Ensures Q (exec c s) := by
  cases c with
  | status => exact (ensures_next _ _).2 (r.processMessage (fun _ => r.answerStatus) _ _ h)
  | put tag family size grade stack =>
    exact (ensures_next _ _).2 (r.processMessage (fun _ => r.answerPut _ _ _ _ _) _ _ h)
  | take tag => exact (ensures_next _ _).2 (r.processMessage (fun _ => r.answerTake _) _ _ h)
  | shift tag stack => exact (ensures_next _ _).2 (r.processMessage (fun _ => r.answerShift _ _) _ _ h)
  | holdPack tag => exact (ensures_next _ _).2 (r.processMessage (fun _ => r.answerHoldPack _) _ _ h)
  | freePack tag => exact (ensures_next _ _).2 (r.processMessage (fun _ => r.answerFreePack _) _ _ h)
  | listStack stack => exact (ensures_next _ _).2 (r.processMessage (fun _ => r.answerListStack _) _ _ h)
  | listPicks => exact (ensures_next _ _).2 (r.processMessage (fun _ => r.reply _ _ _ _) _ _ h)
  | truckIn ticket bay count lines =>
    exact (ensures_next _ _).2 (r.processMessage (fun _ => r.answerTruckIn _ _ _ _) _ _ h)
  | truckBay ticket bay =>
    exact (ensures_next _ _).2 (r.processMessage (fun _ => r.answerTruckBay _ _) _ _ h)
  | truckOut ticket => exact (ensures_next _ _).2 (r.processMessage (fun _ => r.answerTruckOut _) _ _ h)
  | listTruck ticket =>
    exact (ensures_next _ _).2 (r.processMessage (fun _ => r.answerListTruck _) _ _ h)
  | _ => cases hc

end Sys2Proof.Machine
end

