-- ==== Sys2Proof/Proofs/YardLineOperations.lean ====
section
/-! PROOF. The shared operations keep the yard line sound. -/

namespace Sys2Proof.Machine

variable {s : State}

/-! ### The arbiter and the wish to send -/

theorem callChoice_outside_service (h : s.startup.station ≠ .service) : callChoice s = none := by
  simp [callChoice, inService, h]

theorem wantsToSend_outside_service (h : s.startup.station ≠ .service) : wantsToSend s = false := by
  simp [wantsToSend, inService, h]

/-- A station that begins or stops its recovery follows nothing on the line (R20, R21). -/
theorem YardLineSound.followWant (h : YardLineSound s) : YardLineSound (followWant s) := by
  have hc := (yardLineSound_iff s).1 h
  have moved : ∀ (line : LineInterface), s.line.condition ≠ .quiet → s.line.condition ≠ .busy →
      line.activity = s.line.activity →
      (s.startup.station ≠ .service → line.driving = .nothing ∧ line.condition ≠ .recovering) →
      YardLineSound { s with line := line } := by
    intro line hq hb ha hsilent
    obtain ⟨hn, hr⟩ := hc.faultFollowsNothing hq hb
    have hsent : sentFrame s = none := sentFrame_of_follows (by simp [hn, followsLine])
    refine yardLineSound_of_waiting (fun hst => ?_) (h.waitingQueue (by simp [sentKind, hsent]))
      ((sentFrame_congr ha).trans hsent) (fun _ _ => ⟨ha.trans hn, hr⟩) (fun _ => hr)
    obtain ⟨hd, hcond⟩ := hsilent hst
    exact ⟨hd, hcond, (hc.silent hst).2.2.2⟩
  unfold Machine.followWant
  split
  · rename_i hs
    obtain ⟨hstuck, hwants, -⟩ := hs
    refine moved _ (by simp [hstuck]) (by simp [hstuck]) rfl fun hst => ?_
    rw [wantsToSend_outside_service hst] at hwants
    cases hwants
  · split
    · rename_i hs
      exact moved _ (by simp [hs.1]) (by simp [hs.1]) rfl fun _ => ⟨rfl, by simp⟩
    · exact h

theorem YardLineSound.withArbiter (h : YardLineSound s) (a : Arbiter)
    (ha : s.startup.station ≠ .service → a = .idle) : YardLineSound { s with arbiter := a } :=
  h.carry { station := rfl, driving := fun _ hd => hd, activity := rfl, condition := rfl, queue := rfl
            round := Iff.rfl, arbiter := fun hst _ => ha hst }

theorem YardLineSound.rechoose (h : YardLineSound s) : YardLineSound (rechoose s) := by
  have choose : YardLineSound (Machine.followWant { s with arbiter := arbiterOf (callChoice s) }) :=
    (h.withArbiter _ fun hst => by simp [callChoice_outside_service hst, arbiterOf]).followWant
  unfold Machine.rechoose
  cases s.arbiter with
  | idle => exact choose
  | waiting _ => exact choose
  | calling _ => exact h
  | granting _ _ _ _ => exact h

theorem YardLineSound.arbiterFree (h : YardLineSound s) : YardLineSound (arbiterFree s) :=
  (h.withArbiter .idle fun _ => rfl).rechoose

theorem YardLineSound.arbiterRoundOver (h : YardLineSound s) : YardLineSound (arbiterRoundOver s) := by
  unfold Machine.arbiterRoundOver
  cases s.arbiter with
  | idle => exact h
  | waiting _ => exact h
  | calling _ => exact h.arbiterFree
  | granting _ _ _ _ => exact h.arbiterFree

theorem YardLineSound.gateChanged (h : YardLineSound s) (trucks : List Truck) :
    YardLineSound (gateChanged trucks s) :=
  YardLineSound.rechoose (h.same (by simp))

/-! ### The queue (R33 to R36) -/

/-- The entries as R33 has them at every moment, the head's mark set apart. -/
structure QueueClauses (queue : List Notice) : Prop where
  room : queue.length ≤ 16
  entries : ∀ n ∈ queue, noticeSound n
  tailWaits : ∀ n ∈ queue.tail, n.inFlight = false

/-- A queue may take the place of another with the same mark on its head. -/
theorem YardLineSound.withQueue (h : YardLineSound s) {queue : List Notice} (hq : QueueClauses queue)
    (hhead : (∃ n ∈ queue.head?, n.inFlight = true)
      ↔ ∃ n ∈ s.frames.queue.head?, n.inFlight = true) :
    YardLineSound (withQueue queue s) := by
  have hc := (yardLineSound_iff s).1 h
  exact (yardLineSound_iff _).2
    { silent := hc.silent, room := hq.room, entries := hq.entries, tailWaits := hq.tailWaits
      headFlies := hc.headFlies.trans hhead.symm, outsideRound := hc.outsideRound
      sendsBusy := hc.sendsBusy, faultFollowsNothing := hc.faultFollowsNothing
      noRoundYet := hc.noRoundYet }

theorem YardLineSound.queueClauses (h : YardLineSound s) : QueueClauses s.frames.queue := by
  have hc := (yardLineSound_iff s).1 h
  exact ⟨hc.room, hc.entries, hc.tailWaits⟩

/-- R34: a merge changes the count of one entry that is not in flight, and nothing else. -/
theorem mergeNewest_eq_some {body : NoticeBody} {queue merged : List Notice} {left : Nat}
    (h : mergeNewest body queue = some (merged, left)) :
    ∃ before n after, queue = before ++ n :: after ∧ n.inFlight = false
      ∧ sameAccount n.body body = true ∧ countOf n.body < Config.countLimit
      ∧ merged = before ++ { n with
          body := withCount n.body (countOf n.body + min (countOf body)
            (Config.countLimit - countOf n.body)) } :: after
      ∧ left = countOf body - min (countOf body) (Config.countLimit - countOf n.body) := by
  induction queue generalizing merged left with
  | nil => simp [mergeNewest] at h
  | cons n rest ih =>
    unfold mergeNewest at h
    split at h
    · rename_i hn
      simp only [Bool.and_eq_true, Bool.not_eq_true'] at hn
      split at h
      · rename_i hroom
        simp only [Option.some.injEq, Prod.mk.injEq] at h
        exact ⟨[], n, rest, rfl, hn.2, hn.1, hroom, h.1.symm, h.2.symm⟩
      · cases h
    · obtain ⟨⟨found, rest'⟩, hfound, heq⟩ := Option.map_eq_some_iff.1 h
      simp only [Prod.mk.injEq] at heq
      obtain ⟨rfl, rfl⟩ := heq
      obtain ⟨before, m, after, rfl, hm⟩ := ih hfound
      obtain ⟨hflies, hsame, hroom, rfl, hleft⟩ := hm
      exact ⟨n :: before, m, after, rfl, hflies, hsame, hroom, rfl, hleft⟩

/-- An entry given another body keeps its place and its mark. -/
theorem QueueClauses.replace {before after : List Notice} {n : Notice} {body : NoticeBody}
    (h : QueueClauses (before ++ n :: after)) (hb : noticeSound { n with body := body }) :
    QueueClauses (before ++ { n with body := body } :: after) := by
  refine ⟨by simpa using h.room, ?_, ?_⟩
  · intro m hm
    have hold := h.entries m
    simp only [List.mem_append, List.mem_cons] at hm hold
    rcases hm with hm | rfl | hm
    · exact hold (.inl hm)
    · exact hb
    · exact hold (.inr (.inr hm))
  · have hold := h.tailWaits
    cases before with
    | nil => exact hold
    | cons b before =>
      simp only [List.cons_append, List.tail_cons, List.mem_append, List.mem_cons] at hold ⊢
      rintro m (hm | rfl | hm)
      · exact hold m (.inl hm)
      · exact hold n (.inr (.inl rfl))
      · exact hold m (.inr (.inr hm))

theorem head_replace {before after : List Notice} {n : Notice} {body : NoticeBody} :
    (∃ m ∈ (before ++ { n with body := body } :: after).head?, m.inFlight = true)
      ↔ ∃ m ∈ (before ++ n :: after).head?, m.inFlight = true := by
  cases before <;> simp

/-- Two counted notices of one account: a count added to the first stays within 1 to 8. -/
theorem noticeSound_withCount {n : Notice} {count : Nat} (h : noticeSound n) (h1 : 1 ≤ count)
    (h8 : count ≤ 8) : noticeSound { n with body := withCount n.body count } := by
  obtain ⟨hflaws, hbody⟩ := h
  refine ⟨hflaws, ?_⟩
  cases n.body <;> simp [withCount, h1, h8]

theorem QueueClauses.append {queue : List Notice} {body : NoticeBody} (h : QueueClauses queue)
    (hroom : queue.length < 16) (hb : givable body) : QueueClauses (queue ++ [newEntry body]) := by
  refine ⟨by simp; omega, ?_, ?_⟩
  · intro m hm
    rcases List.mem_append.1 hm with hm | hm
    · exact h.entries m hm
    · rw [List.mem_singleton.1 hm]; exact hb
  · cases queue with
    | nil => simp
    | cons n rest =>
      intro m hm
      rcases List.mem_append.1 (by simpa using hm : m ∈ rest ++ [newEntry body]) with hm | hm
      · exact h.tailWaits m hm
      · rw [List.mem_singleton.1 hm]; rfl

theorem head_append {queue : List Notice} {body : NoticeBody} :
    (∃ m ∈ (queue ++ [newEntry body]).head?, m.inFlight = true)
      ↔ ∃ m ∈ queue.head?, m.inFlight = true := by
  cases queue <;> simp [newEntry]

theorem inFlight_of_isWaitingArrive {n : Notice} (h : isWaitingArrive n = true) : n.inFlight = false := by
  unfold isWaitingArrive at h
  split at h
  · simpa using h
  · cases h

/-- R35: the oldest waiting ARRIVE leaves; a head in flight stays. -/
theorem QueueClauses.evict {queue : List Notice} (h : QueueClauses queue) :
    QueueClauses (queue.eraseP isWaitingArrive) := by
  refine ⟨List.length_eraseP_le.trans h.room, fun m hm => h.entries m (List.mem_of_mem_eraseP hm), ?_⟩
  cases queue with
  | nil => simp
  | cons n rest =>
    intro m hm
    cases hn : isWaitingArrive n with
    | true =>
      rw [List.eraseP_cons_of_pos hn] at hm
      exact h.tailWaits m (List.mem_of_mem_tail hm)
    | false =>
      rw [List.eraseP_cons_of_neg (by simp [hn])] at hm
      exact h.tailWaits m (List.mem_of_mem_eraseP hm)

theorem head_evict {queue : List Notice} (h : QueueClauses queue) :
    (∃ m ∈ (queue.eraseP isWaitingArrive).head?, m.inFlight = true)
      ↔ ∃ m ∈ queue.head?, m.inFlight = true := by
  cases queue with
  | nil => simp
  | cons n rest =>
    cases hn : isWaitingArrive n with
    | true =>
      rw [List.eraseP_cons_of_pos hn]
      simp only [List.head?_cons, Option.mem_some_iff, exists_eq_left', inFlight_of_isWaitingArrive hn,
        Bool.false_eq_true, iff_false, not_exists, not_and, Bool.not_eq_true]
      exact fun m hm => h.tailWaits m (List.mem_of_mem_head? hm)
    | false => rw [List.eraseP_cons_of_neg (by simp [hn])]; simp

theorem YardLineSound.enqueue (h : YardLineSound s) {body : NoticeBody} (hb : givable body) :
    YardLineSound (enqueue body s) := by
  have hq := h.queueClauses
  have hlost : YardLineSound (flagNoticeLoss s) := h.same (by simp)
  have hevict : s.frames.queue.any isWaitingArrive = true →
      YardLineSound
        (Machine.withQueue (s.frames.queue.eraseP isWaitingArrive ++ [newEntry body]) s) := by
    intro hany
    obtain ⟨a, ha, hw⟩ := List.any_eq_true.1 hany
    have hlen : (s.frames.queue.eraseP isWaitingArrive).length < 16 := by
      rw [List.length_eraseP_of_mem ha hw]
      have := hq.room
      have := List.length_pos_of_mem ha
      omega
    exact h.withQueue (hq.evict.append hlen hb) (head_append.trans (head_evict hq))
  unfold Machine.enqueue
  split
  · rename_i hroom
    exact h.withQueue (hq.append hroom hb) head_append
  · split
    · exact h
    · split
      · rename_i hany
        exact hevict hany
      · exact hlost

theorem sameAccount_comm (a b : NoticeBody) : sameAccount a b = sameAccount b a := by
  cases a <;> cases b <;> simp [sameAccount, Bool.beq_comm]

/-- Only TAKEN and LAPSE have an account, and their count is 1 to 8 (R27, R28). -/
theorem countOf_range {n : Notice} {other : NoticeBody} (h : noticeSound n)
    (hs : sameAccount n.body other = true) : 1 ≤ countOf n.body ∧ countOf n.body ≤ 8 := by
  obtain ⟨-, hbody⟩ := h
  cases hn : n.body <;> simp only [hn, sameAccount, Bool.false_eq_true] at hbody hs
  all_goals exact hbody

/-- R34: the queue after a merge, and what is left over for a new entry. -/
theorem YardLineSound.merge (h : YardLineSound s) {body : NoticeBody} (hb : givable body)
    {merged : List Notice} {left : Nat}
    (hm : mergeNewest body s.frames.queue.reverse = some (merged, left)) :
    YardLineSound (Machine.withQueue merged.reverse s)
      ∧ (left ≠ 0 → givable (withCount body left)) := by
  obtain ⟨before, n, after, hq, -, hsame, hroom, rfl, hleft⟩ := mergeNewest_eq_some hm
  have hqueue : s.frames.queue = after.reverse ++ n :: before.reverse := by
    rw [← List.reverse_reverse s.frames.queue, hq]; simp
  have hclauses := h.queueClauses
  rw [hqueue] at hclauses
  have hn : noticeSound n := hclauses.entries n (by simp)
  have hnrange := countOf_range hn hsame
  have hbrange := countOf_range (n := newEntry body) hb ((sameAccount_comm _ _).trans hsame)
  simp only [newEntry, Config.countLimit] at hbrange hleft hroom ⊢
  have hsound : noticeSound { n with
      body := withCount n.body (countOf n.body + min (countOf body) (8 - countOf n.body)) } :=
    noticeSound_withCount hn (by omega) (by omega)
  refine ⟨?_, fun hl => noticeSound_withCount (n := newEntry body) hb (by omega) (by omega)⟩
  rw [List.reverse_append, List.reverse_cons, List.append_assoc, List.singleton_append]
  exact h.withQueue (hclauses.replace hsound) (by rw [hqueue]; exact head_replace)

theorem YardLineSound.takeNotice (h : YardLineSound s) {body : NoticeBody} (hb : givable body) :
    YardLineSound (takeNotice body s) := by
  unfold Machine.takeNotice
  split
  · split
    · exact h
    · exact h.enqueue hb
  · split
    · exact h.enqueue hb
    · rename_i hm
      obtain ⟨hmerged, hover⟩ := h.merge hb hm
      split
      · exact hmerged
      · rename_i hleft
        exact hmerged.enqueue (hover hleft)

theorem YardLineSound.giveNotice (h : YardLineSound s) {body : NoticeBody} (hb : givable body) :
    YardLineSound (giveNotice body s) :=
  (h.takeNotice hb).followWant

/-! ### Rounds, frames and DUPLICATE -/

theorem YardLineSound.refreshReady (h : YardLineSound s) (before : State) :
    YardLineSound (refreshReady before s) :=
  h.same (by simp)

theorem dropRound_queue (s : State) : (dropRound s).frames.queue = s.frames.queue := by
  unfold dropRound; split <;> rfl

theorem dropRound_round (s : State) : (dropRound s).frames.round = none := by
  unfold dropRound; split <;> simp [*]

theorem lineFreed_follows (dw : Bool) (s : State) :
    ((lineFreed dw s).line.condition = .quiet ∨ (lineFreed dw s).line.condition = .busy)
      ∧ followsLine (lineFreed dw s).line.activity = true
      ∧ (lineFreed dw s).line.driving = s.line.driving := by
  cases dw <;> simp [lineFreed, followsLine]

/-- A state that is freed by DW's level, drives nothing and has no round. -/
theorem YardLineSound.freed {t : State} (h : YardLineSound s) (hk : sentKind s ≠ some .notice)
    (dw : Bool) (hst : t.startup = s.startup) (hqueue : t.frames.queue = s.frames.queue)
    (hround : t.frames.round = none) (harbiter : t.arbiter = s.arbiter) :
    YardLineSound (lineFreed dw (drive .nothing t)) := by
  obtain ⟨hcondition, hfollows, hdriving⟩ := lineFreed_follows dw (drive .nothing t)
  exact h.settle hk (by simp [hst]) (fun _ _ => by simp [hdriving]) hcondition hfollows
    (by simp [hqueue]) (fun _ _ => by simp [hround]) (fun _ ha => by simp [harbiter, ha])

theorem YardLineSound.endRound (h : YardLineSound s) (hk : sentKind s ≠ some .notice) (dw : Bool) :
    YardLineSound (endRound dw s) := by
  have hf : YardLineSound (lineFreed dw (drive .nothing (dropRound s))) :=
    h.freed hk dw (by simp) (dropRound_queue s) (dropRound_round s) (by simp)
  unfold Machine.endRound
  dsimp only
  split
  · exact hf.arbiterRoundOver
  · exact hf

theorem dropAbandoned_queue (s : State) : (dropAbandoned s).frames.queue = s.frames.queue := by
  simp [dropAbandoned, dropRound_queue]

theorem dropAbandoned_round (s : State) : (dropAbandoned s).frames.round = none :=
  dropRound_round _

theorem YardLineSound.abandonRound (h : YardLineSound s) (hk : sentKind s ≠ some .notice) (dw : Bool) :
    YardLineSound (abandonRound dw s) := by
  have hf : YardLineSound (lineFreed dw (drive .nothing (dropAbandoned s))) :=
    h.freed hk dw (by simp) (dropAbandoned_queue s) (dropAbandoned_round s) (by simp)
  unfold Machine.abandonRound
  dsimp only
  split
  · exact hf.arbiterRoundOver
  · exact hf

theorem YardLineSound.endFrame (h : YardLineSound s) (hk : sentKind s ≠ some .notice) :
    YardLineSound (endFrame s) := by
  unfold Machine.endFrame
  split
  · rename_i hr
    exact h.freed hk false rfl rfl hr rfl
  · exact h.endRound hk false

/-- R1: nothing is read from the line in CONFIG. -/
theorem not_config_of_observes (h : observes s = true) : s.startup.station ≠ .config := by
  intro hc
  simp [observes, hc] at h

/-- What a station follows once it has stopped sending (R13, R169). -/
def activityInDuplicate : Activity → Activity
  | .sending _ => .receiving
  | .nothing => .nothing
  | .observing w => .observing w
  | .stray => .stray
  | .dwPulled => .dwPulled
  | .startMark => .startMark
  | .receiving => .receiving

theorem enterDuplicate_startup (s : State) :
    (enterDuplicate s).startup = { s.startup with station := .duplicate } := by
  simp [enterDuplicate]

theorem enterDuplicate_line (s : State) :
    (enterDuplicate s).line = { s.line with
      driving := .nothing
      activity := activityInDuplicate s.line.activity
      condition := if s.line.condition = .recovering then .stuck else s.line.condition
      pulseCount := if s.line.condition = .recovering then 0 else s.line.pulseCount } := by
  simp only [enterDuplicate, refreshReady_line, releaseAll_line]
  cases s.line.activity <;> rfl

theorem enterDuplicate_frames (s : State) :
    (enterDuplicate s).frames = { s.frames with
      queue := []
      round := s.frames.round.map fun r => { r with part := partInDuplicate r.part } } := by
  simp [enterDuplicate]

theorem enterDuplicate_arbiter (s : State) : (enterDuplicate s).arbiter = .idle := by
  simp [enterDuplicate]

/-- Entry to DUPLICATE asks of the line only that a fault follows nothing and that no round is in progress
before the first 96 slack bt. -/
theorem enterDuplicate_sound
    (hfault : s.line.condition ≠ .quiet → s.line.condition ≠ .busy →
      s.line.activity = .nothing ∧ s.frames.round = none)
    (hobserving : ∀ w, s.line.activity = .observing w → s.frames.round = none) :
    YardLineSound (enterDuplicate s) := by
  have hround : (enterDuplicate s).frames.round = none ↔ s.frames.round = none := by
    simp [enterDuplicate_frames]
  refine yardLineSound_of_waiting (fun _ => ?_) ?_ ?_ ?_ ?_
  · rw [enterDuplicate_line, enterDuplicate_arbiter]
    refine ⟨rfl, ?_, rfl⟩
    dsimp only
    split <;> simp [*]
  · simp [enterDuplicate_frames, WaitingQueue]
  · rw [sentFrame_eq_none_iff, enterDuplicate_line]
    intro f
    cases s.line.activity <;> simp [activityInDuplicate]
  · rw [hround, enterDuplicate_line]
    dsimp only
    intro hq hb
    have hcond : s.line.condition ≠ .quiet ∧ s.line.condition ≠ .busy := by
      split at hq <;> simp_all
    obtain ⟨hn, hr⟩ := hfault hcond.1 hcond.2
    exact ⟨by rw [hn]; rfl, hr⟩
  · rw [hround, enterDuplicate_line, enterDuplicate_startup]
    rintro (⟨w, hw⟩ | hconf)
    · refine hobserving w ?_
      cases ha : s.line.activity <;> simp_all [activityInDuplicate]
    · cases hconf

theorem YardLineSound.enterDuplicate (h : YardLineSound s) : YardLineSound (enterDuplicate s) := by
  have hc := (yardLineSound_iff s).1 h
  exact enterDuplicate_sound hc.faultFollowsNothing fun w hw => hc.noRoundYet (.inl ⟨w, hw⟩)

end Sys2Proof.Machine
end

