-- ==== Sys2Proof/Proofs/YardLineWires.lean ====
section
/-! PROOF. When a station follows the line, and what every command about wires and frames does to the
sound yard line. -/

namespace Sys2Proof.Machine

variable {s : State}

/-! ### What a station follows -/

theorem hearsFrame_iff (s : State) : hearsFrame s = true ↔
    observes s = true ∧ s.frames.round = none
      ∧ (s.line.activity = .receiving ∨ s.line.activity = .startMark
        ∨ (s.line.activity = .nothing ∧ s.line.condition = .quiet)) := by
  simp [hearsFrame, and_assoc, or_assoc]

theorem awaitsClosing_iff (s : State) : awaitsClosing s = true ↔
    observes s = true ∧ (∃ v, s.frames.round = some v ∧ v.phase = .grantWait)
      ∧ s.line.activity = .nothing ∧ s.line.condition = .busy := by
  simp [awaitsClosing, roundPhase, and_assoc]

theorem followsCall_iff (s : State) : followsCall s = true ↔
    observes s = true ∧ (∃ v, s.frames.round = some v ∧ v.phase = .call)
      ∧ s.line.activity = .receiving := by
  simp [followsCall, roundPhase, and_assoc]

theorem inGrantWait_iff (s : State) : inGrantWait s = true ↔
    observes s = true ∧ (∃ v, s.frames.round = some v ∧ v.phase = .grantWait)
      ∧ s.line.condition = .busy ∧ (s.line.activity = .nothing ∨ s.line.activity = .stray) := by
  simp [inGrantWait, roundPhase, and_assoc]

theorem canHear_iff (s : State) :
    canHear s = true ↔ hearsFrame s = true ∨ awaitsClosing s = true := by
  simp [canHear]

/-- A station that can hear a frame observes, sends nothing and is past the start of observation. -/
theorem follows_of_hears (h : canHear s = true ∨ followsCall s = true) :
    observes s = true ∧ followsLine s.line.activity = true := by
  rcases h with h | h
  · rcases (canHear_iff s).1 h with h | h
    · obtain ⟨ho, -, ha | ha | ⟨ha, -⟩⟩ := (hearsFrame_iff s).1 h <;> simp [ho, ha, followsLine]
    · obtain ⟨ho, -, ha, -⟩ := (awaitsClosing_iff s).1 h
      simp [ho, ha, followsLine]
  · obtain ⟨ho, -, ha⟩ := (followsCall_iff s).1 h
    simp [ho, ha, followsLine]

theorem follows_of_betweenFrames (h : BetweenFrames s) : followsLine s.line.activity = true := by
  obtain ⟨-, -, ha | ha | ha | ha⟩ := h <;> simp [ha, followsLine]

theorem sentKind_ne_of_follows (h : followsLine s.line.activity = true) (k : SentKind) :
    sentKind s ≠ some k := by
  simp [sentKind_of_sentFrame (sentFrame_of_follows h)]

theorem sentKind_ne_of_observing {w : ObservedWires} (h : s.line.activity = .observing w)
    (k : SentKind) : sentKind s ≠ some k := by
  simp [sentKind, sentFrame, h]

/-- A HELD, STUCK or RECOVERING line follows nothing and has no round. -/
theorem YardLineSound.fault (h : YardLineSound s) (hq : s.line.condition ≠ .quiet)
    (hb : s.line.condition ≠ .busy) : s.line.activity = .nothing ∧ s.frames.round = none :=
  ((yardLineSound_iff s).1 h).faultFollowsNothing hq hb

/-! ### The wires outside frames (R5, R17 to R21) -/

/-- The start of observation goes on with other wires, from 0 (R18). -/
theorem YardLineSound.observing (h : YardLineSound s) (hb : BeginsToObserve s) (w : ObservedWires) :
    YardLineSound (lineBusy (.observing w) s) := by
  obtain ⟨-, -, w', hw⟩ := hb
  have hc := (yardLineSound_iff s).1 h
  have hk := sentKind_ne_of_observing hw .notice
  refine yardLineSound_of_waiting (fun hst => ?_) (h.waitingQueue hk) (by simp [sentFrame])
    (by simp) (fun _ => hc.noRoundYet (.inl ⟨w', hw⟩))
  obtain ⟨hd, -, -, ha⟩ := hc.silent hst
  exact ⟨hd, by simp, ha⟩

/-- Another activity outside frames, on a QUIET or BUSY line. -/
theorem YardLineSound.withActivity (h : YardLineSound s) (hk : sentKind s ≠ some .notice)
    {line : LineInterface} (hd : line.driving = s.line.driving)
    (hc : line.condition = .quiet ∨ line.condition = .busy) (ha : followsLine line.activity = true) :
    YardLineSound { s with line := line } :=
  h.settle hk rfl (fun _ hs => hd.trans hs) hc ha rfl (fun _ hr => hr) (fun _ hi => hi)

theorem YardLineSound.execQuietPeriod (h : YardLineSound s) (elapsed : Nat) :
    Ensures YardLineSound (execQuietPeriod s elapsed) := by
  refine (ensures_next _ _).2 ?_
  split
  · rename_i hs
    obtain ⟨-, hact, -⟩ := hs
    split
    · exact h.carry ⟨rfl, fun _ hd => hd, rfl, rfl, rfl, Iff.rfl, fun _ ha => ha⟩
    · exact h.withActivity (sentKind_ne_of_observing hact _) rfl (.inl rfl) rfl
  · exact h

theorem YardLineSound.grantWaitPull (h : YardLineSound s) (hg : inGrantWait s = true) (tw : Bool) :
    YardLineSound (grantWaitPull tw s) := by
  obtain ⟨ho, -, hb, ha⟩ := (inGrantWait_iff s).1 hg
  have hk : sentKind s ≠ some .notice :=
    sentKind_ne_of_follows (by rcases ha with ha | ha <;> simp [ha, followsLine]) _
  refine h.settle hk (by simp) (fun _ hd => ?_) (.inr ?_) ?_ ?_ (fun hconf => ?_)
    (fun _ hi => by simpa using hi)
  · cases tw <;> simpa [Machine.grantWaitPull] using hd
  · cases tw <;> simpa [Machine.grantWaitPull] using hb
  · cases tw <;> simp [Machine.grantWaitPull, followsLine]
  · cases tw <;> simp [Machine.grantWaitPull]
  · exact absurd (by simpa using hconf) (not_config_of_observes ho)

theorem YardLineSound.execStrayActivity (h : YardLineSound s) (tw dw : Bool) :
    Ensures YardLineSound (execStrayActivity tw dw s) := by
  refine (ensures_next _ _).2 ?_
  split
  · split
    · rename_i hs
      have hk := sentKind_ne_of_follows (follows_of_betweenFrames ((betweenFrames_iff s).1 hs.1)) .notice
      split
      · exact h.withActivity hk rfl (.inr rfl) rfl
      · exact h.withActivity hk rfl (.inr rfl) rfl
    · split
      · rename_i hb
        exact h.observing ((beginsToObserve_iff s).1 hb) _
      · split
        · rename_i hg
          exact h.grantWaitPull hg tw
        · exact h
  · exact h

theorem YardLineSound.execStrayActivityEnd (h : YardLineSound s) :
    Ensures YardLineSound (execStrayActivityEnd s) := by
  refine (ensures_next _ _).2 ?_
  split
  · rename_i hs
    exact h.withActivity
      (sentKind_ne_of_follows (follows_of_betweenFrames ((betweenFrames_iff s).1 hs.1)) .notice)
      rfl (.inl rfl) rfl
  · split
    · rename_i hb
      exact h.observing ((beginsToObserve_iff s).1 hb) _
    · split
      · rename_i hg
        exact h.grantWaitPull hg false
      · exact h

theorem endRecovery_line (s : State) : (endRecovery s).line = { s.line with
    condition := .quiet, activity := .nothing, driving := .nothing, idleCount := 0, stuckCount := 0
    pulseCount := 0, backOff := none } := by
  simp [endRecovery]

theorem YardLineSound.endRecovery (h : YardLineSound s) (hk : sentKind s ≠ some .notice) :
    YardLineSound (endRecovery s) := by
  refine h.settle hk ?_ ?_ (.inl ?_) ?_ ?_ ?_ ?_ <;> simp [endRecovery_line, followsLine]

theorem YardLineSound.execEndMarkOutsideFrame (h : YardLineSound s) :
    Ensures YardLineSound (execEndMarkOutsideFrame s) := by
  refine (ensures_next _ _).2 ?_
  split
  · rename_i hs
    exact h.endRecovery
      (sentKind_ne_of_follows (follows_of_betweenFrames ((betweenFrames_iff s).1 hs.1)) .notice)
  · split
    · rename_i hb
      exact h.observing ((beginsToObserve_iff s).1 hb) _
    · exact h

theorem YardLineSound.execHeldEnd (h : YardLineSound s) (dw : Bool) :
    Ensures YardLineSound (execHeldEnd dw s) := by
  refine (ensures_next _ _).2 ?_
  split
  · rename_i hs
    obtain ⟨hn, -⟩ := h.fault (by simp [hs.2]) (by simp [hs.2])
    have hk := sentKind_ne_of_follows (s := s) (by simp [hn, followsLine]) .notice
    obtain ⟨hcondition, hfollows, hdriving⟩ := lineFreed_follows dw s
    refine YardLineSound.refreshReady (h.settle hk ?_ ?_ hcondition hfollows ?_ ?_ ?_) s <;>
      simp [hdriving]
  · exact h

theorem YardLineSound.execStuckEntry (h : YardLineSound s) :
    Ensures YardLineSound (execStuckEntry s) := by
  refine (ensures_next _ _).2 ?_
  split
  · rename_i hs
    obtain ⟨hfrom, -⟩ := hs
    have hc := (yardLineSound_iff s).1 h
    have hfree : sentKind s ≠ some .notice ∧ s.frames.round = none := by
      rcases hfrom with hb | hb
      · have hb := (betweenFrames_iff s).1 hb
        exact ⟨sentKind_ne_of_follows (follows_of_betweenFrames hb) _, hb.2.1⟩
      · obtain ⟨-, -, w, hw⟩ := (beginsToObserve_iff s).1 hb
        exact ⟨sentKind_ne_of_observing hw _, hc.noRoundYet (.inl ⟨w, hw⟩)⟩
    obtain ⟨hk, hr⟩ := hfree
    refine YardLineSound.refreshReady (YardLineSound.followWant ?_) s
    refine yardLineSound_of_waiting (fun hst => ?_) (h.waitingQueue hk) (by simp [sentFrame])
      (fun _ _ => ⟨rfl, hr⟩) (fun _ => hr)
    obtain ⟨hd, -, -, ha⟩ := hc.silent hst
    exact ⟨hd, by simp, ha⟩
  · exact h

theorem YardLineSound.execRecoveryPulse (h : YardLineSound s) (dw : Bool) :
    Ensures YardLineSound (execRecoveryPulse dw s) := by
  refine (ensures_next _ _).2 ?_
  split
  · rename_i hrec
    obtain ⟨hn, hr⟩ := h.fault (by simp [hrec]) (by simp [hrec])
    have hfollows : followsLine s.line.activity = true := by simp [hn, followsLine]
    have hk := sentKind_ne_of_follows hfollows .notice
    have hc := (yardLineSound_iff s).1 h
    split
    · exact h.endRecovery hk
    · split
      · exact h.carry ⟨rfl, fun _ hd => hd, rfl, rfl, rfl, Iff.rfl, fun _ ha => ha⟩
      · refine yardLineSound_of_waiting (fun hst => ⟨rfl, by simp, (hc.silent hst).2.2.2⟩)
          (h.waitingQueue hk) (sentFrame_of_follows hfollows) (fun _ _ => ⟨hn, hr⟩) (fun _ => hr)
  · exact h

theorem YardLineSound.execBackOffExpiry (h : YardLineSound s) :
    Ensures YardLineSound (execBackOffExpiry s) := by
  refine (ensures_next _ _).2 ?_
  split
  · exact YardLineSound.followWant
      (h.carry ⟨rfl, fun _ hd => hd, rfl, rfl, rfl, Iff.rfl, fun _ ha => ha⟩)
  · exact h

/-! ### Frames this station sends (R11 to R13, R19, R36, R42) -/

/-- R1: only a station in SERVICE sends a frame. -/
theorem YardLineSound.service_of_sending (h : YardLineSound s) {k : SentKind}
    (hk : sentKind s = some k) : s.startup.station = .service := by
  by_contra hst
  obtain ⟨-, hf, -⟩ := ((yardLineSound_iff s).1 h).silent hst
  simp [sentKind, hf] at hk

theorem sending_of_sentKind {k : SentKind} (h : sentKind s = some k) :
    ∃ f, s.line.activity = .sending f ∧ f.kind = k := by
  unfold sentKind sentFrame at h
  cases ha : s.line.activity <;> simp [ha] at h ⊢
  exact h

/-- R33, R37: what is offered: the head notice, else the call request. -/
theorem offeredFrame_eq_some {o : Offer} (h : offeredFrame s = some o) :
    s.startup.station = .service ∧
      ((∃ n rest, s.frames.queue = n :: rest ∧ n.inFlight = false ∧ o = .notice n.body)
        ∨ (s.frames.queue = [] ∧ ∃ r, s.arbiter = .waiting r ∧ o = .call r)) := by
  unfold offeredFrame at h
  split at h
  · rename_i hs
    refine ⟨by simpa [inService] using hs, ?_⟩
    cases hq : s.frames.queue with
    | cons n rest =>
      simp only [hq, Option.ite_none_left_eq_some, Bool.not_eq_true, Option.some.injEq] at h
      exact .inl ⟨n, rest, rfl, h.1, h.2.symm⟩
    | nil =>
      cases ha : s.arbiter with
      | waiting r =>
        simp only [hq, ha, Option.some.injEq] at h
        exact .inr ⟨rfl, r, rfl, h.symm⟩
      | idle => simp [hq, ha] at h
      | calling _ => simp [hq, ha] at h
      | granting _ _ _ _ => simp [hq, ha] at h
  · cases h

/-- R33, R37: the station begins a frame outside any round. -/
theorem YardLineSound.beginFrame (h : YardLineSound s) (hr : s.frames.round = none) {o : Offer}
    (ho : offeredFrame s = some o) : YardLineSound (beginFrame o s) := by
  have hc := (yardLineSound_iff s).1 h
  obtain ⟨hst, ⟨n, rest, hq, -, rfl⟩ | ⟨hq, r, -, rfl⟩⟩ := offeredFrame_eq_some ho
  · have hentries := hc.entries
    have hroom := hc.room
    have htail := hc.tailWaits
    simp only [hq, List.mem_cons, forall_eq_or_imp, List.length_cons, List.tail_cons]
      at hentries hroom htail
    refine (yardLineSound_iff _).2
      { silent := fun hn => absurd hst (by simpa using hn)
        room := by simpa [Machine.beginFrame, mapHead, hq] using hroom
        entries := ?_
        tailWaits := by simpa [Machine.beginFrame, mapHead, hq] using htail
        headFlies := by simp [Machine.beginFrame, mapHead, hq, sentKind, sentFrame]
        outsideRound := fun _ => by simpa [Machine.beginFrame, mapHead, hq] using hr
        sendsBusy := fun _ => by simp [Machine.beginFrame]
        faultFollowsNothing := by simp [Machine.beginFrame]
        noRoundYet := fun _ => by simpa [Machine.beginFrame, mapHead, hq] using hr }
    simp only [Machine.beginFrame, mapHead, hq, drive_frames, lineBusy_frames, withQueue_queue,
      List.mem_cons, forall_eq_or_imp]
    exact hentries
  · exact (yardLineSound_iff _).2
      { silent := fun hn => absurd hst hn
        room := by simp [Machine.beginFrame, hq]
        entries := by simp [Machine.beginFrame, hq]
        tailWaits := by simp [Machine.beginFrame, hq]
        headFlies := by simp [Machine.beginFrame, hq, sentKind, sentFrame]
        outsideRound := fun _ => hr
        sendsBusy := fun _ => rfl
        faultFollowsNothing := fun _ hb => absurd rfl hb
        noRoundYet := fun _ => hr }

theorem YardLineSound.execFrameStart (h : YardLineSound s) (elapsed : Nat) (dw : Bool) :
    Ensures YardLineSound (execFrameStart elapsed dw s) := by
  refine (ensures_next _ _).2 ?_
  split
  · rename_i hs
    obtain ⟨hr, ha, -⟩ := hs
    have hk := sentKind_ne_of_follows (s := s) (by simp [ha, followsLine]) .notice
    split
    · exact h
    · rename_i o ho
      dsimp only
      split
      · exact h.carry ⟨rfl, fun _ hd => hd, rfl, rfl, rfl, Iff.rfl, fun _ ha => ha⟩
      · split
        · exact h.withActivity hk rfl (.inr rfl) rfl
        · exact h.beginFrame (by simpa using hr) ho
  · exact h

/-- R36: with its mark cleared the head waits as the entries behind it do. -/
theorem QueueClauses.clearHead (h : QueueClauses s.frames.queue) :
    WaitingQueue (clearInFlight s).frames.queue := by
  obtain ⟨hroom, hentries, htail⟩ := h
  unfold clearInFlight mapHead
  split
  · rename_i hq
    simp [hq, WaitingQueue]
  · rename_i n rest hq
    simp only [hq, List.length_cons, List.mem_cons, forall_eq_or_imp, List.tail_cons]
      at hroom hentries htail
    refine ⟨hroom, ?_⟩
    simp only [withQueue_queue, List.mem_cons, forall_eq_or_imp, and_true]
    exact ⟨hentries.1, fun m hm => ⟨hentries.2 m hm, htail m hm⟩⟩

/-- R36: without its head the queue waits. -/
theorem QueueClauses.tail {queue : List Notice} (h : QueueClauses queue) : WaitingQueue queue.tail :=
  ⟨by rw [List.length_tail]; have := h.room; omega,
    fun n hn => ⟨h.entries n (List.mem_of_mem_tail hn), h.tailWaits n hn⟩⟩

/-- R36: after a flawed attempt the queue waits, the head's flaws counted or the head given up. -/
theorem QueueClauses.countFlaw (h : QueueClauses s.frames.queue) :
    WaitingQueue (countFlaw s).frames.queue := by
  have htail := h.tail
  unfold Machine.countFlaw
  split
  · rename_i hq
    simp [hq, WaitingQueue]
  · rename_i n rest hq
    have hn : noticeSound n := h.entries n (by simp [hq])
    have hroom := h.room
    simp only [hq, List.tail_cons, List.length_cons] at htail hroom
    split
    · exact htail
    · rename_i hflaws
      refine ⟨hroom, ?_⟩
      simp only [withQueue_queue, List.mem_cons, forall_eq_or_imp, and_true]
      exact ⟨⟨by simp only [Config.flawLimit] at hflaws ⊢; omega, hn.2⟩, htail.2⟩

theorem countFlaw_round (s : State) : (countFlaw s).frames.round = s.frames.round := by
  unfold Machine.countFlaw
  split <;> [rfl; split <;> rfl]

@[simp] theorem mapHead_round (f : Notice → Notice) (s : State) :
    (mapHead f s).frames.round = s.frames.round := by
  unfold mapHead
  split <;> rfl

@[simp] theorem clearInFlight_round (s : State) : (clearInFlight s).frames.round = s.frames.round :=
  mapHead_round _ s

theorem YardLineSound.loseContention (h : YardLineSound s) : YardLineSound (loseContention s) := by
  unfold Machine.loseContention
  split
  · exact h.settleQueue (QueueClauses.clearHead (s := reportSent .lost false false
        (drive .nothing (lineBusy .receiving s))) h.queueClauses)
      (by simp) (by simp [reportSent]) (by simp [reportSent]) (by simp [reportSent, followsLine])
      (fun _ hr => by simpa using hr) (fun _ ha => by simpa using ha)
  · rename_i hk
    refine YardLineSound.arbiterFree (h.settle (by simp [hk]) rfl (fun _ _ => rfl) (.inr rfl) rfl rfl
      (fun _ hr => hr) (fun _ ha => ha))
  · exact h
  · exact h

@[simp] theorem reportSent_line (o : ReportOutcome) (x y : Bool) (s : State) :
    (reportSent o x y s).line = { s.line with report := some ⟨o, x, y, false, false⟩ } := rfl

theorem YardLineSound.reportSent (h : YardLineSound s) (o : ReportOutcome) (x y : Bool) :
    YardLineSound (reportSent o x y s) :=
  h.carry ⟨rfl, fun _ hd => hd, rfl, rfl, rfl, Iff.rfl, fun _ ha => ha⟩

theorem YardLineSound.collide (h : YardLineSound s) : YardLineSound (collide s) := by
  unfold Machine.collide
  split
  · exact (h.reportSent _ _ _).enterDuplicate
  · rename_i hk
    obtain ⟨f, hf, -⟩ := sending_of_sentKind hk
    have hbusy := ((yardLineSound_iff s).1 h).sendsBusy (by simp [sentFrame, hf])
    exact enterDuplicate_sound (by simp [hbusy]) (by simp [hf])
  · exact h
  · exact h

/-! The end of a frame by HELD (R19) -/

theorem arbiterRoundOver_idle (h : s.arbiter = .idle) : arbiterRoundOver s = s := by
  simp [arbiterRoundOver, h]

theorem passRound_queue (s : State) : (passRound s).frames.queue = s.frames.queue := by
  unfold passRound
  dsimp only
  split <;> simp [dropRound_queue]

theorem passRound_idle (h : s.arbiter = .idle) : (passRound s).arbiter = .idle := by
  unfold passRound
  dsimp only
  split
  · rw [arbiterRoundOver_idle (by simpa using h)]; simpa using h
  · simpa using h

/-- R38, R42: a CALL cut after its character 2 has begun its round; anything else changes nothing. -/
theorem partFrame_cases (sampled : List Byte) (s : State) :
    (canHear s = true ∧ ∃ b rest, sampled = 0x10 :: b :: rest
      ∧ partFrame sampled s = withRound (some (newRound (numberOfSender b) false)) (passRound s))
    ∨ (¬ (canHear s = true ∧ ∃ b rest, sampled = 0x10 :: b :: rest) ∧ partFrame sampled s = s) := by
  unfold partFrame
  split
  · rename_i kind b rest
    split
    · rename_i hc
      exact .inl ⟨hc.2, b, rest, by rw [hc.1]; rfl, rfl⟩
    · rename_i hc
      refine .inr ⟨?_, rfl⟩
      rintro ⟨hh, b', rest', heq⟩
      simp only [List.cons.injEq] at heq
      exact hc ⟨heq.1, hh⟩
  · rename_i hshort
    refine .inr ⟨?_, rfl⟩
    rintro ⟨-, b, rest, rfl⟩
    exact hshort _ _ _ rfl

theorem partFrame_queue (sampled : List Byte) (s : State) :
    (partFrame sampled s).frames.queue = s.frames.queue := by
  rcases partFrame_cases sampled s with ⟨-, b, rest, -, heq⟩ | ⟨-, heq⟩
  · rw [heq, withRound_queue, passRound_queue]
  · rw [heq]

theorem partFrame_idle (sampled : List Byte) (h : s.arbiter = .idle) :
    (partFrame sampled s).arbiter = .idle := by
  rcases partFrame_cases sampled s with ⟨-, b, rest, -, heq⟩ | ⟨-, heq⟩
  · rw [heq]; simpa using passRound_idle h
  · rw [heq]; exact h

/-- R36: once the frame being sent is reported ABANDONED, the whole queue waits. -/
theorem YardLineSound.abandonSent_queue (h : YardLineSound s) (begun : Bool) (n : Nat) :
    WaitingQueue (abandonSent begun n s).frames.queue := by
  unfold abandonSent
  split
  · rename_i hk
    have hw := h.waitingQueue (by simp [hk])
    split <;> simpa using hw
  · exact QueueClauses.clearHead (s := Machine.reportSent .abandoned false false s) h.queueClauses
  · rename_i hk
    have hw := h.waitingQueue (by simp [hk])
    dsimp only
    split <;> simpa [ownRound] using hw
  · rename_i hk
    simpa using h.waitingQueue (by simp [hk])

theorem YardLineSound.enterHeld (h : YardLineSound s) (begun : Bool) (sampled : List Byte) :
    YardLineSound (enterHeld begun sampled s) := by
  unfold Machine.enterHeld
  split
  · have hc := (yardLineSound_iff s).1 h
    have hqueue : WaitingQueue (dropAbandoned
        (partFrame sampled (abandonSent begun sampled.length s))).frames.queue := by
      rw [dropAbandoned_queue, partFrame_queue]
      exact h.abandonSent_queue begun sampled.length
    refine YardLineSound.refreshReady (YardLineSound.arbiterRoundOver ?_) s
    refine yardLineSound_of_waiting (fun hst => ⟨rfl, by simp, ?_⟩) hqueue rfl
      (fun _ _ => ⟨rfl, dropAbandoned_round _⟩) (fun _ => dropAbandoned_round _)
    have hidle : s.arbiter = .idle := (hc.silent (by simpa using hst)).2.2.2
    simpa using partFrame_idle sampled (s := abandonSent begun sampled.length s) (by simpa using hidle)
  · exact h

/-! Reports (R36, R124, R128) -/

theorem YardLineSound.execNoticeReport (h : YardLineSound s) (r : SendReport) :
    Ensures YardLineSound (execNoticeReport r s) := by
  refine (ensures_next _ _).2 ?_
  split
  · rename_i hk
    have hr := ((yardLineSound_iff s).1 h).outsideRound (.inl hk)
    -- the end mark of a frame outside a round, whatever becomes of the queue
    have ended : ∀ t : State, t.startup = s.startup → WaitingQueue t.frames.queue →
        t.frames.round = none → t.arbiter = s.arbiter → YardLineSound (Machine.endFrame t) := by
      intro t hst hq hround ha
      unfold Machine.endFrame
      rw [hround]
      exact h.settleQueue hq (by simp [hst]) (fun _ _ => rfl) (.inl rfl) rfl (fun _ _ => hround)
        (fun _ hi => ha.trans hi)
    cases r with
    | sent confirm =>
      exact ended (removeHead (Machine.reportSent .sent false confirm s)) rfl h.queueClauses.tail hr rfl
    | flawed confirm =>
      exact ended _ (by simp) (QueueClauses.countFlaw (s := Machine.reportSent .flawed true confirm s)
        h.queueClauses) ((countFlaw_round _).trans hr) (by simp)
    | lost => exact h.loseContention
    | collision => exact h.collide
    | abandoned n => exact h.enterHeld false _
  · exact h

theorem YardLineSound.execCallReport (h : YardLineSound s) (r : SendReport) :
    Ensures YardLineSound (execCallReport r s) := by
  refine (ensures_next _ _).2 ?_
  split
  · rename_i hk
    have hst := h.service_of_sending hk
    have hn : sentKind s ≠ some .notice := by simp [hk]
    cases r with
    | sent confirm =>
      exact h.settle hn rfl (fun _ _ => rfl) (.inr rfl) rfl rfl (fun hconf => by
        rw [show s.startup.station = .config from hconf] at hst; cases hst) (fun _ ha => ha)
    | flawed confirm =>
      exact YardLineSound.arbiterRoundOver (h.freed (s := s) hn false rfl rfl rfl rfl)
    | lost => exact h.loseContention
    | collision => exact h.collide
    | abandoned n => exact h.enterHeld false _
  · exact h

theorem YardLineSound.execGrantSend (h : YardLineSound s) :
    Ensures YardLineSound (execGrantSend s) := by
  refine (ensures_next _ _).2 ?_
  split
  · rename_i v r winner offered count hround harb
    split
    · rename_i hs
      obtain ⟨hser, -, -, hact⟩ := hs
      have hst : s.startup.station = .service := by simpa [inService] using hser
      have hk := sentKind_ne_of_follows (s := s)
        (by rcases hact with ha | ha <;> simp [ha, followsLine]) .notice
      have hw := h.waitingQueue hk
      have hq := h.queueClauses
      exact (yardLineSound_iff _).2
        { silent := fun hn => absurd hst hn
          room := hq.room, entries := hq.entries, tailWaits := hq.tailWaits
          headFlies := by
            simp only [sentKind, sentFrame, drive_line, lineBusy_line, Option.map_some, Option.some.injEq,
              reduceCtorEq, false_iff, not_exists, not_and, Bool.not_eq_true]
            exact fun n hn => (hw.2 n (List.mem_of_mem_head? hn)).2
          outsideRound := by simp [sentKind, sentFrame]
          sendsBusy := fun _ => rfl
          faultFollowsNothing := fun _ hb => absurd rfl hb
          noRoundYet := by simp [hst] }
    · exact h
  · exact h

theorem YardLineSound.execGrantReport (h : YardLineSound s) (r : SendReport) :
    Ensures YardLineSound (execGrantReport r s) := by
  refine (ensures_next _ _).2 ?_
  split
  · rename_i hk
    have roundOver : ∀ t : State, t.line.activity = s.line.activity →
        YardLineSound t → YardLineSound (grantOver t) := fun t ha ht =>
      YardLineSound.arbiterRoundOver (ht.endFrame (by simp [sentKind_congr ha, hk]))
    cases r with
    | sent confirm =>
      exact roundOver _ (by simp)
        ((h.reportSent .sent false confirm).same (by simp))
    | flawed confirm => exact roundOver _ rfl (h.reportSent _ _ _)
    | lost => exact h
    | collision => exact h
    | abandoned n => exact h.enterHeld false _
  · exact h

end Sys2Proof.Machine
end

