-- ==== Sys2Proof/Proofs/YardLineKept.lean ====
section
/-! PROOF. The commands about heard frames, rounds, start-up, time and the terminal keep the yard line
sound (O13). -/

namespace Sys2Proof.Machine

variable {s : State}

/-! ### Heard frames (R23 to R31, R38 to R42) -/

@[simp] theorem closingStart_queue (s : State) : (closingStart s).frames.queue = s.frames.queue := by
  unfold closingStart
  repeat' split
  all_goals simp

theorem closingStart_round_eq_none (s : State) :
    (closingStart s).frames.round = none ↔ s.frames.round = none := by
  unfold closingStart
  repeat' split
  all_goals simp [*]

/-- The start mark and character 1 of a closing frame leave the line alone. -/
theorem sameLine_closing (s : State) : SameLine s (closingOtherKind (closingStart s)) where
  station := by simp
  driving := fun _ hd => by simpa using hd
  activity := by simp
  condition := by simp
  queue := by simp
  round := by simp [closingStart_round_eq_none]
  arbiter := fun _ ha => by simpa using ha

theorem YardLineSound.reportHeard {n : Nat} (h : YardLineSound s) (f : RxFrame n) (confirm : Bool) :
    YardLineSound (reportHeard f confirm s) :=
  h.carry ⟨rfl, fun _ hd => hd, rfl, rfl, rfl, Iff.rfl, fun _ ha => ha⟩

theorem YardLineSound.hearHeader {n : Nat} (h : YardLineSound s) (f : RxFrame n) :
    YardLineSound (hearHeader f s) := by
  unfold Machine.hearHeader
  split
  · exact h.same (by simp)
  · exact h

/-- R23, R42: a heard frame that its owners leave sound does so too. -/
theorem YardLineSound.hearNotice {n : Nat} (h : YardLineSound s) (f : RxFrame n) (valid : Bool)
    (owners : State → State) (howners : ∀ u, YardLineSound u → YardLineSound (owners u)) :
    YardLineSound (hearNotice f valid owners s) := by
  unfold Machine.hearNotice
  split
  · rename_i hh
    have hk := sentKind_ne_of_follows (follows_of_hears (.inl hh)).2 .notice
    have hended : YardLineSound (Machine.endFrame (Machine.hearHeader f (Machine.reportHeard f false
        (closingOtherKind (closingStart s))))) := by
      refine YardLineSound.endFrame (((h.carry (sameLine_closing s)).reportHeard f false).hearHeader f) ?_
      rw [sentKind_congr (s := s) (by simp [Machine.reportHeard])]
      exact hk
    dsimp only
    split
    · exact howners _ hended
    · exact hended
  · exact h

theorem YardLineSound.hearKind {n : Nat} (h : YardLineSound s) (kind : FrameKind) (f : RxFrame n)
    (known : State → State) (hknown : YardLineSound (known s)) :
    YardLineSound (hearKind kind f known s) := by
  unfold Machine.hearKind
  split
  · exact h.hearNotice f false _ fun _ hu => hu
  · split
    · exact hknown
    · exact h

theorem YardLineSound.ownHail (h : YardLineSound s) (f : RxFrame 4) : YardLineSound (ownHail f s) := by
  have hn : YardLineSound (numberCheck (senderNumber f) (hailSerial f) s) := by
    unfold numberCheck
    split
    · exact h.enterDuplicate
    · exact h
  unfold Machine.ownHail
  dsimp only
  split
  · split
    · exact hn.same (by simp)
    · exact hn
  · split
    · exact hn
    · exact hn.gateChanged _

theorem YardLineSound.ownVoid (h : YardLineSound s) (f : RxFrame 2) : YardLineSound (ownVoid f s) := by
  unfold Machine.ownVoid
  split
  · exact h.same (by simp)
  · exact h

theorem YardLineSound.settleTaken (h : YardLineSound s) (row : Nat) (key : OrderKey) (count : Nat) :
    YardLineSound (settleTaken row key count s) := by
  unfold Machine.settleTaken
  split
  · exact h
  · refine YardLineSound.gateChanged ?_ _
    split
    · exact h
    · exact h.same (by simp)

theorem YardLineSound.settleLapse (h : YardLineSound s) (row : Nat) (key : OrderKey) (count : Nat) :
    YardLineSound (settleLapse row key count s) := by
  unfold Machine.settleLapse
  split
  · exact h
  · exact h.gateChanged _

theorem YardLineSound.ownTaken (h : YardLineSound s) (f : RxFrame 5) : YardLineSound (ownTaken f s) := by
  unfold Machine.ownTaken
  split
  · exact h.settleTaken _ _ _
  · exact h

theorem YardLineSound.ownLapse (h : YardLineSound s) (f : RxFrame 5) : YardLineSound (ownLapse f s) := by
  unfold Machine.ownLapse
  split
  · exact h.settleLapse _ _ _
  · exact h

theorem YardLineSound.ownArrive (h : YardLineSound s) (f : RxFrame 2) :
    YardLineSound (ownArrive f s) := by
  unfold Machine.ownArrive
  split
  · exact h
  · exact h.gateChanged _

/-- A station that can follow a frame is on a QUIET or BUSY line. -/
theorem YardLineSound.quietOrBusy (h : YardLineSound s)
    (hears : canHear s = true ∨ followsCall s = true) :
    s.line.condition = .quiet ∨ s.line.condition = .busy := by
  by_contra hn
  rw [not_or] at hn
  obtain ⟨ha, hr⟩ := h.fault hn.1 hn.2
  rcases hears with hh | hf
  · rcases (canHear_iff s).1 hh with hh | hw
    · obtain ⟨-, -, hact⟩ := (hearsFrame_iff s).1 hh
      simp [ha, hn.1] at hact
    · exact hn.2 ((awaitsClosing_iff s).1 hw).2.2.2
  · obtain ⟨-, -, hact⟩ := (followsCall_iff s).1 hf
    simp [ha] at hact

/-! On a QUIET or BUSY line the arbiter's business leaves the line alone. -/

theorem rechoose_line (s : State) (h : s.line.condition = .quiet ∨ s.line.condition = .busy) :
    (rechoose s).line = s.line := by
  have choose : (followWant { s with arbiter := arbiterOf (callChoice s) }).line = s.line :=
    followWant_line _ h
  unfold rechoose
  cases s.arbiter with
  | idle => exact choose
  | waiting _ => exact choose
  | calling _ => rfl
  | granting _ _ _ _ => rfl

theorem arbiterFree_line (s : State) (h : s.line.condition = .quiet ∨ s.line.condition = .busy) :
    (arbiterFree s).line = s.line :=
  rechoose_line _ h

theorem arbiterRoundOver_line (s : State) (h : s.line.condition = .quiet ∨ s.line.condition = .busy) :
    (arbiterRoundOver s).line = s.line := by
  unfold arbiterRoundOver
  cases s.arbiter with
  | idle => rfl
  | waiting _ => rfl
  | calling _ => exact arbiterFree_line s h
  | granting _ _ _ _ => exact arbiterFree_line s h

theorem passRound_line (s : State) (h : s.line.condition = .quiet ∨ s.line.condition = .busy) :
    (passRound s).line = s.line := by
  unfold passRound
  dsimp only
  split
  · rw [arbiterRoundOver_line _ (by simpa using h)]; simp
  · simp

/-- R38: a round begins on a line the station follows. -/
theorem YardLineSound.beginRound (h : YardLineSound s) (ho : observes s = true)
    (hline : s.line.condition = .quiet ∨ s.line.condition = .busy)
    (hactivity : followsLine s.line.activity = true) (view : RoundView) :
    YardLineSound (withRound (some view) (passRound s)) := by
  have hl := passRound_line s hline
  refine h.settle (sentKind_ne_of_follows hactivity _) (by simp) (fun _ hd => by simpa [hl] using hd)
    (by simpa [hl] using hline) (by simpa [hl] using hactivity) (by simp [passRound_queue])
    (fun hconf => ?_) (fun _ ha => by simpa using passRound_idle ha)
  exact absurd (by simpa using hconf) (not_config_of_observes ho)

theorem YardLineSound.toStretch (h : YardLineSound s) (hk : sentKind s ≠ some .notice)
    (ho : s.startup.station ≠ .config) : YardLineSound (toStretch s) :=
  h.settle hk rfl (fun _ hd => hd) (.inr rfl) rfl rfl (fun hconf => absurd hconf ho) (fun _ ha => ha)

theorem YardLineSound.beginComputing (h : YardLineSound s) (hst : s.startup.station = .service)
    (c : CallFields) : YardLineSound (beginComputing c s) :=
  h.carry
    { station := rfl, driving := fun hn => absurd hst hn, activity := rfl, condition := rfl, queue := rfl
      round := by simp [Machine.beginComputing], arbiter := fun _ ha => ha }

theorem service_of_eligible {c : CallFields} {started : Bool} (h : eligible c started s = true) :
    s.startup.station = .service := by
  simp only [eligible, inService, Bool.and_eq_true, beq_iff_eq] at h
  exact h.1.1.1.1.1.1.1

/-- R38: the round that a CALL opens, or the one its stopped sender is in already. -/
theorem YardLineSound.openRound (h : YardLineSound s) (ho : observes s = true)
    (hline : s.line.condition = .quiet ∨ s.line.condition = .busy)
    (hactivity : followsLine s.line.activity = true) (f : RxFrame 6) :
    YardLineSound (openRound f s) ∧ (openRound f s).line = s.line := by
  unfold Machine.openRound
  split
  · exact ⟨h, rfl⟩
  · exact ⟨h.beginRound ho hline hactivity _, passRound_line s hline⟩

theorem YardLineSound.execCallReceived (h : YardLineSound s) (f : RxFrame 6) (started : Bool) :
    Ensures YardLineSound (execCallReceived f started s) := by
  refine (ensures_next _ _).2 (h.hearKind .call f _ ?_)
  split
  · rename_i hears
    obtain ⟨ho, hact⟩ := follows_of_hears hears
    have hline := h.quietOrBusy hears
    obtain ⟨hopen, hopenLine⟩ := (h.carry (sameLine_closing s)).openRound
      (by simpa [observes] using ho) (by simpa using hline) (by simpa using hact) f
    have hol : (Machine.openRound f (closingOtherKind (closingStart s))).line = s.line :=
      hopenLine.trans (by simp)
    have hu := (hopen.reportHeard f false).hearHeader f
    have hk : sentKind (Machine.hearHeader f (Machine.reportHeard f false
        (Machine.openRound f (closingOtherKind (closingStart s))))) ≠ some .notice :=
      sentKind_ne_of_follows (by simpa [Machine.reportHeard, hol] using hact) _
    dsimp only
    split
    · exact hu.endRound hk false
    · have hv := hu.toStretch hk (by
        simpa [Machine.reportHeard] using not_config_of_observes ho)
      split
      · rename_i hcomputes
        exact hv.beginComputing (service_of_eligible hcomputes.2.2.2) _
      · exact hv
  · exact h

theorem YardLineSound.execGrantReceived (h : YardLineSound s) (f : RxFrame 5) :
    Ensures YardLineSound (execGrantReceived f s) := by
  refine (ensures_next _ _).2 (h.hearKind .grant f _ ?_)
  split
  · rename_i hh
    have hk := sentKind_ne_of_follows (follows_of_hears (.inl hh)).2 .notice
    have hsame : SameLine s (closingStart s) :=
      ⟨by simp, fun _ hd => by simpa using hd, by simp, by simp, by simp, closingStart_round_eq_none s,
        fun _ ha => by simpa using ha⟩
    have hheard := (((h.carry hsame).carry (t := decideConfirm f (closingStart s))
      (.of_eq (by simp))).reportHeard f
        (pulledConfirm (decideConfirm f (closingStart s)))).hearHeader f
    refine YardLineSound.endFrame
      (hheard.same (by simp)) ?_
    rw [sentKind_congr (s := s) (by simp [Machine.reportHeard])]
    exact hk
  · exact h

theorem YardLineSound.execUnfinishedFrame (h : YardLineSound s) (sampled : List Byte) (dw : Bool) :
    Ensures YardLineSound (execUnfinishedFrame sampled dw s) := by
  refine (ensures_next _ _).2 ?_
  split
  · rename_i hears
    obtain ⟨ho, hact⟩ := follows_of_hears hears
    have hline := h.quietOrBusy hears
    have hpart : YardLineSound (partFrame sampled s) ∧ (partFrame sampled s).line = s.line := by
      rcases partFrame_cases sampled s with ⟨-, b, rest, -, heq⟩ | ⟨-, heq⟩
      · rw [heq]
        exact ⟨h.beginRound ho hline hact _, by simp [passRound_line s hline]⟩
      · rw [heq]
        exact ⟨h, rfl⟩
    have ht := hpart.1.reportSent .discarded false false
    have hk : sentKind (Machine.reportSent .discarded false false (partFrame sampled s)) ≠ some .notice :=
      sentKind_ne_of_follows (by simpa [hpart.2] using hact) _
    dsimp only
    split
    · rename_i hr
      exact ht.freed hk dw rfl rfl hr rfl
    · exact ht.abandonRound hk dw
  · exact h

/-! ### Rounds (R40 to R43, R71 to R76, R80) -/

/-- An operation on the bid, the part and the silence of a round that drives nothing. -/
theorem YardLineSound.execComputationComplete (h : YardLineSound s) :
    Ensures YardLineSound (execComputationComplete s) := by
  refine (ensures_next _ _).2 ?_
  split
  · split
    · exact h.carry ⟨rfl, fun _ _ => rfl, rfl, rfl, rfl, by simp [withPart], fun _ ha => ha⟩
    · exact h
  · exact h
  · exact h
  · exact h

theorem YardLineSound.execStretchLimitExpiry (h : YardLineSound s) :
    Ensures YardLineSound (execStretchLimitExpiry s) := by
  refine (ensures_next _ _).2 ?_
  split
  · split
    · exact h.carry ⟨rfl, fun _ _ => rfl, rfl, rfl, rfl, by simp [withPart], fun _ ha => ha⟩
    · exact h
  · exact h
  · exact h
  · exact h

theorem YardLineSound.execStretchSlotEnd (h : YardLineSound s) :
    Ensures YardLineSound (execStretchSlotEnd s) := by
  refine (ensures_next _ _).2 ?_
  split
  · rename_i hr
    split
    · exact h.carry ⟨rfl, fun _ hd => hd, rfl, rfl, rfl, by simp [withRound, hr], fun _ ha => ha⟩
    · exact h
  · exact h

/-- R16, R41: a pulse moves the bid and what a station in SERVICE drives. -/
theorem windowPulse_cases (dw : Bool) (v : RoundView) (s : State) :
    windowPulse dw v s = s ∨ (s.startup.station = .service ∧
      ((∃ r res, s.bid = .bidding r res ∧ windowPulse dw v s
          = drive (if (sendBit dw res.word r).lost then .nothing else .bidWord)
            { s with bid := .bidding (sendBit dw res.word r) res })
        ∨ (s.bid = .idle ∧ v.own = true ∧ windowPulse dw v s = drive .windowPulses s))) := by
  unfold windowPulse
  split
  · rename_i hs
    have hst : s.startup.station = .service := by simpa [inService] using hs
    split
    · exact .inr ⟨hst, .inl ⟨_, _, by assumption, rfl⟩⟩
    · split
      · exact .inr ⟨hst, .inr ⟨by assumption, by assumption, rfl⟩⟩
      · exact .inl rfl
    · exact .inl rfl
    · exact .inl rfl
  · exact .inl rfl

theorem YardLineSound.execBidWindowStart (h : YardLineSound s) (dw : Bool) :
    Ensures YardLineSound (execBidWindowStart s dw) := by
  refine (ensures_next _ _).2 ?_
  split
  · rename_i v hr
    split
    · have hv : YardLineSound (withRound (some { v with silence := 0, pulsing := true }) s) :=
        h.carry ⟨rfl, fun _ hd => hd, rfl, rfl, rfl, by simp [hr], fun _ ha => ha⟩
      rcases windowPulse_cases dw v (withRound (some { v with silence := 0, pulsing := true }) s)
        with heq | ⟨hst, ⟨r, res, -, heq⟩ | ⟨-, -, heq⟩⟩
      · rw [heq]; exact hv
      · rw [heq]
        exact hv.carry ⟨rfl, fun hn => absurd hst hn, rfl, rfl, rfl, Iff.rfl, fun _ ha => ha⟩
      · rw [heq]
        exact hv.carry ⟨rfl, fun hn => absurd hst hn, rfl, rfl, rfl, Iff.rfl, fun _ ha => ha⟩
    · exact h
  · exact h

@[simp] theorem closeBid_queue (word : BidWord) (s : State) :
    (closeBid word s).frames.queue = s.frames.queue := by
  unfold closeBid
  split
  · dsimp only; split <;> simp [withPart]
  · rfl
  · rfl
  · rfl

theorem closeBid_round_eq_none (word : BidWord) (s : State) :
    (closeBid word s).frames.round = none ↔ s.frames.round = none := by
  unfold closeBid
  split
  · dsimp only; split <;> simp [withPart, createHold, withRound]
  · rfl
  · rfl
  · rfl

theorem sameLine_closeBid (word : BidWord) (s : State) : SameLine s (closeBid word s) where
  station := by simp
  driving := fun _ hd => by simpa using hd
  activity := by simp
  condition := by simp
  queue := by simp
  round := closeBid_round_eq_none word s
  arbiter := fun _ ha => by simpa using ha

theorem closeWithBid_idle (word : BidWord) (h : s.arbiter = .idle) : closeWithBid word s = s := by
  simp [closeWithBid, h]

theorem YardLineSound.toGrantWait (h : YardLineSound s) : YardLineSound (toGrantWait s) :=
  h.carry ⟨rfl, fun _ _ => rfl, rfl, rfl, rfl, by simp [Machine.toGrantWait], fun _ ha => ha⟩

theorem YardLineSound.execBidWindowClose (h : YardLineSound s) (word : BidWord) (dw : Bool) :
    Ensures YardLineSound (execBidWindowClose word dw s) := by
  refine (ensures_next _ _).2 ?_
  split
  · rename_i v hr
    split
    · have ht := h.carry (sameLine_closeBid word s)
      have hk : sentKind s ≠ some .notice := fun hk => by
        simp [((yardLineSound_iff s).1 h).outsideRound (.inl hk)] at hr
      have hkt : sentKind (closeBid word s) ≠ some .notice := by
        rwa [sentKind_congr (s := s) (by simp)]
      split
      · split
        · exact YardLineSound.endRound
            (ht.same (t := closeNoBid (closeBid word s)) (by simp))
            (by rwa [sentKind_congr (s := closeBid word s) (by simp)]) dw
        · exact ht.endRound hkt dw
      · exact ht.endRound hkt dw
      · split
        · refine YardLineSound.toGrantWait (ht.carry
            { station := by simp, driving := fun _ hd => by simpa using hd, activity := by simp
              condition := by simp, queue := by simp, round := by simp
              arbiter := fun _ ha => by rw [closeWithBid_idle word ha]; exact ha })
        · exact ht.toGrantWait
    · exact h
  · exact h

theorem YardLineSound.not_notice_in_round (h : YardLineSound s) {p : RoundPhase}
    (hp : roundPhase s = some p) : sentKind s ≠ some .notice := by
  intro hk
  simp [roundPhase, ((yardLineSound_iff s).1 h).outsideRound (.inl hk)] at hp

theorem YardLineSound.execWindowSilenceLimit (h : YardLineSound s) (dw : Bool) :
    Ensures YardLineSound (execWindowSilenceLimit dw s) := by
  refine (ensures_next _ _).2 ?_
  split
  · rename_i hs
    exact h.abandonRound (h.not_notice_in_round hs.2) dw
  · exact h

theorem YardLineSound.execGrantWaitSilenceLimit (h : YardLineSound s) (dw : Bool) :
    Ensures YardLineSound (execGrantWaitSilenceLimit dw s) := by
  refine (ensures_next _ _).2 ?_
  split
  · rename_i hs
    exact h.abandonRound (h.not_notice_in_round hs.2) dw
  · exact h

/-! ### Start-up (chapter 11) -/

theorem yardLineSound_resetValues (serial : BitVec 32) (pending : List Instr) :
    YardLineSound (resetValues serial pending) :=
  yardLineSound_of_waiting (fun _ => ⟨rfl, by simp [resetValues, resetLine], rfl⟩)
    ⟨by simp [resetValues], by simp [resetValues]⟩ rfl (by simp [resetValues, resetLine]) (fun _ => rfl)

theorem yardLineSound_fullReset (s : State) : Ensures YardLineSound (execFullReset s) := by
  refine (ensures_next _ _).2 ?_
  split
  · exact (yardLineSound_resetValues _ _).reportSent _ _ _
  · exact yardLineSound_resetValues _ _

theorem YardLineSound.enterConfigFault (h : YardLineSound s) (hconf : s.startup.station = .config) :
    YardLineSound (enterConfigFault s) := by
  have hc := (yardLineSound_iff s).1 h
  obtain ⟨hd, hs, hr, ha⟩ := hc.silent (by simp [hconf])
  have ht : YardLineSound { s with startup := { s.startup with station := .configFault } } :=
    yardLineSound_of_waiting (fun _ => ⟨hd, hr, ha⟩) (h.waitingQueue (by simp [sentKind, hs])) hs
      hc.faultFollowsNothing (fun _ => hc.noRoundYet (.inr hconf))
  exact ht.refreshReady s

theorem config_of_readingConfig (h : readingConfig s = true) :
    s.startup.station = .config ∧ s.startup.resetHeld = false := by
  simpa [readingConfig] using h

theorem YardLineSound.execConfigInterruption (h : YardLineSound s) :
    Ensures YardLineSound (execConfigInterruption s) := by
  refine (ensures_next _ _).2 ?_
  split
  · rename_i hread
    have ht : YardLineSound
        { s with startup := { s.startup with interruptions := s.startup.interruptions + 1 } } :=
      h.carry ⟨rfl, fun _ hd => hd, rfl, rfl, rfl, Iff.rfl, fun _ ha => ha⟩
    dsimp only
    split
    · exact ht.enterConfigFault (config_of_readingConfig hread).1
    · exact ht
  · exact h

theorem YardLineSound.enterListen (h : YardLineSound s) (hconf : s.startup.station = .config)
    (settings : Settings) (levels : BitVec 8) : YardLineSound (enterListen settings levels s) := by
  have hc := (yardLineSound_iff s).1 h
  obtain ⟨hd, hs, -, ha⟩ := hc.silent (by simp [hconf])
  have ht : ∀ startup signal, YardLineSound
      { s with startup := startup, line := (lineBusy (.observing .slack) s).line, signal := signal } :=
    fun _ _ => yardLineSound_of_waiting (fun _ => ⟨hd, by simp, ha⟩)
      (h.waitingQueue (by simp [sentKind, hs])) rfl (by simp) (fun _ => hc.noRoundYet (.inr hconf))
  exact (ht _ _).refreshReady s

theorem YardLineSound.execConfigReadComplete (h : YardLineSound s) (block : Vector Byte 32)
    (levels : BitVec 8) : Ensures YardLineSound (execConfigReadComplete block levels s) := by
  refine (ensures_next _ _).2 ?_
  split
  · rename_i hread
    have hconf := (config_of_readingConfig hread).1
    split
    · exact h.enterListen hconf _ _
    · exact h.enterConfigFault hconf
  · exact h

theorem YardLineSound.execListenTimerExpiry (h : YardLineSound s) :
    Ensures YardLineSound (execListenTimerExpiry s) := by
  refine (ensures_next _ _).2 ?_
  split
  · have ht : YardLineSound (Machine.takeNotice (.hail s.startup.serial) (timeSourceRule s)) :=
      (h.same (by simp)).takeNotice (givable_hail _)
    have hc := (yardLineSound_iff _).1 ht
    have hserves : ∀ startup, startup.station = .service → YardLineSound
        { Machine.takeNotice (.hail s.startup.serial) (timeSourceRule s) with startup := startup } :=
      fun startup hst => (yardLineSound_iff _).2
        { silent := fun hn => absurd hst hn, room := hc.room, entries := hc.entries
          tailWaits := hc.tailWaits, headFlies := hc.headFlies, outsideRound := hc.outsideRound
          sendsBusy := hc.sendsBusy, faultFollowsNothing := hc.faultFollowsNothing
          noRoundYet := fun ho => hc.noRoundYet (ho.imp_right fun hconf => by simp [hst] at hconf) }
    exact (YardLineSound.rechoose (hserves _ rfl)).refreshReady s
  · exact h

/-! ### Time, inputs and one bt (chapters 8 and 9) -/

theorem YardLineSound.followHalt (h : YardLineSound s) (before : Bool) :
    YardLineSound (followHalt before s) := by
  unfold Machine.followHalt
  split
  · exact h
  · split
    · exact YardLineSound.rechoose (h.same (by simp))
    · exact YardLineSound.rechoose (h.same (by simp))

theorem YardLineSound.execFilterExpiry (h : YardLineSound s) (line : Fin 8) :
    Ensures YardLineSound (execFilterExpiry line s) := by
  refine (ensures_next _ _).2 ?_
  split
  · exact YardLineSound.followHalt (h.same (by simp)) _
  · exact h

theorem YardLineSound.tick (h : YardLineSound s) : YardLineSound (tick s) := by
  unfold Machine.tick
  split
  · exact h
  · exact h.carry
      { station := rfl, driving := fun _ hd => hd, activity := rfl, condition := rfl, queue := rfl
        round := by simp, arbiter := fun _ ha => ha }

/-! ### The terminal (chapters 3, 6 and 10) -/

/-- A message touches the yard line by the notices and the table changes of its owner alone. -/
theorem yardLineAnswers : AnswerRules YardLineSound YardLineSound where
  arrive _ _ h := h.same (by simp)
  take _ h _ := h.same (by simp)
  stock _ _ h := h.same (by simp)
  picks _ _ h := h.same (by simp)
  strayTake _ h := h.same (by simp)
  notice _ _ hb h := h.giveNotice hb
  reply _ _ _ _ h := h.same (by simp)
  table _ _ h := h.gateChanged _
  flags _ _ h := h.same (by simp)

/-! ### Every command -/

theorem YardLineSound.exec (h : YardLineSound s) (c : Instr) : Ensures YardLineSound (exec c s) := by
  cases c with
  | fullReset => exact yardLineSound_fullReset s
  | resetRelease =>
    exact (ensures_next _ _).2
      (h.carry ⟨rfl, fun _ hd => hd, rfl, rfl, rfl, Iff.rfl, fun _ ha => ha⟩)
  | configInterruption => exact h.execConfigInterruption
  | configReadComplete block levels => exact h.execConfigReadComplete block levels
  | listenTimerExpiry => exact h.execListenTimerExpiry
  | quietPeriod elapsed => exact h.execQuietPeriod elapsed
  | frameStart elapsed dw => exact h.execFrameStart elapsed dw
  | contentionLoss => exact (ensures_next _ _).2 h.loseContention
  | bodyCollision => exact (ensures_next _ _).2 h.collide
  | noticeReport r => exact h.execNoticeReport r
  | callReport r => exact h.execCallReport r
  | grantSend => exact h.execGrantSend
  | grantReport r => exact h.execGrantReport r
  | hailReceived f =>
    exact (ensures_next _ _).2 (h.hearKind _ f _ (h.hearNotice f _ _ fun _ hu => hu.ownHail f))
  | voidReceived f =>
    exact (ensures_next _ _).2 (h.hearKind _ f _ (h.hearNotice f _ _ fun _ hu => hu.ownVoid f))
  | takenReceived f =>
    exact (ensures_next _ _).2 (h.hearKind _ f _ (h.hearNotice f _ _ fun _ hu => hu.ownTaken f))
  | lapseReceived f =>
    exact (ensures_next _ _).2 (h.hearKind _ f _ (h.hearNotice f _ _ fun _ hu => hu.ownLapse f))
  | arriveReceived f =>
    exact (ensures_next _ _).2 (h.hearKind _ f _ (h.hearNotice f _ _ fun _ hu => hu.ownArrive f))
  | callReceived f started => exact h.execCallReceived f started
  | grantReceived f => exact h.execGrantReceived f
  | unfinishedFrame sampled dw => exact h.execUnfinishedFrame sampled dw
  | strayActivity tw dw => exact h.execStrayActivity tw dw
  | strayActivityEnd => exact h.execStrayActivityEnd
  | endMarkOutsideFrame => exact h.execEndMarkOutsideFrame
  | heldEntry sampled begun => exact (ensures_next _ _).2 (h.enterHeld begun sampled)
  | heldEnd dw => exact h.execHeldEnd dw
  | stuckEntry => exact h.execStuckEntry
  | recoveryPulse dw => exact h.execRecoveryPulse dw
  | backOffExpiry => exact h.execBackOffExpiry
  | computationComplete => exact h.execComputationComplete
  | stretchLimitExpiry => exact h.execStretchLimitExpiry
  | stretchSlotEnd => exact h.execStretchSlotEnd
  | bidWindowStart dw => exact h.execBidWindowStart dw
  | bidWindowClose word dw => exact h.execBidWindowClose word dw
  | windowSilenceLimit dw => exact h.execWindowSilenceLimit dw
  | grantWaitSilenceLimit dw => exact h.execGrantWaitSilenceLimit dw
  | grantWaitExpiry => exact (ensures_next _ _).2 (h.ite (.of_eq (by simp)) _)
  | minuteStep elapsed =>
    refine (ensures_next _ _).2 ?_
    split
    · exact h
    · split
      · exact h.same (by simp)
      · exact h.same (by simp)
  | inputChange line high => exact (ensures_next _ _).2 (h.ite (.of_eq (by simp)) _)
  | filterExpiry line => exact h.execFilterExpiry line
  | cycleEnd output =>
    refine (ensures_next _ _).2 ?_
    cases output with
    | fieldLine n => exact h.ite (.of_eq (by simp)) _
    | ready => exact h.ite (.of_eq (by simp)) _
  | hornExpiry elapsed => exact (ensures_next _ _).2 (h.same (by simp))
  | terminalCharacter c =>
    exact (ensures_next _ _).2 (h.ite (.of_eq (by simp)) _)
  | flawedCharacter c => exact (ensures_next _ _).2 (h.ite (.of_eq (by simp)) _)
  | breakCondition => exact (ensures_next _ _).2 (h.ite (.of_eq (by simp)) _)
  | messageSent => exact (ensures_next _ _).2 (h.ite (.of_eq (by simp)) _)
  | unknownMessage code =>
    refine (ensures_next _ _).2 ?_
    split
    · exact h
    · dsimp only
      split
      · exact h.same (by simp)
      · exact h.same (by simp)
  | status => exact yardLineAnswers.exec rfl h
  | put tag family size grade stack => exact yardLineAnswers.exec rfl h
  | take tag => exact yardLineAnswers.exec rfl h
  | shift tag stack => exact yardLineAnswers.exec rfl h
  | holdPack tag => exact yardLineAnswers.exec rfl h
  | freePack tag => exact yardLineAnswers.exec rfl h
  | listStack stack => exact yardLineAnswers.exec rfl h
  | listPicks => exact yardLineAnswers.exec rfl h
  | truckIn ticket bay count lines => exact yardLineAnswers.exec rfl h
  | truckBay ticket bay => exact yardLineAnswers.exec rfl h
  | truckOut ticket => exact yardLineAnswers.exec rfl h
  | listTruck ticket => exact yardLineAnswers.exec rfl h
  | receiveWireHighAfterBreak => exact (ensures_next _ _).2 (h.same (by simp))

/-- Settles O13: a clause-by-clause invariant that every bt and every command keeps. -/
theorem everyStepKeepsTheYardLineSound : Obligations.EveryStepKeepsTheYardLineSound :=
  step_keeps (fun _ _ h => h.same (by simp)) (fun _ h => h.tick) (fun c _ h => h.exec c)

end Sys2Proof.Machine
end

