-- ==== Sys2Proof/Proofs/CountersOperations.lean ====
section
/-! PROOF. The counters stay in their ranges (O59, first half): what the shared operations do to them. -/

namespace Sys2Proof.Machine

variable {s : State}

/-! ### The counters by block -/

/-- R10, R20, R21: the Line Interface's counts. -/
def lineCounts (l : LineInterface) : Prop := l.idleCount ≤ 255 ∧ l.stuckCount ≤ 32 ∧ l.pulseCount ≤ 9

/-- R41, R42: the silence count of a round in progress. -/
def roundCounts (round : Option RoundView) : Prop := ∀ v ∈ round, v.silence ≤ 80

/-- R164: the interruptions counted, fewer than 4 while the read goes on. -/
def startupCounts (u : StartUp) : Prop :=
  u.interruptions ≤ 4 ∧ (u.station = .config → u.interruptions ≤ 3)

theorem countersSound_iff (s : State) : CountersSound s ↔
    lineCounts s.line ∧ roundCounts s.frames.round ∧ bidProgressSound s.bid ∧ s.clock.second ≤ 59
      ∧ startupCounts s.startup := by
  simp only [CountersSound, lineCounts, roundCounts, startupCounts, and_assoc]

/-- The counters are carried over block by block. -/
theorem CountersSound.carry {t : State} (h : CountersSound s)
    (hline : lineCounts s.line → lineCounts t.line)
    (hround : roundCounts s.frames.round → roundCounts t.frames.round)
    (hbid : bidProgressSound s.bid → bidProgressSound t.bid)
    (hclock : s.clock.second ≤ 59 → t.clock.second ≤ 59)
    (hstartup : startupCounts s.startup → startupCounts t.startup) :
    CountersSound t := by
  obtain ⟨hl, hr, hb, hc, hu⟩ := (countersSound_iff s).1 h
  exact (countersSound_iff t).2 ⟨hline hl, hround hr, hbid hb, hclock hc, hstartup hu⟩

/-- A change of the line and the round alone. -/
theorem CountersSound.carryLineRound {t : State} (h : CountersSound s)
    (hline : lineCounts s.line → lineCounts t.line)
    (hround : roundCounts s.frames.round → roundCounts t.frames.round)
    (e : t.bid = s.bid ∧ t.clock = s.clock ∧ t.startup = s.startup) : CountersSound t := by
  obtain ⟨hb, hc, hu⟩ := e
  exact h.carry hline hround (by rw [hb]; exact id) (by rw [hc]; exact id) (by rw [hu]; exact id)

/-- A change of the line alone. -/
theorem CountersSound.carryLine {t : State} (h : CountersSound s)
    (hline : lineCounts s.line → lineCounts t.line)
    (e : t.frames.round = s.frames.round ∧ t.bid = s.bid ∧ t.clock = s.clock ∧ t.startup = s.startup) :
    CountersSound t :=
  h.carryLineRound hline (by rw [e.1]; exact id) e.2

/-- A change that reaches no counter. -/
theorem CountersSound.same {t : State} (h : CountersSound s)
    (e : (t.line.idleCount = s.line.idleCount ∧ t.line.stuckCount = s.line.stuckCount
        ∧ t.line.pulseCount = s.line.pulseCount)
      ∧ t.frames.round = s.frames.round ∧ t.bid = s.bid ∧ t.clock = s.clock ∧ t.startup = s.startup) :
    CountersSound t := by
  obtain ⟨⟨hi, hs, hp⟩, eo⟩ := e
  exact h.carryLine (fun hl => ⟨hi ▸ hl.1, hs ▸ hl.2.1, hp ▸ hl.2.2⟩) eo

/-- The idle count and the count of STUCK start again. -/
theorem CountersSound.restarted {t : State} (h : CountersSound s)
    (e : (t.line.idleCount = 0 ∧ t.line.stuckCount = 0 ∧ t.line.pulseCount = s.line.pulseCount)
      ∧ t.frames.round = s.frames.round ∧ t.bid = s.bid ∧ t.clock = s.clock ∧ t.startup = s.startup) :
    CountersSound t := by
  obtain ⟨⟨hi, hs, hp⟩, eo⟩ := e
  exact h.carryLine (fun hl => ⟨by omega, by omega, hp ▸ hl.2.2⟩) eo

/-! ### The arbiter, the queue and the line -/

theorem followWant_lineCounts (h : lineCounts s.line) : lineCounts (followWant s).line := by
  unfold followWant
  split
  · exact ⟨h.1, h.2.1, Nat.zero_le 9⟩
  · split
    · exact ⟨h.1, h.2.1, Nat.zero_le 9⟩
    · exact h

theorem rechoose_lineCounts (h : lineCounts s.line) : lineCounts (rechoose s).line := by
  have choose : lineCounts (followWant { s with arbiter := arbiterOf (callChoice s) }).line :=
    followWant_lineCounts h
  unfold rechoose
  cases s.arbiter with
  | idle => exact choose
  | waiting _ => exact choose
  | calling _ => exact h
  | granting _ _ _ _ => exact h

theorem arbiterRoundOver_lineCounts (h : lineCounts s.line) : lineCounts (arbiterRoundOver s).line := by
  unfold arbiterRoundOver
  cases s.arbiter with
  | idle => exact h
  | waiting _ => exact h
  | calling _ => exact rechoose_lineCounts (s := { s with arbiter := .idle }) h
  | granting _ _ _ _ => exact rechoose_lineCounts (s := { s with arbiter := .idle }) h

theorem CountersSound.followWant (h : CountersSound s) : CountersSound (followWant s) :=
  h.carryLine followWant_lineCounts (by simp)

theorem CountersSound.rechoose (h : CountersSound s) : CountersSound (rechoose s) :=
  h.carryLine rechoose_lineCounts (by simp)

theorem CountersSound.arbiterFree (h : CountersSound s) : CountersSound (arbiterFree s) :=
  h.carryLine (rechoose_lineCounts (s := { s with arbiter := .idle })) (by simp)

theorem CountersSound.arbiterRoundOver (h : CountersSound s) : CountersSound (arbiterRoundOver s) :=
  h.carryLine arbiterRoundOver_lineCounts (by simp)

theorem CountersSound.gateChanged (h : CountersSound s) (trucks : List Truck) :
    CountersSound (gateChanged trucks s) :=
  CountersSound.rechoose (h.same (by simp))

@[simp] theorem enqueue_round (body : NoticeBody) (s : State) :
    (enqueue body s).frames.round = s.frames.round := by
  unfold enqueue
  repeat' split
  all_goals simp

@[simp] theorem takeNotice_round (body : NoticeBody) (s : State) :
    (takeNotice body s).frames.round = s.frames.round := by
  unfold takeNotice
  repeat' split
  all_goals simp

theorem CountersSound.takeNotice (h : CountersSound s) (body : NoticeBody) :
    CountersSound (takeNotice body s) :=
  h.same (by simp)

theorem CountersSound.giveNotice (h : CountersSound s) (body : NoticeBody) :
    CountersSound (giveNotice body s) :=
  (h.takeNotice body).followWant

theorem CountersSound.refreshReady (h : CountersSound s) (before : State) :
    CountersSound (refreshReady before s) :=
  h.same (by simp)

/-! ### Rounds and frames -/

theorem lineFreed_lineCounts {t : State} (dw : Bool) (h : lineCounts t.line) :
    lineCounts (lineFreed dw t).line := by
  cases dw <;> exact ⟨Nat.zero_le _, Nat.zero_le _, h.2.2⟩

theorem roundCounts_none : roundCounts none := by simp [roundCounts]

theorem CountersSound.endRound (h : CountersSound s) (dw : Bool) : CountersSound (endRound dw s) := by
  have hf : CountersSound (lineFreed dw (drive .nothing (dropRound s))) :=
    h.carryLineRound (fun hl => lineFreed_lineCounts dw (by simpa [lineCounts] using hl))
      (fun _ => by simpa [dropRound_round] using roundCounts_none) (by simp)
  unfold Machine.endRound
  dsimp only
  split
  · exact hf.arbiterRoundOver
  · exact hf

theorem CountersSound.abandonRound (h : CountersSound s) (dw : Bool) :
    CountersSound (abandonRound dw s) := by
  have hf : CountersSound (lineFreed dw (drive .nothing (dropAbandoned s))) :=
    h.carry (fun hl => lineFreed_lineCounts dw (by simpa [lineCounts] using hl))
      (fun _ => by simpa [dropAbandoned_round] using roundCounts_none)
      (fun _ => by simp [dropAbandoned, bidProgressSound]) (by simp) (by simp)
  unfold Machine.abandonRound
  dsimp only
  split
  · exact hf.arbiterRoundOver
  · exact hf

theorem CountersSound.endFrame (h : CountersSound s) : CountersSound (endFrame s) := by
  unfold Machine.endFrame
  split
  · exact h.restarted (by simp)
  · exact h.endRound false

theorem roundCounts_map {round : Option RoundView} {f : RoundView → RoundView}
    (hf : ∀ v, v.silence ≤ 80 → (f v).silence ≤ 80) (h : roundCounts round) :
    roundCounts (round.map f) := by
  cases round with
  | none => exact roundCounts_none
  | some v => simpa [roundCounts] using hf v (by simpa [roundCounts] using h)

theorem CountersSound.enterDuplicate (h : CountersSound s) : CountersSound (enterDuplicate s) :=
  h.carry
    (fun ⟨hi, hs, hp⟩ => by
      rw [enterDuplicate_line]
      refine ⟨hi, hs, ?_⟩
      dsimp only
      split <;> omega)
    (fun hr => by rw [enterDuplicate_frames]; exact roundCounts_map (fun _ hv => hv) hr)
    (fun _ => by simp [Machine.enterDuplicate, bidProgressSound])
    (by simp)
    (fun hu => by rw [enterDuplicate_startup]; exact ⟨hu.1, nofun⟩)

theorem CountersSound.passRound (h : CountersSound s) : CountersSound (passRound s) := by
  have hd : CountersSound (dropRound (endHold s)) :=
    h.carryLineRound (by simp [lineCounts]) (fun _ => by simpa [dropRound_round] using roundCounts_none)
      (by simp)
  unfold Machine.passRound
  dsimp only
  split
  · exact hd.arbiterRoundOver
  · exact hd

theorem CountersSound.withRound (h : CountersSound s) {view : RoundView} (hv : view.silence ≤ 80) :
    CountersSound (withRound (some view) s) :=
  h.carryLineRound id (fun _ => by simpa [roundCounts] using hv) (by simp)

/-- A round's view may change anything but raise its silence count. -/
theorem CountersSound.mapRound (h : CountersSound s) {f : RoundView → RoundView}
    (hf : ∀ v, v.silence ≤ 80 → (f v).silence ≤ 80) :
    CountersSound (Machine.withRound (s.frames.round.map f) s) :=
  h.carryLineRound id (roundCounts_map hf) (by simp)

theorem CountersSound.partFrame (h : CountersSound s) (sampled : List Byte) :
    CountersSound (partFrame sampled s) := by
  rcases partFrame_cases sampled s with ⟨-, b, rest, -, heq⟩ | ⟨-, heq⟩
  · rw [heq]
    exact h.passRound.withRound (Nat.zero_le 80)
  · rw [heq]
    exact h

theorem CountersSound.abandonSent (h : CountersSound s) (begun : Bool) (n : Nat) :
    CountersSound (abandonSent begun n s) := by
  unfold Machine.abandonSent
  split
  · split
    · exact h.same (by simp)
    · exact h
  · exact h.same (by simp)
  · dsimp only
    split
    · exact CountersSound.withRound (s := reportSent .abandoned false false s) (h.same (by simp))
        (Nat.zero_le 80)
    · exact h.same (by simp)
  · exact h.same (by simp)

theorem CountersSound.enterHeld (h : CountersSound s) (begun : Bool) (sampled : List Byte) :
    CountersSound (enterHeld begun sampled s) := by
  unfold Machine.enterHeld
  split
  · have ht := (h.abandonSent begun sampled.length).partFrame sampled
    refine CountersSound.refreshReady (CountersSound.arbiterRoundOver (ht.carry ?_ (fun _ => ?_)
      (fun _ => by simp [dropAbandoned, bidProgressSound]) (by simp) (by simp))) s
    · rintro ⟨-, -, hp⟩
      refine ⟨Nat.zero_le _, Nat.zero_le _, ?_⟩
      dsimp only
      split
      · exact Nat.zero_le 9
      · simpa using hp
    · rw [dropAbandoned_round]; exact roundCounts_none
  · exact h

theorem CountersSound.loseContention (h : CountersSound s) : CountersSound (loseContention s) := by
  unfold Machine.loseContention
  split
  · exact h.restarted (by simp)
  · exact CountersSound.arbiterFree (h.restarted (by simp))
  · exact h
  · exact h

theorem CountersSound.ownRound (h : CountersSound s) : CountersSound (ownRound s) :=
  h.withRound (Nat.zero_le 80)

theorem CountersSound.reportSent (h : CountersSound s) (o : ReportOutcome) (x y : Bool) :
    CountersSound (reportSent o x y s) :=
  h.same (by simp)

theorem CountersSound.collide (h : CountersSound s) : CountersSound (collide s) := by
  unfold Machine.collide
  split
  · exact (h.reportSent _ _ _).enterDuplicate
  · exact (h.reportSent _ _ _).ownRound.enterDuplicate
  · exact h
  · exact h

/-! ### Heard frames and the clock -/

theorem CountersSound.closingStart (h : CountersSound s) : CountersSound (closingStart s) := by
  unfold Machine.closingStart
  split
  · exact h
  · rename_i v hv
    have hsil : v.silence ≤ 80 := ((countersSound_iff s).1 h).2.1 v hv
    split
    · exact (h.withRound (view := { v with phase := .grant }) hsil).same (by simp)
    · exact h
    · exact h
    · exact h
    · exact h

theorem hearMinute_second (m : Minute) (b : Bool) (s : State) (h : s.clock.second ≤ 59) :
    (hearMinute m b s).clock.second ≤ 59 := by
  unfold hearMinute
  dsimp only
  repeat' split
  · exact h
  · simp [becomeSet_clock]
  · exact h
  · simp [jumpForward_clock]
  · exact h

theorem CountersSound.hearHeader {n : Nat} (h : CountersSound s) (f : RxFrame n) :
    CountersSound (hearHeader f s) := by
  unfold Machine.hearHeader
  split
  · exact h.carry (by simp [lineCounts]) (by simp) (by simp) (hearMinute_second _ _ s) (by simp)
  · exact h

theorem CountersSound.hearNotice {n : Nat} (h : CountersSound s) (f : RxFrame n) (valid : Bool)
    (owners : State → State) (howners : ∀ u, CountersSound u → CountersSound (owners u)) :
    CountersSound (hearNotice f valid owners s) := by
  unfold Machine.hearNotice
  split
  · have hreported : CountersSound
        (Machine.reportHeard f false (closingOtherKind (Machine.closingStart s))) :=
      h.closingStart.carryLine (fun hl => by simpa [lineCounts] using hl) (by simp)
    have hended := (hreported.hearHeader f).endFrame
    dsimp only
    split
    · exact howners _ hended
    · exact hended
  · exact h

theorem CountersSound.hearKind {n : Nat} (h : CountersSound s) (kind : FrameKind) (f : RxFrame n)
    (known : State → State) (hknown : CountersSound (known s)) :
    CountersSound (hearKind kind f known s) := by
  unfold Machine.hearKind
  split
  · exact h.hearNotice f false _ fun _ hu => hu
  · split
    · exact hknown
    · exact h

end Sys2Proof.Machine
end

