-- ==== Sys2Proof/Proofs/CountersKept.lean ====
section
/-! PROOF. The counters stay in their ranges (O59, first half): every command. -/

namespace Sys2Proof.Machine

variable {s : State}

/-- A command that changes nothing but where its condition holds. -/
theorem CountersSound.ite {t : State} (h : CountersSound s) (c : Prop) [Decidable c]
    (ht : c → CountersSound t) : CountersSound (if c then t else s) := by
  split
  · rename_i hc
    exact ht hc
  · exact h

/-! ### The wires outside frames -/

theorem CountersSound.execQuietPeriod (h : CountersSound s) (elapsed : Nat) :
    Ensures CountersSound (execQuietPeriod s elapsed) := by
  refine (ensures_next _ _).2 (h.ite _ fun _ => ?_)
  split
  · rename_i hidle
    simp only [Config.quietPeriod] at hidle
    exact h.carryLine (fun ⟨_, hs, hp⟩ => ⟨by dsimp only; omega, hs, hp⟩) (by simp)
  · exact h.carryLine (fun ⟨_, hs, hp⟩ => ⟨by simp only [Config.quietPeriod]; omega, hs, hp⟩) (by simp)

theorem CountersSound.grantWaitPull (h : CountersSound s) (tw : Bool) :
    CountersSound (grantWaitPull tw s) := by
  cases tw with
  | false => exact h.same ⟨⟨rfl, rfl, rfl⟩, rfl, rfl, rfl, rfl⟩
  | true =>
    exact h.carryLineRound id
      (roundCounts_map (f := fun v => { v with silence := 0 }) fun _ _ => Nat.zero_le 80) (by simp)

theorem CountersSound.execStrayActivity (h : CountersSound s) (tw dw : Bool) :
    Ensures CountersSound (execStrayActivity tw dw s) := by
  refine (ensures_next _ _).2 (h.ite _ fun _ => ?_)
  split
  · split <;> exact h.restarted (by simp)
  · split
    · exact h.restarted (by simp)
    · exact h.ite _ fun _ => h.grantWaitPull tw

theorem CountersSound.execStrayActivityEnd (h : CountersSound s) :
    Ensures CountersSound (execStrayActivityEnd s) := by
  refine (ensures_next _ _).2 ?_
  split
  · exact h.restarted (by simp)
  · split
    · exact h.restarted (by simp)
    · exact h.ite _ fun _ => h.grantWaitPull false

theorem CountersSound.endRecovery (h : CountersSound s) : CountersSound (endRecovery s) :=
  h.carryLine
    (fun _ => by rw [endRecovery_line]; exact ⟨Nat.zero_le _, Nat.zero_le _, Nat.zero_le _⟩) (by simp)

theorem CountersSound.execEndMarkOutsideFrame (h : CountersSound s) :
    Ensures CountersSound (execEndMarkOutsideFrame s) := by
  refine (ensures_next _ _).2 ?_
  split
  · exact h.endRecovery
  · exact h.ite _ fun _ => h.restarted (by simp)

theorem CountersSound.execStuckEntry (h : CountersSound s) :
    Ensures CountersSound (execStuckEntry s) := by
  refine (ensures_next _ _).2 (h.ite _ fun _ => ?_)
  refine CountersSound.refreshReady (CountersSound.followWant (h.carryLine ?_ (by simp))) s
  exact fun hl => ⟨Nat.zero_le 255, Nat.le_refl 32, hl.2.2⟩

theorem CountersSound.execRecoveryPulse (h : CountersSound s) (dw : Bool) :
    Ensures CountersSound (execRecoveryPulse dw s) := by
  refine (ensures_next _ _).2 (h.ite _ fun _ => ?_)
  split
  · exact h.endRecovery
  · split
    · rename_i hpulse
      simp only [Config.pulseLimit] at hpulse
      exact h.carryLine (fun ⟨hi, hs, _⟩ => ⟨hi, hs, by dsimp only; omega⟩) (by simp)
    · exact h.carryLine (fun ⟨hi, hs, _⟩ => ⟨hi, hs, Nat.le_refl 9⟩) (by simp)

/-! ### Frames -/

theorem CountersSound.execFrameStart (h : CountersSound s) (elapsed : Nat) (dw : Bool) :
    Ensures CountersSound (execFrameStart elapsed dw s) := by
  refine (ensures_next _ _).2 (h.ite _ fun _ => ?_)
  split
  · exact h
  · dsimp only
    split
    · exact h.carryLine (fun ⟨_, hs, hp⟩ => ⟨Nat.min_le_left _ _, hs, hp⟩) (by simp)
    · split
      · exact h.restarted (by simp)
      · rename_i o _ _ _
        cases o with
        | notice body =>
          exact h.carryLine (by simp +contextual [lineCounts, beginFrame]) (by simp [beginFrame])
        | call r =>
          exact h.carryLine (by simp +contextual [lineCounts, beginFrame]) (by simp [beginFrame])

@[simp] theorem removeHead_round (s : State) : (removeHead s).frames.round = s.frames.round := rfl

theorem CountersSound.execNoticeReport (h : CountersSound s) (r : SendReport) :
    Ensures CountersSound (execNoticeReport r s) := by
  refine (ensures_next _ _).2 (h.ite _ fun _ => ?_)
  cases r with
  | sent confirm =>
    exact CountersSound.endFrame (s := removeHead (Machine.reportSent .sent false confirm s))
      (h.same (by simp))
  | flawed confirm =>
    exact CountersSound.endFrame ((h.reportSent .flawed true confirm).same
      (by simp [countFlaw_round]))
  | lost => exact h.loseContention
  | collision => exact h.collide
  | abandoned n => exact h.enterHeld false _

theorem CountersSound.execCallReport (h : CountersSound s) (r : SendReport) :
    Ensures CountersSound (execCallReport r s) := by
  refine (ensures_next _ _).2 (h.ite _ fun _ => ?_)
  cases r with
  | sent confirm =>
    exact ((h.reportSent .sent false confirm).withRound
      (view := { newRound s.startup.settings.number true with phase := .stretch })
      (Nat.zero_le 80)).carryLine (t := callSent (Machine.reportSent .sent false confirm s))
        (fun hl => ⟨Nat.zero_le _, Nat.zero_le _, hl.2.2⟩) ⟨rfl, rfl, rfl, rfl⟩
  | flawed confirm => exact ((h.reportSent _ _ _).ownRound).endRound false
  | lost => exact h.loseContention
  | collision => exact h.collide
  | abandoned n => exact h.enterHeld false _

theorem CountersSound.execGrantSend (h : CountersSound s) :
    Ensures CountersSound (execGrantSend s) := by
  refine (ensures_next _ _).2 ?_
  split
  · rename_i v r winner offered count hv _
    refine h.ite _ fun _ => ?_
    exact (h.withRound (view := { v with phase := .grant })
      (((countersSound_iff s).1 h).2.1 v hv)).restarted
      (by simp)
  · exact h

theorem CountersSound.execGrantReport (h : CountersSound s) (r : SendReport) :
    Ensures CountersSound (execGrantReport r s) := by
  refine (ensures_next _ _).2 (h.ite _ fun _ => ?_)
  cases r with
  | sent confirm =>
    exact CountersSound.arbiterRoundOver (CountersSound.endFrame
      (s := settleGrant confirm (Machine.reportSent .sent false confirm s)) (h.same (by simp)))
  | flawed confirm =>
    exact CountersSound.arbiterRoundOver (CountersSound.endFrame
      (s := Machine.reportSent .flawed true confirm s) (h.same (by simp)))
  | lost => exact h
  | collision => exact h
  | abandoned n => exact h.enterHeld false _

theorem CountersSound.ownHail (h : CountersSound s) (f : RxFrame 4) : CountersSound (ownHail f s) := by
  have hn : CountersSound (numberCheck (senderNumber f) (hailSerial f) s) :=
    h.ite _ fun _ => h.enterDuplicate
  unfold Machine.ownHail
  dsimp only
  split
  · split
    · exact hn.same (by simp)
    · exact hn
  · split
    · exact hn
    · exact hn.gateChanged _

theorem CountersSound.ownVoid (h : CountersSound s) (f : RxFrame 2) : CountersSound (ownVoid f s) := by
  unfold Machine.ownVoid
  split
  · exact h.same (by simp)
  · exact h

theorem CountersSound.ownTaken (h : CountersSound s) (f : RxFrame 5) : CountersSound (ownTaken f s) := by
  refine h.ite _ fun _ => ?_
  unfold settleTaken
  split
  · exact h
  · refine CountersSound.gateChanged ?_ _
    split
    · exact h
    · exact h.same (by simp)

theorem CountersSound.ownLapse (h : CountersSound s) (f : RxFrame 5) : CountersSound (ownLapse f s) := by
  refine h.ite _ fun _ => ?_
  unfold settleLapse
  split
  · exact h
  · exact h.gateChanged _

theorem CountersSound.ownArrive (h : CountersSound s) (f : RxFrame 2) :
    CountersSound (ownArrive f s) := by
  unfold Machine.ownArrive
  split
  · exact h
  · exact h.gateChanged _

theorem CountersSound.reportHeard {n : Nat} (h : CountersSound s) (f : RxFrame n) (confirm : Bool) :
    CountersSound (reportHeard f confirm s) :=
  h.same (by simp [Machine.reportHeard])

theorem CountersSound.openRound (h : CountersSound s) (f : RxFrame 6) : CountersSound (openRound f s) := by
  unfold Machine.openRound
  split
  · exact h
  · exact h.passRound.withRound (Nat.zero_le 80)

theorem CountersSound.execCallReceived (h : CountersSound s) (f : RxFrame 6) (started : Bool) :
    Ensures CountersSound (execCallReceived f started s) := by
  refine (ensures_next _ _).2 (h.hearKind .call f _ (h.ite _ fun _ => ?_))
  have hu := ((CountersSound.openRound (s := closingOtherKind (Machine.closingStart s))
    (h.closingStart.same (by simp)) f).reportHeard f false).hearHeader f
  dsimp only
  split
  · exact hu.endRound false
  · have hv : CountersSound (toStretch (Machine.hearHeader f (Machine.reportHeard f false
        (Machine.openRound f (closingOtherKind (Machine.closingStart s)))))) :=
      (hu.mapRound (f := fun r => { r with phase := .stretch, part := .none }) fun _ hs => hs).carryLine
        (fun hl => ⟨Nat.zero_le _, Nat.zero_le _, hl.2.2⟩) ⟨rfl, rfl, rfl, rfl⟩
    split
    · exact (hv.mapRound (f := fun r => { r with part := .computing }) fun _ hs => hs).carry
        id id (fun _ => ⟨rfl, rfl⟩) id id
    · exact hv

theorem CountersSound.execGrantReceived (h : CountersSound s) (f : RxFrame 5) :
    Ensures CountersSound (execGrantReceived f s) := by
  refine (ensures_next _ _).2 (h.hearKind .grant f _ (h.ite _ fun _ => ?_))
  have hd : CountersSound (decideConfirm f (Machine.closingStart s)) := h.closingStart.same (by simp)
  exact CountersSound.endFrame
    (((hd.reportHeard f (pulledConfirm (decideConfirm f (Machine.closingStart s)))).hearHeader f).same
      (by simp))

theorem CountersSound.execUnfinishedFrame (h : CountersSound s) (sampled : List Byte) (dw : Bool) :
    Ensures CountersSound (execUnfinishedFrame sampled dw s) := by
  refine (ensures_next _ _).2 (h.ite _ fun _ => ?_)
  have ht := (h.partFrame sampled).reportSent .discarded false false
  dsimp only
  split
  · exact ht.carryLine (fun hl => lineFreed_lineCounts dw (by simpa [lineCounts] using hl)) (by simp)
  · exact ht.abandonRound dw

/-! ### Rounds (R16, R41, R42) -/

theorem CountersSound.execComputationComplete (h : CountersSound s) :
    Ensures CountersSound (execComputationComplete s) := by
  refine (ensures_next _ _).2 ?_
  split
  · rename_i r hr
    refine h.ite _ fun _ => ?_
    have hs : r.sent = 0 ∧ r.lost = false := by
      simpa [hr, bidProgressSound] using ((countersSound_iff s).1 h).2.2.1
    exact (h.mapRound (f := fun v => { v with part := .ready }) fun _ hv => hv).carry
      id id (fun _ => hs) id id
  · exact h
  · exact h
  · exact h

theorem CountersSound.execStretchLimitExpiry (h : CountersSound s) :
    Ensures CountersSound (execStretchLimitExpiry s) := by
  refine (ensures_next _ _).2 ?_
  split
  · refine h.ite _ fun _ => ?_
    exact (h.mapRound (f := fun v => { v with part := .satOut }) fun _ hv => hv).carry
      id id (fun _ => trivial) id id
  · exact h
  · exact h
  · exact h

theorem bidProgressSound_startBidding {b : BidUnit} (h : bidProgressSound b) :
    bidProgressSound (startBidding b) := by
  cases b with
  | idle => exact h
  | computing r => exact h
  | ready r res => exact ⟨by rw [h.1]; omega, fun hl => by rw [h.2] at hl; cases hl⟩
  | bidding r res => exact h

theorem CountersSound.execStretchSlotEnd (h : CountersSound s) :
    Ensures CountersSound (execStretchSlotEnd s) := by
  refine (ensures_next _ _).2 ?_
  split
  · rename_i v _
    refine h.ite _ fun _ => ?_
    exact (h.withRound (view := { v with phase := .window, silence := 0, pulsing := false })
      (Nat.zero_le 80)).carry id id bidProgressSound_startBidding id id
  · exact h

theorem CountersSound.execBidWindowStart (h : CountersSound s) (dw : Bool) :
    Ensures CountersSound (execBidWindowStart s dw) := by
  refine (ensures_next _ _).2 ?_
  split
  · rename_i v _
    refine h.ite _ fun _ => ?_
    have hv := h.withRound (view := { v with silence := 0, pulsing := true }) (Nat.zero_le 80)
    rcases windowPulse_cases dw v (Machine.withRound (some { v with silence := 0, pulsing := true }) s)
      with heq | ⟨-, ⟨r, res, hb, heq⟩ | ⟨-, -, heq⟩⟩
    · rw [heq]; exact hv
    · rw [heq]
      exact hv.carry id id (fun hs => sendBit_sound dw res.word r res (by rwa [hb] at hs)) id id
    · rw [heq]; exact hv.same (by simp)
  · exact h

theorem CountersSound.closeBid (h : CountersSound s) (word : BidWord) :
    CountersSound (closeBid word s) := by
  have hpart : CountersSound (withPart .none { s with bid := .idle }) :=
    (h.mapRound (f := fun v => { v with part := .none }) fun _ hv => hv).carry
      id id (fun _ => trivial) id id
  unfold Machine.closeBid
  split
  · dsimp only
    split
    · exact hpart
    · exact hpart.same (by simp)
  · exact h
  · exact h
  · exact h

theorem CountersSound.toGrantWait (h : CountersSound s) : CountersSound (toGrantWait s) :=
  (h.mapRound (f := fun r => { r with phase := .grantWait, silence := 0, pulsing := false })
    fun _ _ => Nat.zero_le 80).same ⟨⟨rfl, rfl, rfl⟩, rfl, rfl, rfl, rfl⟩

theorem CountersSound.execBidWindowClose (h : CountersSound s) (word : BidWord) (dw : Bool) :
    Ensures CountersSound (execBidWindowClose word dw s) := by
  refine (ensures_next _ _).2 ?_
  split
  · refine h.ite _ fun _ => ?_
    have ht := h.closeBid word
    dsimp only
    split
    · refine CountersSound.endRound ?_ dw
      split
      · exact ht.same (by simp)
      · exact ht
    · exact ht.endRound dw
    · refine CountersSound.toGrantWait ?_
      split
      · exact ht.same (by simp)
      · exact ht
  · exact h

/-! ### Start-up, time and one bt -/

theorem countersSound_resetValues (serial : BitVec 32) (pending : List Instr) :
    CountersSound (resetValues serial pending) :=
  (countersSound_iff _).2
    ⟨⟨Nat.zero_le _, Nat.zero_le _, Nat.zero_le _⟩, roundCounts_none, trivial, Nat.zero_le 59,
      Nat.zero_le 4, fun _ => Nat.zero_le 3⟩

theorem countersSound_fullReset (s : State) : Ensures CountersSound (execFullReset s) := by
  refine (ensures_next _ _).2 ?_
  split
  · exact (countersSound_resetValues _ _).reportSent _ _ _
  · exact countersSound_resetValues _ _

/-- R164: the count is tested at once, so CONFIG goes on with at most 3. -/
theorem CountersSound.execConfigInterruption (h : CountersSound s) :
    Ensures CountersSound (execConfigInterruption s) := by
  refine (ensures_next _ _).2 (h.ite _ fun hread => ?_)
  have hu := ((countersSound_iff s).1 h).2.2.2.2.2 (config_of_readingConfig hread).1
  dsimp only
  split
  · refine CountersSound.refreshReady (h.carry ?_ ?_ ?_ ?_ ?_) _
    · exact id
    · exact id
    · exact id
    · exact id
    · exact fun _ => ⟨by dsimp only; omega, fun hc => by cases hc⟩
  · rename_i hlimit
    simp only [Config.interruptionLimit] at hlimit
    exact h.carry id id id id (fun _ => ⟨by dsimp only; omega, fun _ => by dsimp only; omega⟩)

theorem CountersSound.execConfigReadComplete (h : CountersSound s) (block : Vector Byte 32)
    (levels : BitVec 8) : Ensures CountersSound (execConfigReadComplete block levels s) := by
  refine (ensures_next _ _).2 (h.ite _ fun _ => ?_)
  split
  · refine CountersSound.refreshReady (h.carry ?_ ?_ ?_ ?_ ?_) s
    · exact fun hl => ⟨Nat.zero_le _, Nat.zero_le _, hl.2.2⟩
    · exact id
    · exact id
    · exact id
    · exact fun hu => ⟨hu.1, fun hc => by cases hc⟩
  · refine CountersSound.refreshReady (h.carry ?_ ?_ ?_ ?_ ?_) s
    · exact id
    · exact id
    · exact id
    · exact id
    · exact fun hu => ⟨hu.1, fun hc => by cases hc⟩

theorem CountersSound.timeSourceRule (h : CountersSound s) : CountersSound (timeSourceRule s) :=
  h.ite _ fun _ => h.carry (by simp [lineCounts]) (by simp) (by simp) (by simp [becomeSet_clock]) (by simp)

theorem CountersSound.execListenTimerExpiry (h : CountersSound s) :
    Ensures CountersSound (execListenTimerExpiry s) := by
  refine (ensures_next _ _).2 (h.ite _ fun _ => ?_)
  have ht := h.timeSourceRule.takeNotice (.hail s.startup.serial)
  have hserves : ∀ startup, startupCounts startup → CountersSound
      { Machine.takeNotice (.hail s.startup.serial) (Machine.timeSourceRule s) with startup := startup } :=
    fun _ hu => ht.carry id id id id (fun _ => hu)
  obtain ⟨-, -, -, -, hu, -⟩ := (countersSound_iff _).1 ht
  refine CountersSound.refreshReady (CountersSound.rechoose (hserves _ ?_)) s
  exact ⟨hu, fun hc => by cases hc⟩

theorem minuteStep_second (s : State) : (minuteStep s).clock.second = 0 := by
  unfold minuteStep
  dsimp only
  split
  · simp
  · split <;> simp

theorem CountersSound.execMinuteStep (h : CountersSound s) (elapsed : Nat) :
    Ensures CountersSound (execMinuteStep s elapsed) := by
  refine (ensures_next _ _).2 ?_
  split
  · exact h
  · split
    · rename_i hsec
      simp only [secondsReached, secondUnits] at hsec
      exact h.carry id id id (fun _ => by dsimp only; omega) id
    · exact h.carry (by simp [lineCounts]) (by simp) (by simp)
        (fun _ => by rw [minuteStep_second]; omega) (by simp)

theorem CountersSound.execFilterExpiry (h : CountersSound s) (line : Fin 8) :
    Ensures CountersSound (execFilterExpiry line s) := by
  refine (ensures_next _ _).2 (h.ite _ fun _ => ?_)
  have hm : CountersSound (mapInput line (fun l => { l with filtered := l.raw, timer := none }) s) :=
    h.same (by simp)
  unfold followHalt
  split
  · exact hm
  · split
    · exact CountersSound.rechoose (hm.same (by simp))
    · exact CountersSound.rechoose (hm.same (by simp))

theorem tickSilence_le (line : LineInterface) (v : RoundView) (h : v.silence ≤ 80) :
    (tickSilence line v).silence ≤ 80 := by
  unfold tickSilence
  split
  · split
    · exact h
    · exact (Nat.min_le_left _ _).trans (by decide)
  · split
    · exact h
    · exact Nat.min_le_left _ _
  · exact h
  · exact h
  · exact h

theorem tickIdle_le (h : s.line.idleCount ≤ 255) : tickIdle s ≤ 255 := by
  unfold tickIdle
  split
  · exact Nat.min_le_left _ _
  · split
    · rename_i hobs
      have := hobs.2.2.2
      simp only [Config.quietPeriod] at this
      omega
    · exact h

theorem tickClock_second (n : Nat) (c : YardClock) (h : c.second ≤ 59) :
    (tickClock n c).second ≤ 59 := by
  unfold tickClock
  repeat' split
  · exact h
  · dsimp only; omega
  · exact h

theorem bidProgressSound_tickBid {n : Nat} {b : BidUnit} (h : bidProgressSound b) :
    bidProgressSound (tickBid n b) := by
  cases b <;> exact h

theorem CountersSound.tick (h : CountersSound s) : CountersSound (tick s) := by
  unfold Machine.tick
  split
  · exact h
  · exact h.carry
      (fun ⟨hi, hs, hp⟩ => ⟨tickIdle_le hi, by
        simp only [tickLine]
        split
        · exact Nat.min_le_left _ _
        · exact hs, hp⟩)
      (roundCounts_map (tickSilence_le s.line)) (bidProgressSound_tickBid)
      (tickClock_second _ _) id

/-! ### The terminal -/

theorem countersAnswers : AnswerRules CountersSound CountersSound where
  arrive _ _ h := h.same (by simp)
  take _ h _ := h.same (by simp)
  stock _ _ h := h.same (by simp)
  picks _ _ h := h.same (by simp)
  strayTake _ h := h.same (by simp)
  notice _ _ _ h := h.giveNotice _
  reply _ _ _ _ h := h.same (by simp)
  table _ _ h := h.gateChanged _
  flags _ _ h := h.same (by simp)

/-! ### Every command -/

theorem CountersSound.exec (h : CountersSound s) (c : Instr) : Ensures CountersSound (exec c s) := by
  cases c with
  | fullReset => exact countersSound_fullReset s
  | resetRelease => exact (ensures_next _ _).2 (h.carry id id id id id)
  | configInterruption => exact h.execConfigInterruption
  | configReadComplete block levels => exact h.execConfigReadComplete block levels
  | listenTimerExpiry => exact h.execListenTimerExpiry
  | quietPeriod elapsed => exact h.execQuietPeriod elapsed
  | frameStart elapsed dw => exact h.execFrameStart elapsed dw
  | contentionLoss => exact (ensures_next _ _).2 h.loseContention
  | bodyCollision => exact (ensures_next _ _).2 h.collide
  | noticeReport r => exact h.execNoticeReport r
  | callReport r => exact h.execCallReport r
  | grantSend => exact h.execGrantSend
  | grantReport r => exact h.execGrantReport r
  | hailReceived f =>
    exact (ensures_next _ _).2 (h.hearKind _ f _ (h.hearNotice f _ _ fun _ hu => hu.ownHail f))
  | voidReceived f =>
    exact (ensures_next _ _).2 (h.hearKind _ f _ (h.hearNotice f _ _ fun _ hu => hu.ownVoid f))
  | takenReceived f =>
    exact (ensures_next _ _).2 (h.hearKind _ f _ (h.hearNotice f _ _ fun _ hu => hu.ownTaken f))
  | lapseReceived f =>
    exact (ensures_next _ _).2 (h.hearKind _ f _ (h.hearNotice f _ _ fun _ hu => hu.ownLapse f))
  | arriveReceived f =>
    exact (ensures_next _ _).2 (h.hearKind _ f _ (h.hearNotice f _ _ fun _ hu => hu.ownArrive f))
  | callReceived f started => exact h.execCallReceived f started
  | grantReceived f => exact h.execGrantReceived f
  | unfinishedFrame sampled dw => exact h.execUnfinishedFrame sampled dw
  | strayActivity tw dw => exact h.execStrayActivity tw dw
  | strayActivityEnd => exact h.execStrayActivityEnd
  | endMarkOutsideFrame => exact h.execEndMarkOutsideFrame
  | heldEntry sampled begun => exact (ensures_next _ _).2 (h.enterHeld begun sampled)
  | heldEnd dw =>
    refine (ensures_next _ _).2 (h.ite _ fun _ => CountersSound.refreshReady (h.carryLine ?_ (by simp)) s)
    exact lineFreed_lineCounts dw
  | stuckEntry => exact h.execStuckEntry
  | recoveryPulse dw => exact h.execRecoveryPulse dw
  | backOffExpiry =>
    exact (ensures_next _ _).2
      (h.ite _ fun _ => CountersSound.followWant (h.same ⟨⟨rfl, rfl, rfl⟩, rfl, rfl, rfl, rfl⟩))
  | computationComplete => exact h.execComputationComplete
  | stretchLimitExpiry => exact h.execStretchLimitExpiry
  | stretchSlotEnd => exact h.execStretchSlotEnd
  | bidWindowStart dw => exact h.execBidWindowStart dw
  | bidWindowClose word dw => exact h.execBidWindowClose word dw
  | windowSilenceLimit dw => exact (ensures_next _ _).2 (h.ite _ fun _ => h.abandonRound dw)
  | grantWaitSilenceLimit dw => exact (ensures_next _ _).2 (h.ite _ fun _ => h.abandonRound dw)
  | grantWaitExpiry => exact (ensures_next _ _).2 (h.ite _ fun _ => h.same (by simp))
  | minuteStep elapsed => exact h.execMinuteStep elapsed
  | inputChange line high => exact (ensures_next _ _).2 (h.ite _ fun _ => h.same (by simp))
  | filterExpiry line => exact h.execFilterExpiry line
  | cycleEnd output =>
    refine (ensures_next _ _).2 ?_
    cases output with
    | fieldLine n => exact h.ite _ fun _ => h.same (by simp)
    | ready => exact h.ite _ fun _ => h.same (by simp)
  | hornExpiry elapsed => exact (ensures_next _ _).2 (h.same (by simp))
  | terminalCharacter c => exact (ensures_next _ _).2 (h.ite _ fun _ => h.same (by simp))
  | flawedCharacter c => exact (ensures_next _ _).2 (h.ite _ fun _ => h.same (by simp))
  | breakCondition => exact (ensures_next _ _).2 (h.ite _ fun _ => h.same (by simp))
  | messageSent => exact (ensures_next _ _).2 (h.ite _ fun _ => h.same (by simp))
  | unknownMessage code =>
    have ht : CountersSound (arriveMessage [code] s) := h.same (by simp)
    refine (ensures_next _ _).2 ?_
    split
    · exact h
    · exact ht.ite _ fun _ => ht.same (by simp)
  | status => exact countersAnswers.exec rfl h
  | put tag family size grade stack => exact countersAnswers.exec rfl h
  | take tag => exact countersAnswers.exec rfl h
  | shift tag stack => exact countersAnswers.exec rfl h
  | holdPack tag => exact countersAnswers.exec rfl h
  | freePack tag => exact countersAnswers.exec rfl h
  | listStack stack => exact countersAnswers.exec rfl h
  | listPicks => exact countersAnswers.exec rfl h
  | truckIn ticket bay count lines => exact countersAnswers.exec rfl h
  | truckBay ticket bay => exact countersAnswers.exec rfl h
  | truckOut ticket => exact countersAnswers.exec rfl h
  | listTruck ticket => exact countersAnswers.exec rfl h
  | receiveWireHighAfterBreak => exact (ensures_next _ _).2 (h.same (by simp))

end Sys2Proof.Machine
end

