-- ==== Sys2Proof/Proofs/PortKept.lean ====
section
/-! PROOF. The port's buffers hold what they may (O59, second half). -/

namespace Sys2Proof.Machine

variable {s t u : State}

/-! ### What the station's own business does to the port -/

/-- The buffers of both message directions are as before but for reports: the transmit queue has grown by
them, to no more than its limit (R156). Flags may differ. -/
structure PortKept (s t : State) : Prop where
  waiting : t.port.waiting = s.port.waiting
  assembly : t.port.assembly = s.port.assembly
  transmit : s.port.transmit.length ≤ 4 → t.port.transmit.length ≤ 4

theorem PortKept.of_eq (h : t.port = s.port) : PortKept s t :=
  ⟨by rw [h], by rw [h], by rw [h]; exact id⟩

theorem PortKept.refl (s : State) : PortKept s s := .of_eq rfl

theorem PortKept.trans (hst : PortKept s t) (htu : PortKept t u) : PortKept s u :=
  ⟨htu.waiting.trans hst.waiting, htu.assembly.trans hst.assembly, fun h => htu.transmit (hst.transmit h)⟩

theorem PortKept.flags (flags : StickyFlags) : PortKept s (withFlags flags s) := ⟨rfl, rfl, id⟩

theorem PortSound.carry (h : PortSound s) (e : PortKept s t) : PortSound t := by
  obtain ⟨htransmit, hwaiting, hassembly⟩ := h
  exact ⟨e.transmit htransmit, by rw [e.waiting]; exact hwaiting, by rw [e.assembly]; exact hassembly⟩

theorem portKept_giveReport (m : List Byte) (s : State) : PortKept s (giveReport m s) := by
  unfold giveReport
  split
  · rename_i hroom
    simp only [Config.transmitLimit] at hroom
    exact ⟨rfl, rfl, fun _ => by simp; omega⟩
  · exact .flags _

theorem portKept_giveReports (tickets : List Nat) (s : State) :
    PortKept s (tickets.foldl (fun t ticket => giveReport (loadedReport ticket) t) s) := by
  induction tickets generalizing s with
  | nil => exact .refl s
  | cons ticket rest ih => exact (portKept_giveReport _ s).trans (ih _)

theorem portKept_announceTrucks (before : List Truck) (s : State) : PortKept s (announceTrucks before s) :=
  (portKept_giveReports _ s).trans (.of_eq (requestBays_port _ _))

theorem portKept_gateChanged (trucks : List Truck) (s : State) : PortKept s (gateChanged trucks s) :=
  PortKept.trans (t := withTrucks trucks s) (.of_eq (by simp))
    ((portKept_announceTrucks s.trucks _).trans (.of_eq (rechoose_port _)))

theorem portKept_emptyRound (r : CallRecord) (s : State) : PortKept s (emptyRound r s) := by
  have hreported : ∀ (trucks : List Truck) (enters : Bool), PortKept s
      (if enters then giveReport (shortReport r.ticket r.line) (withTrucks trucks s)
        else withTrucks trucks s) := by
    intro trucks enters
    cases enters with
    | false => exact .of_eq (by simp)
    | true => exact PortKept.trans (t := withTrucks trucks s) (.of_eq (by simp)) (portKept_giveReport _ _)
  exact (hreported _ _).trans (portKept_announceTrucks s.trucks _)

/-- R35: the queue touches the port by NOTICE LOSS alone. -/
theorem enqueue_port (body : NoticeBody) (s : State) :
    ∃ flags, (enqueue body s).port = { s.port with flags := flags } := by
  unfold enqueue
  split
  · exact ⟨_, rfl⟩
  · split
    · exact ⟨_, rfl⟩
    · split <;> exact ⟨_, rfl⟩

theorem takeNotice_port (body : NoticeBody) (s : State) :
    ∃ flags, (takeNotice body s).port = { s.port with flags := flags } := by
  unfold takeNotice
  split
  · split
    · exact ⟨_, rfl⟩
    · exact enqueue_port _ s
  · split
    · exact enqueue_port _ s
    · split
      · exact ⟨_, rfl⟩
      · exact enqueue_port _ (withQueue _ s)

theorem portKept_takeNotice (body : NoticeBody) (s : State) : PortKept s (takeNotice body s) := by
  obtain ⟨flags, h⟩ := takeNotice_port body s
  exact ⟨by rw [h], by rw [h], by rw [h]; exact id⟩

theorem giveNotice_transmit (body : NoticeBody) (s : State) :
    (giveNotice body s).port.transmit = s.port.transmit := by
  obtain ⟨flags, h⟩ := takeNotice_port body s
  rw [giveNotice, followWant_port, h]

theorem portKept_giveNotice (body : NoticeBody) (s : State) : PortKept s (giveNotice body s) :=
  (portKept_takeNotice body s).trans (.of_eq (followWant_port _))

theorem portKept_countFlaw (s : State) : PortKept s (countFlaw s) := by
  unfold countFlaw
  split
  · exact .refl s
  · split
    · exact PortKept.trans (t := withQueue _ s) (.of_eq (by simp)) (.flags _)
    · exact .of_eq (by simp)

theorem portKept_hearMinute (m : Minute) (b : Bool) (s : State) : PortKept s (hearMinute m b s) := by
  unfold hearMinute
  dsimp only
  repeat' split
  · exact .refl s
  · exact .of_eq (by simp)
  · exact .refl s
  · exact .of_eq (by simp)
  · exact .flags _

/-! ### Heard frames -/

theorem portKept_hearHeader {n : Nat} (f : RxFrame n) (s : State) : PortKept s (hearHeader f s) := by
  unfold hearHeader
  split
  · exact portKept_hearMinute _ _ s
  · exact .refl s

theorem portKept_hearNotice {n : Nat} (f : RxFrame n) (valid : Bool) (owners : State → State)
    (howners : ∀ u, PortKept u (owners u)) (s : State) : PortKept s (hearNotice f valid owners s) := by
  have hended : PortKept s
      (endFrame (hearHeader f (reportHeard f false (closingOtherKind (closingStart s))))) :=
    (PortKept.trans (t := reportHeard f false (closingOtherKind (closingStart s))) (.of_eq (by simp))
      (portKept_hearHeader f _)).trans (.of_eq (by simp))
  unfold hearNotice
  split
  · dsimp only
    split
    · exact hended.trans (howners _)
    · exact hended
  · exact .refl s

theorem portKept_hearKind {n : Nat} (kind : FrameKind) (f : RxFrame n) (known : State → State)
    (hknown : PortKept s (known s)) : PortKept s (hearKind kind f known s) := by
  unfold hearKind
  split
  · exact portKept_hearNotice f false _ (fun u => .refl u) s
  · split
    · exact hknown
    · exact .refl s

theorem portKept_ownHail (f : RxFrame 4) (s : State) : PortKept s (ownHail f s) := by
  have hn : PortKept s (numberCheck (senderNumber f) (hailSerial f) s) := by
    unfold numberCheck
    split
    · exact .of_eq (by simp)
    · exact .refl s
  unfold ownHail
  dsimp only
  split
  · split
    · exact hn.trans (.of_eq (by simp))
    · exact hn
  · split
    · exact hn
    · exact hn.trans (portKept_gateChanged _ _)

theorem portKept_ownVoid (f : RxFrame 2) (s : State) : PortKept s (ownVoid f s) := by
  unfold ownVoid
  split
  · exact .of_eq (by simp)
  · exact .refl s

theorem portKept_ownTaken (f : RxFrame 5) (s : State) : PortKept s (ownTaken f s) := by
  unfold ownTaken settleTaken
  split
  · split
    · exact .refl s
    · refine PortKept.trans ?_ (portKept_gateChanged _ _)
      split
      · exact .refl s
      · exact .flags _
  · exact .refl s

theorem portKept_ownLapse (f : RxFrame 5) (s : State) : PortKept s (ownLapse f s) := by
  unfold ownLapse settleLapse
  split
  · split
    · exact .refl s
    · exact portKept_gateChanged _ s
  · exact .refl s

theorem portKept_ownArrive (f : RxFrame 2) (s : State) : PortKept s (ownArrive f s) := by
  unfold ownArrive
  split
  · exact .refl s
  · exact portKept_gateChanged _ s

/-! ### Characters and messages (R152 to R156) -/

theorem messageComplete_nil : messageComplete [] = false := rfl

theorem PortSound.completeMessage (h : PortSound s) {m : List Byte} (hm : messageComplete m = true) :
    PortSound (completeMessage m s) := by
  obtain ⟨htransmit, hwaiting, -⟩ := h
  unfold Machine.completeMessage
  dsimp only
  split
  · exact ⟨htransmit, by simpa using hm, messageComplete_nil⟩
  · exact ⟨htransmit, hwaiting, messageComplete_nil⟩

theorem PortSound.assemble (h : PortSound s) (m : List Byte) : PortSound (assemble m s) := by
  unfold Machine.assemble
  split
  · rename_i hm
    exact h.completeMessage hm
  · rename_i hm
    exact ⟨h.1, h.2.1, by simpa using hm⟩

theorem PortSound.takeCharacter (h : PortSound s) (c : TermChar) : PortSound (takeCharacter c s) := by
  unfold Machine.takeCharacter
  split
  · refine PortSound.assemble ?_ _
    split
    · exact h
    · exact h.carry (.flags _)
  · split
    · exact h
    · exact h.assemble _

theorem PortSound.deliver (h : PortSound s) (m : List Byte) : PortSound (deliver m s) := by
  have hfold : ∀ (cs : List TermChar) (t : State), PortSound t →
      PortSound (cs.foldl (fun t c => Machine.takeCharacter c t) t) := by
    intro cs
    induction cs with
    | nil => exact fun _ ht => ht
    | cons c rest ih => exact fun t ht => ih _ (ht.takeCharacter c)
  unfold Machine.deliver
  split
  · exact hfold _ s h
  · exact h

theorem PortSound.arriveMessage (h : PortSound s) (m : List Byte) : PortSound (arriveMessage m s) := by
  unfold Machine.arriveMessage
  split
  · exact h.deliver m
  · exact h

/-- R154: a message is taken up only where there is room for the reply. -/
theorem room_of_canProcess (h : canProcess s = true) : s.port.transmit.length < 4 := by
  simp only [canProcess, Bool.and_eq_true, decide_eq_true_eq] at h
  exact h.2

theorem PortSound.clearWaiting (h : PortSound s) : PortSound (clearWaiting s) :=
  ⟨h.1, by simp, h.2.2⟩

theorem PortSound.transmit (h : PortSound s) (hroom : s.port.transmit.length < 4) (m : List Byte) :
    PortSound (transmit m s) :=
  ⟨by simpa using hroom, h.2.1, h.2.2⟩

/-- While an owner works, the transmit queue has room for its reply. -/
theorem portAnswers :
    AnswerRules (fun s => PortSound s ∧ s.port.transmit.length < 4) PortSound where
  arrive m _ h := h.arriveMessage m
  take _ h hp := ⟨h.clearWaiting, room_of_canProcess hp⟩
  stock _ _ h := h
  picks _ _ h := ⟨h.1.carry (.of_eq (by simp)), by simpa using h.2⟩
  strayTake _ h := ⟨h.1.carry (.flags _), h.2⟩
  notice body s _ h := ⟨h.1.carry (portKept_giveNotice body s), by rw [giveNotice_transmit]; exact h.2⟩
  reply _ _ _ _ h := h.1.transmit h.2 _
  table _ _ h := h.carry (portKept_gateChanged _ _)
  flags _ _ h := h.carry (.flags _)

/-! ### Every command -/

theorem PortSound.ite (h : PortSound s) (c : Prop) [Decidable c] (ht : PortKept s t) :
    PortSound (if c then t else s) := by
  split
  · exact h.carry ht
  · exact h

theorem portSound_empty (h : s.port.transmit = [] ∧ s.port.waiting = none ∧ s.port.assembly = []) :
    PortSound s := by
  obtain ⟨htransmit, hwaiting, hassembly⟩ := h
  exact ⟨by simp [htransmit], by simp [hwaiting], by rw [hassembly]; rfl⟩

@[simp] theorem collide_port (s : State) : (collide s).port = s.port := by
  unfold collide
  split <;> simp

theorem portKept_execNoticeReport (r : SendReport) (s : State) :
    Ensures (PortKept s) (execNoticeReport r s) := by
  refine (ensures_next _ _).2 ?_
  split
  · cases r with
    | sent confirm => exact .of_eq (by simp)
    | flawed confirm =>
      exact PortKept.trans (t := reportSent .flawed true confirm s) (.of_eq (by simp))
        ((portKept_countFlaw _).trans (.of_eq (endFrame_port _)))
    | lost => exact .of_eq (by simp)
    | collision => exact .of_eq (by simp)
    | abandoned n => exact .of_eq (by simp)
  · exact .refl s

theorem portKept_execCallReport (r : SendReport) (s : State) :
    Ensures (PortKept s) (execCallReport r s) := by
  refine (ensures_next _ _).2 ?_
  split
  · cases r <;> exact .of_eq (by simp)
  · exact .refl s

theorem portKept_settleGrant (confirm : Bool) (s : State) : PortKept s (settleGrant confirm s) := by
  unfold settleGrant
  split
  · split
    · exact PortKept.trans (t := withTrucks _ s) (.of_eq (by simp)) (portKept_announceTrucks _ _)
    · exact .refl s
  · exact .refl s
  · exact .refl s
  · exact .refl s

theorem portKept_execGrantReport (r : SendReport) (s : State) :
    Ensures (PortKept s) (execGrantReport r s) := by
  refine (ensures_next _ _).2 ?_
  split
  · cases r with
    | sent confirm =>
      exact PortKept.trans (t := reportSent .sent false confirm s) (.of_eq (by simp))
        ((portKept_settleGrant confirm _).trans (.of_eq (grantOver_port _)))
    | flawed confirm => exact .of_eq (by simp)
    | lost => exact .refl s
    | collision => exact .refl s
    | abandoned n => exact .of_eq (by simp)
  · exact .refl s

theorem portKept_execCallReceived (f : RxFrame 6) (started : Bool) (s : State) :
    Ensures (PortKept s) (execCallReceived f started s) := by
  refine (ensures_next _ _).2 (portKept_hearKind .call f _ ?_)
  split
  · have hu : PortKept s (hearHeader f (reportHeard f false
        (openRound f (closingOtherKind (closingStart s))))) :=
      PortKept.trans (t := reportHeard f false (openRound f (closingOtherKind (closingStart s))))
        (.of_eq (by simp))
        (portKept_hearHeader f _)
    dsimp only
    split
    · exact hu.trans (.of_eq (by simp))
    · split
      · exact hu.trans (.of_eq (by simp))
      · exact hu.trans (.of_eq (by simp))
  · exact .refl s

theorem portKept_execGrantReceived (f : RxFrame 5) (s : State) :
    Ensures (PortKept s) (execGrantReceived f s) := by
  refine (ensures_next _ _).2 (portKept_hearKind .grant f _ ?_)
  split
  · exact PortKept.trans
      (t := reportHeard f (pulledConfirm (decideConfirm f (closingStart s)))
        (decideConfirm f (closingStart s)))
      (.of_eq (by simp)) ((portKept_hearHeader f _).trans (.of_eq (by simp)))
  · exact .refl s

theorem portKept_closeNoBid (s : State) : PortKept s (closeNoBid s) := by
  unfold closeNoBid
  split
  · exact portKept_emptyRound _ s
  · exact .refl s
  · exact .refl s
  · exact .refl s

theorem portKept_execBidWindowClose (word : BidWord) (dw : Bool) (s : State) :
    Ensures (PortKept s) (execBidWindowClose word dw s) := by
  refine (ensures_next _ _).2 ?_
  split
  · split
    · have ht : PortKept s (closeBid word s) := .of_eq (by simp)
      dsimp only
      split
      · refine PortKept.trans ?_ (.of_eq (endRound_port _ _))
        split
        · exact ht.trans (portKept_closeNoBid _)
        · exact ht
      · exact ht.trans (.of_eq (by simp))
      · split
        · exact ht.trans (.of_eq (by simp))
        · exact ht.trans (.of_eq (by simp))
    · exact .refl s
  · exact .refl s

theorem PortSound.execUnknownMessage (h : PortSound s) (code : Byte) :
    Ensures PortSound (execUnknownMessage code s) := by
  have ht := h.arriveMessage [code]
  refine (ensures_next _ _).2 ?_
  split
  · exact h
  · dsimp only
    split
    · rename_i hp
      exact ht.clearWaiting.transmit (room_of_canProcess hp.2) _
    · exact ht

theorem PortSound.tick (h : PortSound s) : PortSound (tick s) := by
  unfold Machine.tick
  split <;> exact h

theorem PortSound.exec (h : PortSound s) (c : Instr) : Ensures PortSound (exec c s) := by
  have kept : ∀ o : Host.Outcome State Fault Refusal, Ensures (PortKept s) o → Ensures PortSound o :=
    fun o ho t ht => h.carry (ho t ht)
  have keptIf : ∀ (c : Prop) [Decidable c] (t : State), PortKept s t →
      Ensures PortSound (.next (if c then t else s)) := fun c _ t ht => (ensures_next _ _).2 (h.ite c ht)
  have same : ∀ t : State, t.port = s.port → Ensures PortSound (.next t) := fun t ht =>
    (ensures_next _ _).2 (h.carry (.of_eq ht))
  cases c with
  | fullReset =>
    refine (ensures_next _ _).2 ?_
    split <;> exact portSound_empty ⟨rfl, rfl, rfl⟩
  | resetRelease => exact same _ rfl
  | configInterruption => refine keptIf _ _ (.of_eq ?_); dsimp only; split <;> simp
  | configReadComplete block levels => refine keptIf _ _ (.of_eq ?_); split <;> simp
  | listenTimerExpiry =>
    refine keptIf _ _ (PortKept.trans ?_ (.of_eq (refreshReady_port _ _)))
    exact PortKept.trans (PortKept.trans (t := timeSourceRule s) (.of_eq (by simp))
      (portKept_takeNotice (.hail s.startup.serial) _)) (.of_eq (rechoose_port _))
  | quietPeriod elapsed => refine keptIf _ _ (.of_eq ?_); split <;> rfl
  | frameStart elapsed dw => refine keptIf _ _ (.of_eq ?_); split <;> simp [apply_ite State.port]
  | contentionLoss => exact same _ (by simp)
  | bodyCollision => exact same _ (by simp)
  | noticeReport r => exact kept _ (portKept_execNoticeReport r s)
  | callReport r => exact kept _ (portKept_execCallReport r s)
  | grantSend => exact same _ (by (repeat' split) <;> rfl)
  | grantReport r => exact kept _ (portKept_execGrantReport r s)
  | hailReceived f =>
    exact (ensures_next _ _).2 (h.carry (portKept_hearKind _ f _
      (portKept_hearNotice f _ _ (portKept_ownHail f) s)))
  | voidReceived f =>
    exact (ensures_next _ _).2 (h.carry (portKept_hearKind _ f _
      (portKept_hearNotice f _ _ (portKept_ownVoid f) s)))
  | takenReceived f =>
    exact (ensures_next _ _).2 (h.carry (portKept_hearKind _ f _
      (portKept_hearNotice f _ _ (portKept_ownTaken f) s)))
  | lapseReceived f =>
    exact (ensures_next _ _).2 (h.carry (portKept_hearKind _ f _
      (portKept_hearNotice f _ _ (portKept_ownLapse f) s)))
  | arriveReceived f =>
    exact (ensures_next _ _).2 (h.carry (portKept_hearKind _ f _
      (portKept_hearNotice f _ _ (portKept_ownArrive f) s)))
  | callReceived f started => exact kept _ (portKept_execCallReceived f started s)
  | grantReceived f => exact kept _ (portKept_execGrantReceived f s)
  | unfinishedFrame sampled dw => refine keptIf _ _ (.of_eq ?_); dsimp only; split <;> simp
  | strayActivity tw dw => refine keptIf _ _ (.of_eq ?_); (repeat' split) <;> simp
  | strayActivityEnd => exact same _ (by (repeat' split) <;> simp)
  | endMarkOutsideFrame => exact same _ (by (repeat' split) <;> simp)
  | heldEntry sampled begun => exact same _ (by simp)
  | heldEnd dw => exact keptIf _ _ (.of_eq (by simp))
  | stuckEntry => exact keptIf _ _ (.of_eq (by simp))
  | recoveryPulse dw => refine keptIf _ _ (.of_eq ?_); (repeat' split) <;> simp
  | backOffExpiry => exact keptIf _ _ (.of_eq (by simp))
  | computationComplete => exact same _ (by (repeat' split) <;> rfl)
  | stretchLimitExpiry => exact same _ (by (repeat' split) <;> rfl)
  | stretchSlotEnd => exact same _ (by (repeat' split) <;> rfl)
  | bidWindowStart dw => exact same _ (by (repeat' split) <;> simp)
  | bidWindowClose word dw => exact kept _ (portKept_execBidWindowClose word dw s)
  | windowSilenceLimit dw => exact keptIf _ _ (.of_eq (by simp))
  | grantWaitSilenceLimit dw => exact keptIf _ _ (.of_eq (by simp))
  | grantWaitExpiry => exact keptIf _ _ (.of_eq (by simp))
  | minuteStep elapsed => exact same _ (by (repeat' split) <;> simp)
  | inputChange line high => exact keptIf _ _ (.of_eq (by simp))
  | filterExpiry line => exact keptIf _ _ (.of_eq (by simp))
  | cycleEnd output => cases output <;> exact keptIf _ _ (.of_eq (by simp))
  | hornExpiry elapsed => exact same _ rfl
  | terminalCharacter c =>
    refine (ensures_next _ _).2 ?_
    split
    · exact h.takeCharacter c
    · exact h
  | flawedCharacter c =>
    refine (ensures_next _ _).2 ?_
    split
    · exact ⟨h.1, h.2.1, messageComplete_nil⟩
    · exact h
  | breakCondition =>
    refine (ensures_next _ _).2 ?_
    split
    · exact portSound_empty ⟨rfl, rfl, rfl⟩
    · exact h
  | messageSent =>
    refine (ensures_next _ _).2 ?_
    split
    · refine ⟨?_, h.2⟩
      have := h.1
      simp only [List.length_tail]
      omega
    · exact h
  | unknownMessage code => exact h.execUnknownMessage code
  | status => exact portAnswers.exec rfl h
  | put tag family size grade stack => exact portAnswers.exec rfl h
  | take tag => exact portAnswers.exec rfl h
  | shift tag stack => exact portAnswers.exec rfl h
  | holdPack tag => exact portAnswers.exec rfl h
  | freePack tag => exact portAnswers.exec rfl h
  | listStack stack => exact portAnswers.exec rfl h
  | listPicks => exact portAnswers.exec rfl h
  | truckIn ticket bay count lines => exact portAnswers.exec rfl h
  | truckBay ticket bay => exact portAnswers.exec rfl h
  | truckOut ticket => exact portAnswers.exec rfl h
  | listTruck ticket => exact portAnswers.exec rfl h
  | receiveWireHighAfterBreak => exact (ensures_next _ _).2 h

/-- Settles O59: the counters block by block, and the port's buffers, each kept by every bt and command. -/
theorem everyStepKeepsCountersAndPortSound : Obligations.EveryStepKeepsCountersAndPortSound := by
  intro s t hcounters hport hstep
  exact ⟨step_keeps (fun _ _ h => h.same (by simp)) (fun _ h => h.tick) (fun c _ h => h.exec c) s t
      hcounters hstep,
    step_keeps (fun _ _ h => h) (fun _ h => h.tick) (fun c _ h => h.exec c) s t hport hstep⟩

end Sys2Proof.Machine
end

