-- ==== Sys2Proof/Proofs/WireEvents.lean ====
section
/-! PROOF. The wires outside frames and the recovery of a STUCK line (O9, O10). -/

namespace Sys2Proof.Machine

variable {s : State}

/-! ### The tests of the wire events -/

theorem wantsToSend_iff (s : State) : wantsToSend s = true ↔ WantsToSend s := by
  have hcall : callRequested s = true ↔ ∃ r, s.arbiter = .waiting r := by
    unfold callRequested
    cases s.arbiter <;> simp
  simp [wantsToSend, WantsToSend, inService, hcall]

/-- No frame is followed before the station has counted its first 96 slack bt. -/
theorem not_betweenFrames_of_begins (h : BeginsToObserve s) : betweenFrames s = false := by
  obtain ⟨-, -, wires, hw⟩ := h
  simp [betweenFrames, hw]

theorem not_beginsToObserve (h : ∀ wires, s.line.activity ≠ .observing wires) :
    beginsToObserve s = false := by
  simp [beginsToObserve, h]

/-- At the start of observation the line is BUSY already. -/
theorem lineBusy_begins (h : BeginsToObserve s) (a : Activity) : lineBusy a s =
    { s with line := { s.line with activity := a, idleCount := 0, stuckCount := 0 } } := by
  unfold lineBusy
  rw [← h.2.1]

theorem endRecovery_eq (s : State) : endRecovery s = refreshReady s
    { s with
      line := { s.line with
        condition := .quiet, activity := .nothing, driving := .nothing, idleCount := 0
        stuckCount := 0, pulseCount := 0, backOff := none } } := rfl

/-! ### Wires outside frames (R5, R10, R17, R18, R19) -/

theorem quietPeriod_below (elapsed : Nat) (ho : observes s = true)
    (ha : s.line.activity = .observing .slack) (hc : s.line.condition = .busy)
    (hlt : s.line.idleCount + elapsed < 96) :
    exec (.quietPeriod elapsed) s =
      .next { s with line := { s.line with idleCount := s.line.idleCount + elapsed } } := by
  simp [exec, execQuietPeriod, ho, ha, hc, Config.quietPeriod, hlt]

theorem quietPeriod_ends (elapsed : Nat) (ho : observes s = true)
    (ha : s.line.activity = .observing .slack) (hc : s.line.condition = .busy)
    (hge : 96 ≤ s.line.idleCount + elapsed) :
    exec (.quietPeriod elapsed) s = .next
      { s with line := { s.line with condition := .quiet, activity := .nothing, idleCount := 96 } } := by
  simp [exec, execQuietPeriod, ho, ha, hc, Config.quietPeriod, Nat.not_lt.2 hge]

theorem strayActivity_begins (h : BeginsToObserve s) (tw dw : Bool) (hp : tw = true ∨ dw = true) :
    exec (.strayActivity tw dw) s =
      .next (lineBusy (.observing (if tw then .pulled else .dwPulled)) s) := by
  simp [exec, execStrayActivity, hp, not_betweenFrames_of_begins h, (beginsToObserve_iff s).2 h]

theorem strayActivity_between (h : BetweenFrames s)
    (hc : s.line.condition = .quiet ∨ s.line.condition = .busy) (tw dw : Bool)
    (hp : tw = true ∨ dw = true) :
    exec (.strayActivity tw dw) s = .next (if tw then lineBusy .stray s else lineDwPulled s) := by
  simp [exec, execStrayActivity, hp, hc, (betweenFrames_iff s).2 h]

theorem strayActivityEnd_begins (h : BeginsToObserve s) :
    exec .strayActivityEnd s = .next (lineBusy (.observing .slack) s) := by
  simp [exec, execStrayActivityEnd, not_betweenFrames_of_begins h, (beginsToObserve_iff s).2 h]

theorem strayActivityEnd_between (h : BetweenFrames s) (hc : s.line.condition = .busy) :
    exec .strayActivityEnd s = .next (lineQuiet s) := by
  simp [exec, execStrayActivityEnd, hc, (betweenFrames_iff s).2 h]

theorem endMark_begins (h : BeginsToObserve s) :
    exec .endMarkOutsideFrame s = .next (lineBusy (.observing .slack) s) := by
  simp [exec, execEndMarkOutsideFrame, not_betweenFrames_of_begins h, (beginsToObserve_iff s).2 h]

theorem endMark_between (h : BetweenFrames s)
    (hc : s.line.condition = .busy ∨ s.line.condition = .stuck ∨ s.line.condition = .recovering) :
    exec .endMarkOutsideFrame s = .next (endRecovery s) := by
  simp [exec, execEndMarkOutsideFrame, hc, (betweenFrames_iff s).2 h]

theorem endMark_inRound (hr : s.frames.round ≠ none)
    (ha : ∀ wires, s.line.activity ≠ .observing wires) : exec .endMarkOutsideFrame s = .next s := by
  have hb : betweenFrames s = false := by simp [betweenFrames, hr]
  simp [exec, execEndMarkOutsideFrame, hb, not_beginsToObserve ha]

theorem heldEnd_held (ho : observes s = true) (hc : s.line.condition = .held) (dw : Bool) :
    exec (.heldEnd dw) s = .next (refreshReady s (lineFreed dw s)) := by
  simp [exec, execHeldEnd, ho, hc]

/-- Settles O9: a case per wire event and condition, each by the lemma for that event. -/
theorem wiresOutsideFramesMoveTheLine : Obligations.WiresOutsideFramesMoveTheLine := by
  intro s
  refine ⟨fun elapsed ho ha hc => ⟨quietPeriod_below elapsed ho ha hc, quietPeriod_ends elapsed ho ha hc⟩,
    fun h => ⟨fun dw => ?_, ?_, ?_, ?_⟩, endMark_inRound, fun h hc => ⟨fun dw => ?_, ?_⟩,
    fun h hc => ?_, fun h hc => ?_, fun ho hc dw => ?_⟩
  · exact (strayActivity_begins h true dw (.inl rfl)).trans (congrArg _ (lineBusy_begins h _))
  · exact (strayActivity_begins h false true (.inr rfl)).trans (congrArg _ (lineBusy_begins h _))
  · exact (strayActivityEnd_begins h).trans (congrArg _ (lineBusy_begins h _))
  · exact (endMark_begins h).trans (congrArg _ (lineBusy_begins h _))
  · exact strayActivity_between h hc true dw (.inl rfl)
  · exact strayActivity_between h hc false true (.inr rfl)
  · exact strayActivityEnd_between h hc
  · rw [endMark_between h hc, endRecovery_eq]
  · rw [heldEnd_held ho hc]
    cases dw <;> rfl

/-! ### STUCK and recovery (R20, R21) -/

theorem followWant_starts (hc : s.line.condition = .stuck) (hw : WantsToSend s)
    (hb : s.line.backOff = none) : followWant s =
      { s with
        line := { s.line with condition := .recovering, driving := .recovery, pulseCount := 0 } } := by
  simp [followWant, hc, hb, (wantsToSend_iff s).2 hw]

theorem followWant_stops (hc : s.line.condition = .recovering) (hw : ¬ WantsToSend s) : followWant s =
    { s with line := { s.line with condition := .stuck, driving := .nothing, pulseCount := 0 } } := by
  have hw' : wantsToSend s = false := by rwa [← Bool.not_eq_true, wantsToSend_iff]
  simp [followWant, hc, hw']

theorem followWant_stays
    (hstuck : s.line.condition ≠ .stuck ∨ ¬ WantsToSend s ∨ s.line.backOff ≠ none)
    (hrec : s.line.condition ≠ .recovering ∨ WantsToSend s) : followWant s = s := by
  rw [← wantsToSend_iff] at hstuck hrec
  unfold followWant
  rw [if_neg (by rintro ⟨hc, hw, hb⟩; simp [hc, hw, hb] at hstuck),
    if_neg (by rintro ⟨hc, hw⟩; simp [hc, hw] at hrec)]

/-- The line as it is when DW has been pulled for 32 bt. -/
def stuckLine (s : State) : State :=
  { s with
    line := { s.line with condition := .stuck, activity := .nothing, idleCount := 0, stuckCount := 32 } }

theorem wantsToSend_stuckLine (s : State) : WantsToSend (stuckLine s) ↔ WantsToSend s := Iff.rfl

theorem stuckEntry_outside (h : BetweenFrames s ∨ BeginsToObserve s)
    (hc : s.line.condition = .quiet ∨ s.line.condition = .busy) :
    exec .stuckEntry s = .next (refreshReady s (followWant (stuckLine s))) := by
  rw [← betweenFrames_iff, ← beginsToObserve_iff] at h
  simp [exec, execStuckEntry, h, hc, stuckLine, Config.stuckLimit]

theorem recoveryPulse_slack (hc : s.line.condition = .recovering) :
    exec (.recoveryPulse false) s = .next (endRecovery s) := by
  simp [exec, execRecoveryPulse, hc]

theorem recoveryPulse_again (hc : s.line.condition = .recovering) (hp : s.line.pulseCount < 8) :
    exec (.recoveryPulse true) s =
      .next { s with line := { s.line with pulseCount := s.line.pulseCount + 1 } } := by
  simp [exec, execRecoveryPulse, hc, Config.pulseLimit, hp]

theorem recoveryPulse_last (hc : s.line.condition = .recovering) (hp : s.line.pulseCount = 8) :
    exec (.recoveryPulse true) s = .next
      { s with
        line := { s.line with
          condition := .stuck, driving := .nothing, pulseCount := 9, backOff := some secondUnits } } := by
  simp [exec, execRecoveryPulse, hc, Config.pulseLimit, hp]

theorem backOffExpiry_running {left : Nat} (h : s.line.backOff = some left) :
    exec .backOffExpiry s = .next (followWant { s with line := { s.line with backOff := none } }) := by
  simp [exec, execBackOffExpiry, h]

/-- Settles O10: what a change of the wish to send does, then each event of STUCK by it. -/
theorem stuckLineIsRecoveredByStationsThatWantToSend :
    Obligations.StuckLineIsRecoveredByStationsThatWantToSend := by
  refine ⟨fun s => ⟨fun h hc => ⟨fun hw hb => ?_, fun hw => ?_⟩, fun hc => ⟨?_, ?_, ?_⟩,
    fun left hb hc => ⟨fun hw => ?_, fun hw => ?_⟩⟩, fun s => ⟨?_, ?_, ?_⟩⟩
  · rw [stuckEntry_outside h hc, followWant_starts rfl ((wantsToSend_stuckLine s).2 hw) hb]
    rfl
  · rw [stuckEntry_outside h hc, followWant_stays (s := stuckLine s) (.inr hw) (.inl (by simp [stuckLine]))]
    rfl
  · rw [recoveryPulse_slack hc, endRecovery_eq]
  · exact recoveryPulse_again hc
  · exact recoveryPulse_last hc
  · rw [backOffExpiry_running hb]
    exact congrArg _ (followWant_starts hc hw rfl)
  · rw [backOffExpiry_running hb]
    exact congrArg _ (followWant_stays (.inr (.inl hw)) (.inl (by simp [hc])))
  · exact followWant_starts
  · exact followWant_stops
  · exact followWant_stays

end Sys2Proof.Machine
end

