-- ==== Sys2Proof/Proofs/SentFrames.lean ====
section
/-! PROOF. Frames this station sends and their reports (O14 to O17). -/

namespace Sys2Proof.Machine

variable {s : State}

/-! ### The frame at its gap (R10, R11, R37) -/

theorem offeredFrame_notice {n : Notice} {rest : List Notice} (hs : s.startup.station = .service)
    (hq : s.frames.queue = n :: rest) (hn : n.inFlight = false) :
    offeredFrame s = some (.notice n.body) := by
  simp [offeredFrame, inService, hs, hq, hn]

theorem offeredFrame_call {r : CallRecord} (hs : s.startup.station = .service)
    (hq : s.frames.queue = []) (ha : s.arbiter = .waiting r) : offeredFrame s = some (.call r) := by
  simp [offeredFrame, inService, hs, hq, ha]

/-- Nothing is in progress and the line is QUIET. -/
def MayStart (s : State) : Prop :=
  s.frames.round = none ∧ s.line.activity = .nothing ∧ s.line.condition = .quiet

/-- The counter stops at 255, above every gap. -/
theorem frameStart_below {o : Offer} (h : MayStart s) (ho : offeredFrame s = some o) (elapsed : Nat)
    (dw : Bool) (hlt : min 255 (s.line.idleCount + elapsed) < gapOf o s) :
    exec (.frameStart elapsed dw) s =
      .next { s with line := { s.line with idleCount := min 255 (s.line.idleCount + elapsed) } } := by
  obtain ⟨hr, ha, hc⟩ := h
  simp only [exec, execFrameStart, Config.idleLimit, ho, hr, ha, hc, Option.isNone_none, and_self,
    if_true, if_pos hlt]

theorem frameStart_reached {o : Offer} (h : MayStart s) (ho : offeredFrame s = some o) (elapsed : Nat)
    (dw : Bool) (hge : gapOf o s ≤ min 255 (s.line.idleCount + elapsed)) :
    exec (.frameStart elapsed dw) s = .next (if dw then lineStartMark s else beginFrame o s) := by
  obtain ⟨hr, ha, hc⟩ := h
  simp only [exec, execFrameStart, Config.idleLimit, ho, hr, ha, hc, Option.isNone_none, and_self,
    if_true, if_neg (Nat.not_lt.2 hge)]

theorem headerBytes_eq (kind : FrameKind) (s : State) : headerBytes kind s =
    [kindCode kind, senderCharacter s.startup.settings.role s.startup.settings.number,
      s.clock.minute.extractLsb' 8 8, s.clock.minute.extractLsb' 0 8,
      if s.clock.isSet then 1 else 0] := by
  unfold headerBytes
  cases s.clock.isSet <;> rfl

theorem beginFrame_notice {n : Notice} {rest : List Notice} (hq : s.frames.queue = n :: rest) :
    beginFrame (.notice n.body) s =
      { s with
        line := { s.line with
          condition := .busy, driving := .frame, idleCount := 0, stuckCount := 0
          activity := .sending
            { kind := .notice
              characters := (headerBytes (noticeKind n.body) s ++ noticeBytes n.body).map withParity } }
        frames := { s.frames with queue := { n with inFlight := true } :: rest } } := by
  simp only [beginFrame, mapHead, hq]
  rfl

theorem beginFrame_call (r : CallRecord) (s : State) : beginFrame (.call r) s =
    { s with
      arbiter := .calling r
      line := { s.line with
        condition := .busy, driving := .frame, idleCount := 0, stuckCount := 0
        activity := .sending
          { kind := .call, characters := (headerBytes .call s ++ callBytes r).map withParity } } } := rfl

/-- Settles O14: what is offered, its gap, and the frame's characters. -/
theorem frameStartWaitsForItsGap : Obligations.FrameStartWaitsForItsGap := by
  intro elapsed s hs hr ha hc
  have hstart : MayStart s := ⟨hr, ha, hc⟩
  refine ⟨fun n rest hq hn => ?_, fun r hq harb => ?_⟩
  · have ho := offeredFrame_notice hs hq hn
    refine ⟨fun hlt dw => frameStart_below hstart ho elapsed dw hlt, fun hge => ?_⟩
    have hgap : gapOf (.notice n.body) s ≤ min 255 (s.line.idleCount + elapsed) := by
      simp only [gapOf, Config.noticeGap]
      omega
    rw [frameStart_reached hstart ho elapsed false hgap, frameStart_reached hstart ho elapsed true hgap]
    refine ⟨congrArg _ ?_, rfl⟩
    exact (beginFrame_notice hq).trans (by rw [headerBytes_eq])
  · have ho := offeredFrame_call hs hq harb
    refine ⟨fun hlt dw => frameStart_below hstart ho elapsed dw hlt, fun hge => ?_⟩
    have hgap : gapOf (.call r) s ≤ min 255 (s.line.idleCount + elapsed) := by
      refine le_min ?_ hge
      simp only [gapOf, Config.yieldGap, Config.callGap]
      split <;> omega
    rw [frameStart_reached hstart ho elapsed false hgap, frameStart_reached hstart ho elapsed true hgap]
    refine ⟨congrArg _ ?_, rfl⟩
    exact (beginFrame_call r s).trans (by rw [headerBytes_eq]; rfl)

/-! ### The arbiter and the line outside STUCK -/

/-- The line is neither STUCK nor RECOVERING. -/
def notStuck : LineCondition → Bool
  | .quiet => true
  | .busy => true
  | .held => true
  | .stuck => false
  | .recovering => false

/-- R20: on such a line no recovery starts or stops. -/
theorem followWant_settled (hc : notStuck s.line.condition = true) : followWant s = s := by
  refine followWant_stays (.inl fun h => ?_) (.inl fun h => ?_) <;> simp [h, notStuck] at hc

theorem arbiterFree_settled (hc : notStuck s.line.condition = true) :
    arbiterFree s = { s with arbiter := arbiterOf (callChoice s) } :=
  followWant_settled (s := { s with arbiter := arbiterOf (callChoice s) }) hc

theorem arbiterRoundOver_calling {r : CallRecord} (ha : s.arbiter = .calling r) :
    arbiterRoundOver s = arbiterFree s := by
  simp [arbiterRoundOver, ha]

theorem arbiterRoundOver_granting {r : CallRecord} {winner offered count : Nat}
    (ha : s.arbiter = .granting r winner offered count) : arbiterRoundOver s = arbiterFree s := by
  simp [arbiterRoundOver, ha]

theorem arbiterRoundOver_waiting {r : CallRecord} (ha : s.arbiter = .waiting r) :
    arbiterRoundOver s = s := by
  simp [arbiterRoundOver, ha]

theorem endFrame_outside (hr : s.frames.round = none) : endFrame s = lineQuiet (drive .nothing s) := by
  simp [endFrame, hr]

/-! ### Contention loss and body collision (R12, R13) -/

theorem loseContention_notice {n : Notice} {rest : List Notice} (hk : sentKind s = some .notice)
    (hq : s.frames.queue = n :: rest) : loseContention s =
      { s with
        line := { s.line with
          condition := .busy, activity := .receiving, driving := .nothing, idleCount := 0, stuckCount := 0
          report := some { outcome := .lost, flawSlot := false, confirmSlot := false
                           pulledFlaw := false, pulledConfirm := false } }
        frames := { s.frames with queue := { n with inFlight := false } :: rest } } := by
  simp [loseContention, hk, clearInFlight, mapHead, reportSent, report, drive, lineBusy, withQueue, hq]

theorem loseContention_call (hk : sentKind s = some .call) : loseContention s =
      { s with
        arbiter := arbiterOf (callChoice s)
        line := { s.line with
          condition := .busy, activity := .receiving, driving := .nothing, idleCount := 0, stuckCount := 0
          report := some { outcome := .lost, flawSlot := false, confirmSlot := false
                           pulledFlaw := false, pulledConfirm := false } } } := by
  simp only [loseContention, hk]
  exact arbiterFree_settled (s := reportSent .lost false false (drive .nothing (lineBusy .receiving s)))
    rfl

/-! ### Entry to DUPLICATE (R61, R63, R92, R118, R169) -/

/-- R106, R118: a line whose every record is brought down keeps what was taken, and no record. -/
theorem bringDown_all (l : OrderLine) :
    bringDown (fun _ => true) l = { l with closed := lineTaken l, awards := [] } := by
  have hsum : (((l.awards.map fun a => { a with granted := a.taken }).filter fun a => untaken a == 0).map
      fun a => a.granted).sum = (l.awards.map fun a => a.taken).sum := by
    congr 1
    induction l.awards with
    | nil => rfl
    | cons a rest ih => simpa [untaken] using ih
  have hnone : ((l.awards.map fun a => { a with granted := a.taken }).filter fun a => untaken a != 0)
      = [] := by
    simp [List.filter_eq_nil_iff, untaken]
  simp only [bringDown, foldAwards, if_true, hsum, hnone, lineTaken]

theorem enterDuplicate_trucks (s : State) : (enterDuplicate s).trucks =
    s.trucks.map fun u =>
      { u with lines := u.lines.map fun l => { l with closed := lineTaken l, awards := [] } } := by
  simp [enterDuplicate, mapAllLines, bringDown_all]

theorem enterDuplicate_stock (s : State) : (enterDuplicate s).stock =
    mapPacks (fun p => if p.state = .held ∨ isReserved p.state = true then { p with state := .free } else p)
      s.stock := by
  simp [enterDuplicate, releaseAll]

@[simp] theorem enterDuplicate_bid (s : State) : (enterDuplicate s).bid = .idle := by
  simp [enterDuplicate]

@[simp] theorem enterDuplicate_hold (s : State) : (enterDuplicate s).hold = none := by
  simp [enterDuplicate, releaseAll]

@[simp] theorem enterDuplicate_picks (s : State) : (enterDuplicate s).picks = [] := by
  simp [enterDuplicate, releaseAll, withPicks_picks]

@[simp] theorem refreshReady_lamps (before s : State) :
    (refreshReady before s).signal.lamps = s.signal.lamps := by
  unfold refreshReady; split <;> rfl

@[simp] theorem refreshReady_inputs (before s : State) :
    (refreshReady before s).signal.inputs = s.signal.inputs := by
  unfold refreshReady; split <;> rfl

@[simp] theorem refreshReady_horn (before s : State) :
    (refreshReady before s).signal.horn = s.signal.horn := by
  unfold refreshReady; split <;> rfl

@[simp] theorem withPicks_inputs (picks : List PickEntry) (s : State) :
    (withPicks picks s).signal.inputs = s.signal.inputs := by
  unfold withPicks; dsimp only; split <;> simp

@[simp] theorem withPicks_horn (picks : List PickEntry) (s : State) :
    (withPicks picks s).signal.horn = s.signal.horn := by
  unfold withPicks; dsimp only; split <;> simp

/-- A request depends on the configuration and the signals alone. -/
theorem requestPattern_congr {s t : State} (hset : t.startup.settings = s.startup.settings)
    (hsig : t.signal = s.signal) (function : FieldFunction) (p : Pattern) :
    (requestPattern function p t).signal = (requestPattern function p s).signal := by
  simp [requestPattern, mapLamps, functionOfLine, haltAsserted, inputAsserted, hset, hsig]

/-- R96: an emptied pick list gives one request when it had a head. -/
theorem withPicks_nil_lamps (s : State) : (withPicks [] s).signal.lamps =
    if s.picks = [] then s.signal.lamps else (requestPattern .pickLamp .off s).signal.lamps := by
  unfold withPicks
  cases hp : s.picks with
  | nil => simp [pickHead]
  | cons e rest =>
    have hcongr := requestPattern_congr (s := s) (t := { s with picks := [] }) rfl rfl .pickLamp .off
    simpa [pickHead, pickPattern] using congrArg (fun g => g.lamps) hcongr

@[simp] theorem enterDuplicate_inputs (s : State) :
    (enterDuplicate s).signal.inputs = s.signal.inputs := by
  simp [enterDuplicate, releaseAll]

@[simp] theorem enterDuplicate_horn (s : State) :
    (enterDuplicate s).signal.horn = s.signal.horn := by
  simp [enterDuplicate, releaseAll]

theorem enterDuplicate_lamps (s : State) : (enterDuplicate s).signal.lamps =
    if s.picks = [] then s.signal.lamps else (requestPattern .pickLamp .off s).signal.lamps := by
  simp only [enterDuplicate, releaseAll, refreshReady_lamps, withPicks_nil_lamps]
  split
  · rfl
  · exact congrArg (fun g => g.lamps) (requestPattern_congr (s := s) rfl rfl .pickLamp .off)

theorem collide_notice (hk : sentKind s = some .notice) :
    collide s = enterDuplicate (reportSent .collision false false s) := by
  simp [collide, hk]

theorem collide_call (hk : sentKind s = some .call) :
    collide s = enterDuplicate (ownRound (reportSent .collision false false s)) := by
  simp [collide, hk]

/-- The state in which a sender that met a body collision enters DUPLICATE: the line has its report, and the
round in progress is its own CALL's, where it sent one. -/
structure Collided (s u : State) : Prop where
  startup : u.startup = s.startup
  activity : u.line.activity = s.line.activity
  yieldRecord : u.frames.yieldRecord = s.frames.yieldRecord
  stock : u.stock = s.stock
  picks : u.picks = s.picks
  trucks : u.trucks = s.trucks
  clock : u.clock = s.clock
  signal : u.signal = s.signal
  port : u.port = s.port
  pending : u.pending = s.pending

theorem collided_reportSent (s : State) : Collided s (reportSent .collision false false s) := by
  constructor <;> rfl

theorem collided_ownRound (s : State) :
    Collided s (ownRound (reportSent .collision false false s)) := by
  constructor <;> rfl

/-- What entry to DUPLICATE leaves in every block but the round (R169). -/
theorem Collided.enterDuplicate {s u : State} (h : Collided s u) {f : SentFrame}
    (ha : s.line.activity = .sending f) :
    (enterDuplicate u).startup = { s.startup with station := .duplicate }
      ∧ (enterDuplicate u).line.driving = .nothing ∧ (enterDuplicate u).line.activity = .receiving
      ∧ (enterDuplicate u).frames.queue = []
      ∧ (enterDuplicate u).frames.yieldRecord = s.frames.yieldRecord := by
  refine ⟨?_, ?_, ?_, ?_, ?_⟩
  · rw [enterDuplicate_startup, h.startup]
  · rw [enterDuplicate_line]
  · rw [enterDuplicate_line, h.activity, ha]
    rfl
  · rw [enterDuplicate_frames]
  · rw [enterDuplicate_frames, h.yieldRecord]

theorem Collided.enterDuplicate_stores {s u : State} (h : Collided s u) :
    (Machine.enterDuplicate u).bid = .idle ∧ (Machine.enterDuplicate u).hold = none
      ∧ (Machine.enterDuplicate u).picks = [] ∧ (Machine.enterDuplicate u).arbiter = .idle
      ∧ (Machine.enterDuplicate u).stock = mapPacks
          (fun p => if p.state = .held ∨ isReserved p.state = true then { p with state := .free } else p)
          s.stock
      ∧ (Machine.enterDuplicate u).trucks = s.trucks.map (fun v =>
          { v with lines := v.lines.map fun l => { l with closed := lineTaken l, awards := [] } })
      ∧ (Machine.enterDuplicate u).clock = s.clock ∧ (Machine.enterDuplicate u).port = s.port
      ∧ (Machine.enterDuplicate u).pending = s.pending
      ∧ (Machine.enterDuplicate u).signal.inputs = s.signal.inputs
      ∧ (Machine.enterDuplicate u).signal.horn = s.signal.horn
      ∧ (Machine.enterDuplicate u).signal.lamps = (if s.picks = [] then s.signal.lamps
          else (requestPattern .pickLamp .off s).signal.lamps) := by
  have hlamps := requestPattern_congr (s := s) (t := u) (by rw [h.startup]) h.signal .pickLamp .off
  simp only [enterDuplicate_bid, enterDuplicate_hold, enterDuplicate_picks, enterDuplicate_arbiter,
    enterDuplicate_stock, enterDuplicate_trucks, enterDuplicate_clock, enterDuplicate_port,
    enterDuplicate_pending, enterDuplicate_inputs, enterDuplicate_horn, enterDuplicate_lamps, h.stock,
    h.picks, h.trucks, h.clock, h.signal, h.port, h.pending, hlamps, and_self]

/-- Settles O15: a contention loss by the kind that was sent; a body collision by what entry to DUPLICATE
does to each block. -/
theorem contentionLossAndBodyCollision : Obligations.ContentionLossAndBodyCollision := by
  refine ⟨fun f s ha => ⟨fun n rest hk hq => ?_, fun r hk hr => ?_⟩, fun f s ha hk => ?_⟩
  · exact congrArg _ (loseContention_notice (by rw [sentKind_of_sending ha, hk]) hq)
  · exact congrArg _ (loseContention_call (by rw [sentKind_of_sending ha, hk]))
  · rcases hk with hk | hk
    · obtain ⟨hst, hd, hact, hq, hy⟩ := (collided_reportSent s).enterDuplicate ha
      exact ⟨_, congrArg Host.Outcome.next (collide_notice (by rw [sentKind_of_sending ha, hk])), hst,
        hd, hact, hq, hy,
        fun hcall => by simp [hk] at hcall, (collided_reportSent s).enterDuplicate_stores⟩
    · obtain ⟨hst, hd, hact, hq, hy⟩ := (collided_ownRound s).enterDuplicate ha
      refine ⟨_, congrArg Host.Outcome.next (collide_call (by rw [sentKind_of_sending ha, hk])), hst,
        hd, hact, hq, hy,
        fun _ => ?_, (collided_ownRound s).enterDuplicate_stores⟩
      rw [enterDuplicate_frames]
      rfl

/-! ### The reports of a notice and of a CALL (R33, R36, R39, R124) -/

theorem noticeReport_sent (hk : sentKind s = some .notice) (confirm : Bool) :
    exec (.noticeReport (.sent confirm)) s =
      .next (endFrame (removeHead (reportSent .sent false confirm s))) :=
  congrArg _ (if_pos hk)

theorem noticeReport_flawed (hk : sentKind s = some .notice) (confirm : Bool) :
    exec (.noticeReport (.flawed confirm)) s =
      .next (endFrame (countFlaw (reportSent .flawed true confirm s))) :=
  congrArg _ (if_pos hk)

theorem callReport_sent (hk : sentKind s = some .call) (confirm : Bool) :
    exec (.callReport (.sent confirm)) s = .next (callSent (reportSent .sent false confirm s)) :=
  congrArg _ (if_pos hk)

theorem callReport_flawed (hk : sentKind s = some .call) (confirm : Bool) :
    exec (.callReport (.flawed confirm)) s =
      .next (endRound false (ownRound (reportSent .flawed true confirm s))) :=
  congrArg _ (if_pos hk)

/-- R36: the head's flaw is counted, or the head given up at the third. -/
theorem countFlaw_cons {n : Notice} {rest : List Notice} (hq : s.frames.queue = n :: rest) :
    countFlaw s =
      { s with
        frames := { s.frames with
          queue :=
            if n.flaws < 2 then { n with flaws := n.flaws + 1, inFlight := false } :: rest else rest }
        port := { s.port with
          flags := { s.port.flags with
            noticeLoss := if n.flaws < 2 then s.port.flags.noticeLoss else true } } } := by
  unfold countFlaw
  simp only [hq]
  by_cases h : n.flaws < 2
  · have hlimit : ¬ Config.flawLimit ≤ n.flaws + 1 := by simp only [Config.flawLimit]; omega
    rw [if_neg hlimit, if_pos h, if_pos h]
    rfl
  · have hlimit : Config.flawLimit ≤ n.flaws + 1 := by simp only [Config.flawLimit]; omega
    rw [if_pos hlimit, if_neg h, if_neg h]
    rfl

/-- Settles O16: the report's arm, then what the end mark leaves outside a round. -/
theorem noticeReportsSettleTheHead : Obligations.NoticeReportsSettleTheHead := by
  intro f s ha hk
  have hsent : sentKind s = some .notice := by rw [sentKind_of_sending ha, hk]
  refine ⟨fun n rest confirm hq hr => ⟨?_, ?_⟩, congrArg _ (if_pos hsent), congrArg _ (if_pos hsent),
    fun k => congrArg _ (if_pos hsent)⟩
  · rw [noticeReport_sent hsent]
    refine congrArg _ ((endFrame_outside (by exact hr)).trans ?_)
    simp [removeHead, hq, lineQuiet, drive, reportSent, report, withQueue]
  · rw [noticeReport_flawed hsent, countFlaw_cons (s := reportSent .flawed true confirm s) hq]
    exact congrArg _ (endFrame_outside (by exact hr))

/-- R38, R44: the gate's own round ends with the arbiter's attempt. -/
theorem endRound_calling {v : RoundView} {r : CallRecord} (hr : s.frames.round = some v)
    (hown : v.own = true) (ha : s.arbiter = .calling r) : endRound false s =
      { s with
        arbiter := arbiterOf (callChoice s)
        line := { s.line with
          condition := .quiet, activity := .nothing, driving := .nothing, idleCount := 0, stuckCount := 0 }
        frames := { s.frames with round := none, yieldRecord := true } } := by
  have ho : ownsRound s = true := by simp [ownsRound, hr, hown]
  have hover : arbiterRoundOver (lineFreed false (drive .nothing (dropRound s))) =
      arbiterFree (lineFreed false (drive .nothing (dropRound s))) :=
    arbiterRoundOver_calling (r := r) (by simp [ha])
  simp only [endRound, ho, if_true, hover]
  rw [arbiterFree_settled rfl]
  simp only [dropRound, hr, hown]
  rfl

/-- Settles O17: a SENT CALL goes to STRETCH, a FLAWED one ends the gate's own round. -/
theorem callReportMovesTheOwnRound : Obligations.CallReportMovesTheOwnRound := by
  intro f r confirm s ha hk hr
  have hsent : sentKind s = some .call := by rw [sentKind_of_sending ha, hk]
  refine ⟨callReport_sent hsent confirm, ?_, congrArg _ (if_pos hsent), congrArg _ (if_pos hsent),
    fun k => congrArg _ (if_pos hsent)⟩
  rw [callReport_flawed hsent]
  exact congrArg _ (endRound_calling (s := ownRound (reportSent .flawed true confirm s)) rfl rfl hr)

end Sys2Proof.Machine
end

