-- ==== Sys2Proof/Proofs/RoundEvents.lean ====
section
/-! PROOF. The events of a round: the slot's end and the pulses (O29), the silence limits and the grant
wait (O32). -/

namespace Sys2Proof.Machine

variable {s : State}

/-! ### The slot's end and the pulses (R16, R40, R41, R72, R74) -/

theorem stretchSlotEnd_own_pull {v : RoundView} (hr : s.frames.round = some v)
    (hd : s.line.driving = .stretch) : exec .stretchSlotEnd s = .next s := by
  simp [exec, execStretchSlotEnd, hr, hd]

theorem stretchSlotEnd_opens {v : RoundView} (ho : observes s = true) (hr : s.frames.round = some v)
    (hp : v.phase = .stretch) (hd : s.line.driving ≠ .stretch) : exec .stretchSlotEnd s = .next
      { s with
        bid := startBidding s.bid
        frames := { s.frames with
          round := some { v with phase := .window, silence := 0, pulsing := false } } } := by
  simp [exec, execStretchSlotEnd, hr, ho, hp, hd, withRound]

/-- Every pulse sets the silence count to 0. -/
def pulsed (v : RoundView) (s : State) : State :=
  withRound (some { v with silence := 0, pulsing := true }) s

theorem bidWindowStart_window {v : RoundView} (ho : observes s = true) (hr : s.frames.round = some v)
    (hp : v.phase = .window) (dw : Bool) : exec (.bidWindowStart dw) s =
      .next (windowPulse dw v (pulsed v s)) := by
  simp [exec, execBidWindowStart, hr, ho, hp, pulsed]

theorem windowPulse_bidding {r : BidRecord} {res : BidResult} (hs : s.startup.station = .service)
    (hb : s.bid = .bidding r res) (dw : Bool) (v : RoundView) : windowPulse dw v s =
      { s with
        bid := .bidding (sendBit dw res.word r) res
        line := { s.line with
          driving := if (sendBit dw res.word r).lost then .nothing else .bidWord } } := by
  simp [windowPulse, inService, hs, hb, drive]

theorem windowPulse_idle (hs : s.startup.station = .service) (hb : s.bid = .idle) (dw : Bool)
    (v : RoundView) : windowPulse dw v s = if v.own then drive .windowPulses s else s := by
  simp [windowPulse, inService, hs, hb]

theorem windowPulse_outside_service (hs : s.startup.station ≠ .service) (dw : Bool) (v : RoundView) :
    windowPulse dw v s = s := by
  simp [windowPulse, inService, hs]

/-- Settles O29: the slot's end, then a pulse by what the Bid Unit and the owner do at it. -/
theorem slotEndAndFirstPulseOpenTheWindow : Obligations.SlotEndAndFirstPulseOpenTheWindow := by
  intro v s ho hr
  refine ⟨fun _ hd => stretchSlotEnd_own_pull hr hd, fun hp hd => ⟨fun r res hb => ?_, fun hb => ?_⟩,
    fun hp dw => ⟨fun hs => ⟨fun r res hb => ?_, fun hb hown => ?_, fun hb hown => ?_⟩, fun hs => ?_⟩⟩
  · rw [stretchSlotEnd_opens ho hr hp hd, hb]
    rfl
  · rw [stretchSlotEnd_opens ho hr hp hd, hb]
    simp [startBidding]
  · rw [bidWindowStart_window ho hr hp, windowPulse_bidding (s := pulsed v s) hs hb]
    refine ⟨fun hl => ?_, fun hl hsent => ?_, fun hl hsent => ?_⟩
    · rw [sendBit_over dw res.word r (.inl hl), if_pos hl, hb]
      rfl
    · rw [sendBit_over dw res.word r (.inr hsent), hl, hb]
      rfl
    · rw [sendBit_sends dw res.word r hl hsent]
      rfl
  · rw [bidWindowStart_window ho hr hp, windowPulse_idle (s := pulsed v s) hs hb, if_pos hown, ← hb]
    rfl
  · rw [bidWindowStart_window ho hr hp, windowPulse_idle (s := pulsed v s) hs hb,
      if_neg (by simp [hown]), ← hb]
    rfl
  · rw [bidWindowStart_window ho hr hp, windowPulse_outside_service (s := pulsed v s) hs]
    rfl

/-! ### What ends a hold, a round and what was in progress, as one state each -/

theorem endHold_eq (s : State) : endHold s = { s with hold := none, stock := stockWithoutHold s } := by
  unfold endHold stockWithoutHold
  cases hh : s.hold with
  | none => simp [← hh]
  | some h => rfl

theorem dropRound_some {v : RoundView} (hr : s.frames.round = some v) : dropRound s =
    { s with frames := { s.frames with round := none, yieldRecord := v.own } } := by
  simp [dropRound, hr]

theorem lineFreed_drive (dw : Bool) (s : State) :
    lineFreed dw (drive .nothing s) = { s with line := freedLine dw s.line } := by
  cases dw <;> rfl

theorem dropAbandoned_some {v : RoundView} (hr : s.frames.round = some v) : dropAbandoned s =
    { s with
      bid := .idle, hold := none, stock := stockWithoutHold s
      frames := { s.frames with round := none, yieldRecord := v.own } } := by
  rw [dropAbandoned, dropRound_some (v := v) (by simpa using hr), endHold_eq]
  rfl

/-- The arbiter after a round it may own: an attempt is over and the choice made again (R119). -/
def arbiterAfterRound (s : State) : Arbiter :=
  match s.arbiter with
  | .idle => .idle
  | .waiting r => .waiting r
  | .calling _ => arbiterOf (callChoice s)
  | .granting _ _ _ _ => arbiterOf (callChoice s)

theorem arbiterOf_rests (choice : Option CallRecord) :
    arbiterOf choice = .idle ∨ ∃ r, arbiterOf choice = .waiting r := by
  cases choice with
  | none => exact .inl rfl
  | some r => exact .inr ⟨r, rfl⟩

theorem arbiterAfterRound_rests (s : State) :
    arbiterAfterRound s = .idle ∨ ∃ r, arbiterAfterRound s = .waiting r := by
  unfold arbiterAfterRound
  cases s.arbiter with
  | idle => exact .inl rfl
  | waiting r => exact .inr ⟨r, rfl⟩
  | calling r => exact arbiterOf_rests _
  | granting r w k c => exact arbiterOf_rests _

/-- An arbiter that makes no attempt has nothing to free. -/
theorem arbiterAfterRound_rested (h : s.arbiter = .idle ∨ ∃ r, s.arbiter = .waiting r) :
    arbiterAfterRound s = s.arbiter := by
  unfold arbiterAfterRound
  rcases h with h | ⟨r, h⟩ <;> simp only [h]

/-- The gate's own round is in progress, and its arbiter waits for its end. -/
def attempts (a : Arbiter) : Prop := (∃ r, a = .calling r) ∨ ∃ r w k c, a = .granting r w k c

theorem arbiterAfterRound_attempts (ha : attempts s.arbiter) :
    arbiterAfterRound s = arbiterOf (callChoice s) := by
  unfold arbiterAfterRound
  obtain ⟨r, h⟩ | ⟨r, w, k, c, h⟩ := ha <;> simp only [h]

theorem arbiterRoundOver_settled (hc : notStuck s.line.condition = true) :
    arbiterRoundOver s = { s with arbiter := arbiterAfterRound s } := by
  cases ha : s.arbiter with
  | idle => rw [arbiterRoundOver_idle ha, arbiterAfterRound_rested (.inl ha)]
  | waiting r => rw [arbiterRoundOver_waiting ha, arbiterAfterRound_rested (.inr ⟨r, ha⟩)]
  | calling r =>
    rw [arbiterRoundOver_calling ha, arbiterFree_settled hc, arbiterAfterRound_attempts (.inl ⟨r, ha⟩)]
  | granting r w k c =>
    rw [arbiterRoundOver_granting ha, arbiterFree_settled hc,
      arbiterAfterRound_attempts (.inr ⟨r, w, k, c, ha⟩)]

theorem notStuck_freedLine (dw : Bool) (line : LineInterface) :
    notStuck (freedLine dw line).condition = true := by
  cases dw <;> rfl

/-- The arbiter after a round in progress: told when the round is its own (R38). -/
def toldArbiter (own : Bool) (s : State) : Arbiter := if own then arbiterAfterRound s else s.arbiter

/-- Only the owner is told, and nothing changes where its arbiter makes no attempt. -/
theorem toldArbiter_untold {own : Bool} (h : own = false ∨ s.arbiter = .idle) :
    toldArbiter own s = s.arbiter := by
  unfold toldArbiter
  rcases h with hown | hidle
  · simp [hown]
  · split
    · exact arbiterAfterRound_rested (.inl hidle)
    · rfl

theorem toldArbiter_attempts (ha : attempts s.arbiter) :
    toldArbiter true s = arbiterOf (callChoice s) :=
  arbiterAfterRound_attempts ha

/-- R43: a round is abandoned, the line is free and the owner is told. -/
theorem abandonRound_eq {v : RoundView} (hr : s.frames.round = some v) (dw : Bool) :
    abandonRound dw s =
      { s with
        bid := .idle, hold := none, stock := stockWithoutHold s
        line := freedLine dw s.line, arbiter := toldArbiter v.own s
        frames := { s.frames with round := none, yieldRecord := v.own } } := by
  have ho : ownsRound s = v.own := by simp [ownsRound, hr]
  have hfreed : lineFreed dw (drive .nothing (dropAbandoned s)) =
      { s with
        bid := .idle, hold := none, stock := stockWithoutHold s, line := freedLine dw s.line
        frames := { s.frames with round := none, yieldRecord := v.own } } := by
    rw [lineFreed_drive, dropAbandoned_some hr]
  simp only [abandonRound, ho, hfreed, toldArbiter]
  cases v.own with
  | false => rfl
  | true => exact arbiterRoundOver_settled (notStuck_freedLine dw s.line)

/-! ### The silence limits and the grant wait (R41, R42, R43, R80) -/

theorem windowSilenceLimit_window {v : RoundView} (ho : observes s = true)
    (hr : s.frames.round = some v) (hp : v.phase = .window) (dw : Bool) :
    exec (.windowSilenceLimit dw) s = .next (abandonRound dw s) := by
  simp [exec, execWindowSilenceLimit, ho, roundPhase, hr, hp]

theorem grantWaitSilenceLimit_grantWait {v : RoundView} (ho : observes s = true)
    (hr : s.frames.round = some v) (hp : v.phase = .grantWait) (dw : Bool) :
    exec (.grantWaitSilenceLimit dw) s = .next (abandonRound dw s) := by
  simp [exec, execGrantWaitSilenceLimit, ho, roundPhase, hr, hp]

/-- R42: the round waits for its closing frame's start mark, so no stray activity is outside it. -/
theorem grantWait_tests {v : RoundView} (ho : observes s = true) (hr : s.frames.round = some v)
    (hp : v.phase = .grantWait) (hc : s.line.condition = .busy)
    (ha : s.line.activity = .nothing ∨ s.line.activity = .stray) :
    betweenFrames s = false ∧ beginsToObserve s = false ∧ inGrantWait s = true := by
  refine ⟨by simp [betweenFrames, hr], not_beginsToObserve fun wires hw => ?_, ?_⟩
  · rcases ha with ha | ha <;> simp [hw] at ha
  · simp [inGrantWait, ho, roundPhase, hr, hp, hc, ha]

/-- Settles O32: a limit abandons the round, told to an owner that waits for it; a pull in GRANT WAIT; the
hold's own timer. -/
theorem silenceAbandonsAndGrantWaitExpires : Obligations.SilenceAbandonsAndGrantWaitExpires := by
  refine ⟨fun dw v s ho hr h => ⟨fun hp => ?_, fun hp => ?_⟩,
    fun dw v s ho hr hown ha => ⟨fun hp => ?_, fun hp => ?_⟩,
    fun v s ho hr hp hc ha => ?_, fun h left s hh hp hg => ?_⟩
  · rw [windowSilenceLimit_window ho hr hp, abandonRound_eq hr, toldArbiter_untold h]
  · rw [grantWaitSilenceLimit_grantWait ho hr hp, abandonRound_eq hr, toldArbiter_untold h]
  · rw [windowSilenceLimit_window ho hr hp, abandonRound_eq hr, hown, toldArbiter_attempts ha]
    rfl
  · rw [grantWaitSilenceLimit_grantWait ho hr hp, abandonRound_eq hr, hown, toldArbiter_attempts ha]
    rfl
  · obtain ⟨hbetween, hbegins, hwait⟩ := grantWait_tests ho hr hp hc ha
    refine ⟨fun dw => ?_, ?_, ?_⟩
    · simp [exec, execStrayActivity, hbetween, hbegins, hwait, grantWaitPull, withRound, hr]
    · simp [exec, execStrayActivity, hbetween, hbegins, hwait, grantWaitPull]
    · simp [exec, execStrayActivityEnd, hbetween, hbegins, hwait, grantWaitPull]
  · have hwaits : holdWaits s = true := by simp [holdWaits, hh, hp, hg]
    simp [exec, execGrantWaitExpiry, hwaits, endHold, hh]

end Sys2Proof.Machine
end

