-- ==== Sys2Proof/Proofs/UnfinishedFrames.lean ====
section
/-! PROOF. A frame that never ends and the HELD line (O11, O12). -/

namespace Sys2Proof.Machine

variable {s : State}

/-! ### The part of a frame that was sampled (R38, R42, R81) -/

theorem passRound_outside (hr : s.frames.round = none) :
    passRound s = { s with hold := none, stock := stockWithoutHold s } := by
  have ho : ownsRound s = false := by simp [ownsRound, hr]
  simp only [passRound, ho, endHold_eq, dropRound, hr]
  rfl

theorem passRound_inside {v : RoundView} (hr : s.frames.round = some v)
    (hc : notStuck s.line.condition = true) : passRound s =
      { s with
        hold := none, stock := stockWithoutHold s, arbiter := toldArbiter v.own s
        frames := { s.frames with round := none, yieldRecord := v.own } } := by
  have ho : ownsRound s = v.own := by simp [ownsRound, hr]
  have hdropped : dropRound (endHold s) =
      { s with
        hold := none, stock := stockWithoutHold s
        frames := { s.frames with round := none, yieldRecord := v.own } } := by
    rw [dropRound_some (v := v) (by simpa using hr), endHold_eq]
  simp only [passRound, ho, hdropped, toldArbiter]
  cases v.own with
  | false => rfl
  | true => exact arbiterRoundOver_settled hc

/-- A CALL of which character 2 was sampled (R38). -/
def beginsRound (sampled : List Byte) : Prop := ∃ b rest, sampled = 0x10 :: b :: rest

theorem partFrame_call (hh : canHear s = true) (b : Byte) (rest : List Byte) :
    partFrame (0x10 :: b :: rest) s =
      withRound (some (newRound (numberOfSender b) false)) (passRound s) :=
  if_pos ⟨rfl, hh⟩

theorem partFrame_other {sampled : List Byte} (h : canHear s = false ∨ ¬ beginsRound sampled) :
    partFrame sampled s = s := by
  rcases partFrame_cases sampled s with ⟨hh, b, rest, hcall, -⟩ | ⟨-, heq⟩
  · rcases h with h | h
    · simp [hh] at h
    · exact absurd ⟨b, rest, hcall⟩ h
  · exact heq

/-! ### UNFINISHED_FRAME (R9, R18, R43) -/

/-- The line after a frame was discarded and the line freed by DW's level. -/
def discardedLine (dw : Bool) (line : LineInterface) : LineInterface :=
  { freedLine dw line with
    report := some { outcome := .discarded, flawSlot := false, confirmSlot := false
                     pulledFlaw := false, pulledConfirm := false } }

theorem unfinishedFrame_outside {sampled : List Byte} (h : canHear s = true ∨ followsCall s = true)
    (hr : (partFrame sampled s).frames.round = none) (dw : Bool) :
    exec (.unfinishedFrame sampled dw) s = .next
      { partFrame sampled s with line := discardedLine dw (partFrame sampled s).line } := by
  have hr' : (reportSent .discarded false false (partFrame sampled s)).frames.round = none := hr
  simp only [exec, execUnfinishedFrame, if_pos h, hr', lineFreed_drive]
  rfl

theorem unfinishedFrame_inside {sampled : List Byte} {v : RoundView}
    (h : canHear s = true ∨ followsCall s = true)
    (hr : (partFrame sampled s).frames.round = some v) (dw : Bool) :
    exec (.unfinishedFrame sampled dw) s = .next
      { partFrame sampled s with
        bid := .idle, hold := none, stock := stockWithoutHold (partFrame sampled s)
        line := discardedLine dw (partFrame sampled s).line
        arbiter := toldArbiter v.own (partFrame sampled s)
        frames := { (partFrame sampled s).frames with round := none, yieldRecord := v.own } } := by
  have hr' : (reportSent .discarded false false (partFrame sampled s)).frames.round = some v := hr
  simp only [exec, execUnfinishedFrame, if_pos h, hr', abandonRound_eq hr']
  rfl

/-- A CALL that is cut after its character 2 leaves its own round abandoned, whatever it ended before. -/
theorem unfinishedFrame_call (hh : canHear s = true) (b : Byte) (rest : List Byte) (dw : Bool) :
    exec (.unfinishedFrame (0x10 :: b :: rest) dw) s = .next
      { passRound s with
        bid := .idle, hold := none, stock := stockWithoutHold (passRound s)
        line := discardedLine dw (passRound s).line
        frames := { (passRound s).frames with round := none, yieldRecord := false } } := by
  rw [unfinishedFrame_inside (v := newRound (numberOfSender b) false) (.inl hh)
    (by rw [partFrame_call hh]; rfl), partFrame_call hh]
  rfl

/-- Outside a round: nothing but the line's condition is left, and a cut CALL's round. -/
theorem unfinishedFrame_hearsFrame (h : hearsFrame s = true) (sampled : List Byte) (dw : Bool) :
    (¬ beginsRound sampled →
      exec (.unfinishedFrame sampled dw) s = .next { s with line := discardedLine dw s.line }) ∧
    (beginsRound sampled → exec (.unfinishedFrame sampled dw) s = .next
      { s with
        line := discardedLine dw s.line, bid := .idle, hold := none, stock := stockWithoutHold s
        frames := { s.frames with round := none, yieldRecord := false } }) := by
  have hh : canHear s = true := (canHear_iff s).2 (.inl h)
  obtain ⟨-, hr, -⟩ := (hearsFrame_iff s).1 h
  refine ⟨fun hcut => ?_, fun ⟨b, rest, hcall⟩ => ?_⟩
  · rw [unfinishedFrame_outside (.inl hh) (by rw [partFrame_other (.inr hcut)]; exact hr),
      partFrame_other (.inr hcut)]
  · rw [hcall, unfinishedFrame_call hh, passRound_outside hr]
    rfl

theorem canHear_of_followsCall (h : followsCall s = true) : canHear s = false := by
  obtain ⟨-, ⟨v, hr, hp⟩, ha⟩ := (followsCall_iff s).1 h
  rw [← Bool.not_eq_true, canHear_iff, hearsFrame_iff, awaitsClosing_iff]
  simp [hr, ha]

theorem toldArbiter_owner {v : RoundView} (hr : s.frames.round = some v) :
    (ownsRound s = false → toldArbiter v.own s = s.arbiter) ∧
    (ownsRound s = true → toldArbiter v.own s = .idle ∨ ∃ r, toldArbiter v.own s = .waiting r) := by
  have ho : ownsRound s = v.own := by simp [ownsRound, hr]
  rw [ho]
  refine ⟨fun hown => toldArbiter_untold (.inl hown), fun hown => ?_⟩
  rw [hown]
  exact arbiterAfterRound_rests s

/-- Settles O12: outside a round by `unfinishedFrame_hearsFrame`; inside one, a cut CALL that closes it by
what it passes, any other frame by the round's abandonment. -/
theorem unfinishedFrameIsDiscarded : Obligations.UnfinishedFrameIsDiscarded := by
  intro sampled dw s
  refine ⟨fun h => unfinishedFrame_hearsFrame h sampled dw, fun h => ?_⟩
  by_cases hcall : awaitsClosing s = true ∧ beginsRound sampled
  · obtain ⟨hw, b, rest, rfl⟩ := hcall
    obtain ⟨-, ⟨v, hr, -⟩, -, hc⟩ := (awaitsClosing_iff s).1 hw
    have hh : canHear s = true := (canHear_iff s).2 (.inr hw)
    obtain ⟨hother, howner⟩ := toldArbiter_owner hr
    refine ⟨_, unfinishedFrame_call hh b rest dw, ?_⟩
    rw [passRound_inside hr (by rw [hc]; rfl)]
    refine ⟨rfl, rfl, fun _ _ => rfl, fun hnot => ?_, rfl, rfl, rfl, rfl, hother, howner, rfl, rfl, rfl,
      rfl, rfl, rfl, rfl⟩
    exact absurd hh (by simp [canHear_of_followsCall (hnot.resolve_right fun hn => hn ⟨b, rest, rfl⟩)])
  · have hpart : partFrame sampled s = s := by
      refine partFrame_other ?_
      rcases h with hw | hf
      · exact .inr fun hb => hcall ⟨hw, hb⟩
      · exact .inl (canHear_of_followsCall hf)
    obtain ⟨v, hr⟩ : ∃ v, s.frames.round = some v := by
      rcases h with hw | hf
      · exact ((awaitsClosing_iff s).1 hw).2.1.imp fun _ hv => hv.1
      · exact ((followsCall_iff s).1 hf).2.1.imp fun _ hv => hv.1
    have ho : ownsRound s = v.own := by simp [ownsRound, hr]
    have hheard : canHear s = true ∨ followsCall s = true :=
      h.imp_left fun hw => (canHear_iff s).2 (.inr hw)
    obtain ⟨hother, howner⟩ := toldArbiter_owner hr
    refine ⟨_, unfinishedFrame_inside hheard (by rw [hpart]; exact hr) dw, ?_⟩
    rw [hpart]
    exact ⟨rfl, rfl, fun hw hb => absurd ⟨hw, hb⟩ hcall, fun _ => ho.symm, rfl, rfl, rfl, rfl, hother,
      howner,
      rfl, rfl, rfl, rfl, rfl, rfl, rfl⟩

/-! ### HELD (R19) -/

/-- A cut CALL ends the round it closes and its hold; the line and the queue stay. -/
theorem partFrame_kept (sampled : List Byte) (s : State) :
    (partFrame sampled s).line = s.line
      ∧ stockWithoutHold (partFrame sampled s) = stockWithoutHold s
      ∧ ((s.arbiter = .idle ∨ ∃ r, s.arbiter = .waiting r) →
        (partFrame sampled s).arbiter = s.arbiter) := by
  by_cases h : canHear s = true ∧ beginsRound sampled
  · obtain ⟨hh, b, rest, rfl⟩ := h
    rw [partFrame_call hh]
    rcases (canHear_iff s).1 hh with ho | hw
    · rw [passRound_outside ((hearsFrame_iff s).1 ho).2.1]
      exact ⟨rfl, rfl, fun _ => rfl⟩
    · obtain ⟨-, ⟨v, hr, -⟩, -, hc⟩ := (awaitsClosing_iff s).1 hw
      rw [passRound_inside hr (by rw [hc]; rfl)]
      refine ⟨rfl, rfl, fun hrest => ?_⟩
      change toldArbiter v.own s = s.arbiter
      unfold toldArbiter
      split
      · exact arbiterAfterRound_rested hrest
      · rfl
  · have hpart : partFrame sampled s = s := by
      refine partFrame_other ?_
      rcases Bool.eq_false_or_eq_true (canHear s) with hh | hh
      · exact .inr fun hb => h ⟨hh, hb⟩
      · exact .inl hh
    rw [hpart]
    exact ⟨rfl, rfl, fun _ => rfl⟩

/-- The yield record once no round is in progress (R44). -/
def yieldAfter (f : FrameEngine) : Bool :=
  match f.round with
  | none => f.yieldRecord
  | some v => v.own

theorem dropAbandoned_eq (s : State) : dropAbandoned s =
    { s with
      bid := .idle, hold := none, stock := stockWithoutHold s
      frames := { s.frames with round := none, yieldRecord := yieldAfter s.frames } } := by
  cases hr : s.frames.round with
  | some v => rw [dropAbandoned_some hr, yieldAfter, hr]
  | none =>
    have hframes : { s.frames with round := none, yieldRecord := yieldAfter s.frames } = s.frames := by
      simp only [yieldAfter, hr]
      rw [← hr]
    rw [hframes, dropAbandoned, dropRound, dropBid, endHold_eq]
    simp only [hr]

/-- What is left to be abandoned at HELD: the frame is reported, and a cut CALL has begun its round. -/
def cutState (begun : Bool) (sampled : List Byte) (s : State) : State :=
  partFrame sampled (abandonSent begun sampled.length s)

/-- The line at HELD but for its report. -/
def heldLine (pulses : Nat) (line : LineInterface) : LineInterface :=
  { line with
    condition := .held, activity := .nothing, driving := .nothing, idleCount := 0, stuckCount := 0
    pulseCount := pulses, backOff := none }

theorem enterHeld_eq (ho : observes s = true) (hc : s.line.condition ≠ .held) (begun : Bool)
    (sampled : List Byte) : enterHeld begun sampled s =
      refreshReady s
        { cutState begun sampled s with
          bid := .idle, hold := none, stock := stockWithoutHold (cutState begun sampled s)
          arbiter := arbiterAfterRound (cutState begun sampled s)
          line := heldLine
            (if s.line.condition = .recovering then 0 else (cutState begun sampled s).line.pulseCount)
            (cutState begun sampled s).line
          frames := { (cutState begun sampled s).frames with
            round := none, yieldRecord := yieldAfter (cutState begun sampled s).frames } } := by
  simp only [enterHeld, if_pos (And.intro ho hc)]
  rw [arbiterRoundOver_settled rfl]
  simp only [dropAbandoned_eq]
  rfl

/-- The report of a frame that HELD cuts, with neither slot read. -/
def cutReport (outcome : ReportOutcome) : Option FrameReport :=
  some { outcome := outcome, flawSlot := false, confirmSlot := false
         pulledFlaw := false, pulledConfirm := false }

/-- A station that sends hears no frame. -/
theorem canHear_of_sending {f : SentFrame} (ha : s.line.activity = .sending f) : canHear s = false := by
  rw [← Bool.not_eq_true, canHear_iff, hearsFrame_iff, awaitsClosing_iff]
  simp [ha]

theorem mapHead_yieldRecord (f : Notice → Notice) (s : State) :
    (mapHead f s).frames.yieldRecord = s.frames.yieldRecord := by
  unfold mapHead
  split <;> rfl

/-- R36: the head's mark is no part of what the head says, or of its flaw count. -/
theorem clearInFlight_entries (s : State) :
    (clearInFlight s).frames.queue.map (fun n => (n.body, n.flaws))
      = s.frames.queue.map (fun n => (n.body, n.flaws)) := by
  unfold clearInFlight mapHead
  split
  · rfl
  · rename_i n rest hq
    simp [hq]

/-- R22, R36, R38: the frame being sent is reported ABANDONED, and a CALL past character 2 has begun its
round. -/
theorem abandonSent_sending {f : SentFrame} (ha : s.line.activity = .sending f) (begun : Bool) (n : Nat) :
    (abandonSent begun n s).line = { s.line with report := cutReport .abandoned }
      ∧ (abandonSent begun n s).frames.round = (if f.kind = .call ∧ 2 ≤ n then
          some (newRound s.startup.settings.number true) else s.frames.round)
      ∧ (abandonSent begun n s).frames.yieldRecord = s.frames.yieldRecord
      ∧ (abandonSent begun n s).frames.queue.map (fun n => (n.body, n.flaws))
          = s.frames.queue.map (fun n => (n.body, n.flaws)) := by
  unfold abandonSent
  rw [sentKind_of_sending ha]
  cases f.kind with
  | notice =>
    exact ⟨by simp [reportSent, report, cutReport], by simp, mapHead_yieldRecord _ _,
      clearInFlight_entries _⟩
  | call =>
    by_cases h2 : 2 ≤ n
    · simp only [h2, and_self, if_true]
      exact ⟨rfl, rfl, rfl, rfl⟩
    · simp only [h2, and_false, if_false]
      exact ⟨rfl, rfl, rfl, rfl⟩
  | grant => exact ⟨rfl, rfl, rfl, rfl⟩

theorem cutState_sending {f : SentFrame} (ha : s.line.activity = .sending f) (begun : Bool)
    (sampled : List Byte) : cutState begun sampled s = abandonSent begun sampled.length s := by
  refine partFrame_other (.inl (canHear_of_sending (f := f) ?_))
  rw [(abandonSent_sending ha begun sampled.length).1]
  exact ha

/-- R22: a frame this station follows is reported discarded. -/
theorem abandonSent_following (hs : sentFrame s = none) (begun : Bool) (n : Nat) :
    abandonSent begun n s =
      { s with
        line := { s.line with
          report := if followsCut begun n s then cutReport .discarded else s.line.report } } := by
  have hk : sentKind s = none := by simp [sentKind, hs]
  simp only [abandonSent, hk]
  split <;> rfl

/-- R38, R42: what is heard of a cut frame does not change when it is reported. -/
theorem cutState_following (hs : sentFrame s = none) (begun : Bool) (sampled : List Byte) :
    (cutState begun sampled s).line = { s.line with
        report := if followsCut begun sampled.length s then cutReport .discarded else s.line.report }
      ∧ (canHear s = true → beginsRound sampled → yieldAfter (cutState begun sampled s).frames = false)
      ∧ (canHear s = false ∨ ¬ beginsRound sampled →
          yieldAfter (cutState begun sampled s).frames = yieldAfter s.frames)
      ∧ (cutState begun sampled s).frames.queue = s.frames.queue := by
  have hp := abandonSent_following hs begun sampled.length
  have hcan : canHear (abandonSent begun sampled.length s) = canHear s := by rw [hp]; rfl
  refine ⟨?_, fun hh hb => ?_, fun h => ?_, ?_⟩
  · rw [cutState, (partFrame_kept sampled _).1, hp]
  · obtain ⟨b, rest, rfl⟩ := hb
    rw [cutState, partFrame_call (hcan.trans hh)]
    rfl
  · rw [cutState, partFrame_other (by rwa [hcan]), hp]
  · rw [cutState, partFrame_queue, hp]

theorem followsCut_iff (begun : Bool) (sampled : List Byte) (s : State) :
    followsCut begun sampled.length s = true ↔ s.line.activity = .receiving
      ∨ (canHear s = true ∧ (begun = true ∨ sampled ≠ [])) := by
  have hlength : 1 ≤ sampled.length ↔ sampled ≠ [] := by
    rw [← List.length_pos_iff, Nat.one_le_iff_ne_zero, Nat.pos_iff_ne_zero]
  simp [followsCut, hlength, and_comm]

theorem exists_sending (h : sentFrame s ≠ none) : ∃ f, s.line.activity = .sending f := by
  by_contra hne
  exact h ((sentFrame_eq_none_iff s).2 fun f hf => hne ⟨f, hf⟩)

/-- Of the line a cut frame leaves nothing but its report. -/
theorem cutState_line (begun : Bool) (sampled : List Byte) (s : State) :
    (cutState begun sampled s).line =
      { s.line with report := (cutState begun sampled s).line.report } := by
  by_cases hs : sentFrame s = none
  · rw [(cutState_following hs begun sampled).1]
  · obtain ⟨f, ha⟩ := exists_sending hs
    rw [cutState_sending ha, (abandonSent_sending ha begun _).1]

theorem cutState_report (begun : Bool) (sampled : List Byte) (s : State) :
    (sentFrame s ≠ none → (cutState begun sampled s).line.report = cutReport .abandoned) ∧
    (sentFrame s = none → followsCut begun sampled.length s = true →
      (cutState begun sampled s).line.report = cutReport .discarded) ∧
    (sentFrame s = none → ¬ followsCut begun sampled.length s = true →
      (cutState begun sampled s).line.report = s.line.report) := by
  refine ⟨fun hs => ?_, fun hs hf => ?_, fun hs hf => ?_⟩
  · obtain ⟨f, ha⟩ := exists_sending hs
    rw [cutState_sending ha, (abandonSent_sending ha begun _).1]
  · rw [(cutState_following hs begun sampled).1, if_pos hf]
  · rw [(cutState_following hs begun sampled).1, if_neg hf]

theorem yieldAfter_cutState (begun : Bool) (sampled : List Byte) (s : State) :
    (canHear s = true ∧ beginsRound sampled → yieldAfter (cutState begun sampled s).frames = false) ∧
    (sentKind s = some .call ∧ 2 ≤ sampled.length →
      yieldAfter (cutState begun sampled s).frames = true) ∧
    (¬ (canHear s = true ∧ beginsRound sampled) → ¬ (sentKind s = some .call ∧ 2 ≤ sampled.length) →
      yieldAfter (cutState begun sampled s).frames = yieldAfter s.frames) := by
  by_cases hs : sentFrame s = none
  · obtain ⟨-, hcall, hother, -⟩ := cutState_following hs begun sampled
    refine ⟨fun h => hcall h.1 h.2, fun h => ?_, fun h _ => hother ?_⟩
    · simp [sentKind, hs] at h
    · rwa [not_and_or, Bool.not_eq_true] at h
  · obtain ⟨f, ha⟩ := exists_sending hs
    obtain ⟨-, hround, hyield, -⟩ := abandonSent_sending ha begun sampled.length
    rw [cutState_sending ha, sentKind_of_sending ha, Option.some_inj]
    refine ⟨fun h => ?_, fun h => ?_, fun _ h => ?_⟩
    · exact absurd h.1 (by simp [canHear_of_sending ha])
    · rw [yieldAfter, hround, if_pos h]
      rfl
    · rw [if_neg h] at hround
      rw [yieldAfter, hround, hyield, yieldAfter]

theorem cutState_queue (begun : Bool) (sampled : List Byte) (s : State) :
    (cutState begun sampled s).frames.queue.map (fun n => (n.body, n.flaws))
      = s.frames.queue.map (fun n => (n.body, n.flaws)) := by
  by_cases hs : sentFrame s = none
  · rw [(cutState_following hs begun sampled).2.2.2]
  · obtain ⟨f, ha⟩ := exists_sending hs
    rw [cutState_sending ha]
    exact (abandonSent_sending ha begun _).2.2.2

theorem cutState_stock (begun : Bool) (sampled : List Byte) (s : State) :
    stockWithoutHold (cutState begun sampled s) = stockWithoutHold s := by
  rw [cutState, (partFrame_kept sampled _).2.1]
  simp [stockWithoutHold]

/-- R119: an arbiter that makes no attempt has nothing to free, whatever is cut. -/
theorem cutState_arbiter (begun : Bool) (sampled : List Byte)
    (h : s.arbiter = .idle ∨ ∃ r, s.arbiter = .waiting r) :
    arbiterAfterRound (cutState begun sampled s) = s.arbiter := by
  have hcut : (cutState begun sampled s).arbiter = s.arbiter := by
    rw [cutState, (partFrame_kept sampled _).2.2 (by simpa using h), abandonSent_arbiter]
  rw [← hcut]
  exact arbiterAfterRound_rested (by rwa [hcut])

/-- R36: on a sound line that follows nothing the whole queue waits. -/
theorem YardLineSound.nothing_inFlight (h : YardLineSound s) (ha : s.line.activity = .nothing) :
    ∀ n ∈ s.frames.queue, n.inFlight = false :=
  fun n hn => ((h.waitingQueue (by simp [sentKind, sentFrame, ha])).2 n hn).2

/-- Settles O11: the state at HELD by what the cut leaves, its report, the yield record and the queue. -/
theorem heldLineAbandonsFrameRoundAndHold : Obligations.HeldLineAbandonsFrameRoundAndHold := by
  intro sampled begun s ho hc
  have heq : exec (.heldEntry sampled begun) s = .next (enterHeld begun sampled s) := rfl
  have hsound : YardLineSound s → YardLineSound (enterHeld begun sampled s) :=
    fun h => h.enterHeld begun sampled
  rw [enterHeld_eq ho hc] at heq hsound
  obtain ⟨hsent, hfollowed, hnot⟩ := cutState_report begun sampled s
  obtain ⟨hcall, hown, hother⟩ := yieldAfter_cutState begun sampled s
  have hrests := arbiterAfterRound_rests (cutState begun sampled s)
  refine ⟨_, heq, ?_⟩
  simp only [refreshReady_startup, refreshReady_line, refreshReady_frames, refreshReady_stock,
    refreshReady_bid, refreshReady_hold, refreshReady_picks, refreshReady_trucks, refreshReady_arbiter,
    refreshReady_clock, refreshReady_port, refreshReady_pending, refreshReady_lamps, refreshReady_inputs,
    refreshReady_horn, ControlUnchanged]
  refine ⟨rfl, rfl, rfl, rfl, rfl, rfl, ?_,
    ⟨hsent, fun hs hf => hfollowed hs ((followsCut_iff begun sampled s).2 hf),
      fun hs hf => hnot hs (mt (followsCut_iff begun sampled s).1 hf)⟩,
    trivial, trivial, trivial,
    ⟨hcall, hown, fun hh ho => ⟨fun hr => ?_, fun v hr => ?_⟩⟩, ?_, cutState_queue begun sampled s,
    fun h => ?_, ?_, ?_, fun hrest => ?_, by simp [cutState], by simp [cutState], by simp [cutState],
    by simp [cutState], by simp [cutState], by simp [cutState], by simp [cutState], by simp [cutState]⟩
  · rw [cutState_line]
    rfl
  · rw [hother hh ho, yieldAfter, hr]
  · rw [hother hh ho, yieldAfter, hr]
  · exact cutState_stock begun sampled s
  · simpa using (hsound h).nothing_inFlight (by simp [heldLine])
  · rcases hrests with h | ⟨r, h⟩ <;> simp [h]
  · rcases hrests with h | ⟨r, h⟩ <;> simp [h]
  · exact cutState_arbiter begun sampled hrest

end Sys2Proof.Machine
end

