-- ==== Sys2Proof/Proofs/HeardNotices.lean ====
section
/-! PROOF. What a station hears: flaws, slots, acceptance and inert frames (O20). -/

namespace Sys2Proof.Machine

variable {s : State}

/-! ### The characters of a heard frame (R3, R6, R7) -/

theorem charFlaw_iff (c : Sampled) : charFlaw c = true ↔ countOnes c % 2 = 1 := by
  simp [charFlaw]

/-- The seven kind codes (R6). -/
theorem kindOfCode_isSome (b : Byte) :
    (kindOfCode b).isSome = true ↔ b ∈ [0x01, 0x02, 0x03, 0x04, 0x05, 0x10, (0x11 : Byte)] := by
  simp [kindOfCode, kindCode, @eq_comm _ b]

theorem kindOfCode_kindCode (k : FrameKind) : kindOfCode (kindCode k) = some k := by
  cases k <;> rfl

theorem bodyValue_eq {n : Nat} (f : RxFrame n) (i : Nat) (h : i < n) :
    bodyValue f i = (dataBits f.body[i]).toNat := by
  simp [bodyValue, charValue, h]

/-- Bit n of a byte, as its value's digit. -/
theorem getLsbD_iff_digit (b : Byte) (n : Nat) : b.getLsbD n = true ↔ b.toNat / 2 ^ n % 2 = 1 := by
  rw [BitVec.getLsbD, Nat.testBit_eq_decide_div_mod_eq, decide_eq_true_iff]

theorem flawBeforeSlot_iff {n : Nat} (f : RxFrame n) : flawBeforeSlot f = true ↔
    countOnes f.kindChar % 2 = 1 ∨ countOnes f.sender % 2 = 1 ∨ countOnes f.minuteHigh % 2 = 1
      ∨ countOnes f.minuteLow % 2 = 1 ∨ countOnes f.status % 2 = 1
      ∨ (∃ c ∈ f.body.toList, countOnes c % 2 = 1)
      ∨ ¬ dataBits f.kindChar ∈ [0x01, 0x02, 0x03, 0x04, 0x05, 0x10, (0x11 : Byte)]
      ∨ (dataBits f.sender).getLsbD 7 = true ∨ f.framing = .beforeFlawSlot := by
  rw [← kindOfCode_isSome]
  simp only [flawBeforeSlot, Bool.or_eq_true, charFlaw_iff, List.any_eq_true, beq_iff_eq, or_assoc,
    Bool.not_eq_true, Option.isSome_eq_false_iff]

theorem pullsFlawSlot_iff {n : Nat} (f : RxFrame n) (s : State) : pullsFlawSlot f s = true ↔
    s.startup.station = .service ∧ flawBeforeSlot f = true ∧ f.framing ≠ .atFlawSlot
      ∧ (dataBits f.kindChar ∈ [0x01, 0x02, 0x03, 0x04, 0x05, 0x10, (0x11 : Byte)] ∨ n = 6) := by
  rw [← kindOfCode_isSome]
  simp [pullsFlawSlot, inService, placesSlots, longestBody, and_assoc]

theorem frameAccepted_iff {n : Nat} (f : RxFrame n) (s : State) : frameAccepted f s = true ↔
    flawSlotReads f s = false ∧ flawBeforeSlot f = false ∧ f.framing = .none := by
  simp [frameAccepted, and_assoc]

/-! ### The checks of R23 -/

theorem lineValid_iff (n : Nat) : lineValid n = true ↔ 1 ≤ n ∧ n ≤ 4 := by
  simp [lineValid]

theorem voidValid_iff (f : RxFrame 2) : voidValid f = true ↔
    senderIsGate f = true ∧ 1 ≤ bodyValue f 0 * 256 + bodyValue f 1 := by
  simp [voidValid, voidTicket, bodyValue16]

theorem arriveValid_iff (f : RxFrame 2) : arriveValid f = true ↔
    senderIsGate f = false ∧ bodyValue f 0 ≤ 63 ∧ bodyValue f 1 / 8 % 2 = 0 := by
  simp only [arriveValid, Bool.and_eq_true, Bool.not_eq_true', decide_eq_true_eq, beq_iff_eq, and_assoc]
  rfl

theorem countedValid_iff (f : RxFrame 5) : countedValid f = true ↔
    senderIsGate f = false ∧ bodyValue f 0 ≤ 63 ∧ 1 ≤ bodyValue f 1 * 256 + bodyValue f 2
      ∧ 1 ≤ bodyValue f 3 ∧ bodyValue f 3 ≤ 4 ∧ 1 ≤ bodyValue f 4 ∧ bodyValue f 4 ≤ 8 := by
  simp only [countedValid, Bool.and_eq_true, Bool.not_eq_true', decide_eq_true_eq, lineValid_iff]
  simp only [noticeKey, noticeCount, bodyValue16]
  exact ⟨fun ⟨⟨⟨⟨⟨hg, ht⟩, hl⟩, hgate⟩, hc⟩, hc8⟩ => ⟨hg, hgate, ht, hl.1, hl.2, hc, hc8⟩,
    fun ⟨hg, hgate, ht, hl, hl4, hc, hc8⟩ => ⟨⟨⟨⟨⟨hg, ht⟩, hl, hl4⟩, hgate⟩, hc⟩, hc8⟩⟩

theorem grantValid_iff (f : RxFrame 5) : grantValid f = true ↔
    senderIsGate f = true ∧ 1 ≤ (grantFields f).ticket ∧ 1 ≤ (grantFields f).line
      ∧ (grantFields f).line ≤ 4 ∧ (grantFields f).winner ≤ 63 ∧ (grantFields f).count ≤ 8 := by
  simp [grantValid, lineValid, and_assoc]

theorem callValid_iff (f : RxFrame 6) : callValid f = true ↔
    senderIsGate f = true ∧ 1 ≤ (callFields f).ticket
      ∧ 1 ≤ (callFields f).line ∧ (callFields f).line ≤ 4
      ∧ 1 ≤ (callFields f).bay ∧ (callFields f).bay ≤ 8 ∧ (callFields f).spec.family ≤ 63
      ∧ 1 ≤ (callFields f).wanted ∧ (callFields f).wanted ≤ 99 := by
  simp [callValid, lineValid, and_assoc]

/-! ### Frames of an unknown kind (R7) -/

theorem frameAccepted_unknown {n : Nat} {f : RxFrame n} (h : kindOfCode (dataBits f.kindChar) = none)
    (s : State) : frameAccepted f s = false := by
  have hflaw : flawBeforeSlot f = true := by simp [flawBeforeSlot, h]
  simp [frameAccepted, hflaw]

theorem hearKind_unknown {n : Nat} {f : RxFrame n} (h : kindOfCode (dataBits f.kindChar) = none)
    (kind : FrameKind) (known : State → State) (s : State) :
    hearKind kind f known s = hearNotice f false (fun t => t) s := by
  simp [hearKind, h, hearUnknown]

theorem hearKind_known {n : Nat} {kind : FrameKind} {f : RxFrame n}
    (h : dataBits f.kindChar = kindCode kind) (known : State → State) (s : State) :
    hearKind kind f known s = known s := by
  simp [hearKind, h, kindOfCode_kindCode]

/-! ### Notices outside a round (R22, R23) -/

theorem hearNotice_discarded {n : Nat} {f : RxFrame n} (hs : hearsFrame s = true)
    (hh : ∀ h, s.hold = some h → h.phase = .waiting) (ha : frameAccepted f s = false) (valid : Bool)
    (owners : State → State) : hearNotice f valid owners s = frameOver f s := by
  rw [hearNotice_outside f valid owners s hs hh, endFrame_frameOver f s ((hearsFrame_iff s).1 hs).2.1]
  simp [ha]

theorem hearNotice_inert {n : Nat} {f : RxFrame n} {valid : Bool} (hs : hearsFrame s = true)
    (hh : ∀ h, s.hold = some h → h.phase = .waiting)
    (hi : s.startup.station ≠ .service ∨ valid = false) (owners : State → State) :
    hearNotice f valid owners s = frameOver f s := by
  have hnot : (frameAccepted f s && inService s && valid) = false := by
    rcases hi with hi | hi <;> simp [inService, hi]
  rw [hearNotice_outside f valid owners s hs hh, endFrame_frameOver f s ((hearsFrame_iff s).1 hs).2.1,
    hnot]
  rfl

/-- Settles O20: each test by its definition; a frame that reaches no owner by `frameOver`. -/
theorem unacceptedNoticesLeaveNoTrace : Obligations.UnacceptedNoticesLeaveNoTrace := by
  refine ⟨fun n f s => ⟨flawBeforeSlot_iff f, pullsFlawSlot_iff f s, ?_, frameAccepted_iff f s,
    Iff.rfl, rfl⟩,
    ⟨fun f => rfl, fun f => ⟨?_, ?_⟩, fun f => ⟨?_, ?_⟩⟩,
    fun s => ⟨fun n f h => frameAccepted_unknown h s, fun f h => ?_, fun f h => ⟨?_, ?_⟩,
      fun f h => ⟨?_, ?_, ?_⟩, fun f started h => ?_⟩,
      fun n f valid owners s hs hh => ⟨fun ha => ?_, fun ha hi => ?_⟩⟩
  · simp [flawSlotReads]
  · simpa [bodyValue_eq] using voidValid_iff f
  · rw [arriveValid_iff, ← Bool.not_eq_true ((dataBits f.body[1]).getLsbD 3), getLsbD_iff_digit]
    simp [bodyValue_eq]
  · simpa [bodyValue_eq] using countedValid_iff f
  · simpa [bodyValue_eq, grantFields, bodyValue16] using grantValid_iff f
  · exact congrArg _ (hearKind_unknown h _ _ s)
  · exact congrArg _ (hearKind_unknown h _ _ s)
  · exact congrArg _ (hearKind_unknown h _ _ s)
  · exact congrArg _ (hearKind_unknown h _ _ s)
  · exact congrArg _ (hearKind_unknown h _ _ s)
  · exact congrArg _ (hearKind_unknown h _ _ s)
  · exact congrArg _ (hearKind_unknown h _ _ s)
  · rw [hearNotice_discarded hs hh ha]
    simp [frameOver, heard, ha, freedLine]
  · rw [hearNotice_inert hs hh hi]
    obtain ⟨hslot, hflaw, -⟩ := (frameAccepted_iff f s).1 ha
    have hpull : pullsFlawSlot f s = false := by simp [pullsFlawSlot, hflaw]
    simp [frameOver, heard, ha, freedLine, hslot, hpull]

end Sys2Proof.Machine
end

