-- ==== Sys2Proof/Proofs/HeardStates.lean ====
section
/-! PROOF. The states a heard frame leads through: its report, the clock, and the end of a round. -/

namespace Sys2Proof.Machine

variable {s t u : State}

/-! ### The Yard Clock and the yard line (R23)

The Yard Clock neither reads nor writes the line, the frames, the bid, the hold and the arbiter. -/

/-- The state with the line, the frames, the bid, the hold and the arbiter of another. -/
def withYard (u s : State) : State :=
  { s with line := u.line, frames := u.frames, bid := u.bid, hold := u.hold, arbiter := u.arbiter }

theorem withPicks_withYard (picks : List PickEntry) (u s : State) :
    withPicks picks (withYard u s) = withYard u (withPicks picks s) := by
  have hpicks : (withYard u s).picks = s.picks := rfl
  unfold withPicks
  rw [hpicks]
  dsimp only
  split <;> rfl

theorem sweep_withYard (u s : State) : sweep (withYard u s) = withYard u (sweep s) := by
  have hrow : isRow (withYard u s) = isRow s := rfl
  unfold sweep
  rw [hrow]
  split
  · exact withPicks_withYard _ u s
  · rfl

theorem hourStep_withYard (u s : State) : hourStep (withYard u s) = withYard u (hourStep s) := by
  have hrow : isRow (withYard u s) = isRow s := rfl
  unfold hourStep
  rw [hrow]
  split <;> rfl

theorem jumpForward_withYard (delta : Nat) (u s : State) :
    jumpForward delta (withYard u s) = withYard u (jumpForward delta s) := by
  have hset : setMinute ((withYard u s).clock.minute + BitVec.ofNat 16 delta) (withYard u s) =
      withYard u (setMinute (s.clock.minute + BitVec.ofNat 16 delta) s) := rfl
  have hclock : (withYard u s).clock = s.clock := rfl
  unfold jumpForward
  rw [hset, hclock]
  dsimp only
  rw [hourStep_withYard]
  split <;> exact sweep_withYard u _

theorem becomeSet_withYard (m : Minute) (u s : State) :
    becomeSet m (withYard u s) = withYard u (becomeSet m s) := by
  have hrow : isRow (withYard u s) = isRow s := rfl
  unfold becomeSet
  rw [hrow]
  dsimp only
  split <;> rfl

theorem hearMinute_withYard (m : Minute) (b : Bool) (u s : State) :
    hearMinute m b (withYard u s) = withYard u (hearMinute m b s) := by
  have hclock : (withYard u s).clock = s.clock := rfl
  unfold hearMinute
  rw [hclock]
  dsimp only
  rw [jumpForward_withYard, becomeSet_withYard]
  split
  · rfl
  · split
    · rfl
    · split
      · rfl
      · split <;> rfl

theorem heard_withYard {n : Nat} (f : RxFrame n) (u s : State) :
    heard f (withYard u s) = withYard u (heard f s) := by
  have haccepted : frameAccepted f (withYard u s) = frameAccepted f s := rfl
  unfold heard
  rw [haccepted, hearMinute_withYard]
  split <;> rfl

/-- Two states that differ in the yard's part alone hear the same. -/
theorem heard_of_sameStores {n : Nat} (f : RxFrame n) (h : t = withYard t s) :
    heard f t = withYard t (heard f s) := by
  conv_lhs => rw [h]
  exact heard_withYard f t s

/-- The report of a received frame (R22). -/
def receivedReport {n : Nat} (f : RxFrame n) (confirm : Bool) (s : State) : FrameReport :=
  { outcome := if frameAccepted f s then .accepted else .discarded
    flawSlot := flawSlotReads f s
    confirmSlot := f.confirmSlotPulled || confirm
    pulledFlaw := pullsFlawSlot f s
    pulledConfirm := confirm }

theorem receivedReport_congr {n : Nat} (f : RxFrame n) (confirm : Bool)
    (h : t.startup.station = s.startup.station) :
    receivedReport f confirm t = receivedReport f confirm s := by
  simp [receivedReport, frameAccepted, flawSlotReads, pullsFlawSlot, inService, h]

/-- The frame has been reported and its header has reached the clock. -/
theorem hearHeader_reportHeard {n : Nat} (f : RxFrame n) (confirm : Bool) (s : State) :
    hearHeader f (reportHeard f confirm s) =
      { heard f s with line := { s.line with report := some (receivedReport f confirm s) } } := by
  rw [hearHeader_eq_heard, heard_of_sameStores (s := s) f rfl]
  simp [withYard, reportHeard, report, receivedReport]

theorem frameOver_eq {n : Nat} (f : RxFrame n) (s : State) : frameOver f s =
    { heard f s with
      line := { freedLine false s.line with report := some (receivedReport f false s) } } := by
  simp [frameOver, receivedReport]

/-! ### The choice and the round's end (R38, R44, R119) -/

@[simp] theorem sweep_inputs (s : State) : (sweep s).signal.inputs = s.signal.inputs := by
  unfold sweep overdueSweep
  split
  · exact withPicks_inputs _ s
  · rfl

@[simp] theorem jumpForward_inputs (delta : Nat) (s : State) :
    (jumpForward delta s).signal.inputs = s.signal.inputs := by
  unfold jumpForward
  dsimp only
  split <;> simp [setMinute]

@[simp] theorem becomeSet_inputs (m : Minute) (s : State) :
    (becomeSet m s).signal.inputs = s.signal.inputs := by
  unfold becomeSet
  dsimp only
  split <;> rfl

@[simp] theorem hearMinute_inputs (m : Minute) (b : Bool) (s : State) :
    (hearMinute m b s).signal.inputs = s.signal.inputs := by
  unfold hearMinute
  dsimp only
  repeat' split
  · rfl
  · exact becomeSet_inputs m s
  · rfl
  · exact jumpForward_inputs _ s
  · rfl

theorem callChoice_heard {n : Nat} (f : RxFrame n) (s : State) : callChoice (heard f s) = callChoice s := by
  refine callChoice_congr s (heard f s) (by simp) ?_ (by simp)
  unfold heard
  split
  · exact hearMinute_inputs _ _ s
  · rfl

theorem toldArbiter_congr (own : Bool) (ha : t.arbiter = s.arbiter) (hc : callChoice t = callChoice s) :
    toldArbiter own t = toldArbiter own s := by
  simp only [toldArbiter, arbiterAfterRound, ha, hc]

/-- R38, R44: a round in progress ends, its owner is told and the line is free. -/
theorem endRound_eq {v : RoundView} (hr : s.frames.round = some v) (dw : Bool) : endRound dw s =
    { s with
      line := freedLine dw s.line, arbiter := toldArbiter v.own s
      frames := { s.frames with round := none, yieldRecord := v.own } } := by
  have ho : ownsRound s = v.own := by simp [ownsRound, hr]
  have hfreed : lineFreed dw (drive .nothing (dropRound s)) =
      { s with
        line := freedLine dw s.line, frames := { s.frames with round := none, yieldRecord := v.own } } := by
    rw [lineFreed_drive, dropRound_some hr]
  simp only [endRound, ho, hfreed, toldArbiter]
  cases v.own with
  | false => rfl
  | true => exact arbiterRoundOver_settled (notStuck_freedLine dw s.line)

theorem endFrame_inside {v : RoundView} (hr : s.frames.round = some v) : endFrame s = endRound false s := by
  simp [endFrame, hr]

/-! ### The start mark of a closing frame (R42, R80, R81) -/

theorem closingStart_waiting {v : RoundView} (hr : s.frames.round = some v) (hp : v.phase = .grantWait) :
    closingStart s = receiveHold (withRound (some { v with phase := .grant }) s) := by
  simp [closingStart, hr, hp]

theorem closingStart_other (h : ∀ v, s.frames.round = some v → v.phase ≠ .grantWait) :
    closingStart s = s := by
  unfold closingStart
  split
  · rfl
  · rename_i v hv
    have := h v hv
    cases hp : v.phase <;> simp_all

theorem closingOtherKind_none (h : s.hold = none) : closingOtherKind s = s := by
  simp [closingOtherKind, h]

/-- R81: a closing frame that is no GRANT has ended the hold, and the round is in its last phase. -/
theorem closingOtherKind_closingStart {v : RoundView} (hr : s.frames.round = some v)
    (hp : v.phase = .grantWait) : closingOtherKind (closingStart s) =
      { s with
        hold := none, stock := stockWithoutHold s
        frames := { s.frames with round := some { v with phase := .grant } } } := by
  rw [closingStart_waiting hr hp]
  unfold closingOtherKind receiveHold stockWithoutHold
  cases hh : s.hold with
  | none => simp only [withRound, hh]
  | some h => simp [withRound, hh, endHold]

end Sys2Proof.Machine
end

