-- ==== Sys2Proof/Proofs/ClosingFrames.lean ====
section
/-! PROOF. A closing frame that is no GRANT (O34). -/

namespace Sys2Proof.Machine

variable {s t : State}

/-! ### A notice that closes a round -/

/-- The state a closing frame that is no GRANT leaves before its body reaches an owner. -/
def noticeEnded {n : Nat} (f : RxFrame n) (v : RoundView) (s : State) : State :=
  { frameOver f { s with hold := none, stock := stockWithoutHold s } with
    arbiter := toldArbiter v.own s
    frames := { s.frames with round := none, yieldRecord := v.own } }

theorem closingNotice_ended {n : Nat} (f : RxFrame n) {v : RoundView} (hr : s.frames.round = some v)
    (hp : v.phase = .grantWait) :
    endFrame (hearHeader f (reportHeard f false (closingOtherKind (closingStart s))))
      = noticeEnded f v s := by
  let released : State := { s with hold := none, stock := stockWithoutHold s }
  let closing : State :=
    { released with frames := { s.frames with round := some { v with phase := .grant } } }
  have hclosing : closingOtherKind (closingStart s) = closing := closingOtherKind_closingStart hr hp
  have hheard : heard f closing = withYard closing (heard f released) := heard_of_sameStores f rfl
  have htold : ∀ l, toldArbiter v.own { heard f closing with line := l } = toldArbiter v.own s := fun _ =>
    toldArbiter_congr _ (by simp [closing, released]) (callChoice_heard f closing)
  have hreport := receivedReport_congr (s := s) (t := closing) f false rfl
  rw [hclosing, hearHeader_reportHeard,
    endFrame_inside (v := { v with phase := .grant }) (by simp [closing]),
    endRound_eq (v := { v with phase := .grant }) (by simp [closing]), htold, hreport, hheard,
    noticeEnded, frameOver_eq]
  simp [withYard, closing, released, receivedReport_congr (s := s) (t := released) f false rfl, freedLine]

theorem hearNotice_closing {n : Nat} (f : RxFrame n) (valid : Bool) (owners : State → State)
    {v : RoundView} (hw : awaitsClosing s = true) (hr : s.frames.round = some v) :
    hearNotice f valid owners s =
      if frameAccepted f s && inService s && valid then owners (noticeEnded f v s)
      else noticeEnded f v s := by
  obtain ⟨-, ⟨v', hr', hp⟩, -⟩ := (awaitsClosing_iff s).1 hw
  obtain rfl : v' = v := Option.some_inj.1 (hr'.symm.trans hr)
  have hh : canHear s = true := (canHear_iff s).2 (.inr hw)
  simp only [hearNotice, hh, if_true, closingNotice_ended f hr hp]

/-! ### A CALL from its character 2 on -/

/-- The end of a CALL whose round is in progress: the round ends at a pulled flaw slot, or goes on to
STRETCH, where an eligible row computes (R39, R64). -/
def callEnded (f : RxFrame 6) (started : Bool) (slot accepted : Bool) (t : State) : State :=
  let u : State := { heard f t with line := { t.line with report := some (receivedReport f false t) } }
  if slot then endRound false u
  else if accepted = true ∧ isRow t = true ∧ callValid f = true
      ∧ eligible (callFields f) started (toStretch u) = true then
    beginComputing (callFields f) (toStretch u)
  else toStretch u

theorem callReceived_eq {f : RxFrame 6} (hk : dataBits f.kindChar = 0x10)
    (h : canHear s = true ∨ followsCall s = true) (started : Bool) :
    exec (.callReceived f started) s = .next (callEnded f started (flawSlotReads f s) (frameAccepted f s)
      (openRound f (closingOtherKind (closingStart s)))) := by
  have hrow : isRow (openRound f (closingOtherKind (closingStart s))) = isRow s := by simp [isRow]
  refine congrArg _ ((hearKind_known (kind := .call) hk _ s).trans ?_)
  simp only [if_pos h, callEnded, hrow, hearHeader_reportHeard]

theorem heard_withLine {n : Nat} (f : RxFrame n) (line : LineInterface) (t : State) :
    heard f { t with line := line } = { heard f t with line := line } := by
  rw [heard_of_sameStores (s := t) f rfl]
  simp [withYard]

theorem endRound_condition {v : RoundView} (hr : s.frames.round = some v) (dw : Bool) (c : LineCondition) :
    endRound dw { s with line := { s.line with condition := c } } = endRound dw s :=
  (endRound_eq (s := { s with line := { s.line with condition := c } }) hr dw).trans
    (endRound_eq hr dw).symm

/-- The line's condition has no part in what follows: the CALL's end mark settles it. -/
theorem callEnded_condition (f : RxFrame 6) (started slot accepted : Bool) {w : RoundView}
    (hr : t.frames.round = some w) (c : LineCondition) :
    callEnded f started slot accepted { t with line := { t.line with condition := c } }
      = callEnded f started slot accepted t := by
  have hround : (heard f t).frames.round = some w := by simpa using hr
  simp only [callEnded, heard_withLine]
  cases slot with
  | true =>
    exact endRound_condition
      (s := { heard f t with line := { t.line with report := some (receivedReport f false t) } })
      (v := w) hround false c
  | false => rfl

theorem followsCall_outside (hr : s.frames.round = none) : followsCall s = false := by
  simp [followsCall, roundPhase, hr]

/-- R38: on a free line, with no hold, a CALL opens its round and nothing else. -/
theorem openRound_free (f : RxFrame 6) (hr : s.frames.round = none) (hh : s.hold = none) :
    openRound f (closingOtherKind (closingStart s)) =
      withRound (some (newRound (senderNumber f) false)) s := by
  have hpass : passRound s = s := by
    have hstock : stockWithoutHold s = s.stock := by simp [stockWithoutHold, hh]
    rw [passRound_outside hr, hstock, ← hh]
  rw [closingStart_other (by simp [hr]), closingOtherKind_none hh, openRound, followsCall_outside hr, hpass]
  rfl

/-- The line as it is when a round has passed to the CALL that closes it, taken for a free line. -/
def passedOn (v : RoundView) (s : State) : State :=
  { s with
    hold := none, stock := stockWithoutHold s, arbiter := toldArbiter v.own s
    line := { s.line with condition := .quiet }
    frames := { s.frames with round := none, yieldRecord := v.own } }

/-- R42: a CALL that closes a round opens its own as it would on a free line. -/
theorem callReceived_closing {f : RxFrame 6} (hk : dataBits f.kindChar = 0x10) {v : RoundView}
    (hw : awaitsClosing s = true) (hr : s.frames.round = some v) (started : Bool) :
    hearsFrame (passedOn v s) = true ∧
      exec (.callReceived f started) s = exec (.callReceived f started) (passedOn v s) := by
  obtain ⟨ho, ⟨v', hr', hp⟩, ha, hc⟩ := (awaitsClosing_iff s).1 hw
  obtain rfl : v' = v := Option.some_inj.1 (hr'.symm.trans hr)
  have hfree : hearsFrame (passedOn v' s) = true :=
    (hearsFrame_iff _).2 ⟨ho, rfl, .inr (.inr ⟨ha, rfl⟩)⟩
  have hnot : followsCall (closingOtherKind (closingStart s)) = false := by
    rw [closingOtherKind_closingStart hr hp]
    simp [followsCall, roundPhase]
  let opened : State := withRound (some (newRound (senderNumber f) false)) (passedOn v' s)
  have hopened : openRound f (closingOtherKind (closingStart s)) =
      { opened with line := { opened.line with condition := .busy } } := by
    rw [openRound, hnot, closingOtherKind_closingStart hr hp,
      passRound_inside (v := { v' with phase := .grant }) rfl (by simp [hc, notStuck]), ← hc]
    rfl
  refine ⟨hfree, ?_⟩
  rw [callReceived_eq hk (.inl ((canHear_iff s).2 (.inr hw))),
    callReceived_eq hk (.inl ((canHear_iff _).2 (.inl hfree))), hopened,
    openRound_free (s := passedOn v' s) f rfl rfl]
  exact congrArg _ (callEnded_condition (w := newRound (senderNumber f) false) f started _ _
    (t := opened) rfl .busy)

/-- R119: a round's end at its closing frame finds the owner's arbiter GRANTING or, after a body collision,
IDLE. -/
theorem toldArbiter_granting {own : Bool}
    (h : own = false ∨ s.arbiter = .idle ∨ ∃ r w k c, s.arbiter = .granting r w k c) :
    toldArbiter own s = if own = true ∧ s.arbiter ≠ .idle then
      arbiterOf (callChoice { s with arbiter := .idle }) else s.arbiter := by
  split
  · rename_i hown
    have hgranting := (h.resolve_left (by simp [hown.1])).resolve_left hown.2
    rw [hown.1]
    exact toldArbiter_attempts (.inr hgranting)
  · rename_i hnot
    refine toldArbiter_untold ?_
    by_contra hc
    rw [not_or, Bool.not_eq_false] at hc
    exact hnot hc

/-! ### A sender that met a body collision in its own CALL -/

/-- R13, R39: the surviving CALL is followed in the station's own round, which ends or goes on to STRETCH. -/
theorem callReceived_followed {f : RxFrame 6} (hk : dataBits f.kindChar = 0x10)
    (hf : followsCall s = true) (hh : s.hold = none) (started : Bool) :
    exec (.callReceived f started) s =
      .next (callEnded f started (flawSlotReads f s) (frameAccepted f s) s) := by
  obtain ⟨-, ⟨v, hr, hp⟩, -⟩ := (followsCall_iff s).1 hf
  have hstart : closingStart s = s :=
    closingStart_other fun w hw => by
      obtain rfl : w = v := Option.some_inj.1 (hw.symm.trans hr)
      simp [hp]
  rw [callReceived_eq hk (.inr hf), hstart, closingOtherKind_none hh, openRound, if_pos hf]

theorem callEnded_slot (f : RxFrame 6) (started accepted : Bool) {v : RoundView}
    (hr : s.frames.round = some v) (h : v.own = false ∨ s.arbiter = .idle) :
    callEnded f started true accepted s =
      { frameOver f s with frames := { s.frames with round := none, yieldRecord := v.own } } := by
  have huntold : ∀ l, toldArbiter v.own { heard f s with line := l } = s.arbiter := fun l =>
    (toldArbiter_untold (by simpa using h)).trans (by simp)
  simp only [callEnded, if_true]
  rw [endRound_eq (v := v) (by simpa using hr), huntold, frameOver_eq]
  simp [freedLine]

theorem eligible_outside_service {c : CallFields} {started : Bool} (h : s.startup.station ≠ .service) :
    eligible c started s = false := by
  simp [eligible, inService, h]

theorem callEnded_outside_service (f : RxFrame 6) (started accepted : Bool) {v : RoundView}
    (hr : s.frames.round = some v) (hs : s.startup.station ≠ .service) :
    callEnded f started false accepted s =
      { frameOver f s with
        line := { (frameOver f s).line with condition := .busy, driving := s.line.driving }
        frames := { s.frames with round := some { v with phase := .stretch, part := .none } } } := by
  have hnot : ∀ l, eligible (callFields f) started (toStretch { heard f s with line := l }) = false :=
    fun l => eligible_outside_service (by simpa using hs)
  simp only [callEnded, hnot, Bool.false_eq_true, and_false, if_false, frameOver_eq]
  simp [toStretch, withRound, lineBusy, freedLine, hr]

/-- Settles O34: a notice by `hearNotice_closing`, a CALL by `callReceived_closing`, and the collided
station's by `callReceived_followed`. -/
theorem closingFrameThatIsNoGrant : Obligations.ClosingFrameThatIsNoGrant := by
  refine ⟨fun s => ⟨fun f h => ?_, fun f h => ?_, fun f h => ?_, fun f h => ?_, fun f h => ?_⟩,
    fun v s hw hr h => ?_, fun f started v s hf hs hr ha hh hk => ⟨fun hslot => ?_, fun hslot => ?_⟩⟩
  · exact congrArg _ (hearKind_known (kind := .hail) h _ s)
  · exact congrArg _ (hearKind_known (kind := .void) h _ s)
  · exact congrArg _ (hearKind_known (kind := .lapse) h _ s)
  · exact congrArg _ (hearKind_known (kind := .taken) h _ s)
  · exact congrArg _ (hearKind_known (kind := .arrive) h _ s)
  · have htold := toldArbiter_granting h
    dsimp only
    rw [← htold]
    refine ⟨fun n f valid owners => ⟨fun ha hs hv => ?_, fun hnot => ?_⟩,
      fun f started hk => callReceived_closing hk hw hr started⟩
    · rw [hearNotice_closing f valid owners hw hr, ha, hv]
      simp [inService, hs, noticeEnded]
    · rw [hearNotice_closing f valid owners hw hr, if_neg]
      · rfl
      · rcases hnot with h | h | h <;> simp [inService, h]
  · rw [callReceived_followed hk hf hh, hslot, callEnded_slot f started _ hr (.inr ha)]
  · rw [callReceived_followed hk hf hh, hslot, callEnded_outside_service f started _ hr hs]

end Sys2Proof.Machine
end

