-- ==== Sys2Proof/Proofs/CallsHeard.lean ====
section
/-! PROOF. A CALL opens a round, and an eligible row computes (O27). -/

namespace Sys2Proof.Machine

variable {s : State}

/-! ### The view (R46, R49) -/

theorem map_stackAt (stock : Stock) : (List.range 16).map (stackAt stock) = stock.toList := by
  refine List.ext_getElem (by simp) fun n h1 h2 => ?_
  have hn : n < 16 := by simpa using h1
  simp [stackAt_eq_getElem stock n hn]

theorem viewOfStack_tags (stock : Stock) (n : Nat) :
    (viewOfStack stock n).map (fun v => v.tag) = (stackAt stock n).map fun p => p.tag := by
  refine List.ext_getElem (by simp [viewOfStack]) fun i h1 h2 => ?_
  simp [viewOfStack]

theorem viewOf_tags (stock : Stock) :
    (viewOf stock).map (fun v => v.tag) = (allPacks stock).map fun p => p.tag := by
  rw [viewOf, allPacks, ← map_stackAt, List.map_flatMap, List.map_flatten, List.map_map,
    List.flatMap_def]
  exact congrArg _ (List.map_congr_left fun n _ => viewOfStack_tags stock n)

/-- The view of the record between those below it and those above it (R49). -/
def viewBetween (n : Nat) (below : List Pack) (p : Pack) (above : List Pack) : ViewPack :=
  { tag := p.tag, spec := p.spec, stack := n, tier := below.length + 1, dig := above.length
    age := p.age, state := p.state }

theorem mem_viewOfStack (stock : Stock) (n : Nat) (v : ViewPack) : v ∈ viewOfStack stock n ↔
    ∃ below p above, stackAt stock n = below ++ p :: above ∧ v = viewBetween n below p above := by
  unfold viewOfStack
  rw [List.mem_mapIdx]
  constructor
  · rintro ⟨i, hi, rfl⟩
    refine ⟨(stackAt stock n).take i, (stackAt stock n)[i], (stackAt stock n).drop (i + 1), ?_, ?_⟩
    · rw [List.cons_getElem_drop_succ, List.take_append_drop]
    · simp only [viewBetween, List.length_take, List.length_drop, Nat.min_eq_left hi.le,
        ViewPack.mk.injEq, true_and, and_true]
      omega
  · rintro ⟨below, p, above, hstack, rfl⟩
    refine ⟨below.length, by simp [hstack], ?_⟩
    simp only [hstack, viewBetween, List.getElem_append_right (Nat.le_refl _), Nat.sub_self,
      List.getElem_cons_zero, List.length_append, List.length_cons, ViewPack.mk.injEq, true_and, and_true]
    omega

theorem mem_viewOf (stock : Stock) (v : ViewPack) : v ∈ viewOf stock ↔
    ∃ below p above, v.stack < 16 ∧ stackAt stock v.stack = below ++ p :: above
      ∧ v = viewBetween v.stack below p above := by
  simp only [viewOf, List.mem_flatMap, List.mem_range, mem_viewOfStack]
  constructor
  · rintro ⟨n, hn, below, p, above, hstack, rfl⟩
    exact ⟨below, p, above, hn, hstack, rfl⟩
  · rintro ⟨below, p, above, hn, hstack, hv⟩
    exact ⟨v.stack, hn, below, p, above, hstack, hv⟩

/-! ### What the clock does to the view and the list (R94, R95, R132) -/

theorem viewOf_agePacks (stock : Stock) : viewOf (agePacks stock) =
    (viewOf stock).map fun v => { v with age := min 255 (v.age + 1) } := by
  have hstack : ∀ n, viewOfStack (agePacks stock) n =
      (viewOfStack stock n).map fun v => { v with age := min 255 (v.age + 1) } := by
    intro n
    refine List.ext_getElem (by simp [viewOfStack, agePacks, stackAt_mapPacks]) fun i h1 h2 => ?_
    simp [viewOfStack, agePacks, stackAt_mapPacks]
  rw [viewOf, viewOf, List.map_flatMap, show viewOfStack (agePacks stock) = _ from funext hstack]

/-- An age has no part in what matches. -/
theorem any_matchesCall_agePacks (c : CallFields) (stock : Stock) :
    (viewOf (agePacks stock)).any (matchesCall c) = (viewOf stock).any (matchesCall c) := by
  rw [viewOf_agePacks, List.any_map]
  rfl

theorem jumpForward_stock (delta : Nat) (s : State) :
    (jumpForward delta s).stock = s.stock ∨ (jumpForward delta s).stock = agePacks s.stock := by
  unfold jumpForward
  dsimp only
  split
  · rw [sweep_stock]
    unfold hourStep
    split
    · exact .inr rfl
    · exact .inl rfl
  · exact .inl (sweep_stock _)

theorem hearMinute_stock (m : Minute) (b : Bool) (s : State) :
    (hearMinute m b s).stock = s.stock ∨ (hearMinute m b s).stock = agePacks s.stock := by
  unfold hearMinute
  dsimp only
  repeat' split
  · exact .inl rfl
  · exact .inl (by simp)
  · exact .inl rfl
  · exact jumpForward_stock _ s
  · exact .inl rfl

theorem sweep_picks_length (s : State) : (sweep s).picks.length = s.picks.length := by
  unfold sweep overdueSweep
  split
  · rw [withPicks_picks, List.length_map]
  · rfl

theorem hearMinute_picks_length (m : Minute) (b : Bool) (s : State) :
    (hearMinute m b s).picks.length = s.picks.length := by
  unfold hearMinute
  dsimp only
  repeat' split
  · rfl
  · unfold becomeSet
    dsimp only
    split
    · simp [rewriteGrantMinutes, setMinute]
    · rfl
  · rfl
  · unfold jumpForward
    dsimp only
    rw [sweep_picks_length]
    split
    · unfold hourStep
      split <;> rfl
    · rfl
  · rfl

theorem heard_picks_length {n : Nat} (f : RxFrame n) (s : State) :
    (heard f s).picks.length = s.picks.length := by
  unfold heard
  split
  · exact hearMinute_picks_length _ _ s
  · rfl

theorem heard_inputs {n : Nat} (f : RxFrame n) (s : State) :
    (heard f s).signal.inputs = s.signal.inputs := by
  unfold heard
  split
  · exact hearMinute_inputs _ _ s
  · rfl

/-- Which records match a CALL does not change when an accepted header reaches the clock. -/
theorem any_matchesCall_heard {n : Nat} (f : RxFrame n) (c : CallFields) (s : State) :
    (viewOf (heard f s).stock).any (matchesCall c) = (viewOf s.stock).any (matchesCall c) := by
  unfold heard
  split
  · rcases hearMinute_stock (headerMinute f) (headerSet f) s with h | h
    · rw [h]
    · rw [h, any_matchesCall_agePacks]
  · rfl

/-! ### The fields of a CALL (R30, R165) -/

theorem distanceTo_bay (bay : Fin 8) (s : State) :
    distanceTo (bay + 1) s = s.startup.settings.distances[bay] := by
  simp [distanceTo]

theorem callFields_eq (f : RxFrame 6) : callFields f =
    { gate := senderNumber f, ticket := bodyValue f 0 * 256 + bodyValue f 1, line := bodyValue f 2 / 16
      bay := bodyValue f 2 % 16
      spec := { family := bodyValue f 3, size := bodyValue f 4 / 16, grade := bodyValue f 4 % 8 }
      upgrade := bodyValue f 4 / 8 % 2 == 1, wanted := bodyValue f 5 } := rfl

theorem haltAsserted_congr {t : State} (hset : t.startup.settings = s.startup.settings)
    (hin : t.signal.inputs = s.signal.inputs) :
    haltAsserted t = haltAsserted s ∧ closeAsserted t = closeAsserted s := by
  simp only [haltAsserted, closeAsserted, inputAsserted, hset, hin, and_self]

/-- The round a CALL has opened. -/
def callOpened (f : RxFrame 6) (s : State) : State :=
  withRound (some (newRound (senderNumber f) false)) s

/-- R64, one condition after the other. -/
theorem eligible_iff (c : CallFields) (started : Bool) (s : State) : eligible c started s = true ↔
    s.startup.station = .service ∧ started = true ∧ haltAsserted s = false ∧ closeAsserted s = false
      ∧ s.hold = none ∧ s.picks.length < 24 ∧ distanceTo c.bay s ≠ 63
      ∧ ∃ v ∈ viewOf s.stock, matchesCall c v = true := by
  simp only [eligible, inService, Bool.and_eq_true, Bool.not_eq_true', decide_eq_true_eq, beq_iff_eq,
    bne_iff_ne,
    List.any_eq_true, and_assoc]
  rfl

theorem distanceTo_congr {t : State} (h : t.startup.settings = s.startup.settings) (bay : Nat) :
    distanceTo bay t = distanceTo bay s := by
  simp only [distanceTo, h]

/-- R64: a row that has no hold is eligible by what it had before the header reached its clock. -/
theorem eligible_heard (f : RxFrame 6) (started : Bool) (line : LineInterface) (hh : s.hold = none) :
    eligible (callFields f) started (toStretch { heard f (callOpened f s) with line := line }) = true ↔
      s.startup.station = .service ∧ started = true ∧ haltAsserted s = false ∧ closeAsserted s = false
        ∧ s.picks.length < 24 ∧ distanceTo (callFields f).bay s ≠ 63
        ∧ ∃ v ∈ viewOf s.stock, matchesCall (callFields f) v = true := by
  have hstartup : (toStretch { heard f (callOpened f s) with line := line }).startup = s.startup := by
    simp [callOpened]
  have hlevels := haltAsserted_congr (s := s)
    (t := toStretch { heard f (callOpened f s) with line := line }) (by rw [hstartup])
    (heard_inputs f (callOpened f s))
  have hhold : (toStretch { heard f (callOpened f s) with line := line }).hold = none := by
    simpa [callOpened] using hh
  have hpicks : (toStretch { heard f (callOpened f s) with line := line }).picks.length = s.picks.length :=
    heard_picks_length f (callOpened f s)
  have hmatch : (∃ v ∈ viewOf (toStretch { heard f (callOpened f s) with line := line }).stock,
      matchesCall (callFields f) v = true) ↔ ∃ v ∈ viewOf s.stock, matchesCall (callFields f) v = true := by
    rw [← List.any_eq_true, ← List.any_eq_true]
    exact Bool.eq_iff_iff.1 (any_matchesCall_heard f (callFields f) (callOpened f s))
  rw [eligible_iff, hstartup, hlevels.1, hlevels.2, hpicks, hmatch,
    distanceTo_congr (s := s) (by rw [hstartup])]
  simp only [hhold, true_and]

/-! ### The CALL on a free line (R38, R39, R64) -/

theorem callReceived_free {f : RxFrame 6} (hk : dataBits f.kindChar = 0x10) (h : hearsFrame s = true)
    (hh : s.hold = none) (started : Bool) : exec (.callReceived f started) s =
      .next (callEnded f started (flawSlotReads f s) (frameAccepted f s) (callOpened f s)) := by
  rw [callReceived_eq hk (.inl ((canHear_iff s).2 (.inl h))),
    openRound_free f ((hearsFrame_iff s).1 h).2.1 hh]
  rfl

theorem callEnded_free_slot {f : RxFrame 6} (hslot : flawSlotReads f s = true) (started accepted : Bool) :
    callEnded f started true accepted (callOpened f s) =
      { s with
        line := { freedLine false s.line with
          report := some { outcome := .discarded, flawSlot := true, confirmSlot := f.confirmSlotPulled
                           pulledFlaw := pullsFlawSlot f s, pulledConfirm := false } }
        frames := { s.frames with round := none, yieldRecord := false } } := by
  have haccepted : frameAccepted f s = false := by simp [frameAccepted, hslot]
  have hover : frameOver f (callOpened f s) =
      { callOpened f s with
        line := { freedLine false s.line with
          report := some { outcome := .discarded, flawSlot := true, confirmSlot := f.confirmSlotPulled
                           pulledFlaw := pullsFlawSlot f s, pulledConfirm := false } } } := by
    have hslot' : flawSlotReads f (callOpened f s) = true := hslot
    have haccepted' : frameAccepted f (callOpened f s) = false := haccepted
    simp only [frameOver, heard, haccepted', hslot', Bool.false_eq_true, if_false]
    rfl
  rw [callEnded_slot f started accepted (v := newRound (senderNumber f) false) rfl (.inl rfl), hover]
  rfl

/-- The round goes on to STRETCH at the CALL's end mark. -/
def callStretched (f : RxFrame 6) (s : State) : State :=
  toStretch
    { heard f (callOpened f s) with
      line := { s.line with report := some (receivedReport f false s) } }

theorem callStretched_eq (f : RxFrame 6) (s : State) : callStretched f s =
    { heard f s with
      line := { s.line with
        condition := .busy, activity := .nothing, idleCount := 0, stuckCount := 0
        report := some (receivedReport f false s) }
      frames := { s.frames with
        round := some { owner := senderNumber f, own := false, phase := .stretch, part := .none
                        silence := 0, pulsing := false } } } := by
  have hheard : heard f (callOpened f s) = withYard (callOpened f s) (heard f s) :=
    heard_of_sameStores f rfl
  rw [callStretched, hheard]
  simp [toStretch, lineBusy, withRound, withYard, callOpened, newRound]

theorem callEnded_free {f : RxFrame 6} (started accepted : Bool) :
    callEnded f started false accepted (callOpened f s) =
      if accepted = true ∧ isRow s = true ∧ callValid f = true
          ∧ eligible (callFields f) started (callStretched f s) = true then
        beginComputing (callFields f) (callStretched f s)
      else callStretched f s := rfl

theorem newBidRecord_stretched (f : RxFrame 6) (s : State) :
    newBidRecord (callFields f) (callStretched f s) =
      { call := callFields f, view := viewOf (heard f s).stock
        distance := distanceTo (callFields f).bay s, freeEntries := 24 - s.picks.length
        limit := some (s.startup.settings.stretchLimit * 2000) } := by
  have hstartup : (callStretched f s).startup = s.startup := by simp [callStretched_eq]
  have hpicks : (callStretched f s).picks.length = s.picks.length := heard_picks_length f (callOpened f s)
  have hstock : (callStretched f s).stock = (heard f s).stock := by rw [callStretched_eq]
  simp only [newBidRecord, hstartup, hpicks, hstock, distanceTo_congr (s := s) (by rw [hstartup]),
    Config.pickLimit, msUnits]

/-- Settles O27: the view and the fields by their definitions; the CALL by what its end leaves. -/
theorem callOpensARoundAndAnEligibleRowComputes :
    Obligations.CallOpensARoundAndAnEligibleRowComputes := by
  refine ⟨fun stock => ⟨viewOf_tags stock, mem_viewOf stock⟩, distanceTo_bay,
    fun f => ⟨?_, callValid_iff f⟩,
    ?_⟩
  · have hupgrade : (dataBits f.body[4]).getLsbD 3 = (bodyValue f 4 / 8 % 2 == 1) := by
      rw [Bool.eq_iff_iff, getLsbD_iff_digit, bodyValue_eq f 4 (by omega), beq_iff_eq]
      rfl
    rw [callFields_eq, ← hupgrade]
    simp [bodyValue_eq]
  · intro f started s h hh hk round computes
    refine ⟨fun hslot => ?_, fun hslot => ?_⟩
    · rw [callReceived_free hk h hh, hslot, callEnded_free_slot hslot]
    have hrow : isRow s = true ↔ s.startup.settings.role = .row := by simp [isRow]
    have hcomputes : (frameAccepted f s = true ∧ isRow s = true ∧ callValid f = true
        ∧ eligible (callFields f) started (callStretched f s) = true) ↔ computes := by
      rw [hrow, callStretched, eligible_heard f started _ hh]
      exact and_congr_right fun _ => and_left_comm
    rw [callReceived_free hk h hh, hslot, callEnded_free]
    by_cases hc : computes
    · rw [if_pos (hcomputes.2 hc)]
      refine ⟨_, rfl, ?_⟩
      simp only [beginComputing, newBidRecord_stretched]
      rw [callStretched_eq]
      exact ⟨rfl, rfl, rfl, rfl, rfl, by simpa using hh, rfl, rfl, rfl, rfl, rfl,
        ⟨by simp [drive], by simp [drive]⟩, ⟨by simp [drive], by simp [drive]⟩,
        fun _ => ⟨rfl, rfl, rfl⟩, fun hn => absurd hc hn⟩
    · rw [if_neg (mt hcomputes.1 hc), callStretched_eq]
      exact ⟨_, rfl, rfl, rfl, rfl, rfl, rfl, by simpa using hh, rfl, rfl, rfl, rfl, rfl,
        ⟨by simp, by simp⟩, ⟨by simp, by simp⟩, fun hp => absurd hp hc,
        fun _ => ⟨by simp, rfl, rfl⟩⟩

end Sys2Proof.Machine
end

