-- ==== Sys2Proof/Proofs/GrantsHeard.lean ====
section
/-! PROOF. A GRANT closes the round and settles the hold (O33). -/

namespace Sys2Proof.Machine

variable {s t : State}

/-! ### A GRANT with no hold to settle -/

theorem grantReceived_eq {f : RxFrame 5} (hk : dataBits f.kindChar = 0x11) (hh : canHear s = true) :
    exec (.grantReceived f) s = .next
      (endFrame (settleHold f (hearHeader f (reportHeard f
        (pulledConfirm (decideConfirm f (closingStart s))) (decideConfirm f (closingStart s)))))) := by
  refine congrArg _ ((hearKind_known (kind := .grant) hk _ s).trans ?_)
  simp only [hh, if_true]

theorem decideConfirm_none (f : RxFrame 5) (h : s.hold = none) : decideConfirm f s = s := by
  simp [decideConfirm, h]

theorem pulledConfirm_none (h : s.hold = none) : pulledConfirm s = false := by
  simp [pulledConfirm, h]

theorem settleHold_none (f : RxFrame 5) (h : s.hold = none) : settleHold f s = s := by
  simp [settleHold, h]

theorem receiveHold_none (h : s.hold = none) : receiveHold s = s := by
  simp [receiveHold, h]

theorem grantReceived_free {f : RxFrame 5} (hk : dataBits f.kindChar = 0x11) (hh : s.hold = none)
    (h : hearsFrame s = true) : exec (.grantReceived f) s = .next (frameOver f s) := by
  have hr : s.frames.round = none := ((hearsFrame_iff s).1 h).2.1
  rw [grantReceived_eq hk ((canHear_iff s).2 (.inl h)), closingStart_other (by simp [hr]),
    decideConfirm_none f hh, pulledConfirm_none hh, settleHold_none f (by simpa using hh),
    endFrame_frameOver f s hr]

theorem grantReceived_closes {f : RxFrame 5} (hk : dataBits f.kindChar = 0x11) (hh : s.hold = none)
    {v : RoundView} (hw : awaitsClosing s = true) (hr : s.frames.round = some v)
    (ho : v.own = false ∨ s.arbiter = .idle) : exec (.grantReceived f) s = .next
      { frameOver f s with frames := { s.frames with round := none, yieldRecord := v.own } } := by
  obtain ⟨-, ⟨v', hr', hp⟩, -⟩ := (awaitsClosing_iff s).1 hw
  obtain rfl : v' = v := Option.some_inj.1 (hr'.symm.trans hr)
  let closing : State := withRound (some { v' with phase := .grant }) s
  have hstart : closingStart s = closing := by
    rw [closingStart_waiting hr hp, receiveHold_none (by simpa using hh)]
  have hnone : closing.hold = none := hh
  have hheard : heard f closing = withYard closing (heard f s) := heard_of_sameStores f rfl
  have hover : endRound false { heard f closing with
      line := { s.line with report := some (receivedReport f false s) } } =
      { frameOver f s with frames := { s.frames with round := none, yieldRecord := v'.own } } := by
    rw [endRound_eq (v := { v' with phase := .grant }) (by simp [closing]), frameOver_eq,
      toldArbiter_untold (by simpa [closing] using ho), hheard]
    simp [withYard, closing, freedLine]
  rw [grantReceived_eq hk ((canHear_iff s).2 (.inr hw)), hstart, decideConfirm_none f hnone,
    pulledConfirm_none hnone, settleHold_none f (by simpa using hnone), hearHeader_reportHeard,
    endFrame_inside (v := { v' with phase := .grant }) (by simp [closing])]
  exact congrArg _ hover

/-! ### The confirm decision (R82) -/

/-- What a row confirms by, when the flaw slot is sampled. -/
def ConfirmHolds (f : RxFrame 5) (h : Hold) (s : State) : Prop :=
  f.framing ≠ .atFlawSlot ∧ flawSlotReads f s = false ∧ flawBeforeSlot f = false
    ∧ senderIsGate f = true ∧ senderNumber f = h.order.gate
    ∧ 1 ≤ (grantFields f).ticket ∧ (grantFields f).ticket = h.order.ticket
    ∧ 1 ≤ (grantFields f).line ∧ (grantFields f).line ≤ 4 ∧ (grantFields f).line = h.order.line
    ∧ (grantFields f).winner = s.startup.settings.number ∧ 1 ≤ (grantFields f).count
    ∧ (grantFields f).count ≤ 8 ∧ haltAsserted s = false

theorem confirms_iff {f : RxFrame 5} {h : Hold} (hp : h.phase = .receiving)
    (hn : s.startup.settings.number ≤ 63) :
    (f.framing ≠ .atFlawSlot ∧ confirms h f s = true) ↔ ConfirmHolds f h s := by
  simp only [confirms, ConfirmHolds, hp, Bool.and_eq_true, Bool.not_eq_true', beq_iff_eq,
    decide_eq_true_eq, grantValid_iff]
  constructor
  · rintro ⟨hf, ⟨⟨⟨⟨⟨⟨⟨⟨⟨-, hslot⟩, hflaw⟩, hg⟩, hgate⟩, hvalid⟩, ht⟩, hl⟩, hw⟩, hc⟩, hhalt⟩
    obtain ⟨-, ht1, hl1, hl4, -, hc8⟩ := hvalid
    exact ⟨hf, hslot, hflaw, hg, hgate, ht1, ht, hl1, hl4, hl, hw, hc, hc8, hhalt⟩
  · rintro ⟨hf, hslot, hflaw, hg, hgate, ht1, ht, hl1, hl4, hl, hw, hc, hc8, hhalt⟩
    exact ⟨hf, ⟨⟨⟨⟨⟨⟨⟨⟨⟨trivial, hslot⟩, hflaw⟩, hg⟩, hgate⟩, hg, ht1, hl1, hl4, hw ▸ hn, hc8⟩, ht⟩,
      hl⟩, hw⟩, hc⟩,
      hhalt⟩

/-- The hold as the closing GRANT's start mark and its flaw slot leave it. -/
def decidedHold (f : RxFrame 5) (h : Hold) (s : State) : Hold :=
  { h with
    phase := .receiving, grantWait := none
    decision :=
      if f.framing = .atFlawSlot then h.decision
      else if confirms { h with phase := .receiving, grantWait := none } f s then .confirmed
      else .notConfirmed }

theorem decideConfirm_closing (f : RxFrame 5) {h : Hold} {v : RoundView} (hr : s.frames.round = some v)
    (hp : v.phase = .grantWait) (hh : s.hold = some h) : decideConfirm f (closingStart s) =
      { s with
        hold := some (decidedHold f h s)
        frames := { s.frames with round := some { v with phase := .grant } } } := by
  have hstart : closingStart s =
      { s with
        hold := some { h with phase := .receiving, grantWait := none }
        frames := { s.frames with round := some { v with phase := .grant } } } := by
    rw [closingStart_waiting hr hp]
    simp [receiveHold, withRound, hh]
  rw [hstart, decideConfirm, decidedHold]
  dsimp only
  split <;> rfl

theorem decidedHold_decision {f : RxFrame 5} {h : Hold} (hd : h.decision = .none)
    (hn : s.startup.settings.number ≤ 63) :
    (ConfirmHolds f h s → (decidedHold f h s).decision = .confirmed) ∧
    (¬ ConfirmHolds f h s → (decidedHold f h s).decision ≠ .confirmed) := by
  have hiff : _ ↔ ConfirmHolds f h s :=
    confirms_iff (f := f) (h := { h with phase := .receiving, grantWait := none }) rfl hn
  rw [← hiff]
  refine ⟨fun hc => ?_, fun hc => ?_⟩
  · simp [decidedHold, hc.1, hc.2]
  · simp only [decidedHold]
    split
    · simp [hd]
    · rename_i hf
      simp [not_and.1 hc hf]

/-! ### The settlement (R83, R84, R97) -/

/-- The state at the end of a closing GRANT before its hold is settled: its report is left, and its header
has reached the clock (R23). -/
def grantHeard (f : RxFrame 5) (h : Hold) (v : RoundView) (s : State) : State :=
  { heard f s with
    hold := some (decidedHold f h s)
    line := { s.line with
      report := some (receivedReport f ((decidedHold f h s).decision == .confirmed) s) }
    frames := { s.frames with round := some { v with phase := .grant } } }

theorem grantReceived_hold {f : RxFrame 5} {h : Hold} {v : RoundView} (hk : dataBits f.kindChar = 0x11)
    (hw : awaitsClosing s = true) (hr : s.frames.round = some v) (hh : s.hold = some h) :
    exec (.grantReceived f) s = .next (endFrame (settleHold f (grantHeard f h v s))) := by
  obtain ⟨-, ⟨v', hr', hp⟩, -⟩ := (awaitsClosing_iff s).1 hw
  obtain rfl : v' = v := Option.some_inj.1 (hr'.symm.trans hr)
  let closing : State :=
    { s with
      hold := some (decidedHold f h s)
      frames := { s.frames with round := some { v' with phase := .grant } } }
  have hpulled : pulledConfirm closing = ((decidedHold f h s).decision == .confirmed) := rfl
  have hheard : heard f closing = withYard closing (heard f s) := heard_of_sameStores f rfl
  have hreport (b : Bool) : receivedReport f b closing = receivedReport f b s :=
    receivedReport_congr f b rfl
  rw [grantReceived_eq hk ((canHear_iff s).2 (.inr hw)), decideConfirm_closing f hr hp hh, hpulled,
    hearHeader_reportHeard, hheard, hreport]
  simp [grantHeard, withYard, closing]

theorem settleHold_confirmed {f : RxFrame 5} {h : Hold} {v : RoundView}
    (hd : (decidedHold f h s).decision = .confirmed) : settleHold f (grantHeard f h v s) =
      settleConfirmed (decidedHold f h s) (grantFields f).count (grantHeard f h v s) := by
  have hp : (decidedHold f h s).phase = .receiving := rfl
  simp only [settleHold, grantHeard, hp, hd]

theorem settleHold_unconfirmed {f : RxFrame 5} {h : Hold} {v : RoundView}
    (hd : (decidedHold f h s).decision ≠ .confirmed) : settleHold f (grantHeard f h v s) =
      { grantHeard f h v s with
        hold := none, stock := settlePacks h.packs [] h.order (heard f s).stock } := by
  have hend : endHold (grantHeard f h v s) = { grantHeard f h v s with
      hold := none, stock := settlePacks h.packs [] h.order (heard f s).stock } := rfl
  have hp : (decidedHold f h s).phase = .receiving := rfl
  rw [← hend]
  cases hc : (decidedHold f h s).decision with
  | confirmed => exact absurd hc hd
  | notConfirmed | none => simp only [settleHold, grantHeard, hp, hc]

theorem withPicks_eq (picks : List PickEntry) (s : State) :
    withPicks picks s = { s with picks := picks, signal := (withPicks picks s).signal } := by
  unfold withPicks
  dsimp only
  split <;> rfl

/-- The pick lamp's request depends on the configuration, the signals and the old list alone. -/
theorem withPicks_signal_congr (hset : t.startup.settings = s.startup.settings)
    (hsig : t.signal = s.signal) (hpicks : t.picks = s.picks) (picks : List PickEntry) :
    (withPicks picks t).signal = (withPicks picks s).signal := by
  unfold withPicks
  rw [hpicks]
  dsimp only
  split
  · exact hsig
  · exact requestPattern_congr hset hsig .pickLamp _

theorem requestHorn_eq (s : State) : requestHorn s =
    { s with
      signal := { s.signal with
        horn :=
          if haltAsserted s = false ∧ s.startup.settings.hornLength ≠ 0 then
            some (s.startup.settings.hornLength * secondUnits)
          else s.signal.horn } } := by
  unfold requestHorn
  cases hh : haltAsserted s with
  | true => simp
  | false => by_cases hl : s.startup.settings.hornLength = 0 <;> simp [hl]

/-- The horn after the settlement of a confirmed hold: its full length when the list was empty (R97). -/
theorem settleConfirmed_eq (h : Hold) (count : Nat) (s : State) :
    let entries := newEntries (h.packs.take count) h.order s.clock.minute s.stock
    settleConfirmed h count s =
      { s with
        hold := none, stock := settlePacks h.packs (h.packs.take count) h.order s.stock
        picks := s.picks ++ entries
        signal :=
          { (withPicks (s.picks ++ entries) s).signal with
            horn :=
              if s.picks = [] ∧ entries ≠ [] ∧ haltAsserted s = false ∧ s.startup.settings.hornLength ≠ 0 then
                some (s.startup.settings.hornLength * secondUnits)
              else s.signal.horn } } := by
  intro entries
  let settled : State :=
    { s with hold := none, stock := settlePacks h.packs (h.packs.take count) h.order s.stock }
  have hsignal : (withPicks (s.picks ++ entries) settled).signal =
      (withPicks (s.picks ++ entries) s).signal :=
    withPicks_signal_congr (s := s) (t := settled) rfl rfl rfl _
  have hhalt : haltAsserted (withPicks (s.picks ++ entries) settled) = haltAsserted s :=
    (haltAsserted_congr (by simp [settled]) (by simp [settled])).1
  have hpicked : withPicks (s.picks ++ entries) settled = { settled with
      picks := s.picks ++ entries, signal := (withPicks (s.picks ++ entries) s).signal } := by
    rw [withPicks_eq, hsignal]
  have hopen : settleConfirmed h count s =
      if s.picks = [] ∧ entries ≠ [] then requestHorn (withPicks (s.picks ++ entries) settled)
      else withPicks (s.picks ++ entries) settled := rfl
  rw [hopen]
  split
  · rename_i hc
    rw [requestHorn_eq, hhalt, hpicked]
    simp [hc, settled]
  · rename_i hc
    have hnot : ¬ (s.picks = [] ∧ entries ≠ [] ∧ haltAsserted s = false
        ∧ s.startup.settings.hornLength ≠ 0) :=
      fun h => hc ⟨h.1, h.2.1⟩
    rw [hpicked, if_neg hnot]
    refine congrArg (fun g => { settled with picks := s.picks ++ entries, signal := g }) ?_
    rw [← withPicks_horn (s.picks ++ entries) s]

/-! ### The round's end -/

/-- The end mark of a closing GRANT that this station does not own, after its hold is settled. -/
theorem endFrame_closed {v : RoundView} (ho : v.own = false)
    (hr : t.frames.round = some { v with phase := .grant }) : endFrame t =
      { t with
        line := freedLine false t.line
        frames := { t.frames with round := none, yieldRecord := false } } := by
  rw [endFrame_inside hr, endRound_eq hr, toldArbiter_untold (.inl ho)]
  simp [ho]

/-! The clock never reaches the horn. -/

@[simp] theorem sweep_horn (s : State) : (sweep s).signal.horn = s.signal.horn := by
  unfold sweep overdueSweep
  split
  · exact withPicks_horn _ s
  · rfl

@[simp] theorem jumpForward_horn (delta : Nat) (s : State) :
    (jumpForward delta s).signal.horn = s.signal.horn := by
  unfold jumpForward
  dsimp only
  split <;> simp [setMinute]

@[simp] theorem becomeSet_horn (m : Minute) (s : State) :
    (becomeSet m s).signal.horn = s.signal.horn := by
  unfold becomeSet
  dsimp only
  split <;> rfl

@[simp] theorem hearMinute_horn (m : Minute) (b : Bool) (s : State) :
    (hearMinute m b s).signal.horn = s.signal.horn := by
  unfold hearMinute
  dsimp only
  repeat' split
  · rfl
  · exact becomeSet_horn m s
  · rfl
  · exact jumpForward_horn _ s
  · rfl

@[simp] theorem heard_horn {n : Nat} (f : RxFrame n) (s : State) :
    (heard f s).signal.horn = s.signal.horn := by
  unfold heard
  split
  · exact hearMinute_horn _ _ s
  · rfl

theorem heard_picks_nil {n : Nat} (f : RxFrame n) (s : State) : (heard f s).picks = [] ↔ s.picks = [] := by
  rw [← List.length_eq_zero_iff, heard_picks_length, List.length_eq_zero_iff]

/-- The signals at the settlement, by what was there before the GRANT (R97). -/
theorem signal_of_settled {f : RxFrame 5} {h : Hold} {v : RoundView}
    (hhalt : haltAsserted (grantHeard f h v s) = false) (entries : List PickEntry) :
    let u : State := grantHeard f h v s
    { (withPicks (u.picks ++ entries) u).signal with
      horn :=
        if u.picks = [] ∧ entries ≠ [] ∧ haltAsserted u = false ∧ u.startup.settings.hornLength ≠ 0 then
          some (u.startup.settings.hornLength * secondUnits)
        else u.signal.horn } =
    { (withPicks ((heard f s).picks ++ entries) (heard f s)).signal with
      horn :=
        if s.picks = [] ∧ entries ≠ [] ∧ s.startup.settings.hornLength ≠ 0 then
          some (s.startup.settings.hornLength * secondUnits)
        else s.signal.horn } := by
  intro u
  have hstartup : u.startup = s.startup := heard_startup s f
  have hhorn : u.signal.horn = s.signal.horn := heard_horn f s
  have hpicks : u.picks = [] ↔ s.picks = [] := heard_picks_nil f s
  have hlamps : (withPicks (u.picks ++ entries) u).signal =
      (withPicks ((heard f s).picks ++ entries) (heard f s)).signal :=
    withPicks_signal_congr (s := heard f s) (t := u) rfl rfl rfl _
  rw [hlamps, hhorn, hhalt, hstartup]
  simp only [hpicks, true_and]

/-- Settles O33: without a hold by `grantReceived_free` and `grantReceived_closes`; with one by
`decidedHold_decision` and the two settlements. -/
theorem grantSettlesTheHold : Obligations.GrantSettlesTheHold := by
  refine ⟨fun f s hh hk => ⟨grantReceived_free hk hh,
    fun v hw hr ho => grantReceived_closes hk hh hw hr ho⟩,
    fun f v h s hw hr ho hh hd hn hk => ?_⟩
  intro g confirmed entries
  by_cases hc : confirmed
  · have hdecided : (decidedHold f h s).decision = .confirmed := (decidedHold_decision hd hn).1 hc
    have hhalt : haltAsserted (grantHeard f h v s) = false := by
      obtain ⟨-, -, -, -, -, -, -, -, -, -, -, -, -, halt⟩ := hc
      rw [← halt]
      exact (haltAsserted_congr (congrArg StartUp.settings (heard_startup s f)) (heard_inputs f s)).1
    have hsettled := settleConfirmed_eq (decidedHold f h s) g.count (grantHeard f h v s)
    rw [grantReceived_hold hk hw hr hh, settleHold_confirmed hdecided, hsettled,
      endFrame_closed (v := v) ho rfl]
    refine ⟨_, rfl, rfl, by simp [grantHeard], ⟨by simp [grantHeard], by simp [grantHeard]⟩,
      ⟨by simp [grantHeard], by simp [grantHeard]⟩, by simp [grantHeard], rfl, rfl, rfl, rfl, rfl,
      fun _ => ⟨rfl, rfl, ?_, _, rfl, ?_, ?_⟩, fun hnot => absurd hc hnot⟩
    · exact signal_of_settled hhalt entries
    · simp [receivedReport, hdecided]
    · simp [receivedReport, hdecided]
  · have hdecided : (decidedHold f h s).decision ≠ .confirmed := (decidedHold_decision hd hn).2 hc
    rw [grantReceived_hold hk hw hr hh, settleHold_unconfirmed hdecided, endFrame_closed (v := v) ho rfl]
    refine ⟨_, rfl, rfl, ?_⟩
    simp [grantHeard, GateUnchanged, ControlUnchanged, freedLine, hc, receivedReport, hdecided]

end Sys2Proof.Machine
end

