-- ==== Sys2Proof/Proofs/TableChanges.lean ====
section
/-! PROOF. A change of the truck table: its reports, its bay lamps and the choice (O47). -/

namespace Sys2Proof.Machine

variable {s t : State}

/-! ### The LOADED reports (R115, R156) -/

theorem giveReport_port (m : List Byte) (s : State) : (giveReport m s).port =
    if s.port.transmit.length < 4 then { s.port with transmit := s.port.transmit ++ [m] }
    else { s.port with flags := { s.port.flags with reportLost := true } } := by
  by_cases hroom : s.port.transmit.length < 4
  · rw [giveReport, if_pos (show s.port.transmit.length < Config.transmitLimit from hroom), if_pos hroom]
    rfl
  · rw [giveReport, if_neg (show ¬ s.port.transmit.length < Config.transmitLimit from hroom), if_neg hroom]
    rfl

theorem giveReports_signal (tickets : List Nat) (s : State) :
    (tickets.foldl (fun t ticket => giveReport (loadedReport ticket) t) s).signal = s.signal := by
  induction tickets generalizing s with
  | nil => rfl
  | cons ticket rest ih => simp [ih]

/-- Reports join the transmit queue until it holds 4; any other is lost. -/
theorem giveReports_port (tickets : List Nat) (s : State) (h : s.port.transmit.length ≤ 4) :
    (tickets.foldl (fun t ticket => giveReport (loadedReport ticket) t) s).port =
      { s.port with
        transmit :=
          s.port.transmit ++ (tickets.map loadedReport).take (4 - s.port.transmit.length)
        flags := { s.port.flags with
          reportLost := s.port.flags.reportLost
            || decide (4 < s.port.transmit.length + (tickets.map loadedReport).length) } } := by
  induction tickets generalizing s with
  | nil =>
    have hroom : ¬ 4 < s.port.transmit.length := by omega
    simp [hroom]
  | cons ticket rest ih =>
    have hport := giveReport_port (loadedReport ticket) s
    by_cases hroom : s.port.transmit.length < 4
    · rw [if_pos hroom] at hport
      obtain ⟨k, hk⟩ : ∃ k, 4 - s.port.transmit.length = k + 1 := ⟨3 - s.port.transmit.length, by omega⟩
      have hk' : 4 - (s.port.transmit.length + 1) = k := by omega
      have hcount : 4 < s.port.transmit.length + 1 + rest.length ↔
          4 < s.port.transmit.length + (rest.length + 1) := by omega
      rw [List.foldl_cons, ih _ (by rw [hport]; simp; omega), hport]
      simp [hk, hk', hcount]
    · rw [if_neg hroom] at hport
      have hfull : 4 - s.port.transmit.length = 0 := by omega
      have hover : 4 < s.port.transmit.length + (rest.length + 1) := by omega
      rw [List.foldl_cons, ih _ (by rw [hport]; exact h), hport]
      simp [hfull, hover]

/-! ### The bay lamps (R116) -/

theorem requestPattern_lamp (g : FieldFunction) (p : Pattern) (s : State) (i : Fin 8) :
    (requestPattern g p s).signal.lamps[i] =
      if isLampFunction s.startup.settings.lines[i].function = true
          ∧ s.startup.settings.lines[i].function = g then
        requestLamp (haltAsserted s) p s.signal.lamps[i]
      else s.signal.lamps[i] := by
  have hfunction : functionOfLine s i = s.startup.settings.lines[i].function := by
    simp [functionOfLine]
  simp only [requestPattern, mapLamps, Fin.getElem_fin, vmapIdx_getElem, hfunction, Bool.and_eq_true,
    beq_iff_eq]

/-- A bay's request leaves the signals alone, or changes the lamps of that bay. -/
theorem requestBay_lamp (before : List Truck) (s : State) (b : Nat) (i : Fin 8) :
    (requestBay before s b).signal.lamps[i] =
      if s.startup.settings.lines[i].function = .bayLamp b
          ∧ bayCondition before b ≠ bayCondition s.trucks b then
        requestLamp (haltAsserted s) (bayPattern (bayCondition s.trucks b)) s.signal.lamps[i]
      else s.signal.lamps[i] := by
  unfold requestBay
  split
  · rename_i hsame
    simp [hsame]
  · rename_i hchanged
    rw [requestPattern_lamp]
    refine if_congr ⟨fun h => ⟨h.2, hchanged⟩, fun h => ⟨?_, h.1⟩⟩ rfl rfl
    rw [h.1]
    rfl

@[simp] theorem requestBay_inputs (before : List Truck) (s : State) (b : Nat) :
    (requestBay before s b).signal.inputs = s.signal.inputs := by
  unfold requestBay; split <;> simp

@[simp] theorem requestBay_horn (before : List Truck) (s : State) (b : Nat) :
    (requestBay before s b).signal.horn = s.signal.horn := by
  unfold requestBay; split <;> simp

theorem requestBay_halted (before : List Truck) (s : State) (b : Nat) :
    haltAsserted (requestBay before s b) = haltAsserted s :=
  (haltAsserted_congr (by simp) (by simp)).1

/-- The lamp of one bay after the requests of several. -/
theorem requestBays_lamp_of_mem (before : List Truck) {bays : List Nat} (hnd : bays.Nodup) (s : State)
    {i : Fin 8} {b : Nat} (hf : s.startup.settings.lines[i].function = .bayLamp b) :
    (bays.foldl (requestBay before) s).signal.lamps[i] =
      if b ∈ bays ∧ bayCondition before b ≠ bayCondition s.trucks b then
        requestLamp (haltAsserted s) (bayPattern (bayCondition s.trucks b)) s.signal.lamps[i]
      else s.signal.lamps[i] := by
  induction bays generalizing s with
  | nil => simp
  | cons a rest ih =>
    obtain ⟨hnot, hrest⟩ := List.nodup_cons.1 hnd
    rw [List.foldl_cons, ih hrest _ (by simpa using hf), requestBay_halted, requestBay_lamp, hf,
      requestBay_trucks]
    by_cases hb : a = b
    · subst hb
      simp [hnot]
    · have hne : ¬ b = a := fun h => hb h.symm
      simp [hne]

theorem requestBays_lamp (before : List Truck) (s : State) {i bay : Fin 8}
    (hf : s.startup.settings.lines[i].function = .bayLamp (bay + 1)) :
    (requestBays before s).signal.lamps[i] =
      if bayCondition before (bay + 1) = bayCondition s.trucks (bay + 1) then s.signal.lamps[i]
      else
        requestLamp (haltAsserted s) (bayPattern (bayCondition s.trucks (bay + 1))) s.signal.lamps[i] := by
  have hmem : (bay : Nat) + 1 ∈ [1, 2, 3, 4, 5, 6, 7, 8] := by
    have := bay.isLt
    simp only [List.mem_cons, List.not_mem_nil, or_false]
    omega
  rw [requestBays, requestBays_lamp_of_mem before (by decide) s hf]
  by_cases hc : bayCondition before (bay + 1) = bayCondition s.trucks (bay + 1)
  · simp [hc]
  · simp only [hmem, hc, ne_eq, not_false_eq_true, and_self, if_true, if_false]

@[simp] theorem requestBays_inputs (before : List Truck) (s : State) :
    (requestBays before s).signal.inputs = s.signal.inputs := by
  simp [requestBays]

@[simp] theorem requestBays_horn (before : List Truck) (s : State) :
    (requestBays before s).signal.horn = s.signal.horn := by
  simp [requestBays]

/-! ### The announcement -/

@[simp] theorem announceTrucks_inputs (before : List Truck) (s : State) :
    (announceTrucks before s).signal.inputs = s.signal.inputs := by
  simp [announceTrucks, giveReports_signal]

@[simp] theorem announceTrucks_horn (before : List Truck) (s : State) :
    (announceTrucks before s).signal.horn = s.signal.horn := by
  simp [announceTrucks, giveReports_signal]

theorem announceTrucks_port (before : List Truck) (s : State) (h : s.port.transmit.length ≤ 4) :
    let entered := (newlyLoaded before s.trucks).map loadedReport
    (announceTrucks before s).port =
      { s.port with
        transmit := s.port.transmit ++ entered.take (4 - s.port.transmit.length)
        flags := { s.port.flags with
          reportLost := s.port.flags.reportLost
            || decide (4 < s.port.transmit.length + entered.length) } } := by
  simp only [announceTrucks, requestBays_port]
  exact giveReports_port _ s h

theorem announceTrucks_lamp (before : List Truck) (s : State) {i bay : Fin 8}
    (hf : s.startup.settings.lines[i].function = .bayLamp (bay + 1)) :
    (announceTrucks before s).signal.lamps[i] =
      if bayCondition before (bay + 1) = bayCondition s.trucks (bay + 1) then s.signal.lamps[i]
      else
        requestLamp (haltAsserted s) (bayPattern (bayCondition s.trucks (bay + 1))) s.signal.lamps[i] := by
  have hhalt := (haltAsserted_congr
    (congrArg StartUp.settings (giveReports_startup (s := s) (newlyLoaded before s.trucks)))
    (congrArg SignalUnit.inputs (giveReports_signal (newlyLoaded before s.trucks) s))).1
  rw [announceTrucks, requestBays_lamp before _ (by simpa [giveReports_startup] using hf), hhalt,
    giveReports_signal, giveReports_trucks]

/-! ### The choice that follows (R20, R21, R121) -/

/-- R20, R21: what a change of the wish to send does depends on the line, the queue and the arbiter. -/
theorem followWant_line_congr (hs : t.startup = s.startup) (hl : t.line = s.line)
    (hf : t.frames = s.frames) (ha : t.arbiter = s.arbiter) :
    (followWant t).line = (followWant s).line := by
  have hw : wantsToSend t = wantsToSend s := by
    simp only [wantsToSend, inService, callRequested, hs, hf, ha]
  simp only [followWant, hl, hw]
  split
  · rfl
  · split
    · rfl
    · exact hl

theorem rechoose_rested (ha : s.arbiter = .idle ∨ ∃ r, s.arbiter = .waiting r) :
    rechoose s = followWant { s with arbiter := arbiterOf (callChoice s) } := by
  unfold rechoose
  rcases ha with ha | ⟨r, ha⟩ <;> simp only [ha]

theorem rechoose_attempting (ha : attempts s.arbiter) : rechoose s = s := by
  unfold rechoose
  rcases ha with ⟨r, ha⟩ | ⟨r, w, k, c, ha⟩ <;> simp only [ha]

/-- The choice of a resting arbiter, in a state that has the line, the queue and the arbiter of another. -/
theorem rechoose_rested_of (hs : t.startup = s.startup) (hl : t.line = s.line) (hf : t.frames = s.frames)
    (ha : t.arbiter = .idle ∨ ∃ r, t.arbiter = .waiting r) :
    (rechoose t).arbiter = arbiterOf (callChoice (rechoose t)) ∧
    (rechoose t).line = (followWant { s with arbiter := (rechoose t).arbiter }).line := by
  have hchoice : callChoice (rechoose t) = callChoice t :=
    callChoice_congr _ _ (by simp) (by simp) (by simp)
  have hrechoose : rechoose t = followWant { t with arbiter := arbiterOf (callChoice (rechoose t)) } := by
    rw [hchoice]
    exact rechoose_rested ha
  have harbiter : (rechoose t).arbiter = arbiterOf (callChoice (rechoose t)) := by
    conv_lhs => rw [hrechoose]
    simp
  refine ⟨harbiter, ?_⟩
  rw [harbiter]
  conv_lhs => rw [hrechoose]
  exact followWant_line_congr hs hl hf rfl

theorem gateChanged_rested (trucks : List Truck) (ha : s.arbiter = .idle ∨ ∃ r, s.arbiter = .waiting r) :
    (gateChanged trucks s).arbiter = arbiterOf (callChoice (gateChanged trucks s)) ∧
    (gateChanged trucks s).line =
      (followWant { s with arbiter := (gateChanged trucks s).arbiter }).line :=
  rechoose_rested_of (t := announceTrucks s.trucks (withTrucks trucks s)) (by simp) (by simp) (by simp)
    (by simpa using ha)

theorem gateChanged_attempting (trucks : List Truck) (ha : attempts s.arbiter) :
    gateChanged trucks s = announceTrucks s.trucks (withTrucks trucks s) :=
  rechoose_attempting (by simpa using ha)

/-- Settles O47: the announcement by its reports and lamps, the choice by `gateChanged_rested` and
`gateChanged_attempting`. -/
theorem tableChangesAreAnnounced : Obligations.TableChangesAreAnnounced := by
  intro trucks s t entered
  have hport : t.port = (announceTrucks s.trucks (withTrucks trucks s)).port := by simp [t, gateChanged]
  have hsignal : t.signal = (announceTrucks s.trucks (withTrucks trucks s)).signal := by
    simp [t, gateChanged]
  refine ⟨gateChanged_trucks trucks s, fun h => ?_, fun i bay hf => ?_, gateChanged_rested trucks,
    fun ha => ?_, ⟨by simp [t], by simp [t], by simp [t], by simp [t]⟩, by simp [t], by simp [t],
    ⟨by simp [t], by simp [t]⟩, by simp [hsignal], by simp [hsignal]⟩
  · rw [hport, announceTrucks_port s.trucks (withTrucks trucks s) h]
    exact ⟨rfl, rfl⟩
  · rw [hsignal]
    exact announceTrucks_lamp s.trucks (withTrucks trucks s) hf
  · have ht : t = announceTrucks s.trucks (withTrucks trucks s) := gateChanged_attempting trucks ha
    simp [ht]

end Sys2Proof.Machine
end

