-- ==== Sys2Proof/Proofs/OwnGrants.lean ====
section
/-! PROOF. The owner's GRANT and its report (O18). -/

namespace Sys2Proof.Machine

variable {s t : State}

/-! ### One line of the truck table replaced (R103) -/

/-- A truck with its line n replaced by its image. -/
def mapTruckLine (n : Nat) (f : OrderLine → OrderLine) (u : Truck) : Truck :=
  { u with lines := u.lines.mapIdx fun i l => if i + 1 = n then f l else l }

theorem mapOrderLine_eq (ticket n : Nat) (f : OrderLine → OrderLine) (trucks : List Truck) :
    mapOrderLine ticket n f trucks =
      trucks.map fun u => if u.ticket = ticket then mapTruckLine n f u else u := rfl

theorem orderLineOf_mapTruckLine (n m : Nat) (f : OrderLine → OrderLine) (u : Truck) :
    orderLineOf (mapTruckLine n f u) m =
      if m = n then (orderLineOf u m).map f else orderLineOf u m := by
  cases m with
  | zero => simp [orderLineOf]
  | succ m =>
    simp only [orderLineOf, mapTruckLine, List.getElem?_mapIdx]
    split
    · rfl
    · simp

theorem findTruck_mapOrderLine (ticket n : Nat) (f : OrderLine → OrderLine) (trucks : List Truck)
    (k : Nat) :
    findTruck k (mapOrderLine ticket n f trucks) =
      (findTruck k trucks).map fun u => if u.ticket = ticket then mapTruckLine n f u else u := by
  have hticket : ((fun u : Truck => u.ticket == k) ∘ fun u =>
      if u.ticket = ticket then mapTruckLine n f u else u) = fun u => u.ticket == k := by
    funext u
    simp only [Function.comp_apply]
    split <;> rfl
  rw [mapOrderLine_eq, findTruck, List.find?_map, hticket, findTruck]

theorem findTruck_ticket {k : Nat} {trucks : List Truck} {u : Truck} (h : findTruck k trucks = some u) :
    u.ticket = k := by
  simpa using List.find?_some h

theorem findOrderLine_mapOrderLine_same {ticket n : Nat} {trucks : List Truck} {l : OrderLine}
    (f : OrderLine → OrderLine) (h : findOrderLine ticket n trucks = some l) :
    findOrderLine ticket n (mapOrderLine ticket n f trucks) = some (f l) := by
  obtain ⟨u, hu, hl⟩ := Option.bind_eq_some_iff.1 h
  simp [findOrderLine, findTruck_mapOrderLine, hu, findTruck_ticket hu, orderLineOf_mapTruckLine, hl]

theorem findOrderLine_mapOrderLine_other {ticket n k m : Nat} (f : OrderLine → OrderLine)
    (trucks : List Truck) (h : k ≠ ticket ∨ m ≠ n) :
    findOrderLine k m (mapOrderLine ticket n f trucks) = findOrderLine k m trucks := by
  simp only [findOrderLine, findTruck_mapOrderLine]
  cases hu : findTruck k trucks with
  | none => rfl
  | some u =>
    have hk := findTruck_ticket hu
    simp only [Option.map_some, Option.bind_some]
    split
    · rename_i hticket
      rw [orderLineOf_mapTruckLine, if_neg (h.resolve_left (by omega))]
    · rfl

theorem mapOrderLine_shape (ticket n : Nat) (f : OrderLine → OrderLine) (trucks : List Truck) :
    (mapOrderLine ticket n f trucks).map (fun u => (u.ticket, u.bay, u.arrival, u.lines.length)) =
      trucks.map fun u => (u.ticket, u.bay, u.arrival, u.lines.length) := by
  rw [mapOrderLine_eq, List.map_map]
  refine List.map_congr_left fun u _ => ?_
  simp only [Function.comp_apply]
  split <;> simp [mapTruckLine]

/-! ### A change that is not announced (R115, R116) -/

/-- The truck is as before to every report and lamp. -/
def looksAlike (u w : Truck) : Prop :=
  w.ticket = u.ticket ∧ w.bay = u.bay ∧ truckState w = truckState u
    ∧ (w.lines.any fun l => lineState l == .short) = u.lines.any fun l => lineState l == .short

theorem looksAlike_refl (u : Truck) : looksAlike u u := ⟨rfl, rfl, rfl, rfl⟩

theorem bayCondition_alike {trucks : List Truck} {g : Truck → Truck} (h : ∀ u ∈ trucks, looksAlike u (g u))
    (bay : Nat) : bayCondition (trucks.map g) bay = bayCondition trucks bay := by
  have hat : truckAt (trucks.map g) bay = (truckAt trucks bay).map g := by
    rw [truckAt, List.find?_map, truckAt]
    refine congrArg (Option.map g) (List.find?_congr fun u hu => ?_)
    obtain ⟨-, hbay, -, -⟩ := h u hu
    simp [hbay]
  unfold bayCondition
  rw [hat]
  cases hu : truckAt trucks bay with
  | none => rfl
  | some u =>
    obtain ⟨-, -, hstate, hshort⟩ := h u (List.mem_of_find?_eq_some hu)
    simp only [Option.map_some, hstate, hshort]

theorem findTruck_of_mem {trucks : List Truck} (hnd : (trucks.map fun u => u.ticket).Nodup) {u : Truck}
    (hu : u ∈ trucks) : findTruck u.ticket trucks = some u := by
  obtain ⟨w, hw⟩ : ∃ w, findTruck u.ticket trucks = some w :=
    Option.isSome_iff_exists.1 (List.find?_isSome.2 ⟨u, hu, by simp⟩)
  rw [hw, List.inj_on_of_nodup_map hnd (List.mem_of_find?_eq_some hw) hu (findTruck_ticket hw)]

theorem newlyLoaded_alike {trucks : List Truck} {g : Truck → Truck}
    (hnd : (trucks.map fun u => u.ticket).Nodup) (h : ∀ u ∈ trucks, looksAlike u (g u)) :
    newlyLoaded trucks (trucks.map g) = [] := by
  simp only [newlyLoaded, List.map_eq_nil_iff, List.filter_eq_nil_iff, List.mem_map,
    forall_exists_index, and_imp, forall_apply_eq_imp_iff₂]
  intro u hu
  obtain ⟨hticket, -, hstate, -⟩ := h u hu
  simp [hticket, findTruck_of_mem hnd hu, hstate]

theorem requestBays_alike {before : List Truck} (h : ∀ b, bayCondition before b = bayCondition s.trucks b) :
    requestBays before s = s := by
  simp [requestBays, requestBay, h]

theorem announceTrucks_alike {trucks : List Truck} {g : Truck → Truck}
    (hnd : (trucks.map fun u => u.ticket).Nodup) (h : ∀ u ∈ trucks, looksAlike u (g u)) (s : State) :
    announceTrucks trucks (withTrucks (trucks.map g) s) = withTrucks (trucks.map g) s := by
  have htrucks : (withTrucks (trucks.map g) s).trucks = trucks.map g := rfl
  rw [announceTrucks, htrucks, newlyLoaded_alike hnd h]
  exact requestBays_alike fun b => (bayCondition_alike h b).symm

/-! ### The award record (R103) -/

theorem grantOnLine_room {l : OrderLine} (h : l.awards.length < 8) (row count : Nat) :
    grantOnLine row count l =
      { l with awards := l.awards ++ [{ row := row, granted := count, taken := 0 }], emptyRounds := 0 } :=
  if_pos h

/-- An OPEN line that is granted stays OPEN or becomes COVERED. -/
theorem lineState_grantOnLine {l : OrderLine} (ho : lineState l = .openLine) (row count : Nat) :
    lineState (grantOnLine row count l) ≠ .done ∧ lineState (grantOnLine row count l) ≠ .short := by
  unfold grantOnLine
  split
  · have htaken : lineTaken l ≠ l.wanted := by
      intro hd
      simp [lineState, hd] at ho
    have hkept : lineTaken { l with
        awards := l.awards ++ [{ row := row, granted := count, taken := 0 }], emptyRounds := 0 } =
        lineTaken l := by simp [lineTaken]
    simp only [lineState, hkept, if_neg htaken, Config.emptyRoundLimit]
    split <;> simp
  · simp [ho]

/-- A test that the replaced line passes or fails as before tells no line apart. -/
theorem map_lines_mapTruckLine {n : Nat} {u : Truck} {l : OrderLine} (hl : orderLineOf u n = some l)
    {f : OrderLine → OrderLine} {test : OrderLine → Bool} (ht : test (f l) = test l) :
    (mapTruckLine n f u).lines.map test = u.lines.map test := by
  refine List.ext_getElem? fun i => ?_
  simp only [mapTruckLine, List.getElem?_map, List.getElem?_mapIdx, Option.map_map]
  cases hi : u.lines[i]? with
  | none => rfl
  | some l' =>
    simp only [Option.map_some, Function.comp_apply]
    split
    · rename_i hn
      subst hn
      obtain rfl : l' = l := Option.some_inj.1 (hi.symm.trans hl)
      rw [ht]
    · rfl

theorem looksAlike_granted {n : Nat} {u : Truck} {l : OrderLine} (hl : orderLineOf u n = some l)
    (ho : lineState l = .openLine) (row count : Nat) :
    looksAlike u (mapTruckLine n (grantOnLine row count) u) := by
  obtain ⟨hdone, hshort⟩ := lineState_grantOnLine ho row count
  have hdones := map_lines_mapTruckLine hl (f := grantOnLine row count)
    (test := fun l => lineState l == .done) (by simp [hdone, ho])
  have hshorts := map_lines_mapTruckLine hl (f := grantOnLine row count)
    (test := fun l => lineState l == .short) (by simp [hshort, ho])
  have hall : ((mapTruckLine n (grantOnLine row count) u).lines.all fun l => lineState l == .done) =
      u.lines.all fun l => lineState l == .done := by
    have h := congrArg (fun b : List Bool => b.all id) hdones
    simpa only [List.all_map, Function.id_comp] using h
  have hany : ((mapTruckLine n (grantOnLine row count) u).lines.any fun l => lineState l == .short) =
      u.lines.any fun l => lineState l == .short := by
    have h := congrArg (fun b : List Bool => b.any id) hshorts
    simpa only [List.any_map, Function.id_comp] using h
  refine ⟨rfl, rfl, ?_, hany⟩
  simp only [truckState, hall]
  rfl

/-- R103: an award on an OPEN line gives no report and no lamp request. -/
theorem applyGrant_open {r : CallRecord} {l : OrderLine} (hs : TrucksSound s.trucks)
    (hl : findOrderLine r.ticket r.line s.trucks = some l) (ho : lineState l = .openLine)
    (winner count : Nat) : applyGrant r winner count s =
      withTrucks (mapOrderLine r.ticket r.line (grantOnLine winner count) s.trucks) s := by
  obtain ⟨-, hnd, -, -⟩ := hs
  obtain ⟨w, hw, hwl⟩ := Option.bind_eq_some_iff.1 hl
  rw [applyGrant, mapOrderLine_eq]
  refine announceTrucks_alike hnd (fun u hu => ?_) s
  split
  · rename_i hticket
    obtain rfl : u = w := Option.some_inj.1 ((findTruck_of_mem hnd hu).symm.trans (hticket ▸ hw))
    exact looksAlike_granted hwl ho winner count
  · exact looksAlike_refl u

/-! ### The GRANT and its report (R42, R119, R128) -/

theorem grantSend_begins {v : RoundView} {r : CallRecord} {winner offered count : Nat}
    (hs : s.startup.station = .service) (hr : s.frames.round = some v) (ho : v.own = true)
    (hp : v.phase = .grantWait) (ha : s.line.activity = .nothing ∨ s.line.activity = .stray)
    (hg : s.arbiter = .granting r winner offered count) : exec .grantSend s = .next
      { s with
        line := { s.line with
          condition := .busy, driving := .frame, idleCount := 0, stuckCount := 0
          activity := .sending
            { kind := .grant
              characters := (headerBytes .grant s ++ grantBytes r winner count).map withParity } }
        frames := { s.frames with round := some { v with phase := .grant } } } := by
  have hsend : inService s = true ∧ v.own = true ∧ v.phase = .grantWait
      ∧ (s.line.activity = .nothing ∨ s.line.activity = .stray) := ⟨by simp [inService, hs], ho, hp, ha⟩
  simp only [exec, execGrantSend, hr, hg, if_pos hsend]
  rw [← hg]
  rfl

/-- The end of this gate's own round, whose attempt is over. -/
theorem grantOver_own {v : RoundView} (hr : s.frames.round = some v) (ho : v.own = true)
    (ha : attempts s.arbiter) : grantOver s =
      { s with
        arbiter := arbiterOf (callChoice s)
        line := freedLine false s.line
        frames := { s.frames with round := none, yieldRecord := true } } := by
  have hend := (endFrame_inside hr).trans (endRound_eq hr false)
  rw [ho, toldArbiter_attempts ha] at hend
  rw [grantOver, hend, arbiterRoundOver_settled (notStuck_freedLine false s.line),
    arbiterAfterRound_rested (arbiterOf_rests _)]

theorem settleGrant_grants {r : CallRecord} {winner offered count : Nat}
    (hg : s.arbiter = .granting r winner offered count) (hc : 1 ≤ count) :
    settleGrant true s = applyGrant r winner count s := by
  simp [settleGrant, hg, hc]

theorem settleGrant_not {confirm : Bool} {r : CallRecord} {winner offered count : Nat}
    (hg : s.arbiter = .granting r winner offered count) (h : confirm = false ∨ count = 0) :
    settleGrant confirm s = s := by
  have hnot : ¬ (confirm = true ∧ 1 ≤ count) := by
    rintro ⟨hc, hcount⟩
    rcases h with h | h
    · simp [h] at hc
    · omega
  simp only [settleGrant, hg, if_neg hnot]

theorem grantReport_sent (hk : sentKind s = some .grant) (confirm : Bool) :
    exec (.grantReport (.sent confirm)) s =
      .next (grantOver (settleGrant confirm (reportSent .sent false confirm s))) := by
  simp only [exec, execGrantReport, if_pos hk]

theorem grantReport_flawed (hk : sentKind s = some .grant) (confirm : Bool) :
    exec (.grantReport (.flawed confirm)) s =
      .next (grantOver (reportSent .flawed true confirm s)) := by
  simp only [exec, execGrantReport, if_pos hk]

/-- Every report but a confirmed GRANT's leaves the accounts as they were. -/
theorem grantReport_unsettled {r : CallRecord} {winner offered count : Nat}
    (hk : sentKind s = some .grant) (hg : s.arbiter = .granting r winner offered count)
    {report : SendReport}
    (h : (count = 0 ∧ report = .sent true) ∨ report = .sent false ∨ report = .flawed true
      ∨ report = .flawed false) :
    ∃ o slot confirm, exec (.grantReport report) s = .next (grantOver (reportSent o slot confirm s)) := by
  rcases h with ⟨h, rfl⟩ | rfl | rfl | rfl
  · exact ⟨_, _, _, (grantReport_sent hk true).trans
      (by rw [settleGrant_not (by simpa using hg) (.inr h)])⟩
  · exact ⟨_, _, _, (grantReport_sent hk false).trans
      (by rw [settleGrant_not (by simpa using hg) (.inl rfl)])⟩
  · exact ⟨_, _, _, grantReport_flawed hk true⟩
  · exact ⟨_, _, _, grantReport_flawed hk false⟩

/-- Settles O18: the GRANT's characters; the award by `findOrderLine_mapOrderLine_same` and
`applyGrant_open`; the round's end by `grantOver_own`. -/
theorem ownerSendsItsGrantAndIsTold : Obligations.OwnerSendsItsGrantAndIsTold := by
  refine ⟨fun v r winner offered count s hs hr ho hp ha hg => ?_,
    fun f v r winner offered count s ha hkind hr ho hg => ?_⟩
  · rw [grantSend_begins hs hr ho hp ha hg, headerBytes_eq]
    rfl
  have hk : sentKind s = some .grant := by rw [sentKind_of_sending ha, hkind]
  refine ⟨fun hc l hl hroom => ?_, fun report h => ?_, fun k => ?_⟩
  · let reported : State := reportSent .sent false true s
    let granted : State := applyGrant r winner count reported
    have htrucks : granted.trucks = mapOrderLine r.ticket r.line (grantOnLine winner count) s.trucks := by
      simp [granted, applyGrant, reported]
    have hover := grantOver_own (s := granted) (v := v) (by simpa [granted, reported] using hr) ho
      (.inr ⟨r, winner, offered, count, by simpa [granted, reported] using hg⟩)
    refine ⟨grantOver granted, ?_, ?_⟩
    · rw [grantReport_sent hk, settleGrant_grants (by simpa using hg) hc]
    have hchoice : callChoice { grantOver granted with arbiter := .idle } = callChoice granted :=
      callChoice_congr _ _ (by simp [hover]) (by simp [hover]) (by simp [hover])
    have htable : (grantOver granted).trucks =
        mapOrderLine r.ticket r.line (grantOnLine winner count) s.trucks := by rw [hover, ← htrucks]
    refine ⟨?_, fun k m hkm => ?_, ?_, ?_, ?_, by simp [hover, freedLine], by simp [hover, freedLine],
      by simp [hover, freedLine], fun hs hopen => ?_, ?_, ?_, ?_⟩
    · rw [htable, findOrderLine_mapOrderLine_same _ hl, grantOnLine_room hroom]
    · rw [htable, findOrderLine_mapOrderLine_other _ _ hkm]
    · rw [htable, mapOrderLine_shape]
    · rw [hchoice, hover]
    · simp [hover, granted, reported]
    · have hsilent : granted = withTrucks _ reported :=
        applyGrant_open (s := reported) hs hl hopen winner count
      rw [hover, hsilent]
      exact ⟨rfl, rfl⟩
    · simp [hover, granted, reported, RowUnchanged]
    · simp [hover, granted, reported]
    · simp [hover, granted, reported, ControlUnchanged]
  · obtain ⟨o, slot, confirm, hnext⟩ := grantReport_unsettled hk hg h
    refine ⟨_, hnext, ?_⟩
    have hchoice : callChoice (reportSent o slot confirm s) = callChoice { s with arbiter := .idle } :=
      callChoice_congr _ _ rfl rfl rfl
    rw [grantOver_own (v := v) (by simpa using hr) ho (.inr ⟨r, winner, offered, count, by simpa using hg⟩),
      hchoice]
    exact ⟨rfl, rfl, rfl, rfl, rfl, rfl, ⟨rfl, rfl, rfl, rfl⟩, rfl, rfl, rfl, rfl, rfl⟩
  · exact congrArg _ (if_pos hk)

end Sys2Proof.Machine
end

