-- ==== Sys2Proof/Proofs/StartUpProofs.lean ====
section
/-! PROOF. Start-up: the reset values (O3, O60), the configuration block (O6) and LISTEN (O7). -/

namespace Sys2Proof.Machine

variable {s t : State}

/-! ### The reset values (R163) -/

theorem allPacks_reset (serial : BitVec 32) (pending : List Instr) :
    allPacks (resetValues serial pending).stock = [] := by
  simp [allPacks, resetValues]

theorem stackAt_reset (serial : BitVec 32) (pending : List Instr) (n : Nat) :
    stackAt (resetValues serial pending).stock n = [] := by
  by_cases hn : n < 16
  · refine List.eq_nil_iff_forall_not_mem.2 fun p hp => ?_
    have hmem := (mem_allPacks (resetValues serial pending).stock p).2 ⟨n, hn, hp⟩
    simp [allPacks_reset] at hmem
  · simp [stackAt, hn]

/-- In CONFIG no field line is driven. -/
theorem fieldDrive_config (h : s.startup.station = .config) (n : Nat) : fieldDrive s n = none := by
  have ho : observes s = false := by simp [observes, h]
  unfold fieldDrive
  split
  · rfl
  · simp [ho]

/-- Settles O3: the reset by whether a frame was being sent; the values by evaluation. -/
theorem fullResetRestoresEveryBlock : Obligations.FullResetRestoresEveryBlock := by
  refine ⟨fun s => ⟨fun h => ?_, fun f h => ?_⟩, rfl, rfl, rfl, rfl, rfl, rfl, rfl, rfl, rfl,
    allPacks_reset 0 [], stackAt_reset 0 [], rfl, rfl, rfl, rfl, rfl, rfl, rfl, rfl, by decide, by decide,
    by decide, rfl, rfl, fieldDrive_config rfl, rfl, rfl, rfl, by decide⟩
  · simp only [exec, execFullReset, h]
    rfl
  · simp only [exec, execFullReset, h]
    rfl

theorem rowSound_reset : RowSound State.reset := by
  have hpacks : allPacks State.reset.stock = [] := allPacks_reset 0 []
  have hstacks : ∀ n, stackAt State.reset.stock n = [] := stackAt_reset 0 []
  have hhold : State.reset.hold = none := rfl
  have hpicks : State.reset.picks = [] := rfl
  refine ⟨⟨?_, ?_, ?_, ?_, ?_, fun _ => hpacks⟩, ⟨?_, ?_⟩, ⟨?_, ?_, ?_, ?_⟩, .inl rfl⟩
  · simp [hpacks]
  · simp [hpacks]
  · simp [hstacks]
  · simp [hstacks]
  · exact fun _ => ⟨Nat.zero_le 16, Nat.zero_le 6⟩
  · simp [hhold]
  · simp [hpacks]
  · simp [hpicks]
  · simp [hpicks]
  · simp [hpicks]
  · simp [hpacks]

theorem gateSound_reset : GateSound State.reset := by
  have htrucks : State.reset.trucks = [] := rfl
  refine ⟨⟨?_, ?_, ?_, ?_⟩, trivial, fun c hc => absurd hc List.not_mem_nil⟩ <;> simp [htrucks]

/-- Settles O60: each block's soundness at its reset values. -/
theorem resetIsSound : Obligations.ResetIsSound :=
  ⟨yardLineSound_resetValues 0 [], rowSound_reset, gateSound_reset,
    countersSound_resetValues 0 [], portSound_empty ⟨rfl, rfl, rfl⟩⟩

/-! ### The end of LISTEN (R137, R167) -/

theorem mergeNewest_hail (serial : BitVec 32) (queue : List Notice) :
    mergeNewest (.hail serial) queue = none := by
  cases hm : mergeNewest (.hail serial) queue with
  | none => rfl
  | some r =>
    obtain ⟨-, n, -, -, -, hsame, -⟩ := mergeNewest_eq_some hm
    cases hn : n.body <;> simp [hn, sameAccount] at hsame

theorem takeNotice_hail (serial : BitVec 32) (h : s.frames.queue.length < 16) :
    takeNotice (.hail serial) s =
      { s with
        frames := { s.frames with
          queue := s.frames.queue ++ [{ body := .hail serial, flaws := 0, inFlight := false }] } } := by
  have hroom : enqueue (.hail serial) s = withQueue (s.frames.queue ++ [newEntry (.hail serial)]) s :=
    if_pos h
  simp only [takeNotice, mergeNewest_hail, hroom]
  rfl

theorem timeSourceRule_clock (s : State) : (timeSourceRule s).clock =
    if s.clock.isSet = false ∧ s.startup.settings.timeSource = true then
      { minute := 0, second := 0, fraction := 0, isSet := true } else s.clock := by
  unfold timeSourceRule
  split
  · exact becomeSet_clock 0 s
  · rfl

theorem timeSourceRule_tags (s : State) :
    (timeSourceRule s).picks.map (fun e => e.tag) = s.picks.map fun e => e.tag := by
  have hrewritten (t : State) : (rewriteGrantMinutes t).picks.map (fun e => e.tag) =
      t.picks.map fun e => e.tag := by simp [rewriteGrantMinutes, Function.comp_def]
  unfold timeSourceRule becomeSet
  dsimp only
  split
  · split
    · exact hrewritten _
    · rfl
  · rfl

/-- The state as the station enters SERVICE, before the choice of a call. -/
def serviceEntered (s : State) : State :=
  { timeSourceRule s with
    startup := { s.startup with station := .service, listenTimer := none }
    frames := { s.frames with
      queue := s.frames.queue ++ [{ body := .hail s.startup.serial, flaws := 0, inFlight := false }] } }

theorem listenTimerExpiry_eq (hs : s.startup.station = .listen) (ha : s.arbiter = .idle)
    (hq : s.frames.queue.length < 16) : exec .listenTimerExpiry s = .next
      (refreshReady s (followWant
        { serviceEntered s with arbiter := arbiterOf (callChoice (serviceEntered s)) })) := by
  have hnotice := takeNotice_hail (s := timeSourceRule s) s.startup.serial (by simpa using hq)
  have hrested := rechoose_rested (s := serviceEntered s) (.inl (by simpa [serviceEntered] using ha))
  rw [← hrested]
  simp only [exec, execListenTimerExpiry, if_pos hs, hnotice]
  simp [serviceEntered]

/-- R20: a station in SERVICE with its HAIL queued wants to send, so only a STUCK line moves. -/
theorem followWant_wanting (hw : WantsToSend s) : (followWant s).line =
    if s.line.condition = .stuck ∧ s.line.backOff = none then
      { s.line with condition := .recovering, driving := .recovery, pulseCount := 0 } else s.line := by
  split
  · rename_i h
    rw [followWant_starts h.1 hw h.2]
  · rename_i h
    rw [followWant_stays ?_ (.inr hw)]
    by_cases hc : s.line.condition = .stuck
    · exact .inr (.inr fun hb => h ⟨hc, hb⟩)
    · exact .inl hc

/-- Settles O7: `listenTimerExpiry_eq`, block by block. -/
theorem listenExpiryEntersService : Obligations.ListenExpiryEntersService := by
  intro s hs ha hq
  let waiting : State :=
    { serviceEntered s with arbiter := arbiterOf (callChoice (serviceEntered s)) }
  have hw : WantsToSend waiting := ⟨rfl, .inl ⟨_, List.mem_append_right _ (List.mem_singleton_self _), rfl⟩⟩
  have hnone (htrucks : s.trucks = []) : callChoice (serviceEntered s) = none := by
    have htrucks' : (serviceEntered s).trucks = [] := by simpa [serviceEntered] using htrucks
    simp [callChoice, htrucks', chosenCall]
  refine ⟨refreshReady s (followWant waiting), listenTimerExpiry_eq hs ha hq, ?_, ?_, ?_, ?_, ?_, ?_,
    ?_, ?_,
    ?_, ?_, ?_, ?_, ?_, ?_, ?_⟩
  · simp [waiting, serviceEntered]
  · simp [waiting, serviceEntered]
  · simpa [waiting, serviceEntered] using timeSourceRule_clock s
  · rw [refreshReady_line, followWant_wanting hw]
    simp [waiting, serviceEntered]
  · simpa [waiting, serviceEntered] using timeSourceRule_tags s
  · intro htrucks
    simp [waiting, hnone htrucks, arbiterOf]
  all_goals simp [waiting, serviceEntered]

/-! ### The configuration block (R140, R141, R165) -/

theorem functionOfCode_bay {bay : Nat} (h1 : 1 ≤ bay) (h8 : bay ≤ 8) :
    functionOfCode (bay + 7) = some (.bayLamp bay) := by
  have hlow : ∀ k < 6, bay + 7 ≠ k := by omega
  have hbay : 8 ≤ bay + 7 ∧ bay + 7 ≤ 15 := by omega
  simp [functionOfCode, hlow, hbay]

theorem functionOfCode_none {code : Nat} (h : code = 6 ∨ code = 7 ∨ 16 ≤ code) :
    functionOfCode code = none := by
  have hlow : ∀ k < 6, code ≠ k := by omega
  have hbay : ¬ (8 ≤ code ∧ code ≤ 15) := by omega
  simp [functionOfCode, hlow, hbay]

theorem blockByte_eq (b : Vector Byte 32) {i : Nat} (h : i < 32) : blockByte b i = b[i] := by
  simp [blockByte, h]

theorem blockValue_eq (b : Vector Byte 32) {i : Nat} (h : i < 32) : blockValue b i = b[i].toNat := by
  rw [blockValue, blockByte_eq b h]

theorem settingsOfBlock_lines (b : Vector Byte 32) (i : Fin 8) :
    (settingsOfBlock b).lines[i] = fieldLineOfByte b[21 + i.val] := by
  rw [← blockByte_eq b (by omega)]
  fin_cases i <;> rfl

theorem settingsOfBlock_distances (b : Vector Byte 32) (i : Fin 8) :
    (settingsOfBlock b).distances[i] = b[12 + i.val].toNat := by
  rw [← blockValue_eq b (by omega)]
  fin_cases i <;> rfl

/-- A field-line byte of an accepted block names a function. -/
theorem functionOfCode_accepted {b : Vector Byte 32} (h : blockAccepted b = true) (i : Fin 8) :
    some (fieldLineOfByte b[21 + i.val]).function = functionOfCode (b[21 + i.val].toNat % 128) := by
  simp only [blockAccepted, Bool.and_eq_true, List.all_eq_true, List.mem_range] at h
  obtain ⟨⟨-, hlines⟩, -⟩ := h
  have hvalid := hlines i i.isLt
  rw [blockByte_eq b (by omega)] at hvalid
  unfold fieldByteValid at hvalid
  unfold fieldLineOfByte
  cases hcode : functionOfCode (b[21 + i.val].toNat % 128) with
  | none => simp [hcode] at hvalid
  | some g => simp

theorem toNat_eq_one (b : Byte) : b.toNat = 1 ↔ b = 1 := by bv_omega

theorem roleOfByte_gate (b : Byte) : roleOfByte b.toNat = .gate ↔ b = 1 := by
  rw [← toNat_eq_one]
  unfold roleOfByte
  split <;> simp [*]

theorem firstInput_eq (settings : Settings) (levels : BitVec 8) (i : Fin 8) :
    firstInput settings levels i =
      if isInputFunction settings.lines[i].function = true then
        { raw := levels.getLsbD i != settings.lines[i].inverted, filtered := false
          timer :=
            if (levels.getLsbD i != settings.lines[i].inverted) = true then some (filterUnits settings)
            else none }
      else resetInput := by
  simp [firstInput, levelThrough]

theorem firstInput_filtered (settings : Settings) (levels : BitVec 8) (i : Fin 8) :
    (firstInput settings levels i).filtered = false := by
  rw [firstInput_eq]
  split <;> rfl

theorem enterListen_input (settings : Settings) (levels : BitVec 8) (s : State) (i : Fin 8) :
    (enterListen settings levels s).signal.inputs[i] = firstInput settings levels i := by
  rw [enterListen, refreshReady_inputs]
  fin_cases i <;> rfl

theorem enterListen_lamp (settings : Settings) (levels : BitVec 8) (s : State) (i : Fin 8) :
    (enterListen settings levels s).signal.lamps[i] = resetLamp := by
  rw [enterListen, refreshReady_lamps]
  simp

theorem configReadComplete_eq (b : Vector Byte 32) (levels : BitVec 8)
    (hs : s.startup.station = .config) (hh : s.startup.resetHeld = false) :
    exec (.configReadComplete b levels) s = .next
      (if blockAccepted b then enterListen (settingsOfBlock b) levels s else enterConfigFault s) := by
  have hreading : readingConfig s = true := by simp [readingConfig, hs, hh]
  simp only [exec, execConfigReadComplete, hreading, if_true]

/-- READY leaves its rest in CONFIG for the pattern of CONFIG FAULT. -/
theorem enterConfigFault_eq (hs : s.startup.station = .config) : enterConfigFault s =
    { s with
      startup := { s.startup with station := .configFault }
      signal := { s.signal with readyPosition := 0 } } := by
  have hchange : readyPattern s ≠
      readyPattern { s with startup := { s.startup with station := .configFault } } := by
    simp [readyPattern, hs]
  exact if_neg hchange

/-- Settles O6: the code table; an accepted block by `enterListen`'s fields, a bad one by
`enterConfigFault_eq`. -/
theorem configReadEntersListenOrFault : Obligations.ConfigReadEntersListenOrFault := by
  refine ⟨⟨rfl, rfl, rfl, rfl, rfl, rfl, fun bay h1 h8 => functionOfCode_bay h1 h8,
    fun code h => functionOfCode_none h⟩, fun b levels s hs hh => ⟨fun hb => ?_, fun hb => ?_⟩⟩
  · rw [configReadComplete_eq b levels hs hh, if_pos hb]
    have hsettings : (enterListen (settingsOfBlock b) levels s).startup.settings = settingsOfBlock b := by
      simp [enterListen]
    have hfilter : filterUnits (settingsOfBlock b) = 4 * 4 ^ b[29].toNat * msUnits := by
      simp [filterUnits, settingsOfBlock, blockValue_eq]
    have hinverted (i : Fin 8) : (settingsOfBlock b).lines[i].inverted = b[21 + i.val].getLsbD 7 := by
      rw [settingsOfBlock_lines]
      rfl
    have hinput := enterListen_input (settingsOfBlock b) levels s
    refine ⟨_, rfl, ?_⟩
    simp only [hsettings, hinput]
    refine ⟨by simp [enterListen], by simp [enterListen], by simpa [enterListen] using hh,
      by simp [enterListen], ?_, blockValue_eq b (by omega), blockValue_eq b (by omega),
      blockValue_eq b (by omega), blockValue_eq b (by omega), ?_, ?_, blockValue_eq b (by omega),
      blockValue_eq b (by omega), blockValue_eq b (by omega), blockValue_eq b (by omega),
      settingsOfBlock_distances b, blockValue_eq b (by omega), blockValue_eq b (by omega),
      fun i => ⟨hinverted i, ?_⟩, ?_,
      fun i => ⟨enterListen_lamp _ _ s i, firstInput_filtered _ _ i, fun hin => ?_⟩,
      ?_, ?_, ?_, ?_, ?_, ?_⟩
    · simp only [settingsOfBlock, blockValue_eq b (show 1 < 32 by omega)]
      exact roleOfByte_gate b[1]
    · simp only [settingsOfBlock, blockValue_eq b (show 6 < 32 by omega), beq_iff_eq]
      exact toNat_eq_one b[6]
    · simp only [settingsOfBlock, blockValue_eq b (show 7 < 32 by omega), beq_iff_eq]
      exact toNat_eq_one b[7]
    · rw [settingsOfBlock_lines]
      exact functionOfCode_accepted hb i
    · simp [enterListen, lineBusy]
    · rw [firstInput_eq, if_pos hin, hinverted, hfilter]
      exact ⟨rfl, rfl⟩
    · simp [enterListen, RowUnchanged]
    · simp [enterListen, GateUnchanged]
    · simp [enterListen]
    · simp [enterListen]
    · simp [enterListen]
    · simp [enterListen]
  · rw [configReadComplete_eq b levels hs hh, hb]
    exact congrArg _ (enterConfigFault_eq hs)

end Sys2Proof.Machine
end

