-- ==== Sys2Proof/Proofs/OneBitTime.lean ====
section
/-! PROOF. One bt of time (O2). -/

namespace Sys2Proof.Machine

variable {s : State}

/-! ### The counts in one bt (R10, R20, R41, R42, R131) -/

theorem tickIdle_quiet (ho : observes s = true) (hc : s.line.condition = .quiet)
    (ha : s.line.activity = .nothing) (hr : s.frames.round = none) :
    tickIdle s = min 255 (s.line.idleCount + 1) :=
  if_pos ⟨ho, hc, ha, hr⟩

theorem tickIdle_observing (ho : observes s = true) (hc : s.line.condition = .busy)
    (ha : s.line.activity = .observing .slack) (hlt : s.line.idleCount < 96) :
    tickIdle s = s.line.idleCount + 1 := by
  rw [tickIdle, if_neg (by simp [hc]), if_pos ⟨ho, hc, ha, hlt⟩]

theorem tickIdle_rests (h : s.line.condition ≠ .quiet ∨ s.frames.round ≠ none)
    (ha : s.line.activity ≠ .observing .slack) : tickIdle s = s.line.idleCount := by
  have hquiet : ¬ (observes s = true ∧ s.line.condition = .quiet ∧ s.line.activity = .nothing
      ∧ s.frames.round = none) := fun ⟨_, hc, _, hr⟩ => h.elim (· hc) (· hr)
  rw [tickIdle, if_neg hquiet, if_neg fun hobserves => ha hobserves.2.2.1]

theorem countsStuck_iff (s : State) :
    countsStuck s = true ↔ s.line.activity ∈ [.dwPulled, .startMark, .observing .dwPulled] := by
  simp [countsStuck, or_assoc]

theorem tickSilence_eq (line : LineInterface) (v : RoundView) : tickSilence line v =
    { v with
      silence :=
        if v.phase = .window ∧ line.driving ≠ .windowPulses then min 24 (v.silence + 1)
        else if v.phase = .grantWait ∧ line.activity ≠ .stray then min 80 (v.silence + 1)
        else v.silence } := by
  obtain ⟨owner, own, phase, part, silence, pulsing⟩ := v
  cases phase with
  | window => by_cases hd : line.driving = .windowPulses <;> simp [tickSilence, hd, Config.windowSilence]
  | grantWait => by_cases ha : line.activity = .stray <;> simp [tickSilence, ha, Config.grantWaitSilence]
  | call | stretch | grant => simp [tickSilence]

theorem tickClock_minute (n : Nat) (c : YardClock) :
    (tickClock n c).minute = c.minute ∧ (tickClock n c).isSet = c.isSet := by
  unfold tickClock
  split
  · exact ⟨rfl, rfl⟩
  · split <;> exact ⟨rfl, rfl⟩

theorem tick_held (h : s.startup.resetHeld = true) : tick s = s := if_pos h

theorem tick_released (h : s.startup.resetHeld = false) : tick s =
    { tickLine s with
      frames := { s.frames with round := s.frames.round.map (tickSilence s.line) }
      bid := tickBid (btUnits s) s.bid
      hold := s.hold.map fun h => { h with grantWait := countDown 1 h.grantWait }
      clock := tickClock (btUnits s) s.clock
      signal := tickSignal (btUnits s) (readyPattern s) s.signal
      startup := { s.startup with listenTimer := countDown (btUnits s) s.startup.listenTimer } } :=
  if_neg (by simp [h])

/-- Settles O2: what `tick` does to each count. -/
theorem emptyQueueLetsOneBitTimePass : Obligations.EmptyQueueLetsOneBitTimePass := by
  intro s hpending
  have hstep : step s = .next (tick s) := by
    rcases step_cases s with ⟨-, h⟩ | ⟨c, rest, h, -⟩
    · exact h
    · exact absurd (hpending.symm.trans h) (by simp)
  refine ⟨fun hheld => by rw [hstep, tick_held hheld], fun hheld => ?_⟩
  refine ⟨_, hstep.trans (congrArg _ (tick_released hheld)), rfl, rfl, ⟨rfl, rfl⟩, rfl, rfl,
    (tickClock_minute _ s.clock).1, (tickClock_minute _ s.clock).2, rfl, rfl, rfl,
    fun ho hc ha hr => tickIdle_quiet ho hc ha hr, fun ho hc ha hlt => tickIdle_observing ho hc ha hlt,
    fun h ha => tickIdle_rests h ha, fun ha => if_pos ((countsStuck_iff s).2 ha),
    fun ha => if_neg (mt (countsStuck_iff s).1 ha), ?_, fun h k hh hk => ?_⟩
  · exact congrFun (congrArg Option.map (funext fun v => tickSilence_eq s.line v)) _
  · simp only [hh, Option.map_some, hk]
    rfl

end Sys2Proof.Machine
end

