-- ==== Sys2Proof/Proofs/Inputs.lean ====
section
/-! PROOF. Filtered inputs, and what halt does at once (O41). -/

namespace Sys2Proof.Machine

variable {s t : State}

/-! ### Halt and close (R142) -/

theorem inputAsserted_iff (g : FieldFunction) (s : State) : inputAsserted g s = true ↔ ∃ i : Fin 8,
    s.startup.settings.lines[i].function = g ∧ s.signal.inputs[i].filtered = true := by
  simp only [inputAsserted, List.any_eq_true, Bool.and_eq_true, beq_iff_eq, List.mem_iff_getElem]
  constructor
  · rintro ⟨p, ⟨i, hi, rfl⟩, hg, hf⟩
    have h8 : i < 8 := by simpa using hi
    exact ⟨⟨i, h8⟩, by simpa using hg, by simpa using hf⟩
  · rintro ⟨i, hg, hf⟩
    exact ⟨_, ⟨i, by simp, rfl⟩, by simpa using hg, by simpa using hf⟩

/-! ### One input line (R141) -/

theorem mapInput_input (n i : Fin 8) (f : InputLine → InputLine) (s : State) :
    (mapInput n f s).signal.inputs[i] = if i = n then f s.signal.inputs[i] else s.signal.inputs[i] := by
  simp only [mapInput, Fin.getElem_fin, vmapIdx_getElem, Fin.val_inj]

theorem newRaw_raw (units : Nat) (raw : Bool) (l : InputLine) : (newRaw units raw l).raw = raw := by
  unfold newRaw
  split
  · rfl
  · split
    · rename_i hraw
      exact hraw.symm
    · rfl

theorem newRaw_filtered (units : Nat) (raw : Bool) (l : InputLine) :
    (newRaw units raw l).filtered = l.filtered := by
  unfold newRaw
  split
  · rfl
  · split <;> rfl

theorem newRaw_equal (units : Nat) {raw : Bool} {l : InputLine} (h : raw = l.filtered) :
    (newRaw units raw l).timer = none := by
  rw [newRaw, if_pos h]

theorem newRaw_differs (units : Nat) {raw : Bool} {l : InputLine} (h : raw ≠ l.filtered) :
    (newRaw units raw l).timer = if l.raw = l.filtered then some units else l.timer := by
  rw [newRaw, if_neg h]
  by_cases hraw : raw = l.raw
  · rw [if_pos hraw, if_neg (hraw ▸ h)]
  · have hbefore : l.raw = l.filtered := by
      cases hl : l.raw <;> cases hf : l.filtered <;> simp_all
    rw [if_neg hraw, if_pos hbefore]

theorem functionOfLine_eq (s : State) (n : Fin 8) :
    functionOfLine s n = s.startup.settings.lines[n].function := by
  simp [functionOfLine]

theorem inputChange_eq {n : Fin 8} (ho : observes s = true)
    (hi : isInputFunction s.startup.settings.lines[n].function = true) (high : Bool) :
    exec (.inputChange n high) s = .next
      (mapInput n
        (newRaw (filterUnits s.startup.settings) (high != s.startup.settings.lines[n].inverted)) s) := by
  have hinput : isInputFunction (functionOfLine s n) = true := by rw [functionOfLine_eq]; exact hi
  have hlevel : levelThrough s.startup.settings n high =
      (high != s.startup.settings.lines[n].inverted) := by
    simp [levelThrough]
  simp only [exec, execInputChange, ho, hinput, and_self, if_true, hlevel]

/-- The filtered level takes the raw level. -/
def filterPassed (n : Fin 8) (s : State) : State :=
  mapInput n (fun l => { l with filtered := l.raw, timer := none }) s

theorem filterExpiry_eq {n : Fin 8} (ho : observes s = true)
    (hi : isInputFunction s.startup.settings.lines[n].function = true)
    (ht : s.signal.inputs[n].timer ≠ none) (hd : s.signal.inputs[n].raw ≠ s.signal.inputs[n].filtered) :
    exec (.filterExpiry n) s = .next (followHalt (haltAsserted s) (filterPassed n s)) := by
  have hinput : isInputFunction (functionOfLine s n) = true := by rw [functionOfLine_eq]; exact hi
  have hdue : filterDue n s = true := by
    simpa [filterDue, Option.isSome_iff_ne_none] using And.intro ht hd
  simp only [exec, execFilterExpiry, ho, hinput, hdue, and_self, if_true]
  rfl

/-! ### What halt does to lamps, horn and choice (R145, R148) -/

theorem mapLamps_lamp (which : FieldFunction → Bool) (f : Lamp → Lamp) (s : State) (i : Fin 8) :
    (mapLamps which f s).signal.lamps[i] =
      if which s.startup.settings.lines[i].function = true then f s.signal.lamps[i]
      else s.signal.lamps[i] := by
  have hfunction : functionOfLine s (i : Nat) = s.startup.settings.lines[(i : Nat)].function :=
    functionOfLine_eq s i
  simp only [mapLamps, Fin.getElem_fin, vmapIdx_getElem, hfunction]

/-- The lamps and the horn at a change of halt. -/
def haltFollowed (s : State) : State := if haltAsserted s then haltOutputs s else releaseOutputs s

theorem followHalt_unchanged {before : Bool} (h : haltAsserted s = before) : followHalt before s = s :=
  if_pos h

theorem followHalt_changed {before : Bool} (h : haltAsserted s ≠ before) :
    followHalt before s = rechoose (haltFollowed s) := by
  unfold followHalt haltFollowed
  rw [if_neg h]
  split <;> rfl

theorem haltFollowed_yard (s : State) : (haltFollowed s).startup = s.startup
    ∧ (haltFollowed s).line = s.line ∧ (haltFollowed s).frames = s.frames
    ∧ (haltFollowed s).arbiter = s.arbiter := by
  unfold haltFollowed
  split <;> simp

theorem haltFollowed_inputs (s : State) : (haltFollowed s).signal.inputs = s.signal.inputs := by
  unfold haltFollowed
  split <;> rfl

theorem followHalt_inputs (before : Bool) (s : State) :
    (followHalt before s).signal.inputs = s.signal.inputs := by
  by_cases h : haltAsserted s = before
  · rw [followHalt_unchanged h]
  · rw [followHalt_changed h, rechoose_signal, haltFollowed_inputs]

theorem followHalt_halted (before : Bool) (s : State) :
    haltAsserted (followHalt before s) = haltAsserted s :=
  (haltAsserted_congr (by simp) (followHalt_inputs before s)).1

/-- R142: a change of halt brings a resting arbiter's choice up to date, with a recovery of a STUCK line. -/
theorem followHalt_rested {before : Bool} (h : haltAsserted t ≠ before) (hs : t.startup = s.startup)
    (hl : t.line = s.line) (hf : t.frames = s.frames)
    (ha : t.arbiter = .idle ∨ ∃ r, t.arbiter = .waiting r) :
    (followHalt before t).arbiter = arbiterOf (callChoice (followHalt before t)) ∧
    (followHalt before t).line = (followWant { s with arbiter := (followHalt before t).arbiter }).line := by
  obtain ⟨hs', hl', hf', ha'⟩ := haltFollowed_yard t
  rw [followHalt_changed h]
  exact rechoose_rested_of (hs'.trans hs) (hl'.trans hl) (hf'.trans hf) (by rw [ha']; exact ha)

theorem followHalt_attempting {before : Bool} (h : haltAsserted s ≠ before) (ha : attempts s.arbiter) :
    (followHalt before s).arbiter = s.arbiter ∧ (followHalt before s).line = s.line := by
  obtain ⟨-, hl, -, harb⟩ := haltFollowed_yard s
  rw [followHalt_changed h, rechoose_attempting (by rw [harb]; exact ha), hl, harb]
  exact ⟨rfl, rfl⟩

theorem followHalt_asserted (h : haltAsserted s = true) :
    (followHalt false s).signal = (haltOutputs s).signal := by
  rw [followHalt_changed (by simp [h]), rechoose_signal, haltFollowed, if_pos h]

theorem followHalt_released (h : haltAsserted s = false) :
    (followHalt true s).signal = (releaseOutputs s).signal := by
  rw [followHalt_changed (by simp [h]), rechoose_signal, haltFollowed, if_neg (by simp [h])]

theorem haltOutputs_lamp (s : State) (i : Fin 8) : (haltOutputs s).signal.lamps[i] =
    if isLampFunction s.startup.settings.lines[i].function = true then
      { s.signal.lamps[i] with current := .halt, position := 0, staged := none }
    else s.signal.lamps[i] :=
  mapLamps_lamp isLampFunction (startPattern .halt) s i

theorem releaseOutputs_lamp (s : State) (i : Fin 8) : (releaseOutputs s).signal.lamps[i] =
    if isLampFunction s.startup.settings.lines[i].function = true then
      { s.signal.lamps[i] with current := s.signal.lamps[i].latest, position := 0, staged := none }
    else s.signal.lamps[i] :=
  mapLamps_lamp isLampFunction (fun l => startPattern l.latest l) s i

theorem callChoice_halted (h : haltAsserted s = true) : callChoice s = none := by
  simp [callChoice, h]

/-- Settles O41: an input's change by `newRaw`, its filter's expiry by whether halt changed with it. -/
theorem inputsAreFilteredAndHaltFollows : Obligations.InputsAreFilteredAndHaltFollows := by
  intro n s ho hi
  refine ⟨inputAsserted_iff .haltIn s, inputAsserted_iff .closeIn s, fun high => ?_, fun ht hd => ?_⟩
  · refine ⟨_, inputChange_eq ho hi high, rfl, fun i hne => ?_, ?_, ?_, fun h => ?_, fun h => ?_⟩
    · rw [mapInput_input, if_neg hne]
    · rw [mapInput_input, if_pos rfl, newRaw_raw]
    · rw [mapInput_input, if_pos rfl, newRaw_filtered]
    · rw [mapInput_input, if_pos rfl, newRaw_raw] at h
      rw [mapInput_input, if_pos rfl, newRaw_equal _ h]
    · rw [mapInput_input, if_pos rfl, newRaw_raw] at h
      rw [mapInput_input, if_pos rfl, newRaw_differs _ h]
      rfl
  · have hhalt := followHalt_halted (haltAsserted s) (filterPassed n s)
    have hinputs := followHalt_inputs (haltAsserted s) (filterPassed n s)
    refine ⟨_, filterExpiry_eq ho hi ht hd, ?_⟩
    simp only [hhalt, hinputs]
    refine ⟨fun i hne => ?_, ?_, by simp [RowUnchanged, filterPassed], by simp [filterPassed],
      by simp [filterPassed], by simp [filterPassed], by simp [filterPassed],
      by simp [ControlUnchanged, filterPassed], fun h => ?_,
      fun h => ⟨fun ha => (followHalt_rested (s := s) h rfl rfl rfl ha).2,
        fun ha => followHalt_attempting (s := filterPassed n s) h ha⟩,
      fun hs h => ?_, fun hs h => ?_⟩
    · exact (mapInput_input n i _ s).trans (if_neg hne)
    · exact (mapInput_input n n _ s).trans (if_pos rfl)
    · rw [followHalt_unchanged h]
      exact ⟨rfl, rfl, rfl, rfl⟩
    · have hchanged : haltAsserted (filterPassed n s) ≠ haltAsserted s := by simp [h, hs]
      refine ⟨by rw [hs, followHalt_asserted h]; rfl, fun r ha => ?_, fun i => ?_⟩
      · rw [(followHalt_rested (s := s) hchanged rfl rfl rfl (.inr ⟨r, ha⟩)).1,
          callChoice_halted (hhalt.trans h)]
        rfl
      · rw [hs, followHalt_asserted h]
        exact haltOutputs_lamp (filterPassed n s) i
    · have hchanged : haltAsserted (filterPassed n s) ≠ haltAsserted s := by simp [h, hs]
      refine ⟨by rw [hs, followHalt_released h]; rfl,
        fun ha => (followHalt_rested (s := s) hchanged rfl rfl rfl ha).1, fun i => ?_⟩
      rw [hs, followHalt_released h]
      exact releaseOutputs_lamp (filterPassed n s) i

end Sys2Proof.Machine
end

