-- ==== Sys2Proof/Proofs/SentFramesRead.lean ====
section
/-! PROOF. Frames are read back as they were sent (O26). -/

namespace Sys2Proof.Machine

variable {s : State}

/-! ### The bytes of a frame (R6, R29 to R31) -/

theorem ticketBytes_eq {ticket : Nat} (h : ticket ≤ 65535) :
    ticketBytes ticket = [BitVec.ofNat 8 (ticket / 256), BitVec.ofNat 8 (ticket % 256)] := by
  have hhigh : (BitVec.ofNat 16 ticket).extractLsb' 8 8 = BitVec.ofNat 8 (ticket / 256) := by
    apply BitVec.eq_of_toNat_eq
    simp [BitVec.extractLsb'_toNat, Nat.shiftRight_eq_div_pow]
    omega
  have hlow : (BitVec.ofNat 16 ticket).extractLsb' 0 8 = BitVec.ofNat 8 (ticket % 256) := by
    apply BitVec.eq_of_toNat_eq
    simp [BitVec.extractLsb'_toNat]
  rw [ticketBytes, bytes16, hhigh, hlow]

theorem senderCharacter_eq (role : Role) (number : Nat) : senderCharacter role number =
    BitVec.ofNat 8 (number + if role = .gate then 64 else 0) := by
  cases role with
  | row => exact congrArg (BitVec.ofNat 8) (Nat.zero_add number)
  | gate => exact congrArg (BitVec.ofNat 8) (Nat.add_comm 64 number)

theorem keyBytes_eq {key : OrderKey} (h : key.ticket ≤ 65535) (count : Nat) : keyBytes key count =
    [BitVec.ofNat 8 key.gate, BitVec.ofNat 8 (key.ticket / 256), BitVec.ofNat 8 (key.ticket % 256),
      BitVec.ofNat 8 key.line, BitVec.ofNat 8 count] := by
  rw [keyBytes, ticketBytes_eq h]
  rfl

theorem callBytes_eq {r : CallRecord} (h : r.ticket ≤ 65535) : callBytes r =
    [BitVec.ofNat 8 (r.ticket / 256), BitVec.ofNat 8 (r.ticket % 256), BitVec.ofNat 8 (r.line * 16 + r.bay),
      BitVec.ofNat 8 r.spec.family,
      BitVec.ofNat 8 (r.spec.size * 16 + (if r.upgrade then 8 else 0) + r.spec.grade),
      BitVec.ofNat 8 r.wanted] := by
  rw [callBytes, ticketBytes_eq h, sizeGradeByte]
  cases r.upgrade <;> rfl

theorem grantBytes_eq {r : CallRecord} (h : r.ticket ≤ 65535) (winner count : Nat) :
    grantBytes r winner count =
    [BitVec.ofNat 8 (r.ticket / 256), BitVec.ofNat 8 (r.ticket % 256), BitVec.ofNat 8 r.line,
      BitVec.ofNat 8 winner, BitVec.ofNat 8 count] := by
  rw [grantBytes, ticketBytes_eq h]
  rfl

theorem arriveBytes_eq (spec : PackSpec) : noticeBytes (.arrive spec) =
    [BitVec.ofNat 8 spec.family, BitVec.ofNat 8 (spec.size * 16 + spec.grade)] := rfl

theorem hailBytes_eq (serial : BitVec 32) : noticeBytes (.hail serial) =
    [serial.extractLsb' 24 8, serial.extractLsb' 16 8, serial.extractLsb' 8 8,
      serial.extractLsb' 0 8] := rfl

/-! ### Reading a sent frame (R3) -/

theorem getElem?_sentCharacters (l : List Byte) (i : Nat) :
    (sentCharacters l)[i]? = l[i]?.map withParity := by
  simp [sentCharacters]

/-- A body character of a sent frame. -/
theorem bodyValue_cleanFrame {n : Nat} {header body : List Byte} (hh : header.length = 5) {i : Nat}
    {b : Byte} (hin : i < n) (hb : body[i]? = some b) :
    bodyValue (cleanFrame n (sentCharacters (header ++ body))) i = b.toNat := by
  rw [bodyValue_eq _ i hin]
  have hchar : (sentCharacters (header ++ body))[5 + i]? = some (withParity b) := by
    rw [getElem?_sentCharacters, List.getElem?_append_right (by omega), hh, Nat.add_sub_cancel_left, hb]
    rfl
  simp [cleanFrame, hchar, dataBits_withParity]

/-- No character of a sent frame has a flaw, and a missing one reads as 0. -/
theorem charFlaw_cleanFrame (l : List Byte) (i : Nat) :
    charFlaw (((sentCharacters l)[i]?).getD 0#9) = false := by
  rw [getElem?_sentCharacters]
  cases l[i]? with
  | none => decide
  | some b => exact charFlaw_withParity b

section ReadBack

variable {n : Nat} {header body : List Byte} {i value : Nat}

/-- A one-character field reads back. -/
theorem bodyValue_byte (hh : header.length = 5) (hin : i < n) (hb : body[i]? = some (BitVec.ofNat 8 value))
    (hv : value ≤ 255) : bodyValue (cleanFrame n (sentCharacters (header ++ body))) i = value := by
  rw [bodyValue_cleanFrame hh hin hb, BitVec.toNat_ofNat]
  exact Nat.mod_eq_of_lt (by omega)

/-- A two-character field reads back. -/
theorem bodyValue16_ticket (hh : header.length = 5) (hin : i + 1 < n)
    (hhigh : body[i]? = some (BitVec.ofNat 8 (value / 256)))
    (hlow : body[i + 1]? = some (BitVec.ofNat 8 (value % 256))) (hv : value ≤ 65535) :
    bodyValue16 (cleanFrame n (sentCharacters (header ++ body))) i = value := by
  rw [bodyValue16, bodyValue_byte hh (by omega) hhigh (by omega), bodyValue_byte hh hin hlow (by omega)]
  omega

end ReadBack

section Bodies

variable {header : List Byte} (hh : header.length = 5)
include hh

theorem hailSerial_sent (serial : BitVec 32) :
    hailSerial (cleanFrame 4 (sentCharacters (header ++ noticeBytes (.hail serial)))) = serial := by
  rw [hailBytes_eq, hailSerial, bodyValue16, bodyValue16, bodyValue_cleanFrame hh (by omega) rfl,
    bodyValue_cleanFrame hh (by omega) rfl, bodyValue_cleanFrame hh (by omega) rfl,
    bodyValue_cleanFrame hh (by omega) rfl]
  apply BitVec.eq_of_toNat_eq
  have hlt := serial.isLt
  simp only [BitVec.toNat_ofNat, BitVec.extractLsb'_toNat, Nat.shiftRight_eq_div_pow]
  omega

theorem voidTicket_sent {ticket : Nat} (h : ticket ≤ 65535) :
    voidTicket (cleanFrame 2 (sentCharacters (header ++ noticeBytes (.void ticket)))) = ticket := by
  have hbytes : noticeBytes (.void ticket) = _ := ticketBytes_eq h
  rw [hbytes]
  exact bodyValue16_ticket hh (by omega) rfl rfl h

theorem noticeFields_sent {key : OrderKey} {count : Nat} (hg : key.gate ≤ 63) (ht : key.ticket ≤ 65535)
    (hl : key.line ≤ 4) (hc : count ≤ 8) :
    noticeKey (cleanFrame 5 (sentCharacters (header ++ keyBytes key count))) = key
      ∧ noticeCount (cleanFrame 5 (sentCharacters (header ++ keyBytes key count))) = count := by
  rw [keyBytes_eq ht]
  refine ⟨?_, bodyValue_byte hh (by omega) rfl (by omega)⟩
  rw [noticeKey, bodyValue_byte hh (by omega) rfl (show key.gate ≤ 255 by omega),
    bodyValue16_ticket hh (by omega) rfl rfl ht,
    bodyValue_byte hh (by omega) rfl (show key.line ≤ 255 by omega)]

theorem arriveSpec_sent {spec : PackSpec} (hf : spec.family ≤ 63) (hs : spec.size ≤ 15)
    (hg : spec.grade ≤ 7) :
    arriveSpec (cleanFrame 2 (sentCharacters (header ++ noticeBytes (.arrive spec)))) = spec := by
  have hsize : (spec.size * 16 + spec.grade) / 16 = spec.size := by omega
  have hgrade : (spec.size * 16 + spec.grade) % 8 = spec.grade := by omega
  rw [arriveBytes_eq, arriveSpec, bodyValue_byte hh (by omega) rfl (show spec.family ≤ 255 by omega),
    bodyValue_byte hh (by omega) rfl (show spec.size * 16 + spec.grade ≤ 255 by omega), hsize, hgrade]

theorem grantFields_sent {r : CallRecord} {winner count : Nat} (ht : r.ticket ≤ 65535) (hl : r.line ≤ 4)
    (hw : winner ≤ 63) (hc : count ≤ 8) :
    grantFields (cleanFrame 5 (sentCharacters (header ++ grantBytes r winner count)))
      = { ticket := r.ticket, line := r.line, winner := winner, count := count } := by
  rw [grantBytes_eq ht, grantFields, bodyValue16_ticket hh (by omega) rfl rfl ht,
    bodyValue_byte hh (by omega) rfl (show r.line ≤ 255 by omega),
    bodyValue_byte hh (by omega) rfl (show winner ≤ 255 by omega),
    bodyValue_byte hh (by omega) rfl (show count ≤ 255 by omega)]

theorem callFields_sent {r : CallRecord} (ht : r.ticket ≤ 65535) (hl : r.line ≤ 4) (hb : r.bay ≤ 8)
    (hf : r.spec.family ≤ 63) (hs : r.spec.size ≤ 15) (hg : r.spec.grade ≤ 7) (hw : r.wanted ≤ 99) :
    let c := callFields (cleanFrame 6 (sentCharacters (header ++ callBytes r)))
    c.ticket = r.ticket ∧ c.line = r.line ∧ c.bay = r.bay ∧ c.spec = r.spec
      ∧ c.upgrade = r.upgrade ∧ c.wanted = r.wanted := by
  have hflag : (if r.upgrade then 8 else 0) ≤ 8 := by split <;> omega
  have hsize : (r.spec.size * 16 + (if r.upgrade then 8 else 0) + r.spec.grade) / 16 = r.spec.size := by
    split <;> omega
  have hgrade : (r.spec.size * 16 + (if r.upgrade then 8 else 0) + r.spec.grade) % 8 = r.spec.grade := by
    split <;> omega
  have hupgrade : ((r.spec.size * 16 + (if r.upgrade then 8 else 0) + r.spec.grade) / 8 % 2 == 1)
      = r.upgrade := by
    cases r.upgrade <;> simp <;> omega
  have hline : (r.line * 16 + r.bay) / 16 = r.line := by omega
  have hbay : (r.line * 16 + r.bay) % 16 = r.bay := by omega
  rw [callBytes_eq ht]
  dsimp only [callFields]
  rw [bodyValue16_ticket hh (by omega) rfl rfl ht,
    bodyValue_byte hh (by omega) rfl (show r.line * 16 + r.bay ≤ 255 by omega),
    bodyValue_byte hh (by omega) rfl (show r.spec.family ≤ 255 by omega),
    bodyValue_byte hh (by omega) rfl
      (show r.spec.size * 16 + (if r.upgrade then 8 else 0) + r.spec.grade ≤ 255 by omega),
    bodyValue_byte hh (by omega) rfl (show r.wanted ≤ 255 by omega), hsize, hgrade, hupgrade, hline, hbay]
  exact ⟨rfl, rfl, rfl, rfl, rfl, rfl⟩

end Bodies

/-! ### The header -/

theorem senderCharacter_toNat (role : Role) {number : Nat} (h : number ≤ 63) :
    (senderCharacter role number).toNat = number + if role = .gate then 64 else 0 := by
  rw [senderCharacter_eq, BitVec.toNat_ofNat]
  split <;> omega

theorem numberOfSender_sent (role : Role) {number : Nat} (h : number ≤ 63) :
    numberOfSender (senderCharacter role number) = number := by
  rw [numberOfSender, senderCharacter_toNat role h]
  split <;> omega

theorem gateBit_sent (role : Role) {number : Nat} (h : number ≤ 63) :
    gateBit (senderCharacter role number) = true ↔ role = .gate := by
  rw [gateBit, getLsbD_iff_digit, senderCharacter_toNat role h]
  split
  · rename_i hg
    simp only [hg, iff_true]
    omega
  · rename_i hg
    simp only [hg, iff_false]
    omega

theorem senderBit7_sent (role : Role) {number : Nat} (h : number ≤ 63) :
    (senderCharacter role number).getLsbD 7 = false := by
  rw [← Bool.not_eq_true, getLsbD_iff_digit, senderCharacter_toNat role h]
  split <;> omega

theorem header_sent (n : Nat) (kind : FrameKind) (s : State) (body : List Byte) :
    let f := cleanFrame n (sentCharacters (headerBytes kind s ++ body))
    dataBits f.kindChar = kindCode kind
      ∧ dataBits f.sender = senderCharacter s.startup.settings.role s.startup.settings.number
      ∧ headerMinute f = s.clock.minute ∧ headerSet f = s.clock.isSet := by
  rw [headerBytes_eq]
  refine ⟨dataBits_withParity _, dataBits_withParity _, ?_, ?_⟩
  · exact (congrArg₂ (· ++ ·) (dataBits_withParity _) (dataBits_withParity _)).trans
      (BitVec.extractLsb'_append_extractLsb' (w := 8) (len := 8))
  · refine (congrArg (fun b : Byte => b.getLsbD 0) (dataBits_withParity _)).trans ?_
    cases s.clock.isSet <;> rfl

/-- A station that hears every character as it was sent finds no flaw. -/
theorem flawBeforeSlot_sent (n : Nat) (kind : FrameKind) (s : State) (body : List Byte)
    (h : s.startup.settings.number ≤ 63) :
    flawBeforeSlot (cleanFrame n (sentCharacters (headerBytes kind s ++ body))) = false := by
  obtain ⟨hkind, hsender, -, -⟩ := header_sent n kind s body
  have hbody : (cleanFrame n (sentCharacters (headerBytes kind s ++ body))).body.toList.any charFlaw
      = false := by
    simp [cleanFrame, charFlaw_cleanFrame]
  have hframing : (cleanFrame n (sentCharacters (headerBytes kind s ++ body))).framing = .none := rfl
  simp only [flawBeforeSlot, hkind, hsender, hbody, hframing, kindOfCode_kindCode,
    senderBit7_sent s.startup.settings.role h]
  simp [cleanFrame, charFlaw_cleanFrame]

/-- Settles O26: the bytes by the equations of each body, the fields by their read-back lemmas. -/
theorem sentFramesAreReadBack : Obligations.SentFramesAreReadBack := by
  refine ⟨by decide, fun kind s => ?_, ⟨hailBytes_eq, arriveBytes_eq, fun ticket ht => ?_⟩,
    fun kind s body hn => ?_, fun header hh => ⟨hailSerial_sent hh, fun ticket => voidTicket_sent hh,
      fun key count hg ht hl hc => ?_, fun spec => arriveSpec_sent hh, fun r => callFields_sent hh,
      fun r winner count => grantFields_sent hh⟩⟩
  · rw [headerBytes_eq, senderCharacter_eq]
  · refine ⟨ticketBytes_eq ht, fun key count hk => ?_, fun r hr => ?_⟩
    · subst hk
      exact ⟨keyBytes_eq ht count, keyBytes_eq ht count⟩
    · subst hr
      exact ⟨callBytes_eq ht, grantBytes_eq ht⟩
  · obtain ⟨hkind, hsender, hminute, hset⟩ := header_sent (bodyLength kind) kind s body
    refine ⟨flawBeforeSlot_sent _ kind s body hn, ?_, ?_, ?_, hminute, hset⟩
    · rw [hkind, kindOfCode_kindCode]
    · rw [senderNumber, hsender, numberOfSender_sent _ hn]
    · rw [senderIsGate, hsender, gateBit_sent _ hn]
  · obtain ⟨hkey, hcount⟩ := noticeFields_sent hh hg ht hl hc
    exact ⟨hkey, hcount, hkey, hcount⟩

end Sys2Proof.Machine
end

