-- ==== Sys2Proof/Proofs/BidWords.lean ====
section
/-! PROOF. Bid words (O39). -/

namespace Sys2Proof.Machine

/-! ### Characters and their order (R3, R16) -/

theorem toNat_append_eq {m n : Nat} (x : BitVec m) (y : BitVec n) :
    (x ++ y).toNat = x.toNat * 2 ^ n + y.toNat := by
  rw [BitVec.toNat_append, ← Nat.shiftLeft_add_eq_or_of_lt y.isLt, Nat.shiftLeft_eq]

/-- The parity bit is the lowest bit of a character as it is sent. -/
theorem withParity_toNat (b : Byte) :
    2 * b.toNat ≤ (withParity b).toNat ∧ (withParity b).toNat ≤ 2 * b.toNat + 1 := by
  have hparity := (BitVec.ofBool (countOnes b % 2 == 1)).isLt
  rw [withParity, toNat_append_eq]
  omega

/-- Characters are sent in the order of their data. -/
theorem withParity_lt {a b : Byte} (h : a.toNat < b.toNat) :
    (withParity a).toNat < (withParity b).toNat := by
  have ha := (withParity_toNat a).2
  have hb := (withParity_toNat b).1
  omega

theorem charValue_withParity (b : Byte) : charValue (withParity b) = b.toNat := by
  rw [charValue, dataBits_withParity]

theorem wordA_append (a b c : Sampled) : wordA (a ++ b ++ c) = a := by
  rw [wordA, BitVec.append_assoc]
  exact BitVec.extractLsb'_append_eq_left

theorem wordB_append (a b c : Sampled) : wordB (a ++ b ++ c) = b :=
  (BitVec.extractLsb'_append_eq_of_le (Nat.le_refl 9)).trans BitVec.extractLsb'_append_eq_right

theorem wordC_append (a b c : Sampled) : wordC (a ++ b ++ c) = c :=
  BitVec.extractLsb'_append_eq_right

/-! ### A word as it is built (R32, R69) -/

section Built

variable {score shortfall number : Nat}

theorem bidCharacterA_toNat (h : score ≤ 1022) : (bidCharacterA score).toNat = score / 4 := by
  rw [bidCharacterA, byte, BitVec.toNat_ofNat]
  omega

theorem bidCharacterB_toNat (score : Nat) (h : shortfall ≤ 7) :
    (bidCharacterB score shortfall).toNat = score % 4 * 64 + shortfall * 8 := by
  rw [bidCharacterB, byte, BitVec.toNat_ofNat]
  omega

theorem bidCharacterC_toNat (h : number ≤ 63) : (bidCharacterC number).toNat = number := by
  rw [bidCharacterC, byte, BitVec.toNat_ofNat]
  omega

theorem charValueA_bidWord (h : score ≤ 1022) (shortfall number : Nat) :
    charValue (wordA (bidWord score shortfall number)) = score / 4 := by
  rw [bidWord, wordA_append, charValue_withParity, bidCharacterA_toNat h]

theorem charValueB_bidWord (score number : Nat) (h : shortfall ≤ 7) :
    charValue (wordB (bidWord score shortfall number)) = score % 4 * 64 + shortfall * 8 := by
  rw [bidWord, wordB_append, charValue_withParity, bidCharacterB_toNat score h]

theorem charValueC_bidWord (score shortfall : Nat) (h : number ≤ 63) :
    charValue (wordC (bidWord score shortfall number)) = number := by
  rw [bidWord, wordC_append, charValue_withParity, bidCharacterC_toNat h]

theorem bidWord_reads (hs : score ≤ 1022) (hf : shortfall ≤ 7) (hn : number ≤ 63) :
    wordScore (bidWord score shortfall number) = score
      ∧ wordShortfall (bidWord score shortfall number) = shortfall
      ∧ wordStation (bidWord score shortfall number) = number := by
  rw [wordScore, wordShortfall, wordStation, charValueA_bidWord hs, charValueB_bidWord score number hf,
    charValueC_bidWord score shortfall hn]
  omega

theorem classOfWord_bidWord (hs : score ≤ 1022) (hf : shortfall ≤ 7) (hn : number ≤ 63) :
    classOfWord (bidWord score shortfall number) = .bid := by
  have hA : charFlaw (wordA (bidWord score shortfall number)) = false := by
    rw [bidWord, wordA_append, charFlaw_withParity]
  have hB : charFlaw (wordB (bidWord score shortfall number)) = false := by
    rw [bidWord, wordB_append, charFlaw_withParity]
  have hC : charFlaw (wordC (bidWord score shortfall number)) = false := by
    rw [bidWord, wordC_append, charFlaw_withParity]
  have hscore : wordScore (bidWord score shortfall number) ≠ Config.noBidScore := by
    rw [(bidWord_reads hs hf hn).1, Config.noBidScore]
    omega
  have hzeroB : charValue (wordB (bidWord score shortfall number)) % 8 = 0 := by
    rw [charValueB_bidWord score number hf]
    omega
  have hzeroC : charValue (wordC (bidWord score shortfall number)) / 64 = 0 := by
    rw [charValueC_bidWord score shortfall hn]
    omega
  rw [classOfWord, if_neg hscore, hA, hB, hC, hzeroB, hzeroC]
  rfl

end Built

/-! ### The order of words (R16) -/

theorem append_lt_of_high {m n : Nat} {x x' : BitVec m} (y y' : BitVec n) (h : x.toNat < x'.toNat) :
    (x ++ y).toNat < (x' ++ y').toNat := by
  have hy := y.isLt
  have hstep : (x.toNat + 1) * 2 ^ n ≤ x'.toNat * 2 ^ n := Nat.mul_le_mul_right _ h
  rw [toNat_append_eq, toNat_append_eq]
  rw [Nat.succ_mul] at hstep
  omega

theorem append_lt_of_low {m n : Nat} (x : BitVec m) {y y' : BitVec n} (h : y.toNat < y'.toNat) :
    (x ++ y).toNat < (x ++ y').toNat := by
  rw [toNat_append_eq, toNat_append_eq]
  omega

theorem bidWord_lt {a b c x y z : Nat} (hb : b ≤ 7) (hc : c ≤ 63) (hx : x ≤ 1022) (hy : y ≤ 7) (hz : z ≤ 63)
    (h : a < x ∨ (a = x ∧ (b < y ∨ (b = y ∧ c < z)))) :
    (bidWord a b c).toNat < (bidWord x y z).toNat := by
  have hB := bidCharacterB_toNat a hb
  have hY := bidCharacterB_toNat x hy
  rcases h with hax | ⟨rfl, hby | ⟨rfl, hcz⟩⟩
  · have hA := bidCharacterA_toNat (score := a) (by omega)
    have hX := bidCharacterA_toNat hx
    by_cases hhigh : a / 4 < x / 4
    · exact append_lt_of_high _ _ (append_lt_of_high _ _ (withParity_lt (by omega)))
    · have hsame : bidCharacterA a = bidCharacterA x := BitVec.eq_of_toNat_eq (by omega)
      rw [bidWord, bidWord, hsame]
      exact append_lt_of_high _ _ (append_lt_of_low _ (withParity_lt (by omega)))
  · exact append_lt_of_high _ _ (append_lt_of_low _ (withParity_lt (by omega)))
  · have hC := bidCharacterC_toNat hc
    have hZ := bidCharacterC_toNat hz
    exact append_lt_of_low _ (withParity_lt (by omega))

/-- The higher word sends slack at some bit where the lower one pulls (R16). -/
theorem rowLost_of_lt {own sampled : BidWord} (h : sampled.toNat < own.toNat) :
    rowLost own sampled = true := by
  rw [rowLost, bne_iff_ne]
  intro hnone
  have hcovered : own = own &&& sampled := by
    ext i hi
    have hbit := congrArg (fun w : BidWord => w[i]) hnone
    simp at hbit
    simpa using hbit
  have hle : (own &&& sampled).toNat ≤ sampled.toNat := by
    rw [BitVec.toNat_and]
    exact Nat.and_le_right
  rw [← hcovered] at hle
  omega

theorem rowLost_self (w : BidWord) : rowLost w w = false := by
  simp [rowLost]

/-! ### Any sampled word (R32) -/

theorem charValueA_eq (w : BidWord) : charValue (wordA w) = (w.extractLsb' 19 8).toNat := by
  simp only [charValue, dataBits, wordA, BitVec.extractLsb'_toNat, Nat.shiftRight_eq_div_pow]
  omega

theorem charValueB_digits (w : BidWord) : charValue (wordB w) / 64 = (w.extractLsb' 16 2).toNat
    ∧ charValue (wordB w) / 8 % 8 = (w.extractLsb' 13 3).toNat
    ∧ charValue (wordB w) % 8 = (w.extractLsb' 10 3).toNat := by
  simp only [charValue, dataBits, wordB, BitVec.extractLsb'_toNat, Nat.shiftRight_eq_div_pow]
  omega

theorem charValueC_digits (w : BidWord) : charValue (wordC w) % 64 = (w.extractLsb' 1 6).toNat
    ∧ charValue (wordC w) / 64 = (w.extractLsb' 7 2).toNat := by
  simp only [charValue, dataBits, wordC, BitVec.extractLsb'_toNat, Nat.shiftRight_eq_div_pow]
  omega

theorem toNat_ne_zero_iff {n : Nat} (x : BitVec n) : x.toNat ≠ 0 ↔ x ≠ 0 := by
  rw [ne_eq, ne_eq, ← BitVec.toNat_inj]
  simp

/-- What makes a word of a score below 1023 flawed. -/
def wrongWord (w : BidWord) : Prop :=
  countOnes (w.extractLsb' 18 9) % 2 = 1 ∨ countOnes (w.extractLsb' 9 9) % 2 = 1
    ∨ countOnes (w.extractLsb' 0 9) % 2 = 1 ∨ w.extractLsb' 10 3 ≠ 0 ∨ w.extractLsb' 7 2 ≠ 0

theorem wrongWord_iff (w : BidWord) : (charFlaw (wordA w) || charFlaw (wordB w) || charFlaw (wordC w)
    || charValue (wordB w) % 8 != 0 || charValue (wordC w) / 64 != 0) = true ↔ wrongWord w := by
  obtain ⟨-, -, hB⟩ := charValueB_digits w
  obtain ⟨-, hC⟩ := charValueC_digits w
  simp only [Bool.or_eq_true, charFlaw_iff, bne_iff_ne, hB, hC, toNat_ne_zero_iff, or_assoc]
  rfl

theorem classOfWord_eq (w : BidWord) [Decidable (wrongWord w)] : classOfWord w =
    if wordScore w = 1023 then .noBid else if wrongWord w then .flawedWord else .bid :=
  if_congr Iff.rfl rfl (if_congr (wrongWord_iff w) rfl rfl)

theorem classOfWord_iff (w : BidWord) : (classOfWord w = .noBid ↔ wordScore w = 1023)
    ∧ (classOfWord w = .flawedWord ↔ wordScore w ≠ 1023 ∧ wrongWord w)
    ∧ (classOfWord w = .bid ↔ wordScore w ≠ 1023 ∧ ¬ wrongWord w) := by
  classical
  rw [classOfWord_eq]
  by_cases hs : wordScore w = 1023
  · simp [hs]
  · by_cases hw : wrongWord w <;> simp [hs, hw]

/-- Settles O39: a built word by its characters, the order by `bidWord_lt`, any word by its digits. -/
theorem bidWordsReadBackAndTheLowestWins : Obligations.BidWordsReadBackAndTheLowestWins := by
  refine ⟨fun score shortfall number hs hf hn => ?_, fun a b c x y z ha hb hc hx hy hz h => ?_, by decide,
    fun w => ?_⟩
  · obtain ⟨hscore, hshort, hstation⟩ := bidWord_reads hs hf hn
    exact ⟨hscore, hshort, congrArg (8 - ·) hshort, hstation, classOfWord_bidWord hs hf hn, rowLost_self _⟩
  · have hlt := bidWord_lt hb hc hx hy hz h
    exact ⟨hlt, rowLost_of_lt hlt⟩
  · obtain ⟨hscore, hshort, -⟩ := charValueB_digits w
    obtain ⟨hno, hflawed, hbid⟩ := classOfWord_iff w
    refine ⟨?_, hshort, rfl, (charValueC_digits w).1, hno, hflawed, hbid⟩
    rw [wordScore, charValueA_eq, hscore]

end Sys2Proof.Machine
end

