-- ==== Sys2Proof/Proofs/GivenNotices.lean ====
section
/-! PROOF. What a notice given to the queue does to it (O19). -/

namespace Sys2Proof.Machine

variable {s : State}

/-! ### What a merge finds (R34) -/

/-- The entry may take up a notice of this body: the same account, and not in flight. -/
def takesUp (body : NoticeBody) (n : Notice) : Prop :=
  sameAccount n.body body = true ∧ n.inFlight = false

theorem mergeNewest_cons_passed {body : NoticeBody} {n : Notice} (h : ¬ takesUp body n)
    (rest : List Notice) :
    mergeNewest body (n :: rest) = (mergeNewest body rest).map fun r => (n :: r.1, r.2) := by
  rw [mergeNewest, if_neg (by simpa [takesUp] using h)]

theorem mergeNewest_cons_full {body : NoticeBody} {n : Notice} (h : takesUp body n)
    (hfull : 8 ≤ countOf n.body) (rest : List Notice) : mergeNewest body (n :: rest) = none := by
  rw [mergeNewest, if_pos (by simpa [takesUp] using h),
    if_neg (show ¬ countOf n.body < Config.countLimit from Nat.not_lt.2 hfull)]

theorem mergeNewest_cons_room {body : NoticeBody} {n : Notice} (h : takesUp body n)
    (hone : countOf body = 1) (hroom : countOf n.body < 8) (rest : List Notice) :
    mergeNewest body (n :: rest) =
      some ({ n with body := withCount n.body (countOf n.body + 1) } :: rest, 0) := by
  have hadded : min 1 (8 - countOf n.body) = 1 := by omega
  rw [mergeNewest, if_pos (by simpa [takesUp] using h),
    if_pos (show countOf n.body < Config.countLimit from hroom), hone]
  simp only [Config.countLimit, hadded, Nat.sub_self]

/-- Entries that take up nothing are passed over. -/
theorem mergeNewest_passed {body : NoticeBody} {newer : List Notice}
    (h : ∀ n ∈ newer, ¬ takesUp body n) (older : List Notice) :
    mergeNewest body (newer ++ older) =
      (mergeNewest body older).map fun r => (newer ++ r.1, r.2) := by
  induction newer with
  | nil => simp
  | cons n rest ih =>
    rw [List.cons_append, mergeNewest_cons_passed (h n (by simp)), ih fun m hm => h m (by simp [hm])]
    simp [Function.comp_def]

/-- The merge in a queue whose newest entry for the account is known. -/
theorem mergeNewest_newest {body : NoticeBody} {after : List Notice}
    (hafter : ∀ n ∈ after, ¬ takesUp body n) (before : List Notice) (target : Notice) :
    mergeNewest body (before ++ target :: after).reverse =
      (mergeNewest body (target :: before.reverse)).map fun r => (after.reverse ++ r.1, r.2) := by
  rw [List.reverse_append, List.reverse_cons, List.append_assoc, List.singleton_append,
    mergeNewest_passed fun n hn => hafter n (List.mem_reverse.1 hn)]

/-- No entry that could take the notice up has room. -/
theorem mergeNewest_none {body : NoticeBody} {queue : List Notice}
    (h : ∀ n ∈ queue, takesUp body n → 8 ≤ countOf n.body) : mergeNewest body queue = none := by
  cases hm : mergeNewest body queue with
  | none => rfl
  | some r =>
    obtain ⟨before, n, after, hq, hflies, hsame, hroom, -⟩ := mergeNewest_eq_some hm
    exact absurd (h n (by simp [hq]) ⟨hsame, hflies⟩) (Nat.not_le.2 hroom)

/-! ### The queue after a notice (R34, R35) -/

/-- A notice is a new entry at the tail. -/
theorem enqueue_room (body : NoticeBody) (h : s.frames.queue.length < 16) :
    enqueue body s = { s with frames := { s.frames with queue := s.frames.queue ++ [newEntry body] } } :=
  if_pos h

theorem queue_full (h : s.frames.queue.length = 16) : ¬ s.frames.queue.length < Config.queueLimit := by
  simp [h, Config.queueLimit]

theorem enqueue_full_arrive (spec : PackSpec) (hfull : s.frames.queue.length = 16) :
    enqueue (.arrive spec) s = s :=
  if_neg (queue_full hfull)

theorem enqueue_full (body : NoticeBody) (hfull : s.frames.queue.length = 16)
    (hbody : ∀ spec, body ≠ .arrive spec) : enqueue body s =
      if s.frames.queue.any isWaitingArrive then
        withQueue (s.frames.queue.eraseP isWaitingArrive ++ [newEntry body]) s
      else flagNoticeLoss s := by
  unfold enqueue
  rw [if_neg (queue_full hfull)]
  cases body with
  | arrive spec => exact absurd rfl (hbody spec)
  | _ => rfl

theorem takeNotice_arrive (spec : PackSpec) (s : State) : takeNotice (.arrive spec) s =
    if s.frames.queue.any (fun n => n.body == .arrive spec) then s else enqueue (.arrive spec) s := rfl

/-- A notice that merges with no entry. -/
theorem takeNotice_unmerged {body : NoticeBody}
    (hfresh : ∀ spec, body = .arrive spec → ∀ n ∈ s.frames.queue, n.body ≠ body)
    (hm : mergeNewest body s.frames.queue.reverse = none) : takeNotice body s = enqueue body s := by
  cases body with
  | arrive spec =>
    rw [takeNotice_arrive, if_neg]
    simpa using hfresh spec rfl
  | _ => simp only [takeNotice, hm]

/-- A counted notice that one entry takes up whole. -/
theorem takeNotice_merged {body : NoticeBody} {queue : List Notice}
    (hbody : ∀ spec, body ≠ .arrive spec)
    (hm : mergeNewest body s.frames.queue.reverse = some (queue, 0)) :
    takeNotice body s = { s with frames := { s.frames with queue := queue.reverse } } := by
  cases body with
  | arrive spec => exact absurd rfl (hbody spec)
  | _ =>
    simp only [takeNotice, hm, if_true]
    rfl

theorem not_arrive_of_count {body : NoticeBody} (h : countOf body = 1) (spec : PackSpec) :
    body ≠ .arrive spec := by
  rintro rfl
  cases h

theorem takeNotice_newest {body : NoticeBody} {before after : List Notice} {target : Notice}
    (hone : countOf body = 1) (hq : s.frames.queue = before ++ target :: after)
    (htarget : takesUp body target) (hafter : ∀ n ∈ after, ¬ takesUp body n)
    (hroom : countOf target.body < 8) : takeNotice body s =
      { s with
        frames := { s.frames with
          queue := before ++
            { target with body := withCount target.body (countOf target.body + 1) } :: after } } := by
  have hm := mergeNewest_newest hafter before target
  rw [← hq, mergeNewest_cons_room htarget hone hroom] at hm
  rw [takeNotice_merged (not_arrive_of_count hone) hm]
  simp

/-- The newest entry for the account is full, and so the notice is a new one. -/
theorem takeNotice_newest_full {body : NoticeBody} {before after : List Notice} {target : Notice}
    (hone : countOf body = 1) (hq : s.frames.queue = before ++ target :: after)
    (htarget : takesUp body target) (hafter : ∀ n ∈ after, ¬ takesUp body n)
    (hfull : 8 ≤ countOf target.body) : takeNotice body s = enqueue body s := by
  have hm := mergeNewest_newest hafter before target
  rw [← hq, mergeNewest_cons_full htarget hfull] at hm
  exact takeNotice_unmerged (fun spec h => absurd h (not_arrive_of_count hone spec)) hm

theorem eraseP_oldest {before after : List Notice} {oldest : Notice}
    (holdest : isWaitingArrive oldest = true) (hbefore : ∀ n ∈ before, isWaitingArrive n = false) :
    (before ++ oldest :: after).eraseP isWaitingArrive = before ++ after := by
  rw [List.eraseP_append_right _ (by simpa using hbefore), List.eraseP_cons_of_pos holdest]

/-- Settles O19: a merge by the newest entry of the account, then the tail, the eviction and the loss by
what `enqueue` does with a notice that no entry takes up. -/
theorem noticesMergeJoinOrEvict : Obligations.NoticesMergeJoinOrEvict := by
  refine ⟨fun body s => ⟨fun spec hb hqueued => ?_,
    fun before target after hone hq hsame hflies hafter => ⟨fun hroom => ?_, fun hfull hlen => ?_⟩,
    fun hlen hnew hnone => ?_⟩, fun body s hlen hfull => ?_⟩
  · subst hb
    rw [takeNotice_arrive, if_pos (by simpa using hqueued)]
  · exact takeNotice_newest hone hq ⟨hsame, hflies⟩ hafter hroom
  · rw [takeNotice_newest_full hone hq ⟨hsame, hflies⟩ hafter hfull]
    exact enqueue_room body hlen
  · have hm := mergeNewest_none (queue := s.frames.queue.reverse) fun n hn h =>
      absurd h (hnone n (List.mem_reverse.1 hn))
    rw [takeNotice_unmerged
      (fun spec hb n hn => (hnew n hn).resolve_right fun h => h spec hb) hm]
    exact enqueue_room body hlen
  · have hm := mergeNewest_none (queue := s.frames.queue.reverse) fun n hn h =>
      hfull n (List.mem_reverse.1 hn) h.1 h.2
    refine ⟨fun spec hb => ?_,
      fun hb => ⟨fun before oldest after hq holdest hbefore => ?_, fun hnone => ?_⟩⟩
    · subst hb
      rw [takeNotice_arrive, enqueue_full_arrive spec hlen, ite_self]
    · rw [takeNotice_unmerged (fun spec h => absurd h (hb spec)) hm, enqueue_full body hlen hb,
        if_pos (by simp [hq, holdest]), hq, eraseP_oldest holdest hbefore]
      rfl
    · rw [takeNotice_unmerged (fun spec h => absurd h (hb spec)) hm, enqueue_full body hlen hb,
        if_neg (by simpa using hnone)]
      rfl

end Sys2Proof.Machine
end

