-- ==== Sys2Proof/Proofs/RoundCloses.lean ====
section
/-! PROOF. The end of a computation (O28) and of a bid window, at a row (O30) and at the owner (O31). -/

namespace Sys2Proof.Machine

variable {s : State}

/-! ### The end of a computation (R40, R70, R71) -/

/-- The computation is over and TW is released. -/
def computationOver (part : RowPart) (bid : BidUnit) (s : State) : State :=
  drive .nothing { withPart part s with bid := bid }

theorem computationComplete_computing {r : BidRecord} (hb : s.bid = .computing r) :
    exec .computationComplete s = .next
      (if durationUs r ≤ limitUs s then
        computationOver .ready (.ready { r with limit := none }
          (computeBid r s.startup.settings.ageCap s.startup.settings.number)) s
      else s) := by
  simp only [exec, execComputationComplete, hb]
  rfl

theorem stretchLimitExpiry_computing {r : BidRecord} (hb : s.bid = .computing r) :
    exec .stretchLimitExpiry s = .next
      (if limitUs s ≤ durationUs r then computationOver .satOut .idle s else s) := by
  simp only [exec, execStretchLimitExpiry, hb]
  rfl

/-- Settles O28: the race by its two comparisons, the end by `computationOver`. -/
theorem computationMeetsItsLimitOrSitsOut : Obligations.ComputationMeetsItsLimitOrSitsOut := by
  intro r s hb
  rw [computationComplete_computing hb, stretchLimitExpiry_computing hb]
  refine ⟨fun h => ?_, fun h => ?_, fun h => ?_, fun h => ?_⟩
  · rw [if_pos (show durationUs r ≤ limitUs s from h)]
    rfl
  · rw [if_neg (show ¬ durationUs r ≤ limitUs s from Nat.not_le.2 h)]
  · rw [if_pos (show limitUs s ≤ durationUs r from h)]
    rfl
  · rw [if_neg (show ¬ limitUs s ≤ durationUs r from Nat.not_le.2 h)]

/-! ### The requests of the Reservation Unit, stack by stack (R48) -/

theorem stackAt_holdPacks (named : List Nat) (stock : Stock) (n : Nat) :
    stackAt (holdPacks named stock) n = (stackAt stock n).map fun p =>
      if p.tag ∈ named ∧ p.state = .free then { p with state := .held } else p := by
  simp [holdPacks, stackAt_mapPacks]

theorem stackAt_settlePacks (named covered : List Nat) (order : Reservation) (stock : Stock) (n : Nat) :
    stackAt (settlePacks named covered order stock) n = (stackAt stock n).map fun p =>
      if p.tag ∈ covered ∧ p.state = .held then { p with state := .reserved order }
      else if p.tag ∈ named ∧ p.state = .held then { p with state := .free }
      else p := by
  rw [settlePacks, stackAt_mapPacks]
  refine List.map_congr_left fun p _ => ?_
  by_cases hheld : p.state = .held
  · simp [hheld]
  · simp [hheld]

theorem stackAt_releasePacks (named : List Nat) (stock : Stock) (n : Nat) :
    stackAt (releasePacks named stock) n = (stackAt stock n).map fun p =>
      if p.tag ∈ named ∧ isReserved p.state = true then { p with state := .free } else p := by
  simp [releasePacks, stackAt_mapPacks]

/-! ### The close of the window (R41, R75, R125) -/

/-- The window's pulses have begun. -/
def inWindow (v : RoundView) : Prop := v.phase = .window ∧ v.pulsing = true

theorem bidWindowClose_bid {v : RoundView} {word : BidWord} (ho : observes s = true)
    (hr : s.frames.round = some v) (hw : inWindow v) (hc : classOfWord word = .bid) (dw : Bool) :
    exec (.bidWindowClose word dw) s = .next
      (toGrantWait (if v.own then closeWithBid word (closeBid word s) else closeBid word s)) := by
  obtain ⟨hp, hpulsing⟩ := hw
  simp only [exec, execBidWindowClose, hr, ho, hp, hpulsing, hc, and_self, if_true]

theorem bidWindowClose_noBid {v : RoundView} {word : BidWord} (ho : observes s = true)
    (hr : s.frames.round = some v) (hw : inWindow v) (hc : classOfWord word = .noBid) (dw : Bool) :
    exec (.bidWindowClose word dw) s = .next
      (endRound dw (if v.own then closeNoBid (closeBid word s) else closeBid word s)) := by
  obtain ⟨hp, hpulsing⟩ := hw
  simp only [exec, execBidWindowClose, hr, ho, hp, hpulsing, hc, and_self, if_true]

theorem bidWindowClose_flawed {v : RoundView} {word : BidWord} (ho : observes s = true)
    (hr : s.frames.round = some v) (hw : inWindow v) (hc : classOfWord word = .flawedWord) (dw : Bool) :
    exec (.bidWindowClose word dw) s = .next (endRound dw (closeBid word s)) := by
  obtain ⟨hp, hpulsing⟩ := hw
  simp only [exec, execBidWindowClose, hr, ho, hp, hpulsing, hc, and_self, if_true]

theorem toGrantWait_eq {v : RoundView} (hr : s.frames.round = some v) : toGrantWait s =
    { s with
      line := { s.line with driving := .nothing }
      frames := { s.frames with
        round := some { v with phase := .grantWait, silence := 0, pulsing := false } } } := by
  simp [toGrantWait, hr, withRound, drive]

/-- A round of another station ends: its view is gone and the line is free. -/
theorem endRound_untold {v : RoundView} (hr : s.frames.round = some v)
    (h : v.own = false ∨ s.arbiter = .idle) (dw : Bool) : endRound dw s =
      { s with
        line := freedLine dw s.line
        frames := { s.frames with round := none, yieldRecord := v.own } } := by
  rw [endRound_eq hr, toldArbiter_untold h]

/-! ### The Bid Unit at the close (R74, R75, R79) -/

theorem closeBid_idle (word : BidWord) (hb : s.bid = .idle) : closeBid word s = s := by
  simp [closeBid, hb]

theorem closeBid_lost {r : BidRecord} {res : BidResult} {word : BidWord} (hb : s.bid = .bidding r res)
    (h : r.lost = true ∨ rowLost res.word word = true) :
    closeBid word s = withPart .none { s with bid := .idle } := by
  simp only [closeBid, hb, Bool.or_eq_true, if_pos h]

theorem closeBid_won {r : BidRecord} {res : BidResult} {word : BidWord} (hb : s.bid = .bidding r res)
    (hnote : r.lost = false) (hword : rowLost res.word word = false) :
    closeBid word s = createHold (orderOfCall r.call) (res.selection.map fun a => a.tag)
      (withPart .none { s with bid := .idle }) := by
  simp only [closeBid, hb, hnote, hword, Bool.or_self, Bool.false_eq_true, if_false]

/-- R41, R75: another station's round goes on to GRANT WAIT on a bid, and ends on any other class. -/
theorem bidWindowClose_other {v w : RoundView} {word : BidWord} (ho : observes s = true)
    (hr : s.frames.round = some v) (hw : inWindow v) (hown : v.own = false)
    (hclosed : (closeBid word s).frames.round = some w) (hwown : w.own = false) (dw : Bool) :
    (classOfWord word = .bid → exec (.bidWindowClose word dw) s = .next
      { closeBid word s with
        line := { s.line with driving := .nothing }
        frames := { (closeBid word s).frames with
          round := some { w with phase := .grantWait, silence := 0, pulsing := false } } }) ∧
    (classOfWord word ≠ .bid → exec (.bidWindowClose word dw) s = .next
      { closeBid word s with
        line := freedLine dw s.line
        frames := { (closeBid word s).frames with round := none, yieldRecord := false } }) := by
  have hend : endRound dw (closeBid word s) = { closeBid word s with
      line := freedLine dw s.line
      frames := { (closeBid word s).frames with round := none, yieldRecord := false } } := by
    rw [endRound_untold hclosed (.inl hwown), hwown, closeBid_line]
  refine ⟨fun hc => ?_, fun hc => ?_⟩
  · rw [bidWindowClose_bid ho hr hw hc, hown, if_neg Bool.false_ne_true, toGrantWait_eq hclosed,
      closeBid_line]
  · rw [← hend]
    cases hclass : classOfWord word with
    | bid => exact absurd hclass hc
    | noBid => rw [bidWindowClose_noBid ho hr hw hclass, hown, if_neg Bool.false_ne_true]
    | flawedWord => exact bidWindowClose_flawed ho hr hw hclass dw

/-- Settles O30: the requests stack by stack; the close by what `closeBid` makes of the bid. -/
theorem windowCloseAtARow : Obligations.WindowCloseAtARow := by
  refine ⟨fun stock n => ⟨fun named => stackAt_holdPacks named stock n,
    fun named covered order => stackAt_settlePacks named covered order stock n,
    fun named => stackAt_releasePacks named stock n⟩, fun word dw v s ho hr hp hpulsing hown => ?_⟩
  have hpart : (withPart .none { s with bid := .idle }).frames =
      { s.frames with round := some { v with part := .none } } := by simp [withPart, withRound, hr]
  refine ⟨fun hb => ?_, fun r res hb => ⟨fun hlost => ?_, fun hnote hword hc => ?_⟩⟩
  · have hclose := closeBid_idle word hb
    have h := bidWindowClose_other (word := word) ho hr ⟨hp, hpulsing⟩ hown (by rw [hclose]; exact hr)
      hown dw
    rwa [hclose] at h
  · have hclose := closeBid_lost hb hlost
    have h := bidWindowClose_other (w := { v with part := .none }) ho hr ⟨hp, hpulsing⟩ hown
      (by rw [hclose, hpart]) hown dw
    rw [hclose, hpart] at h
    exact h
  · have hclose := closeBid_won hb hnote hword
    have h := bidWindowClose_other (w := { v with part := .none }) ho hr ⟨hp, hpulsing⟩ hown
      (by rw [hclose, createHold_frames, hpart]) hown dw
    rw [hclose, createHold_frames, hpart] at h
    exact h.1 hc

/-! ### An empty round of the called line (R114, R126) -/

theorem emptyOnLine_open {l : OrderLine} (ho : lineState l = .openLine) :
    emptyOnLine l = { l with emptyRounds := l.emptyRounds + 1 } :=
  if_pos ho

/-- R101: an OPEN line has W not yet taken, some of it not granted, and fewer than 3 empty rounds. -/
theorem lineState_open_iff (l : OrderLine) : lineState l = .openLine ↔
    lineTaken l ≠ l.wanted ∧ lineOpen l ≠ 0 ∧ l.emptyRounds < 3 := by
  unfold lineState
  by_cases htaken : lineTaken l = l.wanted
  · simp [htaken]
  by_cases hopen : lineOpen l = 0
  · simp [htaken, hopen]
  by_cases hrounds : l.emptyRounds < 3
  · simp [htaken, hopen, hrounds, Config.emptyRoundLimit]
  · simp [htaken, hopen, hrounds, Config.emptyRoundLimit]

/-- The third empty round in a row makes an OPEN line SHORT. -/
theorem lineState_emptyOnLine {l : OrderLine} (ho : lineState l = .openLine) :
    lineState (emptyOnLine l) = if l.emptyRounds = 2 then .short else .openLine := by
  obtain ⟨htaken, hopen, hrounds⟩ := (lineState_open_iff l).1 ho
  have hlt : l.emptyRounds + 1 < 3 ↔ ¬ l.emptyRounds = 2 := by omega
  rw [emptyOnLine_open ho]
  change (if lineTaken l = l.wanted then LineState.done else if lineOpen l = 0 then .covered
    else if l.emptyRounds + 1 < 3 then .openLine else .short) = _
  rw [if_neg htaken, if_neg hopen, if_congr hlt rfl rfl, ite_not]

theorem lineState_emptyOnLine_done (l : OrderLine) :
    (lineState (emptyOnLine l) == .done) = (lineState l == .done) := by
  by_cases ho : lineState l = .openLine
  · rw [lineState_emptyOnLine ho, ho]
    split <;> rfl
  · rw [emptyOnLine, if_neg ho]

theorem truckState_emptyOnLine (n : Nat) (u : Truck) :
    truckState (mapTruckLine n emptyOnLine u) = truckState u := by
  have hlines : (mapTruckLine n emptyOnLine u).lines.map (fun l => lineState l == .done) =
      u.lines.map fun l => lineState l == .done := by
    refine List.ext_getElem? fun i => ?_
    simp only [mapTruckLine, List.getElem?_map, List.getElem?_mapIdx, Option.map_map]
    cases u.lines[i]? with
    | none => rfl
    | some l =>
      simp only [Option.map_some, Function.comp_apply]
      split
      · rw [lineState_emptyOnLine_done]
      · rfl
  have hall := congrArg (fun b : List Bool => b.all id) hlines
  simp only [List.all_map, Function.id_comp] at hall
  simp only [truckState, hall]
  rfl

/-- A truck whose state stays is not LOADED anew. -/
theorem newlyLoaded_of_truckState {trucks : List Truck} {g : Truck → Truck}
    (hnd : (trucks.map fun u => u.ticket).Nodup)
    (h : ∀ u ∈ trucks, (g u).ticket = u.ticket ∧ truckState (g u) = truckState u) :
    newlyLoaded trucks (trucks.map g) = [] := by
  simp only [newlyLoaded, List.map_eq_nil_iff, List.filter_eq_nil_iff, List.mem_map,
    forall_exists_index, and_imp, forall_apply_eq_imp_iff₂]
  intro u hu
  obtain ⟨hticket, hstate⟩ := h u hu
  simp [hticket, findTruck_of_mem hnd hu, hstate]

theorem newlyLoaded_emptyOnLine {trucks : List Truck} (hnd : (trucks.map fun u => u.ticket).Nodup)
    (ticket n : Nat) : newlyLoaded trucks (mapOrderLine ticket n emptyOnLine trucks) = [] := by
  rw [mapOrderLine_eq]
  refine newlyLoaded_of_truckState hnd fun u _ => ?_
  split
  · exact ⟨rfl, truckState_emptyOnLine n u⟩
  · exact ⟨rfl, rfl⟩

/-- Tickets are distinct, so only the named line is replaced. -/
theorem mapOrderLine_congr {trucks : List Truck} (hnd : (trucks.map fun u => u.ticket).Nodup)
    {ticket n : Nat} {l : OrderLine} (hl : findOrderLine ticket n trucks = some l)
    {f g : OrderLine → OrderLine} (hfg : f l = g l) :
    mapOrderLine ticket n f trucks = mapOrderLine ticket n g trucks := by
  obtain ⟨w, hw, hwl⟩ := Option.bind_eq_some_iff.1 hl
  simp only [mapOrderLine_eq]
  refine List.map_congr_left fun u hu => ?_
  split
  · rename_i hticket
    obtain rfl : u = w := Option.some_inj.1 ((findTruck_of_mem hnd hu).symm.trans (hticket ▸ hw))
    simp only [mapTruckLine, Truck.mk.injEq, true_and]
    refine List.ext_getElem? fun i => ?_
    simp only [List.getElem?_mapIdx]
    cases hi : u.lines[i]? with
    | none => rfl
    | some l' =>
      simp only [Option.map_some]
      split
      · rename_i hn
        subst hn
        obtain rfl : l' = l := Option.some_inj.1 (hi.symm.trans hwl)
        rw [hfg]
      · rfl
  · rfl

/-- The called line's SHORT report, given at the third empty round (R114). -/
def shortReported (r : CallRecord) (l : OrderLine) (s : State) : State :=
  if l.emptyRounds = 2 then giveReport (shortReport r.ticket r.line) s else s

theorem emptyRound_eq {r : CallRecord} {l : OrderLine} (hs : TrucksSound s.trucks)
    (hl : findOrderLine r.ticket r.line s.trucks = some l) (ho : lineState l = .openLine) :
    emptyRound r s = requestBays s.trucks
      (shortReported r l (withTrucks (mapOrderLine r.ticket r.line emptyOnLine s.trucks) s)) := by
  obtain ⟨-, hnd, -⟩ := hs
  have henters : (lineState l != .short && lineState (emptyOnLine l) == .short) =
      decide (l.emptyRounds = 2) := by
    rw [lineState_emptyOnLine ho, ho]
    split <;> simp [*]
  have htrucks : (shortReported r l
      (withTrucks (mapOrderLine r.ticket r.line emptyOnLine s.trucks) s)).trucks =
        mapOrderLine r.ticket r.line emptyOnLine s.trucks := by
    unfold shortReported
    split <;> simp
  have hannounce : emptyRound r s = announceTrucks s.trucks
      (shortReported r l (withTrucks (mapOrderLine r.ticket r.line emptyOnLine s.trucks) s)) := by
    simp only [emptyRound, hl, henters, decide_eq_true_eq, shortReported]
  rw [hannounce, announceTrucks, htrucks, newlyLoaded_emptyOnLine hnd]
  rfl

/-- A field line that is no lamp of these bays keeps what it shows. -/
theorem requestBays_lamp_of_not_mem (before : List Truck) {bays : List Nat} (s : State) {i : Fin 8}
    (h : ∀ b ∈ bays, s.startup.settings.lines[i].function ≠ .bayLamp b) :
    (bays.foldl (requestBay before) s).signal.lamps[i] = s.signal.lamps[i] := by
  induction bays generalizing s with
  | nil => rfl
  | cons b rest ih =>
    rw [List.foldl_cons, ih _ fun c hc => by simpa using h c (by simp [hc]), requestBay_lamp,
      if_neg fun hb => h b (by simp) hb.1]

theorem requestBays_lamp_other (before : List Truck) (s : State) {i : Fin 8}
    (h : ∀ bay : Fin 8, s.startup.settings.lines[i].function ≠ .bayLamp (bay + 1)) :
    (requestBays before s).signal.lamps[i] = s.signal.lamps[i] := by
  refine requestBays_lamp_of_not_mem before s fun b hb => ?_
  obtain ⟨bay, rfl⟩ : ∃ bay : Fin 8, b = bay + 1 := by
    simp only [List.mem_cons, List.not_mem_nil, or_false] at hb
    exact ⟨⟨b - 1, by omega⟩, by simp only; omega⟩
  exact h bay

/-! ### The owner at the close (R38, R41, R125 to R127) -/

/-- R38: a round this gate called ends, and its arbiter is free to choose again. -/
theorem endRound_called {v : RoundView} {r : CallRecord} (hr : s.frames.round = some v)
    (hown : v.own = true) (ha : s.arbiter = .calling r) (dw : Bool) : endRound dw s =
      { s with
        arbiter := arbiterOf (callChoice s)
        line := freedLine dw s.line
        frames := { s.frames with round := none, yieldRecord := true } } := by
  rw [endRound_eq hr, hown, toldArbiter_attempts (.inl ⟨r, ha⟩)]

theorem closeNoBid_calling {r : CallRecord} (ha : s.arbiter = .calling r) :
    closeNoBid s = emptyRound r s := by
  simp only [closeNoBid, ha]

theorem closeNoBid_idle (ha : s.arbiter = .idle) : closeNoBid s = s := by
  simp only [closeNoBid, ha]

/-- R127: what the row offers and the line still wants, or nothing while halt is asserted. -/
theorem closeWithBid_calling {r : CallRecord} {l : OrderLine} (word : BidWord)
    (ha : s.arbiter = .calling r) (hl : findOrderLine r.ticket r.line s.trucks = some l) :
    closeWithBid word s =
      { s with
        arbiter := .granting r (wordStation word) (wordOffered word)
          (if haltAsserted s then 0 else min (wordOffered word) (lineOpen l)) } := by
  simp only [closeWithBid, ha, grantedCount, hl]

/-- An owner whose arbiter is IDLE follows its round to the close. -/
theorem bidWindowClose_collided {v : RoundView} {word : BidWord} (ho : observes s = true)
    (hr : s.frames.round = some v) (hw : inWindow v) (hown : v.own = true) (hb : s.bid = .idle)
    (ha : s.arbiter = .idle) (dw : Bool) :
    (classOfWord word = .bid → exec (.bidWindowClose word dw) s = .next (toGrantWait s)) ∧
    (classOfWord word ≠ .bid → exec (.bidWindowClose word dw) s = .next (endRound dw s)) := by
  have hclose := closeBid_idle word hb
  refine ⟨fun hc => ?_, fun hc => ?_⟩
  · rw [bidWindowClose_bid ho hr hw hc, if_pos hown, hclose, closeWithBid_idle word ha]
  · cases hclass : classOfWord word with
    | bid => exact absurd hclass hc
    | noBid => rw [bidWindowClose_noBid ho hr hw hclass, if_pos hown, hclose, closeNoBid_idle ha]
    | flawedWord => rw [bidWindowClose_flawed ho hr hw hclass, hclose]

/-- The lamps and the port after an empty round, by the state before its bay lamps are requested. -/
theorem shortReported_rest (r : CallRecord) (l : OrderLine) (trucks : List Truck) (s : State) :
    (shortReported r l (withTrucks trucks s)).trucks = trucks
      ∧ (shortReported r l (withTrucks trucks s)).startup = s.startup
      ∧ (shortReported r l (withTrucks trucks s)).signal = s.signal
      ∧ (shortReported r l (withTrucks trucks s)).port = (shortReported r l s).port := by
  unfold shortReported
  split
  · exact ⟨by simp, by simp, by simp, by rw [giveReport_port, giveReport_port]; rfl⟩
  · exact ⟨rfl, rfl, rfl, rfl⟩

/-- R114, R116, R126: an empty round of an OPEN line in the table, at the port and on the lamps. -/
theorem emptyRound_announced {r : CallRecord} {l : OrderLine} (hs : TrucksSound s.trucks)
    (hl : findOrderLine r.ticket r.line s.trucks = some l) (ho : lineState l = .openLine) :
    (emptyRound r s).trucks = mapOrderLine r.ticket r.line
        (fun l => { l with emptyRounds := l.emptyRounds + 1 }) s.trucks
      ∧ (emptyRound r s).port = (shortReported r l s).port
      ∧ (∀ (i : Fin 8) (bay : Fin 8), s.startup.settings.lines[i].function = .bayLamp (bay + 1) →
          (emptyRound r s).signal.lamps[i] =
            if bayCondition s.trucks (bay + 1) = bayCondition (emptyRound r s).trucks (bay + 1) then
              s.signal.lamps[i]
            else
              requestLamp (haltAsserted s)
                (bayPattern (bayCondition (emptyRound r s).trucks (bay + 1))) s.signal.lamps[i])
      ∧ (∀ i : Fin 8, (∀ bay : Fin 8, s.startup.settings.lines[i].function ≠ .bayLamp (bay + 1)) →
          (emptyRound r s).signal.lamps[i] = s.signal.lamps[i])
      ∧ (emptyRound r s).signal.inputs = s.signal.inputs
      ∧ (emptyRound r s).signal.horn = s.signal.horn := by
  obtain ⟨htrucks, hstartup, hsignal, hport⟩ := shortReported_rest r l
    (mapOrderLine r.ticket r.line emptyOnLine s.trucks) s
  have hhalt := (haltAsserted_congr (congrArg StartUp.settings hstartup)
    (congrArg SignalUnit.inputs hsignal)).1
  rw [emptyRound_eq hs hl ho]
  refine ⟨?_, ?_, fun i bay hf => ?_, fun i hf => ?_, ?_, ?_⟩
  · obtain ⟨-, hnd, -⟩ := hs
    rw [requestBays_trucks, htrucks]
    exact mapOrderLine_congr hnd hl (emptyOnLine_open ho)
  · rw [requestBays_port, hport]
  · rw [requestBays_lamp s.trucks _ (by rwa [hstartup]), hhalt, hsignal, requestBays_trucks]
  · rw [requestBays_lamp_other s.trucks _ (by rwa [hstartup]), hsignal]
  · rw [requestBays_inputs, hsignal]
  · rw [requestBays_horn, hsignal]

/-- Settles O31: an IDLE arbiter by `bidWindowClose_collided`; a calling one by the word's class, no bid by
`emptyRound_announced`. -/
theorem windowCloseAtTheOwner : Obligations.WindowCloseAtTheOwner := by
  refine ⟨fun word dw v s ho hr hp hpulsing hown hb ha => ?_,
    fun word dw v r l s hst hr hp hpulsing hown hb ha hl => ?_⟩
  · have h := bidWindowClose_collided (word := word) ho hr ⟨hp, hpulsing⟩ hown hb ha dw
    have hend := endRound_untold hr (.inr ha) dw
    rw [hown] at hend
    rwa [toGrantWait_eq hr, hend] at h
  have ho : observes s = true := by simp [observes, hst]
  have hclose (word : BidWord) : closeBid word s = s := closeBid_idle word hb
  refine ⟨fun hc hopen hs => ?_, fun hc => ?_, fun hc => ?_⟩
  · obtain ⟨htrucks, hport, hlamps, hothers, hinputs, hhorn⟩ := emptyRound_announced hs hl hopen
    have hend := endRound_called (s := emptyRound r s) (by simpa using hr) hown (by simpa using ha) dw
    have hnext : exec (.bidWindowClose word dw) s = .next (endRound dw (emptyRound r s)) := by
      rw [bidWindowClose_noBid ho hr ⟨hp, hpulsing⟩ hc, if_pos hown, hclose, closeNoBid_calling ha]
    rw [hend] at hnext
    refine ⟨_, hnext, htrucks, ?_, by simp, by simp [freedLine], by simp [freedLine], by simp [freedLine],
      hport, hlamps, hothers, hinputs, hhorn, by simp [RowUnchanged], by simp, by simp [ControlUnchanged]⟩
    exact congrArg arbiterOf (callChoice_congr _ _ rfl rfl rfl)
  · rw [bidWindowClose_flawed ho hr ⟨hp, hpulsing⟩ hc, hclose, endRound_called hr hown ha,
      callChoice_congr s { s with arbiter := .idle } rfl rfl rfl]
  · rw [bidWindowClose_bid ho hr ⟨hp, hpulsing⟩ hc, if_pos hown, hclose,
      closeWithBid_calling word ha hl]
    exact congrArg _ (toGrantWait_eq hr)

end Sys2Proof.Machine
end

