-- ==== Sys2Proof/Proofs/AwardAccounts.lean ====
section
/-! PROOF. What TAKEN, LAPSE and HAIL do to the award records and the accounts of a line (O25). -/

namespace Sys2Proof.Machine

variable {row count : Nat} {l : OrderLine}

/-! ### A count shared out over a row's records (R104, R105)

A TAKEN and a LAPSE go through the row's records in an order, and each record bears what the count leaves
after those before it. They differ in the order and in the field that bears it. -/

/-- What the row's records still hold. -/
def rowHeld (row : Nat) (awards : List Award) : Nat :=
  ((awards.filter fun a => a.row = row).map untaken).sum

/-- A record spends what a count covers of it. -/
def spendAward (count : Nat) (a : Award) : Award := { a with taken := a.taken + min count (untaken a) }

/-- A record is lowered by what a count covers of it. -/
def lowerAward (count : Nat) (a : Award) : Award := { a with granted := a.granted - min count (untaken a) }

/-- A count borne by a row's records, first record first. -/
def shareOut (bear : Nat → Award → Award) (row : Nat) : Nat → List Award → List Award
  | _, [] => []
  | count, a :: rest =>
    if a.row = row then bear count a :: shareOut bear row (count - untaken a) rest
    else a :: shareOut bear row count rest

theorem spendAwards_eq (row count : Nat) (awards : List Award) :
    spendAwards row count awards = (shareOut spendAward row count awards, count - rowHeld row awards) := by
  induction awards generalizing count with
  | nil => rfl
  | cons a rest ih =>
    by_cases h : a.row = row
    · simp [spendAwards, shareOut, h, ih, tsub_min, spendAward, rowHeld, Nat.sub_sub]
    · simp [spendAwards, shareOut, h, ih, rowHeld]

theorem withdrawAwards_eq (row count : Nat) (awards : List Award) :
    withdrawAwards row count awards = shareOut lowerAward row count awards := by
  induction awards generalizing count with
  | nil => rfl
  | cons a rest ih =>
    by_cases h : a.row = row
    · simp [withdrawAwards, shareOut, h, ih, tsub_min, lowerAward]
    · simp [withdrawAwards, shareOut, h, ih]

@[simp] theorem rowHeld_nil (row : Nat) : rowHeld row [] = 0 := rfl

theorem rowHeld_cons (row : Nat) (a : Award) (rest : List Award) :
    rowHeld row (a :: rest) = if a.row = row then untaken a + rowHeld row rest else rowHeld row rest := by
  by_cases h : a.row = row <;> simp [rowHeld, h]

theorem rowHeld_reverse (row : Nat) (awards : List Award) :
    rowHeld row awards.reverse = rowHeld row awards := by
  simp [rowHeld]

section shareOut

variable {bear : Nat → Award → Award}

theorem shareOut_append (row count : Nat) (first rest : List Award) :
    shareOut bear row count (first ++ rest) =
      shareOut bear row count first ++ shareOut bear row (count - rowHeld row first) rest := by
  induction first generalizing count with
  | nil => rfl
  | cons a tail ih =>
    by_cases h : a.row = row
    · simp [shareOut, rowHeld_cons, h, ih, Nat.sub_sub]
    · simp [shareOut, rowHeld_cons, h, ih]

theorem shareOut_length (row count : Nat) (awards : List Award) :
    (shareOut bear row count awards).length = awards.length := by
  induction awards generalizing count with
  | nil => rfl
  | cons a rest ih => unfold shareOut; split <;> simp [ih]

theorem mem_shareOut {b : Award} {awards : List Award} (hb : b ∈ shareOut bear row count awards) :
    ∃ a ∈ awards, b = a ∨ ∃ c, b = bear c a := by
  induction awards generalizing count with
  | nil => simp [shareOut] at hb
  | cons a rest ih =>
    have hrest {c : Nat} (h : b ∈ shareOut bear row c rest) :
        ∃ a' ∈ a :: rest, b = a' ∨ ∃ c, b = bear c a' := by
      obtain ⟨a', ha', hb'⟩ := ih h
      exact ⟨a', List.mem_cons_of_mem a ha', hb'⟩
    unfold shareOut at hb
    split at hb
    · rcases List.mem_cons.1 hb with rfl | hb
      · exact ⟨a, List.mem_cons_self, .inr ⟨count, rfl⟩⟩
      · exact hrest hb
    · rcases List.mem_cons.1 hb with rfl | hb
      · exact ⟨b, List.mem_cons_self, .inl rfl⟩
      · exact hrest hb

/-- Records of other rows keep their order and their counts. -/
theorem shareOut_others (hrow : ∀ c a, (bear c a).row = a.row) (row count : Nat) (awards : List Award) :
    (shareOut bear row count awards).filter (fun a => a.row ≠ row) =
      awards.filter fun a => a.row ≠ row := by
  induction awards generalizing count with
  | nil => rfl
  | cons a rest ih =>
    by_cases h : a.row = row
    · have hbear : ¬ (bear count a).row ≠ row := by simp [hrow, h]
      rw [shareOut, if_pos h, List.filter_cons_of_neg (by simpa using hbear), ih,
        List.filter_cons_of_neg (by simpa using h)]
    · rw [shareOut, if_neg h, List.filter_cons_of_pos (by simpa using h), ih,
        List.filter_cons_of_pos (by simpa using h)]

/-- A field that bearing leaves alone keeps its sum. -/
theorem shareOut_kept_sum {field : Award → Nat} (hkept : ∀ c a, field (bear c a) = field a)
    (row count : Nat) (awards : List Award) :
    ((shareOut bear row count awards).map field).sum = (awards.map field).sum := by
  induction awards generalizing count with
  | nil => rfl
  | cons a rest ih => unfold shareOut; split <;> simp [hkept, ih]

end shareOut

theorem spent_sum (row count : Nat) (awards : List Award) :
    ((shareOut spendAward row count awards).map fun a => a.taken).sum =
      (awards.map fun a => a.taken).sum + min count (rowHeld row awards) := by
  induction awards generalizing count with
  | nil => simp [shareOut]
  | cons a rest ih =>
    by_cases h : a.row = row
    · simp only [shareOut, if_pos h, rowHeld_cons, List.map_cons, List.sum_cons, ih, spendAward]
      omega
    · simp only [shareOut, if_neg h, rowHeld_cons, List.map_cons, List.sum_cons, ih]
      omega

theorem lowered_sum (row count : Nat) (awards : List Award) :
    ((shareOut lowerAward row count awards).map fun a => a.granted).sum + min count (rowHeld row awards) =
      (awards.map fun a => a.granted).sum := by
  induction awards generalizing count with
  | nil => simp [shareOut]
  | cons a rest ih =>
    by_cases h : a.row = row
    · have hrest := ih (count - untaken a)
      have huntaken : untaken a ≤ a.granted := Nat.sub_le _ _
      simp only [shareOut, if_pos h, rowHeld_cons, List.map_cons, List.sum_cons, lowerAward]
      omega
    · simp only [shareOut, if_neg h, rowHeld_cons, List.map_cons, List.sum_cons, ← ih count]
      omega

/-! ### Records in range, and complete ones (R99, R100) -/

/-- A record in range that may be complete, t = g. -/
def awardFits (a : Award) : Prop := a.row ≤ 63 ∧ a.taken ≤ a.granted ∧ a.granted ≤ 8

theorem awardSound_iff (a : Award) : awardSound a ↔ awardFits a ∧ untaken a ≠ 0 := by
  simp only [awardSound, awardFits, untaken]
  omega

theorem awardFits_spendAward {a : Award} (h : awardFits a) (count : Nat) :
    awardFits (spendAward count a) := by
  obtain ⟨hrow, htaken, hgranted⟩ := h
  refine ⟨hrow, ?_, hgranted⟩
  simp only [spendAward, untaken]
  omega

theorem awardFits_lowerAward {a : Award} (h : awardFits a) (count : Nat) :
    awardFits (lowerAward count a) := by
  obtain ⟨hrow, htaken, hgranted⟩ := h
  refine ⟨hrow, ?_, ?_⟩ <;> simp only [lowerAward, untaken] <;> omega

theorem untaken_spendAward (count : Nat) (a : Award) :
    untaken (spendAward count a) = untaken a - count := by
  simp only [untaken, spendAward]
  omega

theorem untaken_lowerAward (count : Nat) (a : Award) :
    untaken (lowerAward count a) = untaken a - count := by
  simp only [untaken, lowerAward]
  omega

/-! ### What folding keeps (R100) -/

theorem foldAwards_awards (l : OrderLine) :
    (foldAwards l).awards = l.awards.filter fun a => untaken a != 0 := rfl

/-- A field's sum, complete records apart from the others. -/
theorem sum_complete_add_open (field : Award → Nat) (awards : List Award) :
    ((awards.filter fun a => untaken a == 0).map field).sum
      + ((awards.filter fun a => untaken a != 0).map field).sum = (awards.map field).sum := by
  induction awards with
  | nil => rfl
  | cons a rest ih =>
    by_cases h : untaken a = 0
    · simp [h, ← ih, Nat.add_assoc]
    · simp [h, ← ih, Nat.add_left_comm]

theorem lineGranted_foldAwards (l : OrderLine) : lineGranted (foldAwards l) = lineGranted l := by
  have h := sum_complete_add_open (fun a => a.granted) l.awards
  simp only [lineGranted, foldAwards]
  omega

theorem lineTaken_foldAwards (h : ∀ a ∈ l.awards, awardFits a) :
    lineTaken (foldAwards l) = lineTaken l := by
  have hcomplete : (l.awards.filter fun a => untaken a == 0).map (fun a => a.granted) =
      (l.awards.filter fun a => untaken a == 0).map fun a => a.taken := by
    refine List.map_congr_left fun a ha => ?_
    obtain ⟨hmem, hzero⟩ := List.mem_filter.1 ha
    obtain ⟨-, htaken, -⟩ := h a hmem
    simp only [untaken, beq_iff_eq] at hzero
    omega
  have hsum := sum_complete_add_open (fun a => a.taken) l.awards
  simp only [lineTaken, foldAwards, hcomplete]
  omega

theorem lineTaken_le_lineGranted (h : ∀ a ∈ l.awards, awardFits a) : lineTaken l ≤ lineGranted l := by
  refine Nat.add_le_add_left (List.sum_le_sum fun a ha => ?_) l.closed
  obtain ⟨-, htaken, -⟩ := h a ha
  exact htaken

/-- Records in range in the place of a sound line's, with no more granted: their fold is sound. -/
theorem orderLineSound_foldAwards (hl : orderLineSound l) {awards : List Award}
    (hlength : awards.length = l.awards.length) (hfits : ∀ a ∈ awards, awardFits a)
    (hgranted : lineGranted { l with awards := awards } ≤ lineGranted l) :
    orderLineSound (foldAwards { l with awards := awards }) := by
  obtain ⟨hfamily, hsize, hgrade, hwanted, hwanted99, -, hg, hrounds, hlen, -⟩ := hl
  refine ⟨hfamily, hsize, hgrade, hwanted, hwanted99, ?_, ?_, hrounds, ?_, fun a ha => ?_⟩
  · rw [lineTaken_foldAwards hfits, lineGranted_foldAwards]
    exact lineTaken_le_lineGranted hfits
  · rw [lineGranted_foldAwards]
    exact hgranted.trans hg
  · exact (List.length_filter_le _ _).trans (hlength ▸ hlen)
  · obtain ⟨hmem, hopen⟩ := List.mem_filter.1 ha
    exact (awardSound_iff a).2 ⟨hfits a hmem, by simpa using hopen⟩

theorem awardFits_of_sound (hl : orderLineSound l) : ∀ a ∈ l.awards, awardFits a := by
  obtain ⟨-, -, -, -, -, -, -, -, -, hsound⟩ := hl
  exact fun a ha => ((awardSound_iff a).1 (hsound a ha)).1

theorem untaken_of_sound (hl : orderLineSound l) : ∀ a ∈ l.awards, untaken a ≠ 0 := by
  obtain ⟨-, -, -, -, -, -, -, -, -, hsound⟩ := hl
  exact fun a ha => ((awardSound_iff a).1 (hsound a ha)).2

/-- Every record of a sound line stays open, but for those of the row that are changed. -/
theorem foldAwards_others (hl : orderLineSound l) {awards : List Award}
    (h : awards.filter (fun a => a.row ≠ row) = l.awards.filter fun a => a.row ≠ row) :
    (foldAwards { l with awards := awards }).awards.filter (fun a => a.row ≠ row) =
      l.awards.filter fun a => a.row ≠ row := by
  rw [foldAwards_awards, List.filter_comm, h, List.filter_eq_self]
  intro a ha
  simpa using untaken_of_sound hl a (List.mem_of_mem_filter ha)

theorem awardFits_shareOut {bear : Nat → Award → Award}
    (hbear : ∀ a, awardFits a → ∀ c, awardFits (bear c a)) {awards : List Award}
    (h : ∀ a ∈ awards, awardFits a) : ∀ a ∈ shareOut bear row count awards, awardFits a := by
  intro b hb
  obtain ⟨a, ha, rfl | ⟨c, rfl⟩⟩ := mem_shareOut hb
  · exact h b ha
  · exact hbear a (h a ha) c

/-! ### The three notices on a line (R104 to R106) -/

theorem takenOnLine_eq (row count : Nat) (l : OrderLine) :
    takenOnLine row count l = foldAwards { l with awards := shareOut spendAward row count l.awards } := by
  rw [takenOnLine, spendAwards_eq]

theorem takenExcess_eq (row count : Nat) (l : OrderLine) :
    takenExcess row count l = count - rowHeld row l.awards := by
  rw [takenExcess, spendAwards_eq]

theorem lapseOnLine_eq (row count : Nat) (l : OrderLine) :
    lapseOnLine row count l =
      foldAwards { l with awards := (shareOut lowerAward row count l.awards.reverse).reverse } := by
  rw [lapseOnLine, withdrawAwards_eq]

/-- R104: T rises by what the row's records still hold, up to the count; G stays. -/
theorem takenOnLine_accounts (hl : orderLineSound l) (row count : Nat) :
    lineTaken (takenOnLine row count l) = lineTaken l + min count (rowHeld row l.awards)
      ∧ lineGranted (takenOnLine row count l) = lineGranted l
      ∧ (takenOnLine row count l).awards.filter (fun a => a.row ≠ row)
          = l.awards.filter (fun a => a.row ≠ row)
      ∧ orderLineSound (takenOnLine row count l) := by
  have hfits : ∀ a ∈ shareOut spendAward row count l.awards, awardFits a :=
    awardFits_shareOut (fun a h c => awardFits_spendAward h c) (awardFits_of_sound hl)
  have hgranted : lineGranted { l with awards := shareOut spendAward row count l.awards } =
      lineGranted l := by
    simp only [lineGranted,
      shareOut_kept_sum (bear := spendAward) (field := fun a => a.granted) (fun _ _ => rfl)]
  rw [takenOnLine_eq]
  refine ⟨?_, ?_, foldAwards_others hl (shareOut_others (bear := spendAward) (fun _ _ => rfl) _ _ _),
    orderLineSound_foldAwards hl (shareOut_length _ _ _) hfits hgranted.le⟩
  · rw [lineTaken_foldAwards hfits]
    simp only [lineTaken, spent_sum, Nat.add_assoc]
  · rw [lineGranted_foldAwards, hgranted]

/-- R105: G falls by what the row's records still hold, up to the count; T stays. -/
theorem lapseOnLine_accounts (hl : orderLineSound l) (row count : Nat) :
    lineGranted (lapseOnLine row count l) = lineGranted l - min count (rowHeld row l.awards)
      ∧ lineTaken (lapseOnLine row count l) = lineTaken l
      ∧ (lapseOnLine row count l).awards.filter (fun a => a.row ≠ row)
          = l.awards.filter (fun a => a.row ≠ row)
      ∧ orderLineSound (lapseOnLine row count l) := by
  have hfits : ∀ a ∈ (shareOut lowerAward row count l.awards.reverse).reverse, awardFits a :=
    fun a ha => awardFits_shareOut (fun a h c => awardFits_lowerAward h c)
      (fun b hb => awardFits_of_sound hl b (List.mem_reverse.1 hb)) a (List.mem_reverse.1 ha)
  have hgranted : lineGranted { l with
      awards := (shareOut lowerAward row count l.awards.reverse).reverse } =
        lineGranted l - min count (rowHeld row l.awards) := by
    have h := lowered_sum row count l.awards.reverse
    rw [rowHeld_reverse] at h
    simp only [lineGranted, List.map_reverse, List.sum_reverse] at h ⊢
    omega
  rw [lapseOnLine_eq]
  refine ⟨?_, ?_, foldAwards_others hl ?_,
    orderLineSound_foldAwards hl (by simp [shareOut_length]) hfits (hgranted ▸ Nat.sub_le _ _)⟩
  · rw [lineGranted_foldAwards, hgranted]
  · rw [lineTaken_foldAwards hfits]
    simp only [lineTaken, List.map_reverse, List.sum_reverse,
      shareOut_kept_sum (bear := lowerAward) (field := fun a => a.taken) (fun _ _ => rfl)]
  · rw [List.filter_reverse, shareOut_others (bear := lowerAward) (fun _ _ => rfl),
      List.filter_reverse, List.reverse_reverse]

/-- A count that covers all the row's records hold brings each down to what was taken. -/
theorem shareOut_lowerAward_all {awards : List Award} (h : ∀ a ∈ awards, awardFits a)
    (hcount : rowHeld row awards ≤ count) : shareOut lowerAward row count awards =
      awards.map fun a => if a.row == row then { a with granted := a.taken } else a := by
  induction awards generalizing count with
  | nil => rfl
  | cons a rest ih =>
    have hfits : ∀ b ∈ rest, awardFits b := fun b hb => h b (List.mem_cons_of_mem a hb)
    obtain ⟨-, htaken, -⟩ := h a List.mem_cons_self
    rw [rowHeld_cons] at hcount
    by_cases hrow : a.row = row
    · rw [if_pos hrow] at hcount
      have hlowered : a.granted - min count (untaken a) = a.taken := by
        simp only [untaken] at hcount ⊢
        omega
      simp [shareOut, hrow, ih hfits (count := count - untaken a) (by omega), lowerAward, hlowered]
    · rw [if_neg hrow] at hcount
      simp [shareOut, hrow, ih hfits hcount]

/-- R106: a row's HAIL lowers its records by all they hold. -/
theorem bringDown_eq (hl : orderLineSound l) (row : Nat) :
    bringDown (fun a => a.row == row) l =
      foldAwards { l with awards := shareOut lowerAward row (rowHeld row l.awards) l.awards } := by
  rw [shareOut_lowerAward_all (awardFits_of_sound hl) le_rfl, bringDown]

/-- No record of the row is left, and every other stays. -/
theorem bringDown_awards (hl : orderLineSound l) (row : Nat) :
    (bringDown (fun a => a.row == row) l).awards = l.awards.filter fun a => a.row ≠ row := by
  have hopen : (l.awards.filter fun a =>
      untaken (if a.row == row then { a with granted := a.taken } else a) != 0) =
        l.awards.filter fun a => a.row ≠ row := by
    refine List.filter_congr fun a ha => ?_
    by_cases hrow : a.row = row
    · simp [hrow, untaken]
    · simpa [hrow] using untaken_of_sound hl a ha
  rw [bringDown, foldAwards_awards, List.filter_map]
  simp only [Function.comp_def]
  rw [hopen]
  conv_rhs => rw [← List.map_id (l.awards.filter fun a => a.row ≠ row)]
  refine List.map_congr_left fun a ha => ?_
  have hrow : a.row ≠ row := by simpa using (List.mem_filter.1 ha).2
  simp [hrow]

/-- R106: all that the row's records still hold is returned; T stays. -/
theorem bringDown_accounts (hl : orderLineSound l) (row : Nat) :
    lineGranted (bringDown (fun a => a.row == row) l) = lineGranted l - rowHeld row l.awards
      ∧ lineTaken (bringDown (fun a => a.row == row) l) = lineTaken l
      ∧ (bringDown (fun a => a.row == row) l).awards = l.awards.filter (fun a => a.row ≠ row)
      ∧ orderLineSound (bringDown (fun a => a.row == row) l) := by
  have hfits : ∀ a ∈ shareOut lowerAward row (rowHeld row l.awards) l.awards, awardFits a :=
    awardFits_shareOut (fun a h c => awardFits_lowerAward h c) (awardFits_of_sound hl)
  have hgranted : lineGranted { l with
      awards := shareOut lowerAward row (rowHeld row l.awards) l.awards } =
        lineGranted l - rowHeld row l.awards := by
    have h := lowered_sum row (rowHeld row l.awards) l.awards
    simp only [lineGranted]
    omega
  refine ⟨?_, ?_, bringDown_awards hl row, ?_⟩ <;> rw [bringDown_eq hl]
  · rw [lineGranted_foldAwards, hgranted]
  · rw [lineTaken_foldAwards hfits]
    simp only [lineTaken,
      shareOut_kept_sum (bear := lowerAward) (field := fun a => a.taken) (fun _ _ => rfl)]
  · exact orderLineSound_foldAwards hl (shareOut_length _ _ _) hfits (hgranted ▸ Nat.sub_le _ _)

/-! ### The order in which the records bear a count (R104, R105) -/

/-- The row's own record, alone in its place, after the fold. -/
theorem shareOut_own {bear : Nat → Award → Award} {a : Award} (ha : a.row = row)
    (huntaken : untaken (bear count a) = untaken a - count) (rest : List Award) :
    (shareOut bear row count (a :: rest)).filter (fun b => untaken b != 0) =
      (if untaken a ≤ count then [] else [bear count a])
        ++ (shareOut bear row (count - untaken a) rest).filter fun b => untaken b != 0 := by
  rw [shareOut, if_pos ha, List.filter_cons]
  by_cases hcovered : untaken a ≤ count
  · have hzero : untaken a - count = 0 := by omega
    simp [huntaken, hzero, hcovered]
  · have hopen : untaken a - count ≠ 0 := by omega
    simp [huntaken, hopen, hcovered]

theorem takenOnLine_awards (row count : Nat) (l : OrderLine) : (takenOnLine row count l).awards =
    (shareOut spendAward row count l.awards).filter fun a => untaken a != 0 := by
  rw [takenOnLine_eq, foldAwards_awards]

theorem lapseOnLine_awards (row count : Nat) (l : OrderLine) : (lapseOnLine row count l).awards =
    ((shareOut lowerAward row count l.awards.reverse).filter fun a => untaken a != 0).reverse := by
  rw [lapseOnLine_eq, foldAwards_awards, List.filter_reverse]

/-- Oldest first: a record spends what the count leaves after the records before it. -/
theorem takenOnLine_order {before after : List Award} {a : Award} (hl : l.awards = before ++ a :: after)
    (ha : a.row = row) (count : Nat) :
    (takenOnLine row count l).awards =
      (takenOnLine row count { l with awards := before }).awards
        ++ (if untaken a ≤ count - rowHeld row before then []
            else [{ a with taken := a.taken + (count - rowHeld row before) }])
        ++ (takenOnLine row (count - rowHeld row before - untaken a) { l with awards := after }).awards := by
  have hspent : (if untaken a ≤ count - rowHeld row before then ([] : List Award)
      else [spendAward (count - rowHeld row before) a]) =
        if untaken a ≤ count - rowHeld row before then []
        else [{ a with taken := a.taken + (count - rowHeld row before) }] := by
    split
    · rfl
    · rename_i hopen
      rw [spendAward, Nat.min_eq_left (by omega)]
  simp only [takenOnLine_awards, hl]
  rw [shareOut_append, List.filter_append, shareOut_own ha (untaken_spendAward _ a), hspent,
    List.append_assoc]

/-- Newest first: a record is lowered by what the count leaves after the records behind it. -/
theorem lapseOnLine_order {before after : List Award} {a : Award} (hl : l.awards = before ++ a :: after)
    (ha : a.row = row) (count : Nat) :
    (lapseOnLine row count l).awards =
      (lapseOnLine row (count - rowHeld row after - untaken a) { l with awards := before }).awards
        ++ (if untaken a ≤ count - rowHeld row after then []
            else [{ a with granted := a.granted - (count - rowHeld row after) }])
        ++ (lapseOnLine row count { l with awards := after }).awards := by
  have hlowered : (if untaken a ≤ count - rowHeld row after then ([] : List Award)
      else [lowerAward (count - rowHeld row after) a]).reverse =
        if untaken a ≤ count - rowHeld row after then []
        else [{ a with granted := a.granted - (count - rowHeld row after) }] := by
    split
    · rfl
    · rename_i hopen
      rw [lowerAward, Nat.min_eq_left (by omega)]
      rfl
  simp only [lapseOnLine_awards, hl]
  rw [List.reverse_append, List.reverse_cons, List.append_assoc, List.singleton_append, shareOut_append,
    rowHeld_reverse, List.filter_append, shareOut_own ha (untaken_lowerAward _ a), List.reverse_append,
    List.reverse_append, hlowered]

/-- Settles O25: the accounts of each notice, then the order in which the records bear its count. -/
theorem noticesSettleTheRowsOwnAwards : Obligations.NoticesSettleTheRowsOwnAwards := by
  intro row count l hl held kept
  exact ⟨⟨⟨rfl, rfl, rfl, rfl⟩, ⟨rfl, rfl, rfl, rfl⟩, ⟨rfl, rfl, rfl, rfl⟩⟩,
    takenOnLine_accounts hl row count, lapseOnLine_accounts hl row count, bringDown_accounts hl row,
    fun before a after hawards ha =>
      ⟨takenOnLine_order hawards ha count, lapseOnLine_order hawards ha count⟩⟩

end Sys2Proof.Machine
end

