-- ==== Sys2Proof/Proofs/NoticesHeard.lean ====
section
/-! PROOF. The notices a station in SERVICE hears: releases at a row (O22), the number check (O23),
settlements at a gate (O24). -/

namespace Sys2Proof.Machine

variable {s : State}

/-! ### The state in which the frame is over (R5, R23) -/

section frameOver

variable {n : Nat} (f : RxFrame n) (s : State)

@[simp] theorem frameOver_startup : (frameOver f s).startup = s.startup := heard_startup s f

@[simp] theorem frameOver_frames : (frameOver f s).frames = s.frames := heard_frames f s

@[simp] theorem frameOver_bid : (frameOver f s).bid = s.bid := heard_bid s f

@[simp] theorem frameOver_hold : (frameOver f s).hold = s.hold := heard_hold s f

@[simp] theorem frameOver_trucks : (frameOver f s).trucks = s.trucks := heard_trucks s f

@[simp] theorem frameOver_arbiter : (frameOver f s).arbiter = s.arbiter := heard_arbiter s f

@[simp] theorem frameOver_pending : (frameOver f s).pending = s.pending := heard_pending s f

@[simp] theorem frameOver_condition : (frameOver f s).line.condition = .quiet := rfl

@[simp] theorem frameOver_driving : (frameOver f s).line.driving = .nothing := rfl

end frameOver

theorem heard_accepted {n : Nat} {f : RxFrame n} (ha : frameAccepted f s = true) :
    heard f s = hearMinute (headerMinute f) (headerSet f) s :=
  if_pos ha

/-- An accepted header has reached the clock. -/
theorem frameOver_accepted {n : Nat} {f : RxFrame n} (ha : frameAccepted f s = true) : frameOver f s =
    { hearMinute (headerMinute f) (headerSet f) s with line := (frameOver f s).line } := by
  rw [← heard_accepted ha]
  rfl

/-- Outside a round a notice ends a hold in reception, and is over before its body reaches an owner. -/
theorem hearNotice_hearsFrame {n : Nat} (f : RxFrame n) (valid : Bool) (owners : State → State)
    (hs : hearsFrame s = true) : hearNotice f valid owners s =
      if frameAccepted f s && inService s && valid then owners (frameOver f (closingOtherKind s))
      else frameOver f (closingOtherKind s) := by
  obtain ⟨-, hr, -⟩ := (hearsFrame_iff s).1 hs
  have hcan : canHear s = true := (canHear_iff s).2 (.inl hs)
  have hstart : closingStart s = s := closingStart_other (by simp [hr])
  simp only [hearNotice, hcan, if_true, hstart]
  rw [endFrame_frameOver f (closingOtherKind s) (by simpa using hr)]

/-- The station follows a frame outside a round, with no hold. -/
def followsFree (s : State) : Prop := hearsFrame s = true ∧ s.hold = none

theorem hearNotice_free {n : Nat} (f : RxFrame n) (valid : Bool) (owners : State → State)
    (h : followsFree s) : hearNotice f valid owners s =
      if frameAccepted f s && inService s && valid then owners (frameOver f s) else frameOver f s := by
  obtain ⟨hs, hh⟩ := h
  rw [hearNotice_hearsFrame f valid owners hs, closingOtherKind_none hh]

/-- An accepted frame that is not inert reaches its owners in SERVICE. -/
theorem hearNotice_reaches {n : Nat} {f : RxFrame n} {valid : Bool} (owners : State → State)
    (h : followsFree s) (hst : s.startup.station = .service) (ha : frameAccepted f s = true)
    (hv : valid = true) : hearNotice f valid owners s = owners (frameOver f s) := by
  rw [hearNotice_free f valid owners h, if_pos (by simp [ha, inService, hst, hv])]

/-- A frame whose body has no owner here only ends. -/
theorem hearNotice_unowned {n : Nat} {f : RxFrame n} {owners : State → State} (h : followsFree s)
    (howners : owners (frameOver f s) = frameOver f s) (valid : Bool) :
    hearNotice f valid owners s = frameOver f s := by
  rw [hearNotice_free f valid owners h, howners, ite_self]

/-! The commands of the five notices. -/

theorem hailReceived_eq {f : RxFrame 4} (hk : dataBits f.kindChar = 0x01) (s : State) :
    exec (.hailReceived f) s = .next (hearNotice f (hailValid f) (ownHail f) s) :=
  congrArg _ (hearKind_known (kind := .hail) hk _ s)

theorem voidReceived_eq {f : RxFrame 2} (hk : dataBits f.kindChar = 0x02) (s : State) :
    exec (.voidReceived f) s = .next (hearNotice f (voidValid f) (ownVoid f) s) :=
  congrArg _ (hearKind_known (kind := .void) hk _ s)

theorem lapseReceived_eq {f : RxFrame 5} (hk : dataBits f.kindChar = 0x03) (s : State) :
    exec (.lapseReceived f) s = .next (hearNotice f (countedValid f) (ownLapse f) s) :=
  congrArg _ (hearKind_known (kind := .lapse) hk _ s)

theorem takenReceived_eq {f : RxFrame 5} (hk : dataBits f.kindChar = 0x04) (s : State) :
    exec (.takenReceived f) s = .next (hearNotice f (countedValid f) (ownTaken f) s) :=
  congrArg _ (hearKind_known (kind := .taken) hk _ s)

theorem arriveReceived_eq {f : RxFrame 2} (hk : dataBits f.kindChar = 0x05) (s : State) :
    exec (.arriveReceived f) s = .next (hearNotice f (arriveValid f) (ownArrive f) s) :=
  congrArg _ (hearKind_known (kind := .arrive) hk _ s)

/-! ### The owners by role (R24, R25, R168) -/

theorem numberCheck_passes {sender : Nat} {serial : BitVec 32}
    (h : sender ≠ s.startup.settings.number ∨ serial = s.startup.serial) :
    numberCheck sender serial s = s := by
  refine if_neg ?_
  rintro ⟨hnumber, hserial⟩
  exact h.elim (fun hn => hn hnumber) hserial

theorem numberCheck_fails {sender : Nat} {serial : BitVec 32} (hnumber : sender = s.startup.settings.number)
    (hserial : serial ≠ s.startup.serial) : numberCheck sender serial s = enterDuplicate s :=
  if_pos ⟨hnumber, hserial⟩

/-- The owner a HAIL has beside the number check. -/
def hailOwner (f : RxFrame 4) (role : Role) (t : State) : State :=
  match role with
  | .row => if senderIsGate f then releaseGate (senderNumber f) t else t
  | .gate =>
    if senderIsGate f then t
    else gateChanged (mapAllLines (bringDown fun a => a.row == senderNumber f) t.trucks) t

theorem ownHail_eq (f : RxFrame 4) (s : State) : ownHail f s =
    hailOwner f s.startup.settings.role (numberCheck (senderNumber f) (hailSerial f) s) := rfl

theorem hailOwner_row_gate {f : RxFrame 4} (hg : senderIsGate f = true) (t : State) :
    hailOwner f .row t = releaseGate (senderNumber f) t :=
  if_pos hg

theorem hailOwner_row_row {f : RxFrame 4} (hg : senderIsGate f = false) (t : State) :
    hailOwner f .row t = t :=
  if_neg (by simp [hg])

theorem hailOwner_gate_gate {f : RxFrame 4} (hg : senderIsGate f = true) (t : State) :
    hailOwner f .gate t = t :=
  if_pos hg

theorem hailOwner_gate_row {f : RxFrame 4} (hg : senderIsGate f = false) (t : State) :
    hailOwner f .gate t =
      gateChanged (mapAllLines (bringDown fun a => a.row == senderNumber f) t.trucks) t :=
  if_neg (by simp [hg])

theorem ownTaken_row (f : RxFrame 5) (hr : s.startup.settings.role = .row) : ownTaken f s = s :=
  if_neg (by simp [addressed, isGate, hr])

theorem ownLapse_row (f : RxFrame 5) (hr : s.startup.settings.role = .row) : ownLapse f s = s :=
  if_neg (by simp [addressed, isGate, hr])

theorem ownArrive_row (f : RxFrame 2) (hr : s.startup.settings.role = .row) : ownArrive f s = s := by
  simp only [ownArrive, hr]

theorem ownVoid_row (f : RxFrame 2) (hr : s.startup.settings.role = .row) :
    ownVoid f s = releaseVoid (senderNumber f) (voidTicket f) s := by
  simp only [ownVoid, hr]

theorem ownVoid_gate (f : RxFrame 2) (hr : s.startup.settings.role = .gate) : ownVoid f s = s := by
  simp only [ownVoid, hr]

/-! ### Releases at a row (R90, R91, R96) -/

theorem endHoldIf_none (which : Reservation → Bool) (hh : s.hold = none) : endHoldIf which s = s := by
  simp only [endHoldIf, hh]

/-- R94: a sweep changes no entry's pack and no entry's order. -/
theorem sweep_picks_orders (s : State) :
    (sweep s).picks.map (fun e => (e.tag, e.order)) = s.picks.map fun e => (e.tag, e.order) := by
  unfold sweep overdueSweep
  split
  · rw [withPicks_picks, List.map_map]
    refine List.map_congr_left fun e _ => ?_
    simp only [Function.comp_apply, sweepEntry]
    split <;> rfl
  · rfl

/-- R94, R95: nor does the clock. -/
theorem hearMinute_picks_orders (m : Minute) (b : Bool) (s : State) :
    (hearMinute m b s).picks.map (fun e => (e.tag, e.order)) = s.picks.map fun e => (e.tag, e.order) := by
  unfold hearMinute
  dsimp only
  repeat' split
  · rfl
  · unfold becomeSet
    dsimp only
    split
    · simp [rewriteGrantMinutes, setMinute]
    · rfl
  · rfl
  · unfold jumpForward
    dsimp only
    split <;> simp [sweep_picks_orders, setMinute]
  · rfl

/-- The packs of the entries that a test of the order names. -/
theorem tags_of_orders (which : Reservation → Prop) [DecidablePred which] {picks picks' : List PickEntry}
    (h : picks.map (fun e => (e.tag, e.order)) = picks'.map fun e => (e.tag, e.order)) :
    (picks.filter fun e => which e.order).map (fun e => e.tag) =
      (picks'.filter fun e => which e.order).map fun e => e.tag := by
  have hpairs := congrArg (fun l => (l.filter fun p => which p.2).map fun p => p.1) h
  simpa only [List.filter_map, List.map_map, Function.comp_def] using hpairs

/-- The entries for the orders a test names leave the list, and their packs go to FREE. -/
def releaseOrders (which : Reservation → Prop) [DecidablePred which] (s : State) : State :=
  releaseEntries (fun e => which e.order) s

theorem releaseVoid_eq (gate ticket : Nat) (hh : s.hold = none) : releaseVoid gate ticket s =
    releaseOrders (fun o => o.gate = gate ∧ o.ticket = ticket) s := by
  rw [releaseVoid, endHoldIf_none _ hh, releaseOrders]
  simp only [Bool.decide_and, beq_eq_decide]

theorem releaseGate_eq (gate : Nat) (hh : s.hold = none) :
    releaseGate gate s = releaseOrders (fun o => o.gate = gate) s := by
  rw [releaseGate, endHoldIf_none _ hh, releaseOrders]
  simp only [beq_eq_decide]

section releaseOrders

variable (which : Reservation → Prop) [DecidablePred which]

theorem releaseOrders_picks (s : State) :
    (releaseOrders which s).picks = s.picks.filter fun e => ¬ which e.order := by
  simp [releaseOrders, releaseEntries_spec]

theorem releaseOrders_stock (s : State) : (releaseOrders which s).stock =
    releasePacks ((s.picks.filter fun e => which e.order).map fun e => e.tag) s.stock :=
  (releaseEntries_spec _ s).2

theorem releaseOrders_signal (s : State) : (releaseOrders which s).signal =
    (withPicks (s.picks.filter fun e => ¬ which e.order) s).signal := by
  simp only [releaseOrders, releaseEntries, decide_not]
  refine withPicks_signal_congr ?_ ?_ ?_ _ <;> rfl

/-- R90, R91: the entries leave the list and their packs are FREE, after the clock has taken the header. -/
theorem releaseOrders_frameOver {n : Nat} {f : RxFrame n} (ha : frameAccepted f s = true)
    (hh : s.hold = none) :
    let ended := hearMinute (headerMinute f) (headerSet f) s
    let left := ended.picks.filter fun e => ¬ which e.order
    let t := releaseOrders which (frameOver f s)
    t.picks = left ∧ t.signal = (withPicks left ended).signal
      ∧ t.stock = releasePacks ((s.picks.filter fun e => which e.order).map fun e => e.tag) ended.stock
      ∧ t.hold = none ∧ t.bid = s.bid ∧ GateUnchanged s t ∧ t.frames = s.frames
      ∧ t.clock = ended.clock
      ∧ t.line.condition = .quiet ∧ t.line.driving = .nothing
      ∧ t.port = ended.port ∧ ControlUnchanged s t := by
  intro ended left t
  have hended : frameOver f s = { ended with line := (frameOver f s).line } := frameOver_accepted ha
  have hpicks : (frameOver f s).picks = ended.picks := by rw [hended]
  refine ⟨?_, ?_, ?_, by simpa [t, releaseOrders] using hh, by simp [t, releaseOrders],
    by simp [t, releaseOrders, GateUnchanged], by simp [t, releaseOrders], ?_, by simp [t, releaseOrders],
    by simp [t, releaseOrders], ?_, by simp [t, releaseOrders, ControlUnchanged]⟩
  · rw [releaseOrders_picks, hpicks]
  · rw [releaseOrders_signal, hpicks]
    exact withPicks_signal_congr (by rw [hended]) (by rw [hended]) hpicks left
  · rw [releaseOrders_stock, hpicks, tags_of_orders which (hearMinute_picks_orders _ _ s), hended]
  · exact (releaseEntries_clock _ _).trans (by rw [hended])
  · exact (releaseEntries_port _ _).trans (by rw [hended])

end releaseOrders

/-- Settles O22: the named entries by `releaseOrders_frameOver`; a frame with no owner at a row by
`hearNotice_unowned`. -/
theorem rowReleasesForVoidAndGateHail : Obligations.RowReleasesForVoidAndGateHail := by
  intro s hs hst hr hh
  have hfree : followsFree s := ⟨hs, hh⟩
  have hrow {n : Nat} (f : RxFrame n) : (frameOver f s).startup.settings.role = .row := by simpa using hr
  have hover {n : Nat} (f : RxFrame n) : (frameOver f s).hold = none := by simpa using hh
  refine ⟨fun f hk ha hg ht => ⟨_, ?_, releaseOrders_frameOver
      (fun o => o.gate = senderNumber f ∧ o.ticket = voidTicket f) ha hh⟩,
    fun f hk ha hg hpass => ⟨_, ?_, releaseOrders_frameOver (fun o => o.gate = senderNumber f) ha hh⟩,
    fun f => ⟨fun hk => ?_, fun hk => ?_⟩, fun f hk => ?_, fun f hk hg hpass => ?_⟩
  · rw [voidReceived_eq hk, hearNotice_reaches _ hfree hst ha (by simp [voidValid, hg, ht]),
      ownVoid_row f (hrow f), releaseVoid_eq _ _ (hover f)]
  · rw [hailReceived_eq hk, hearNotice_reaches (valid := hailValid f) _ hfree hst ha rfl, ownHail_eq,
      numberCheck_passes (by simpa using hpass), hrow f, hailOwner_row_gate hg, releaseGate_eq _ (hover f)]
  · rw [takenReceived_eq hk, hearNotice_unowned hfree (ownTaken_row f (hrow f))]
  · rw [lapseReceived_eq hk, hearNotice_unowned hfree (ownLapse_row f (hrow f))]
  · rw [arriveReceived_eq hk, hearNotice_unowned hfree (ownArrive_row f (hrow f))]
  · have howners : ownHail f (frameOver f s) = frameOver f s := by
      rw [ownHail_eq, numberCheck_passes (by simpa using hpass), hrow f, hailOwner_row_row hg]
    rw [hailReceived_eq hk, hearNotice_unowned hfree howners]

/-! ### The number check (R25, R168) -/

@[simp] theorem hailOwner_startup (f : RxFrame 4) (role : Role) (s : State) :
    (hailOwner f role s).startup = s.startup := by
  unfold hailOwner
  split <;> split <;> simp

/-- A station that sends nothing and keeps nothing, in DUPLICATE on a QUIET line. -/
def duplicateStopped (t : State) : Prop :=
  t.frames.queue = [] ∧ t.bid = .idle ∧ t.hold = none ∧ t.picks = [] ∧ t.arbiter = .idle
    ∧ t.line.driving = .nothing ∧ ∀ u ∈ t.trucks, ∀ l ∈ u.lines, l.awards = []

theorem duplicateStopped_enterDuplicate (s : State) : duplicateStopped (enterDuplicate s) := by
  refine ⟨by rw [enterDuplicate_frames], by simp, by simp, by simp, enterDuplicate_arbiter s,
    by rw [enterDuplicate_line], ?_⟩
  rw [enterDuplicate_trucks]
  simp only [List.mem_map, forall_exists_index, and_imp, forall_apply_eq_imp_iff₂]
  exact fun _ _ _ _ => trivial

theorem bringDown_awards_nil {l : OrderLine} (which : Award → Bool) (h : l.awards = []) :
    (bringDown which l).awards = [] := by
  simp [bringDown, foldAwards, h]

theorem gateChanged_line (trucks : List Truck) (hc : s.line.condition = .quiet) :
    (gateChanged trucks s).line = s.line := by
  rw [gateChanged, rechoose_line _ (.inl (by simpa using hc)), announceTrucks_line, withTrucks_line]

theorem gateChanged_outside_service (trucks : List Truck) (hst : s.startup.station ≠ .service)
    (ha : s.arbiter = .idle) : (gateChanged trucks s).arbiter = .idle := by
  rw [(gateChanged_rested trucks (.inl ha)).1, callChoice_outside_service (by simpa using hst)]
  rfl

/-- The HAIL's owner finds nothing to release and nothing to bring down. -/
theorem duplicateStopped_hailOwner (f : RxFrame 4) (role : Role) {t : State} (h : duplicateStopped t)
    (hst : t.startup.station ≠ .service) (hc : t.line.condition = .quiet) :
    duplicateStopped (hailOwner f role t) := by
  have ⟨hqueue, hbid, hhold, hpicks, harbiter, hdriving, hawards⟩ := h
  cases role with
  | row =>
    cases hg : senderIsGate f with
    | true =>
      rw [hailOwner_row_gate hg, releaseGate_eq _ hhold]
      refine ⟨?_, ?_, ?_, by rw [releaseOrders_picks, hpicks]; rfl, ?_, ?_, ?_⟩ <;>
        simpa [releaseOrders]
    | false =>
      rw [hailOwner_row_row hg]
      exact h
  | gate =>
    cases hg : senderIsGate f with
    | true =>
      rw [hailOwner_gate_gate hg]
      exact h
    | false =>
      rw [hailOwner_gate_row hg]
      refine ⟨by simpa using hqueue, by simpa using hbid, by simpa using hhold, by simpa using hpicks,
        gateChanged_outside_service _ hst harbiter, by rw [gateChanged_line _ hc, hdriving], ?_⟩
      simp only [gateChanged_trucks, mapAllLines, List.mem_map, forall_exists_index, and_imp,
        forall_apply_eq_imp_iff₂]
      exact fun u hu l hl => bringDown_awards_nil _ (hawards u hu l hl)

theorem hailReceived_accepted {f : RxFrame 4} (hs : hearsFrame s = true)
    (hst : s.startup.station = .service) (hk : dataBits f.kindChar = 0x01)
    (ha : frameAccepted f s = true) : exec (.hailReceived f) s =
      .next (ownHail f (frameOver f (closingOtherKind s))) := by
  rw [hailReceived_eq hk, hearNotice_hearsFrame _ _ _ hs, if_pos (by simp [ha, inService, hst, hailValid])]

/-- Settles O23: another serial at the own number enters DUPLICATE, where the HAIL's owner finds nothing;
the own serial leaves the start-up values alone. -/
theorem hailOfTheOwnNumberIsADuplicate : Obligations.HailOfTheOwnNumberIsADuplicate := by
  intro f s hs hst hk ha hnumber
  let ended : State := frameOver f (closingOtherKind s)
  have hstartup : ended.startup = s.startup := by simp [ended]
  refine ⟨_, hailReceived_accepted hs hst hk ha, ?_⟩
  rw [ownHail_eq]
  by_cases hserial : hailSerial f = s.startup.serial
  · refine ⟨?_, fun h => absurd hserial h⟩
    rw [numberCheck_passes (.inr (by rw [hserial, hstartup])), hailOwner_startup, hstartup, if_pos hserial,
      ← hst]
  · rw [numberCheck_fails (by rw [hnumber, hstartup]) (by rwa [hstartup])]
    refine ⟨?_, fun _ => duplicateStopped_hailOwner f _ (duplicateStopped_enterDuplicate ended) ?_ ?_⟩
    · rw [hailOwner_startup, enterDuplicate_startup, hstartup, if_neg hserial]
    · rw [enterDuplicate_startup]
      exact StationState.noConfusion
    · rw [enterDuplicate_line]
      rfl

/-! ### Settlements at a gate (R104 to R107) -/

theorem settleTaken_line {row count : Nat} {key : OrderKey} {trucks : List Truck} {l : OrderLine}
    (ht : s.trucks = trucks) (hl : findOrderLine key.ticket key.line trucks = some l) :
    settleTaken row key count s =
      gateChanged (mapOrderLine key.ticket key.line (takenOnLine row count) trucks)
        (if count ≤ rowHeld row l.awards then s else flagSurplus s) := by
  subst ht
  simp only [settleTaken, hl, takenExcess_eq, Nat.sub_eq_zero_iff_le]

theorem settleLapse_line {row count : Nat} {key : OrderKey} {trucks : List Truck} {l : OrderLine}
    (ht : s.trucks = trucks) (hl : findOrderLine key.ticket key.line trucks = some l) :
    settleLapse row key count s =
      gateChanged (mapOrderLine key.ticket key.line (lapseOnLine row count) trucks) s := by
  subst ht
  simp only [settleLapse, hl]

theorem settleTaken_noLine {row count : Nat} {key : OrderKey}
    (hl : findOrderLine key.ticket key.line s.trucks = none) : settleTaken row key count s = s := by
  simp only [settleTaken, hl]

theorem settleLapse_noLine {row count : Nat} {key : OrderKey}
    (hl : findOrderLine key.ticket key.line s.trucks = none) : settleLapse row key count s = s := by
  simp only [settleLapse, hl]

theorem addressed_iff (f : RxFrame 5) (s : State) : addressed f s = true ↔
    s.startup.settings.role = .gate ∧ (noticeKey f).gate = s.startup.settings.number := by
  simp [addressed, isGate]

/-- A TAKEN or LAPSE for another gate, or for no line of the table, settles nothing. -/
theorem ownTaken_none {f : RxFrame 5} (h : (noticeKey f).gate ≠ s.startup.settings.number
    ∨ findOrderLine (noticeKey f).ticket (noticeKey f).line s.trucks = none) : ownTaken f s = s := by
  unfold ownTaken
  split
  · rename_i haddressed
    exact settleTaken_noLine (h.resolve_left (not_not_intro ((addressed_iff f s).1 haddressed).2))
  · rfl

theorem ownLapse_none {f : RxFrame 5} (h : (noticeKey f).gate ≠ s.startup.settings.number
    ∨ findOrderLine (noticeKey f).ticket (noticeKey f).line s.trucks = none) : ownLapse f s = s := by
  unfold ownLapse
  split
  · rename_i haddressed
    exact settleLapse_noLine (h.resolve_left (not_not_intro ((addressed_iff f s).1 haddressed).2))
  · rfl

theorem ownArrive_gate (f : RxFrame 2) (hr : s.startup.settings.role = .gate) :
    ownArrive f s = gateChanged (mapAllLines (arriveOnLine (arriveSpec f)) s.trucks) s := by
  simp only [ownArrive, hr]

/-- R107: the SHORT lines an arrived spec matches are re-opened. -/
theorem arriveOnLine_eq (spec : PackSpec) (l : OrderLine) : arriveOnLine spec l =
    if lineState l = .short ∧ l.spec.family = spec.family ∧ l.spec.size = spec.size
        ∧ (l.spec.grade = spec.grade ∨ (l.upgrade = true ∧ spec.grade < l.spec.grade)) then
      { l with emptyRounds := 0 }
    else l := by
  refine if_congr ?_ rfl rfl
  simp [arrivalMatches, and_assoc]

/-- Settles O24: each notice by what its owner does in the state in which the frame is over. -/
theorem gateSettlesTheNoticesItHears : Obligations.GateSettlesTheNoticesItHears := by
  intro s hs hst hr hh
  have hfree : followsFree s := ⟨hs, hh⟩
  have hgate {n : Nat} (f : RxFrame n) : (frameOver f s).startup.settings.role = .gate := by simpa using hr
  refine ⟨fun f l ha hg hkey hnumber ht hline hline4 hc hc8 hl => ?_, fun f ha hnone => ?_,
    fun f hk ha hpass => ?_, fun f hk => ?_, fun f hk ha hg hfamily hbit => ?_⟩
  · have hvalid : countedValid f = true := by
      simp [countedValid, hg, ht, lineValid, hline, hline4, hkey, hnumber, hc, hc8]
    have haddressed : addressed f (frameOver f s) = true :=
      (addressed_iff f _).2 ⟨hgate f, by simpa using hkey⟩
    have htrucks : (frameOver f s).trucks = s.trucks := frameOver_trucks f s
    refine ⟨fun hk => ?_, fun hk => ?_⟩
    · rw [takenReceived_eq hk, hearNotice_reaches _ hfree hst ha hvalid, ownTaken, if_pos haddressed,
        settleTaken_line htrucks hl]
      rfl
    · rw [lapseReceived_eq hk, hearNotice_reaches _ hfree hst ha hvalid, ownLapse, if_pos haddressed,
        settleLapse_line htrucks hl]
  · have hnone' : (noticeKey f).gate ≠ (frameOver f s).startup.settings.number
        ∨ findOrderLine (noticeKey f).ticket (noticeKey f).line (frameOver f s).trucks = none := by
      simpa using hnone
    refine ⟨fun hk => ?_, fun hk => ?_⟩
    · rw [takenReceived_eq hk, hearNotice_unowned hfree (ownTaken_none hnone')]
    · rw [lapseReceived_eq hk, hearNotice_unowned hfree (ownLapse_none hnone')]
  · have hown : ownHail f (frameOver f s) = hailOwner f .gate (frameOver f s) := by
      rw [ownHail_eq, numberCheck_passes (by simpa using hpass), hgate f]
    rw [hailReceived_eq hk, hearNotice_reaches (valid := hailValid f) _ hfree hst ha rfl, hown]
    refine ⟨fun hg => ?_, fun hg => ?_⟩
    · rw [hailOwner_gate_row hg, frameOver_trucks]
      rfl
    · rw [hailOwner_gate_gate hg]
  · rw [voidReceived_eq hk, hearNotice_unowned hfree (ownVoid_gate f (hgate f))]
  · have hvalid : arriveValid f = true := by simp [arriveValid, hg, hfamily, hbit]
    rw [arriveReceived_eq hk, hearNotice_reaches _ hfree hst ha hvalid, ownArrive_gate f (hgate f),
      frameOver_trucks]
    simp only [mapAllLines, ← arriveOnLine_eq]

end Sys2Proof.Machine
end

