-- ==== Sys2Proof/Proofs/RowClauses.lean ====
section
/-! PROOF. The sound row by named clauses (O57): what each pack's state says about the hold, the pick list
and the bid, beside where their tags stand. -/

namespace Sys2Proof.Machine

variable {s t : State}

/-! ### Tags (R45) -/

/-- The tags of the table's records. -/
def tagsOf (stock : Stock) : List Nat := (allPacks stock).map fun p => p.tag

theorem mem_tagsOf {stock : Stock} {tag : Nat} :
    tag ∈ tagsOf stock ↔ ∃ p ∈ allPacks stock, p.tag = tag :=
  List.mem_map

/-- R45: a tag names one record. -/
theorem eq_of_tag_eq {stock : Stock} (hnodup : (tagsOf stock).Nodup) {p q : Pack}
    (hp : p ∈ allPacks stock) (hq : q ∈ allPacks stock) (h : p.tag = q.tag) : p = q :=
  List.inj_on_of_nodup_map hnodup hp hq h

theorem mem_allPacks_of_mem_stackAt {stock : Stock} {n : Nat} {p : Pack} (h : p ∈ stackAt stock n) :
    p ∈ allPacks stock := by
  refine (mem_allPacks stock p).2 ⟨n, ?_, h⟩
  by_contra hn
  simp [stackAt_beyond stock n (Nat.not_lt.1 hn)] at h

/-- The tags of the hold's packs. -/
def heldTags : Option Hold → List Nat
  | none => []
  | some h => h.packs

@[simp] theorem heldTags_none : heldTags none = [] := rfl

@[simp] theorem heldTags_some (h : Hold) : heldTags (some h) = h.packs := rfl

/-! ### The clauses -/

/-- What a record's state says about the hold, the pick list and the bid (R64, R78, R86). -/
structure PackAgrees (s : State) (p : Pack) : Prop where
  held : p.state = .held ↔ p.tag ∈ heldTags s.hold
  picked : ∀ e ∈ s.picks, e.tag = p.tag → p.state = .reserved e.order
  reserved : isReserved p.state = true → ∃ e ∈ s.picks, e.tag = p.tag
  offered : p.tag ∈ offeredTags s.bid → p.state = .free

/-- What a Bid Unit at work needs, beside the states of the packs it may offer (R63, R64, R79). -/
structure BidWorks (s : State) : Prop where
  station : s.startup.station = .service
  role : s.startup.settings.role = .row
  noHold : s.hold = none
  distinct : (offeredTags s.bid).Nodup
  placed : ∀ tag ∈ offeredTags s.bid, tag ∈ tagsOf s.stock
  room : offerBound s.bid + s.picks.length ≤ 24

/-- The clauses of RowSound, by name, those of its records gathered record by record. -/
structure RowClauses (s : State) : Prop where
  stock : StockSound s
  heldDistinct : (heldTags s.hold).Nodup
  heldPlaced : ∀ tag ∈ heldTags s.hold, tag ∈ tagsOf s.stock
  room : (heldTags s.hold).length + s.picks.length ≤ 24
  picksDistinct : (s.picks.map fun e => e.tag).Nodup
  picksPlaced : ∀ e ∈ s.picks, ∃ p ∈ stackAt s.stock e.stack, p.tag = e.tag
  packs : ∀ p ∈ allPacks s.stock, PackAgrees s p
  works : s.bid = .idle ∨ BidWorks s

theorem RowSound.packAgrees (h : RowSound s) {p : Pack} (hp : p ∈ allPacks s.stock) :
    PackAgrees s p := by
  obtain ⟨⟨hnodup, -⟩, ⟨hhold, hheld⟩, ⟨-, -, hpicks, hreserved⟩, hbid⟩ := h
  refine ⟨⟨fun hs => ?_, fun hs => ?_⟩, fun e he htag => ?_, hreserved p hp, fun hs => ?_⟩
  · obtain ⟨hold, heq, hmem⟩ := hheld p hp hs
    rw [Option.mem_def] at heq
    simpa [heq] using hmem
  · cases heq : s.hold with
    | none => simp [heq] at hs
    | some hold =>
      obtain ⟨-, -, hin⟩ := hhold hold heq
      obtain ⟨q, hq, hqtag, hqheld⟩ := hin p.tag (by simpa [heq] using hs)
      rwa [eq_of_tag_eq hnodup hp hq hqtag.symm]
  · obtain ⟨q, hq, hqtag, hqstate⟩ := hpicks e he
    rwa [eq_of_tag_eq hnodup hp (mem_allPacks_of_mem_stackAt hq) (hqtag.trans htag).symm]
  · rcases hbid with hidle | ⟨-, -, -, -, hfree, -⟩
    · simp [hidle, offeredTags] at hs
    · obtain ⟨q, hq, hqtag, hqstate⟩ := hfree p.tag hs
      rwa [eq_of_tag_eq hnodup hp hq hqtag.symm]

theorem RowSound.clauses (h : RowSound s) : RowClauses s := by
  have hpacks : ∀ p ∈ allPacks s.stock, PackAgrees s p := fun p => h.packAgrees
  obtain ⟨hstock, ⟨hhold, -⟩, ⟨hlength, hdistinct, hpicks, -⟩, hbid⟩ := h
  have hworks : s.bid = .idle ∨ BidWorks s := by
    refine hbid.imp_right fun ⟨hstation, hrole, hnone, hnodup, hfree, hroom⟩ =>
      ⟨hstation, hrole, hnone, hnodup, fun tag ht => ?_, hroom⟩
    obtain ⟨p, hp, htag, -⟩ := hfree tag ht
    exact mem_tagsOf.2 ⟨p, hp, htag⟩
  have hplaced : ∀ e ∈ s.picks, ∃ p ∈ stackAt s.stock e.stack, p.tag = e.tag := fun e he =>
    let ⟨p, hp, htag, _⟩ := hpicks e he
    ⟨p, hp, htag⟩
  cases heq : s.hold with
  | none =>
    exact { stock := hstock, heldDistinct := by simp [heq], heldPlaced := by simp [heq],
            room := by simpa [heq] using hlength, picksDistinct := hdistinct, picksPlaced := hplaced,
            packs := hpacks, works := hworks }
  | some hold =>
    obtain ⟨hnodup, hroom, hin⟩ := hhold hold heq
    exact { stock := hstock, heldDistinct := by simpa [heq] using hnodup,
            heldPlaced := fun tag ht => by
              obtain ⟨p, hp, htag, -⟩ := hin tag (by simpa [heq] using ht)
              exact mem_tagsOf.2 ⟨p, hp, htag⟩,
            room := by simpa [heq] using hroom, picksDistinct := hdistinct, picksPlaced := hplaced,
            packs := hpacks, works := hworks }

theorem RowClauses.sound (h : RowClauses s) : RowSound s := by
  refine ⟨h.stock, ⟨fun hold heq => ?_, fun p hp hs => ?_⟩,
    ⟨(Nat.le_add_left _ _).trans h.room, h.picksDistinct, fun e he => ?_,
      fun p hp => (h.packs p hp).reserved⟩, ?_⟩
  · rw [Option.mem_def] at heq
    have hdistinct := h.heldDistinct
    have hroom := h.room
    have hplaced := h.heldPlaced
    simp only [heq, heldTags_some] at hdistinct hroom hplaced
    refine ⟨hdistinct, hroom, fun tag ht => ?_⟩
    obtain ⟨p, hp, rfl⟩ := mem_tagsOf.1 (hplaced tag ht)
    exact ⟨p, hp, rfl, (h.packs p hp).held.2 (by simpa [heq] using ht)⟩
  · have hmem := (h.packs p hp).held.1 hs
    cases heq : s.hold with
    | none => simp [heq] at hmem
    | some hold => exact ⟨hold, rfl, by simpa [heq] using hmem⟩
  · obtain ⟨p, hp, htag⟩ := h.picksPlaced e he
    exact ⟨p, hp, htag, (h.packs p (mem_allPacks_of_mem_stackAt hp)).picked e he htag.symm⟩
  · refine h.works.imp_right fun hw =>
      ⟨hw.station, hw.role, hw.noHold, hw.distinct, fun tag ht => ?_, hw.room⟩
    obtain ⟨p, hp, rfl⟩ := mem_tagsOf.1 (hw.placed tag ht)
    exact ⟨p, hp, rfl, (h.packs p hp).offered ht⟩

/-! ### What carries the clauses over -/

/-- A stock that changes while the station and its configuration stay, of the same records per stack but
for fields that keep them sound. -/
theorem StockSound.mapped (h : StockSound s) {f : Pack → Pack} (htag : ∀ p, (f p).tag = p.tag)
    (hsound : ∀ p, packSound p → packSound (f p)) (hstock : t.stock = mapPacks f s.stock)
    (hstation : t.startup.station = .config → s.startup.station = .config)
    (hsettings : t.startup.settings = s.startup.settings) : StockSound t := by
  obtain ⟨hnodup, hpacks, htiers, hbeyond, hlimits, hconfig⟩ := h
  simp only [StockSound, hstock, hsettings, allPacks_mapPacks, stackAt_mapPacks, List.length_map,
    List.map_eq_nil_iff, List.map_map, Function.comp_def, htag]
  refine ⟨hnodup, ?_, htiers, hbeyond, hlimits, fun hc => hconfig (hstation hc)⟩
  simp only [List.mem_map, forall_exists_index, and_imp, forall_apply_eq_imp_iff₂]
  exact fun p hp => hsound p (hpacks p hp)

theorem StockSound.unchanged (h : StockSound s) (hstock : t.stock = s.stock)
    (hstation : t.startup.station = .config → s.startup.station = .config)
    (hsettings : t.startup.settings = s.startup.settings) : StockSound t := by
  obtain ⟨hnodup, hpacks, htiers, hbeyond, hlimits, hconfig⟩ := h
  simp only [StockSound, hstock, hsettings]
  exact ⟨hnodup, hpacks, htiers, hbeyond, hlimits, fun hc => hconfig (hstation hc)⟩

theorem tagsOf_mapPacks {f : Pack → Pack} (htag : ∀ p, (f p).tag = p.tag) (stock : Stock) :
    tagsOf (mapPacks f stock) = tagsOf stock := by
  simp [tagsOf, allPacks_mapPacks, Function.comp_def, htag]

theorem exists_mem_stackAt_mapPacks {f : Pack → Pack} (htag : ∀ p, (f p).tag = p.tag) (stock : Stock)
    (n tag : Nat) :
    (∃ p ∈ stackAt (mapPacks f stock) n, p.tag = tag) ↔ ∃ p ∈ stackAt stock n, p.tag = tag := by
  simp [stackAt_mapPacks, htag]

/-- A change of the records' fields, with every clause asked of the stock before it. -/
theorem RowClauses.mapped {f : Pack → Pack} (hstock : t.stock = mapPacks f s.stock)
    (htag : ∀ p, (f p).tag = p.tag) (hsound : StockSound t)
    (hheldDistinct : (heldTags t.hold).Nodup)
    (hheldPlaced : ∀ tag ∈ heldTags t.hold, tag ∈ tagsOf s.stock)
    (hroom : (heldTags t.hold).length + t.picks.length ≤ 24)
    (hpicksDistinct : (t.picks.map fun e => e.tag).Nodup)
    (hpicksPlaced : ∀ e ∈ t.picks, ∃ p ∈ stackAt s.stock e.stack, p.tag = e.tag)
    (hpacks : ∀ p ∈ allPacks s.stock, PackAgrees t (f p))
    (hworks : t.bid = .idle ∨ BidWorks t) : RowClauses t where
  stock := hsound
  heldDistinct := hheldDistinct
  heldPlaced := by rw [hstock, tagsOf_mapPacks htag]; exact hheldPlaced
  room := hroom
  picksDistinct := hpicksDistinct
  picksPlaced := fun e he => by
    rw [hstock, exists_mem_stackAt_mapPacks htag]
    exact hpicksPlaced e he
  packs := by
    rw [hstock, allPacks_mapPacks]
    simp only [List.mem_map, forall_exists_index, and_imp, forall_apply_eq_imp_iff₂]
    exact hpacks
  works := hworks

/-- What of a pick entry says which pack it is for, where that lies, and for which order (R86). -/
def pickPlace (e : PickEntry) : Nat × Nat × Reservation := (e.tag, e.stack, e.order)

theorem exists_pick_of_places {picks picks' : List PickEntry}
    (h : picks'.map pickPlace = picks.map pickPlace) {e : PickEntry} (he : e ∈ picks') :
    ∃ e' ∈ picks, e'.tag = e.tag ∧ e'.stack = e.stack ∧ e'.order = e.order := by
  have hmem : pickPlace e ∈ picks.map pickPlace := h ▸ List.mem_map_of_mem he
  obtain ⟨e', he', hplace⟩ := List.mem_map.1 hmem
  simp only [pickPlace, Prod.mk.injEq] at hplace
  exact ⟨e', he', hplace⟩

/-- From one state to the next, nothing that the clauses speak of has changed: of the records at most the
age, of the hold its packs stay, of the pick list the packs, stacks and orders, of the bid what it may
offer. A bid may also be dropped (R60, R76, R80, R94). -/
structure RowCarried (s t : State) : Prop where
  stock : t.stock = s.stock ∨ t.stock = agePacks s.stock
  held : heldTags t.hold = heldTags s.hold
  noHold : s.hold = none → t.hold = none
  picks : t.picks.map pickPlace = s.picks.map pickPlace
  bid : t.bid = .idle ∨
    (s.bid ≠ .idle ∧ offeredTags t.bid = offeredTags s.bid ∧ offerBound t.bid = offerBound s.bid)
  station : t.startup.station = s.startup.station
  settings : t.startup.settings = s.startup.settings

theorem packSound_aged {p : Pack} (h : packSound p) :
    packSound { p with age := min 255 (p.age + 1) } := by
  obtain ⟨h₁, h₂, h₃, h₄, h₅, -⟩ := h
  exact ⟨h₁, h₂, h₃, h₄, h₅, Nat.min_le_left _ _⟩

theorem mapPacks_id (stock : Stock) : mapPacks (fun p => p) stock = stock := by
  simp [mapPacks, vmap, Vector.toList]

/-- R60: of the records at most the age has changed. -/
theorem RowCarried.aged (e : RowCarried s t) : ∃ f : Pack → Pack,
    t.stock = mapPacks f s.stock ∧ (∀ p, (f p).tag = p.tag) ∧ (∀ p, (f p).state = p.state)
      ∧ ∀ p, packSound p → packSound (f p) := by
  rcases e.stock with h | h
  · exact ⟨fun p => p, by rw [h, mapPacks_id], fun _ => rfl, fun _ => rfl, fun _ hp => hp⟩
  · exact ⟨_, h, fun _ => rfl, fun _ => rfl, fun _ => packSound_aged⟩

theorem BidWorks.carry (h : BidWorks s) (e : RowCarried s t) (hidle : t.bid ≠ .idle) : BidWorks t := by
  obtain ⟨-, hoffered, hbound⟩ := e.bid.resolve_left hidle
  obtain ⟨f, hstock, htag, -⟩ := e.aged
  have hlength : t.picks.length = s.picks.length := by simpa using congrArg List.length e.picks
  exact
    { station := e.station.trans h.station
      role := e.settings ▸ h.role
      noHold := e.noHold h.noHold
      distinct := hoffered ▸ h.distinct
      placed := by rw [hoffered, hstock, tagsOf_mapPacks htag]; exact h.placed
      room := by rw [hbound, hlength]; exact h.room }

theorem PackAgrees.carry {p q : Pack} (h : PackAgrees s p) (e : RowCarried s t) (htag : q.tag = p.tag)
    (hstate : q.state = p.state) : PackAgrees t q where
  held := by rw [hstate, htag, e.held]; exact h.held
  picked := fun x hx hxtag => by
    obtain ⟨x', hx', hxtag', -, horder⟩ := exists_pick_of_places e.picks hx
    rw [hstate, ← horder]
    exact h.picked x' hx' (hxtag'.trans (hxtag.trans htag))
  reserved := fun hr => by
    obtain ⟨x, hx, hxtag⟩ := h.reserved (hstate ▸ hr)
    obtain ⟨x', hx', hxtag', -⟩ := exists_pick_of_places e.picks.symm hx
    exact ⟨x', hx', hxtag'.trans (hxtag.trans htag.symm)⟩
  offered := fun ho => by
    rcases e.bid with hidle | ⟨-, hoffered, -⟩
    · simp [hidle, offeredTags] at ho
    · rw [hstate]
      exact h.offered (by rwa [hoffered, htag] at ho)

theorem RowClauses.carry (h : RowClauses s) (e : RowCarried s t) : RowClauses t := by
  obtain ⟨f, hstock, htag, hstate, hsound⟩ := e.aged
  have hlength : t.picks.length = s.picks.length := by simpa using congrArg List.length e.picks
  have htags : t.picks.map (fun e => e.tag) = s.picks.map fun e => e.tag := by
    simpa [Function.comp_def, pickPlace] using congrArg (List.map Prod.fst) e.picks
  refine RowClauses.mapped hstock htag
    (h.stock.mapped htag hsound hstock (fun hc => e.station ▸ hc) e.settings)
    (e.held ▸ h.heldDistinct) (e.held ▸ h.heldPlaced) (by rw [e.held, hlength]; exact h.room)
    (htags ▸ h.picksDistinct) (fun x hx => ?_)
    (fun p hp => (h.packs p hp).carry e (htag p) (hstate p)) ?_
  · obtain ⟨x', hx', hxtag, hxstack, -⟩ := exists_pick_of_places e.picks hx
    obtain ⟨p, hp, hptag⟩ := h.picksPlaced x' hx'
    exact ⟨p, hxstack ▸ hp, hptag.trans hxtag⟩
  · by_cases hidle : t.bid = .idle
    · exact .inl hidle
    · have hs : s.bid ≠ .idle := (e.bid.resolve_left hidle).1
      exact .inr ((h.works.resolve_left hs).carry e hidle)

/-- A change that reaches none of the row's stores. -/
theorem RowClauses.same (h : RowClauses s)
    (e : t.stock = s.stock ∧ t.hold = s.hold ∧ t.picks = s.picks ∧ t.bid = s.bid
      ∧ t.startup.station = s.startup.station ∧ t.startup.settings = s.startup.settings) :
    RowClauses t := by
  obtain ⟨hstock, hhold, hpicks, hbid, hstation, hsettings⟩ := e
  refine h.carry ⟨.inl hstock, by rw [hhold], by rw [hhold]; exact id, by rw [hpicks], ?_, hstation,
    hsettings⟩
  by_cases hidle : s.bid = .idle
  · exact .inl (hbid.trans hidle)
  · exact .inr ⟨hidle, by rw [hbid], by rw [hbid]⟩

end Sys2Proof.Machine
end

