-- ==== Sys2Proof/Proofs/RowRequests.lean ====
section
/-! PROOF. What holds, settlements, releases and bids do to the sound row (O57). -/

namespace Sys2Proof.Machine

variable {s t : State}

/-! ### Changes of a record's state (R47, R48) -/

/-- While a hold is present the Bid Unit is IDLE (R63). -/
theorem RowClauses.idle_of_hold (h : RowClauses s) {hold : Hold} (hh : s.hold = some hold) :
    s.bid = .idle := by
  refine h.works.resolve_right fun hw => ?_
  simp [hw.noHold] at hh

/-- The record with another state. -/
def restated (state : Pack → PackState) (p : Pack) : Pack := { p with state := state p }

theorem packSound_restated (state : Pack → PackState) (p : Pack) (h : packSound p) :
    packSound (restated state p) := h

theorem restated_self {state : Pack → PackState} {p : Pack} (h : state p = p.state) :
    restated state p = p := by
  rw [restated, h]

/-- A change of the records' states alone, the station and its configuration as before. -/
theorem RowClauses.restate (h : RowClauses s) (state : Pack → PackState)
    (hstock : t.stock = mapPacks (restated state) s.stock)
    (hstation : t.startup.station = .config → s.startup.station = .config)
    (hsettings : t.startup.settings = s.startup.settings)
    (hheldDistinct : (heldTags t.hold).Nodup)
    (hheldPlaced : ∀ tag ∈ heldTags t.hold, tag ∈ tagsOf s.stock)
    (hroom : (heldTags t.hold).length + t.picks.length ≤ 24)
    (hpicksDistinct : (t.picks.map fun e => e.tag).Nodup)
    (hpicksPlaced : ∀ e ∈ t.picks, ∃ p ∈ stackAt s.stock e.stack, p.tag = e.tag)
    (hpacks : ∀ p ∈ allPacks s.stock, PackAgrees t (restated state p))
    (hworks : t.bid = .idle ∨ BidWorks t) : RowClauses t :=
  .mapped hstock (fun _ => rfl)
    (h.stock.mapped (f := restated state) (fun _ => rfl) (packSound_restated state) hstock hstation hsettings)
    hheldDistinct hheldPlaced hroom hpicksDistinct hpicksPlaced hpacks hworks

/-- A settle request by states (R48). -/
def settledState (named covered : List Nat) (order : Reservation) (p : Pack) : PackState :=
  if p.state = .held then
    if p.tag ∈ covered then .reserved order else if p.tag ∈ named then .free else .held
  else p.state

theorem settlePacks_eq (named covered : List Nat) (order : Reservation) (stock : Stock) :
    settlePacks named covered order stock = mapPacks (restated (settledState named covered order)) stock := by
  unfold settlePacks
  congr 1
  funext p
  by_cases hp : p.state = .held
  · by_cases hc : p.tag ∈ covered
    · simp [restated, settledState, hp, hc]
    · by_cases hn : p.tag ∈ named
      · simp [restated, settledState, hp, hc, hn]
      · simp [restated_self (state := settledState named covered order) (p := p)
          (by simp [settledState, hp, hc, hn]), hp, hc, hn]
  · simp [restated_self (state := settledState named covered order) (p := p)
      (by simp [settledState, hp]), hp]

/-! ### The hold (R78 to R85) -/

theorem RowClauses.endHold (h : RowClauses s) : RowClauses (endHold s) := by
  unfold Machine.endHold
  split
  · exact h
  · rename_i hold hh
    have hidle : s.bid = .idle := h.idle_of_hold hh
    refine h.restate (settledState hold.packs [] hold.order) (settlePacks_eq _ _ _ _) id rfl
      List.nodup_nil nofun (by simpa using (Nat.le_add_left _ _).trans h.room) h.picksDistinct
      h.picksPlaced (fun p hp => ?_) (.inl hidle)
    have ha := h.packs p hp
    have hheld : p.state = .held ↔ p.tag ∈ hold.packs := by simpa [hh] using ha.held
    by_cases hs : p.state = .held
    · have hfree : settledState hold.packs [] hold.order p = .free := by
        simp [settledState, hs, hheld.1 hs]
      refine ⟨by simp [restated, hfree], fun e he htag => ?_, ?_, by simp [hidle, offeredTags]⟩
      · exact absurd (ha.picked e he htag) (by simp [hs])
      · simp [restated, hfree, isReserved]
    · have hsame : settledState hold.packs [] hold.order p = p.state := by simp [settledState, hs]
      refine ⟨by simp [restated, hsame, hs], ?_, ?_, by simp [hidle, offeredTags]⟩
      · simpa [restated, hsame] using ha.picked
      · simpa [restated, hsame] using ha.reserved

/-- R84: the entries of a settlement, one for each covered record that was HELD. -/
theorem mem_newEntries {covered : List Nat} {order : Reservation} {minute : Minute} {stock : Stock}
    {e : PickEntry} : e ∈ newEntries covered order minute stock ↔
      ∃ n < 16, ∃ p ∈ stackAt stock n, p.tag ∈ covered ∧ p.state = .held
        ∧ { tag := p.tag, stack := n, order := order, grantMinute := minute, overdue := false } = e := by
  simp [newEntries, and_assoc]

theorem tagsOf_eq_flatMap (stock : Stock) :
    tagsOf stock = (List.range 16).flatMap fun n => (stackAt stock n).map fun p => p.tag := by
  rw [tagsOf, allPacks, ← map_stackAt, List.map_flatten, List.map_map, List.flatMap_def]
  rfl

theorem newEntries_distinct {stock : Stock} (h : (tagsOf stock).Nodup) (covered : List Nat)
    (order : Reservation) (minute : Minute) :
    ((newEntries covered order minute stock).map fun e => e.tag).Nodup := by
  rw [tagsOf_eq_flatMap, List.nodup_flatMap] at h
  obtain ⟨hstacks, hdisjoint⟩ := h
  have hsub : ∀ n, List.Sublist
      (((stackAt stock n).reverse.filter fun p => covered.contains p.tag && p.state == .held).map
        fun p => p.tag) ((stackAt stock n).reverse.map fun p => p.tag) := fun n =>
    List.filter_sublist.map _
  simp only [newEntries, List.map_flatMap, List.map_map, Function.comp_def, List.nodup_flatMap]
  refine ⟨fun n hn => (hsub n).nodup ?_, hdisjoint.imp fun {n m} hnm => ?_⟩
  · rw [List.map_reverse, List.nodup_reverse]
    exact hstacks n hn
  · intro tag hn hm
    refine hnm (?_ : tag ∈ (stackAt stock n).map fun p => p.tag) ?_
    · simpa using (hsub n).subset hn
    · simpa using (hsub m).subset hm

theorem newEntries_length {stock : Stock} (h : (tagsOf stock).Nodup) (covered : List Nat)
    (order : Reservation) (minute : Minute) :
    (newEntries covered order minute stock).length ≤ covered.length := by
  have hsub : ((newEntries covered order minute stock).map fun e => e.tag) ⊆ covered := by
    intro tag ht
    obtain ⟨e, he, rfl⟩ := List.mem_map.1 ht
    obtain ⟨-, -, p, -, hcovered, -, rfl⟩ := mem_newEntries.1 he
    exact hcovered
  simpa using ((newEntries_distinct h covered order minute).subperm hsub).length_le

/-- R83, R84: a confirmed settlement. -/
theorem RowClauses.settleConfirmed (h : RowClauses s) {hold : Hold} {packs : List Nat}
    (hh : s.hold = some hold) (hpacks : packs = hold.packs) (count : Nat) {order : Reservation}
    {minute : Minute} (hhold : t.hold = none)
    (hstock : t.stock = settlePacks packs (packs.take count) order s.stock)
    (hpicks : t.picks = s.picks ++ newEntries (packs.take count) order minute s.stock)
    (hbid : t.bid = s.bid) (hstartup : t.startup = s.startup) : RowClauses t := by
  subst hpacks
  have hidle : t.bid = .idle := hbid.trans (h.idle_of_hold hh)
  have hnodup : (tagsOf s.stock).Nodup := h.stock.1
  have hheldIff : ∀ p ∈ allPacks s.stock, p.state = .held ↔ p.tag ∈ hold.packs := fun p hp => by
    simpa [hh] using (h.packs p hp).held
  have hcovered : ∀ tag ∈ hold.packs.take count, tag ∈ hold.packs := fun _ => List.mem_of_mem_take
  -- An entry made now names a record that was HELD.
  have hnew : ∀ e ∈ newEntries (hold.packs.take count) order minute s.stock, ∀ p ∈ allPacks s.stock,
      e.tag = p.tag → p.state = .held ∧ p.tag ∈ hold.packs.take count ∧ e.order = order := by
    intro e he p hp htag
    obtain ⟨n, -, q, hq, hqc, hqheld, rfl⟩ := mem_newEntries.1 he
    obtain rfl := eq_of_tag_eq hnodup (mem_allPacks_of_mem_stackAt hq) hp htag
    exact ⟨hqheld, hqc, rfl⟩
  refine h.restate (settledState hold.packs (hold.packs.take count) order)
    (hstock.trans (settlePacks_eq _ _ _ _)) (by rw [hstartup]; exact id) (by rw [hstartup])
    (by simp [hhold]) (by simp [hhold]) ?_ ?_ ?_ ?_ (.inl hidle)
  · have hroom := h.room
    have hlength := newEntries_length hnodup (hold.packs.take count) order minute
    have htake := (List.take_sublist count hold.packs).length_le
    simp only [hh, heldTags_some] at hroom
    simp only [hhold, heldTags_none, hpicks, List.length_append, List.length_nil]
    omega
  · rw [hpicks, List.map_append, List.nodup_append']
    refine ⟨h.picksDistinct, newEntries_distinct hnodup _ _ _, fun tag hold' hnew' => ?_⟩
    obtain ⟨e, he, rfl⟩ := List.mem_map.1 hold'
    obtain ⟨e', he', htag⟩ := List.mem_map.1 hnew'
    obtain ⟨p, hp, hptag⟩ := h.picksPlaced e he
    have hp := mem_allPacks_of_mem_stackAt hp
    have hreserved := (h.packs p hp).picked e he hptag.symm
    simp [(hnew e' he' p hp (htag.trans hptag.symm)).1] at hreserved
  · intro e he
    rcases List.mem_append.1 (hpicks ▸ he) with he | he
    · exact h.picksPlaced e he
    · obtain ⟨n, -, p, hp, -, -, rfl⟩ := mem_newEntries.1 he
      exact ⟨p, hp, rfl⟩
  · intro p hp
    have ha := h.packs p hp
    by_cases hs : p.state = .held
    · have hmem := (hheldIff p hp).1 hs
      have hnotPicked : ∀ e ∈ s.picks, e.tag ≠ p.tag := fun e he htag => by
        simpa [hs] using ha.picked e he htag
      by_cases hc : p.tag ∈ hold.packs.take count
      · have hreserved : settledState hold.packs (hold.packs.take count) order p = .reserved order := by
          simp [settledState, hs, hc]
        refine ⟨by simp [restated, hreserved, hhold], fun e he htag => ?_, fun _ => ?_,
          by simp [hidle, offeredTags]⟩
        · rcases List.mem_append.1 (hpicks ▸ he) with he | he
          · exact absurd htag (hnotPicked e he)
          · simp [restated, hreserved, (hnew e he p hp htag).2.2]
        · obtain ⟨n, hn, hpn⟩ := (mem_allPacks _ _).1 hp
          exact ⟨_, by rw [hpicks]; exact
            List.mem_append_right _ (mem_newEntries.2 ⟨n, hn, p, hpn, hc, hs, rfl⟩), rfl⟩
      · have hfree : settledState hold.packs (hold.packs.take count) order p = .free := by
          simp [settledState, hs, hc, hmem]
        refine ⟨by simp [restated, hfree, hhold], fun e he htag => ?_, ?_,
          by simp [hidle, offeredTags]⟩
        · rcases List.mem_append.1 (hpicks ▸ he) with he | he
          · exact absurd htag (hnotPicked e he)
          · exact absurd (hnew e he p hp htag).2.1 hc
        · simp [restated, hfree, isReserved]
    · have hsame : settledState hold.packs (hold.packs.take count) order p = p.state := by
        simp [settledState, hs]
      rw [restated_self hsame]
      refine ⟨by simp [hs, hhold], fun e he htag => ?_, fun hr => ?_, by simp [hidle, offeredTags]⟩
      · rcases List.mem_append.1 (hpicks ▸ he) with he | he
        · exact ha.picked e he htag
        · exact absurd (hnew e he p hp htag).1 hs
      · obtain ⟨e, he, htag⟩ := ha.reserved hr
        exact ⟨e, by rw [hpicks]; exact List.mem_append_left _ he, htag⟩

/-! ### The pick list (R86 to R92) -/

/-- A pack has one entry. -/
theorem RowClauses.pick_unique (h : RowClauses s) {e e' : PickEntry} (he : e ∈ s.picks)
    (he' : e' ∈ s.picks) (htag : e.tag = e'.tag) : e = e' :=
  List.inj_on_of_nodup_map h.picksDistinct he he' htag

/-- A release request by states (R48). -/
def releasedState (named : List Nat) (p : Pack) : PackState :=
  if p.tag ∈ named ∧ isReserved p.state = true then .free else p.state

theorem releasePacks_eq (named : List Nat) (stock : Stock) :
    releasePacks named stock = mapPacks (restated (releasedState named)) stock := by
  unfold releasePacks
  congr 1
  funext p
  by_cases hp : p.tag ∈ named ∧ isReserved p.state = true
  · simp [restated, releasedState, hp]
  · rw [restated_self (by simp [releasedState, hp])]
    simpa using fun hn hr => absurd ⟨hn, hr⟩ hp

theorem RowClauses.releaseEntries (h : RowClauses s) (which : PickEntry → Bool) :
    RowClauses (releaseEntries which s) := by
  obtain ⟨hpicks, hstock⟩ := releaseEntries_spec which s
  have hsub : ∀ e ∈ (Machine.releaseEntries which s).picks, e ∈ s.picks ∧ which e = false := by
    simp [hpicks]
  have hlength : (Machine.releaseEntries which s).picks.length ≤ s.picks.length := by
    rw [hpicks]; exact List.length_filter_le _ _
  generalize hnamed : (s.picks.filter which).map (fun e => e.tag) = named at hstock
  refine h.restate (releasedState named) (hstock.trans (releasePacks_eq _ _)) (by simp) (by simp)
    (by simpa using h.heldDistinct) (by simpa using h.heldPlaced) ?_ ?_
    (fun e he => h.picksPlaced e (hsub e he).1) (fun p hp => ?_) ?_
  · have hroom := h.room
    simp only [releaseEntries_hold]
    omega
  · rw [hpicks]
    exact (List.filter_sublist.map _).nodup h.picksDistinct
  · have ha := h.packs p hp
    by_cases hr : p.tag ∈ named ∧ isReserved p.state = true
    · have hfree : releasedState named p = .free := if_pos hr
      obtain ⟨hin, hreserved⟩ := hr
      rw [← hnamed] at hin
      obtain ⟨e, he, htag⟩ := List.mem_map.1 hin
      obtain ⟨hes, hwhich⟩ := List.mem_filter.1 he
      have hnotHeld : p.state ≠ .held := by
        intro hs
        simp [hs, isReserved] at hreserved
      refine ⟨?_, fun e' he' htag' => ?_, by simp [restated, hfree, isReserved], fun _ => hfree⟩
      · simpa [restated, hfree] using mt ha.held.2 hnotHeld
      · obtain ⟨he's, hnot⟩ := hsub e' he'
        rw [h.pick_unique he's hes (htag'.trans htag.symm), hwhich] at hnot
        cases hnot
    · rw [restated_self (if_neg hr)]
      refine ⟨by simpa using ha.held, fun e he htag => ha.picked e (hsub e he).1 htag, fun hres => ?_,
        by simpa using ha.offered⟩
      obtain ⟨e, he, htag⟩ := ha.reserved hres
      refine ⟨e, ?_, htag⟩
      rw [hpicks, List.mem_filter]
      refine ⟨he, ?_⟩
      by_contra hwhich
      refine hr ⟨?_, hres⟩
      rw [← hnamed, ← htag]
      exact List.mem_map_of_mem (List.mem_filter.2 ⟨he, by simpa using hwhich⟩)
  · refine (h.works.imp (by simp) fun hw =>
      { station := by simpa using hw.station, role := by simpa using hw.role,
        noHold := by simpa using hw.noHold, distinct := by simpa using hw.distinct,
        placed := ?_, room := ?_ })
    · rw [hstock, releasePacks_eq, tagsOf_mapPacks (f := restated (releasedState named)) fun _ => rfl]
      simpa using hw.placed
    · have hroom := hw.room
      simp only [releaseEntries_bid]
      omega

/-- R85: a hold that a test names ends. -/
theorem RowClauses.endHoldIf (h : RowClauses s) (which : Reservation → Bool) :
    RowClauses (endHoldIf which s) := by
  unfold Machine.endHoldIf
  split
  · exact h
  · split
    · exact h.endHold
    · exact h

theorem RowClauses.releaseVoid (h : RowClauses s) (gate ticket : Nat) :
    RowClauses (releaseVoid gate ticket s) :=
  (h.endHoldIf _).releaseEntries _

theorem RowClauses.releaseGate (h : RowClauses s) (gate : Nat) : RowClauses (releaseGate gate s) :=
  (h.endHoldIf _).releaseEntries _

/-- Entry to DUPLICATE by states (R61). -/
def duplicateState (p : Pack) : PackState :=
  if p.state = .held ∨ isReserved p.state = true then .free else p.state

theorem duplicateState_released (p : Pack) :
    duplicateState p ≠ .held ∧ isReserved (duplicateState p) = false := by
  unfold duplicateState
  cases p.state <;> simp [isReserved]

/-- R61, R63, R92: in DUPLICATE no pack is HELD or RESERVED, and nothing is held, picked or offered. -/
theorem RowClauses.enterDuplicate (h : RowClauses s) : RowClauses (enterDuplicate s) := by
  have hstock : (Machine.enterDuplicate s).stock = mapPacks (restated duplicateState) s.stock := by
    have hstart : (Machine.enterDuplicate s).stock = mapPacks
        (fun p => if p.state == .held || isReserved p.state then { p with state := .free } else p)
        s.stock := by
      simp [Machine.enterDuplicate, Machine.releaseAll]
    rw [hstart]
    congr 1
    funext p
    by_cases hp : p.state = .held ∨ isReserved p.state = true
    · simp [restated, duplicateState, hp]
    · rw [restated_self (if_neg hp)]
      simpa using fun hr => absurd hr hp
  have hstartup := enterDuplicate_startup s
  refine h.restate duplicateState hstock (by simp [hstartup]) (by simp [hstartup]) (by simp) (by simp)
    (by simp) (by simp) (by simp) (fun p hp => ?_) (.inl (by simp))
  obtain ⟨hheld, hreserved⟩ := duplicateState_released p
  exact ⟨by simp [restated, hheld], by simp, by simp [restated, hreserved], by simp [offeredTags]⟩

/-! ### The Bid Unit (R63 to R79) -/

/-- A change of the Bid Unit alone, by what it may offer from now on. -/
theorem RowClauses.withBid (h : RowClauses s)
    (e : t.stock = s.stock ∧ t.hold = s.hold ∧ t.picks = s.picks
      ∧ t.startup.station = s.startup.station ∧ t.startup.settings = s.startup.settings)
    (hoffered : ∀ p ∈ allPacks s.stock, p.tag ∈ offeredTags t.bid → p.state = .free)
    (hworks : t.bid = .idle ∨ BidWorks t) : RowClauses t := by
  obtain ⟨hstock, hhold, hpicks, hstation, hsettings⟩ := e
  refine ⟨h.stock.unchanged hstock (fun hc => hstation ▸ hc) hsettings, hhold ▸ h.heldDistinct, ?_, ?_,
    hpicks ▸ h.picksDistinct, ?_, fun p hp => ?_, hworks⟩
  · rw [hhold, hstock]; exact h.heldPlaced
  · rw [hhold, hpicks]; exact h.room
  · rw [hpicks, hstock]; exact h.picksPlaced
  · rw [hstock] at hp
    obtain ⟨hheld, hpicked, hreserved, -⟩ := h.packs p hp
    exact ⟨by rw [hhold]; exact hheld, by rw [hpicks]; exact hpicked, by rw [hpicks]; exact hreserved,
      hoffered p hp⟩

/-- The Bid Unit is IDLE again (R76). -/
theorem RowClauses.idled (h : RowClauses s)
    (e : t.stock = s.stock ∧ t.hold = s.hold ∧ t.picks = s.picks
      ∧ t.startup.station = s.startup.station ∧ t.startup.settings = s.startup.settings)
    (hidle : t.bid = .idle) : RowClauses t :=
  h.withBid e (by simp [hidle, offeredTags]) (.inl hidle)

theorem RowClauses.dropBid (h : RowClauses s) : RowClauses (dropBid s) := h.idled (by simp) rfl

/-- The Bid Unit may offer no other packs than before, and no more of them. -/
theorem RowClauses.narrowed (h : RowClauses s)
    (e : t.stock = s.stock ∧ t.hold = s.hold ∧ t.picks = s.picks
      ∧ t.startup.station = s.startup.station ∧ t.startup.settings = s.startup.settings)
    (hbid : s.bid ≠ .idle) (hdistinct : (offeredTags s.bid).Nodup → (offeredTags t.bid).Nodup)
    (hsub : offeredTags t.bid ⊆ offeredTags s.bid) (hbound : offerBound t.bid ≤ offerBound s.bid) :
    RowClauses t := by
  refine h.withBid e (fun p hp ht => (h.packs p hp).offered (hsub ht)) (.inr ?_)
  obtain ⟨hstock, hhold, hpicks, hstation, hsettings⟩ := e
  have hw := h.works.resolve_left hbid
  have hroom := hw.room
  exact
    { station := hstation.trans hw.station, role := hsettings ▸ hw.role, noHold := hhold.trans hw.noHold
      distinct := hdistinct hw.distinct
      placed := fun tag ht => hstock ▸ hw.placed tag (hsub ht)
      room := by rw [hpicks]; omega }

/-- R64: an eligible row's records that match are FREE, and its list has room for the free entries. -/
theorem RowClauses.beginComputing (h : RowClauses s) {c : CallFields} {started : Bool}
    (hrow : isRow s = true) (he : eligible c started s = true) : RowClauses (beginComputing c s) := by
  obtain ⟨hservice, -, -, -, hhold, hpicks, -⟩ := (eligible_iff c started s).1 he
  have hoffered : offeredTags (Machine.beginComputing c s).bid =
      ((viewOf s.stock).filter (matchesCall c)).map fun v => v.tag := rfl
  have hsub : List.Sublist (offeredTags (Machine.beginComputing c s).bid) (tagsOf s.stock) := by
    rw [hoffered, tagsOf, ← viewOf_tags]
    exact List.filter_sublist.map _
  refine h.withBid (by simp) (fun p hp ht => ?_) (.inr
    { station := hservice, role := by simpa [isRow] using hrow, noHold := hhold
      distinct := hsub.nodup h.stock.1, placed := fun tag ht => hsub.subset ht
      room := ?_ })
  · rw [hoffered] at ht
    obtain ⟨v, hv, htag⟩ := List.mem_map.1 ht
    obtain ⟨hview, hmatch⟩ := List.mem_filter.1 hv
    obtain ⟨below, q, above, -, hstack, hvq⟩ := (mem_viewOf _ _).1 hview
    have hq : q ∈ allPacks s.stock := mem_allPacks_of_mem_stackAt (by rw [hstack]; simp)
    have hstate : v.state = .free := by
      simp only [matchesCall, Bool.and_eq_true, beq_iff_eq] at hmatch
      exact hmatch.1.1.1
    rw [hvq] at htag hstate
    rwa [eq_of_tag_eq h.stock.1 hp hq htag.symm]
  · have hbound : offerBound (Machine.beginComputing c s).bid = 24 - s.picks.length := rfl
    rw [hbound, beginComputing_picks]
    omega

theorem insertSelected_perm (a : Selected) (l : List Selected) :
    (insertSelected a l).Perm (a :: l) := by
  induction l with
  | nil => exact .refl _
  | cons b rest ih =>
    unfold insertSelected
    split
    · exact .refl _
    · exact (ih.cons b).trans (.swap a b rest)

theorem rankSelected_perm (l : List Selected) : (rankSelected l).Perm l := by
  induction l with
  | nil => exact .refl _
  | cons a rest ih => exact (insertSelected_perm a _).trans (ih.cons a)

/-- R67: the selection is drawn from the matching records. -/
theorem computeBid_tags (r : BidRecord) (cap number : Nat) :
    ∃ tags, List.Sublist ((computeBid r cap number).selection.map fun a => a.tag) tags
      ∧ tags.Perm (offeredTags (.computing r)) := by
  refine ⟨(rankedOffers r cap).map fun a => a.tag, (List.take_sublist _ _).map _, ?_⟩
  have hperm := (rankSelected_perm ((r.view.filter (matchesCall r.call)).map
    (priced r.call r.distance cap))).map fun a => a.tag
  rwa [List.map_map] at hperm

/-- R64, R67: and it is no longer than the free pick entries. -/
theorem computeBid_length (r : BidRecord) (cap number : Nat) :
    (computeBid r cap number).selection.length ≤ r.freeEntries :=
  (List.length_take_le _ _).trans ((Nat.min_le_right _ _).trans (Nat.min_le_right _ _))

/-- R67 to R71: the result offers records that matched. -/
theorem RowClauses.computed (h : RowClauses s) {r r' : BidRecord} {cap number : Nat}
    (hb : s.bid = .computing r) (e : t.stock = s.stock ∧ t.hold = s.hold ∧ t.picks = s.picks
      ∧ t.startup.station = s.startup.station ∧ t.startup.settings = s.startup.settings)
    (hbid : t.bid = .ready r' (computeBid r cap number)) : RowClauses t := by
  obtain ⟨tags, hsub, hperm⟩ := computeBid_tags r cap number
  have hoffered : offeredTags t.bid = (computeBid r cap number).selection.map fun a => a.tag := by
    rw [hbid]; rfl
  refine h.narrowed e (by simp [hb]) (fun hd => ?_) (fun tag ht => ?_) ?_
  · rw [hoffered]
    exact hsub.nodup (hperm.nodup_iff.2 (hb ▸ hd))
  · rw [hb]
    exact hperm.subset (hsub.subset (hoffered ▸ ht))
  · rw [hb, hbid]
    exact computeBid_length r cap number

/-- A hold request by states (R48). -/
def heldState (named : List Nat) (p : Pack) : PackState :=
  if p.tag ∈ named ∧ p.state = .free then .held else p.state

theorem holdPacks_eq (named : List Nat) (stock : Stock) :
    holdPacks named stock = mapPacks (restated (heldState named)) stock := by
  unfold holdPacks
  congr 1
  funext p
  by_cases hp : p.tag ∈ named ∧ p.state = .free
  · simp [restated, heldState, hp]
  · rw [restated_self (if_neg hp)]
    simpa using fun hn hs => absurd ⟨hn, hs⟩ hp

/-- R79: a win turns the offered packs, all FREE, into the packs of a hold. -/
theorem RowClauses.won (h : RowClauses s) {r : BidRecord} {res : BidResult}
    (hb : s.bid = .bidding r res) (order : Reservation) (hidle : t.bid = .idle)
    (e : t.stock = s.stock ∧ t.hold = s.hold ∧ t.picks = s.picks
      ∧ t.startup.station = s.startup.station ∧ t.startup.settings = s.startup.settings) :
    RowClauses (createHold order (res.selection.map fun a => a.tag) t) := by
  obtain ⟨hstock, -, hpicks, hstation, hsettings⟩ := e
  have hw : BidWorks s := h.works.resolve_left (by simp [hb])
  have hoffered : offeredTags s.bid = res.selection.map fun a => a.tag := by rw [hb]; rfl
  have hbound : offerBound s.bid = res.selection.length := by rw [hb]; rfl
  have hroom := hw.room
  rw [← hoffered]
  refine h.restate (heldState (offeredTags s.bid)) ?_ (by simp [hstation]) (by simp [hsettings])
    hw.distinct hw.placed ?_ (by simpa [hpicks] using h.picksDistinct)
    (by simpa [hpicks] using h.picksPlaced) (fun p hp => ?_) (.inl (by simpa using hidle))
  · rw [← holdPacks_eq, ← hstock]; rfl
  · have hlength : (heldTags (createHold order (offeredTags s.bid) t).hold).length
        = offerBound s.bid := by
      rw [hbound]
      show (offeredTags s.bid).length = _
      simp [hoffered]
    rw [hlength, createHold_picks, hpicks]
    exact hroom
  · obtain ⟨hheld, hpicked, hreserved, hfree⟩ := h.packs p hp
    have hnew : heldTags (createHold order (offeredTags s.bid) t).hold = offeredTags s.bid := rfl
    by_cases hin : p.tag ∈ offeredTags s.bid
    · have hs : p.state = .free := hfree hin
      have hheldNow : heldState (offeredTags s.bid) p = .held := if_pos ⟨hin, hs⟩
      refine ⟨⟨fun _ => hin, fun _ => hheldNow⟩, fun x hx htag => ?_, ?_,
        by simp [hidle, offeredTags]⟩
      · rw [createHold_picks, hpicks] at hx
        simpa [hs] using hpicked x hx htag
      · simp [restated, hheldNow, isReserved]
    · rw [restated_self (if_neg fun hc => hin hc.1)]
      refine ⟨?_, by simpa [hpicks] using hpicked, by simpa [hpicks] using hreserved,
        by simp [hidle, offeredTags]⟩
      rw [hnew, hheld, hw.noHold]
      simp [hin]

theorem RowClauses.closeBid (h : RowClauses s) (word : BidWord) : RowClauses (closeBid word s) := by
  unfold Machine.closeBid
  split
  · rename_i r res hb
    dsimp only
    split
    · exact h.idled (by simp) rfl
    · exact h.won hb _ rfl (by simp)
  · exact h
  · exact h
  · exact h

end Sys2Proof.Machine
end

