-- ==== Sys2Proof/Proofs/StockPlaces.lean ====
section
/-! PROOF. Where a record stands: pushes and pops of the stacks, and the searches by tag (R45, R46). -/

namespace Sys2Proof.Machine

variable {stock : Stock} {n : Nat} {tag : Nat} {p : Pack} {below above : List Pack}

/-! ### The table with one stack replaced -/

theorem toList_setStack (stock : Stock) (n : Nat) (packs : List Pack) :
    (setStack stock n packs).toList = stock.toList.set n packs := by
  simp [setStack]

theorem setStack_stackAt (stock : Stock) (n : Nat) : setStack stock n (stackAt stock n) = stock := by
  refine Vector.toList_inj.1 (List.ext_getElem? fun m => ?_)
  rw [toList_setStack, List.getElem?_set]
  split
  · rename_i h
    subst h
    split
    · rename_i h
      simp [stackAt, List.getElem?_eq_getElem h]
    · rename_i h
      rw [List.getElem?_eq_none (Nat.not_lt.1 h)]
  · rfl

/-- The records before and behind a stack do not depend on it. -/
theorem allPacks_setStack (stock : Stock) (hn : n < 16) : ∃ before after, ∀ packs,
    allPacks (setStack stock n packs) = before ++ packs ++ after := by
  refine ⟨(stock.toList.take n).flatten, (stock.toList.drop (n + 1)).flatten, fun packs => ?_⟩
  rw [allPacks, toList_setStack, List.set_eq_take_append_cons_drop, if_pos (by simpa using hn)]
  simp

/-- R46: a record that joins a stack joins the table. -/
theorem allPacks_pushPack (stock : Stock) (p : Pack) (hn : n < 16) :
    (allPacks (pushPack n p stock)).Perm (p :: allPacks stock) := by
  obtain ⟨before, after, hsplit⟩ := allPacks_setStack stock hn
  have hstock := hsplit (stackAt stock n)
  rw [setStack_stackAt] at hstock
  rw [pushPack, hsplit, hstock]
  simpa using List.perm_middle (l₁ := before ++ stackAt stock n)

/-- R46: a record that leaves the top of its stack leaves the table. -/
theorem allPacks_popPack (hn : n < 16) (h : stackAt stock n = below ++ [p]) :
    (allPacks stock).Perm (p :: allPacks (popPack n stock)) := by
  obtain ⟨before, after, hsplit⟩ := allPacks_setStack stock hn
  have hstock := hsplit (stackAt stock n)
  rw [setStack_stackAt] at hstock
  rw [popPack, hsplit, hstock, h, List.dropLast_concat]
  simpa using List.perm_middle (l₁ := before ++ below)

/-- R46: a stack below the record that left it. -/
theorem stackAt_popPack_top (hn : n < 16) (h : stackAt stock n = below ++ [p]) (m : Nat) :
    stackAt (popPack n stock) m = if m = n then below else stackAt stock m := by
  rw [stackAt_popPack _ _ _ hn, h, List.dropLast_concat]

/-! ### The searches by tag -/

theorem tagPresent_iff : tagPresent tag stock = true ↔ ∃ p ∈ allPacks stock, p.tag = tag := by
  simp [tagPresent]

theorem findPack_mem (h : findPack tag stock = some p) : p ∈ allPacks stock ∧ p.tag = tag :=
  ⟨List.mem_of_find?_eq_some h, by simpa using List.find?_some h⟩

theorem findPack_eq (hnodup : (tagsOf stock).Nodup) (hp : p ∈ allPacks stock) (htag : p.tag = tag) :
    findPack tag stock = some p := by
  cases hf : findPack tag stock with
  | none =>
    have := List.find?_eq_none.1 hf p hp
    simp [htag] at this
  | some q =>
    obtain ⟨hq, hqtag⟩ := findPack_mem hf
    rw [eq_of_tag_eq hnodup hq hp (hqtag.trans htag.symm)]

theorem findPack_none (h : ∀ p ∈ allPacks stock, p.tag ≠ tag) : findPack tag stock = none :=
  List.find?_eq_none.2 (by simpa using h)

theorem stackOf_mem (h : stackOf tag stock = some n) : n < 16 ∧ ∃ p ∈ stackAt stock n, p.tag = tag :=
  ⟨by simpa using List.mem_of_find?_eq_some h, by simpa using List.find?_some h⟩

theorem stackOf_none (h : ∀ p ∈ allPacks stock, p.tag ≠ tag) : stackOf tag stock = none := by
  refine List.find?_eq_none.2 fun m _ => ?_
  simpa using fun p hp => h p (mem_allPacks_of_mem_stackAt hp)

theorem lt_of_mem_stackAt (h : p ∈ stackAt stock n) : n < 16 := by
  by_contra hn
  simp [stackAt_beyond stock n (Nat.not_lt.1 hn)] at h

theorem stack_not_lt (hnodup : (tagsOf stock).Nodup) {m : Nat} {q : Pack} (hp : p ∈ stackAt stock n)
    (hq : q ∈ stackAt stock m) (htag : p.tag = q.tag) : ¬ n < m := by
  intro hlt
  rw [tagsOf_eq_flatMap, List.nodup_flatMap, List.pairwise_iff_getElem] at hnodup
  have hdisjoint := hnodup.2 n m (by simpa using lt_of_mem_stackAt hp)
    (by simpa using lt_of_mem_stackAt hq) hlt
  simp only [Function.onFun, List.getElem_range] at hdisjoint
  exact hdisjoint (List.mem_map_of_mem hp) (List.mem_map.2 ⟨q, hq, htag.symm⟩)

/-- R45, R46: a record stands in one stack alone. -/
theorem stack_unique (hnodup : (tagsOf stock).Nodup) {m : Nat} {q : Pack} (hp : p ∈ stackAt stock n)
    (hq : q ∈ stackAt stock m) (htag : p.tag = q.tag) : n = m :=
  Nat.le_antisymm (Nat.not_lt.1 (stack_not_lt hnodup hq hp htag.symm))
    (Nat.not_lt.1 (stack_not_lt hnodup hp hq htag))

theorem stackOf_eq (hnodup : (tagsOf stock).Nodup) (hp : p ∈ stackAt stock n) (htag : p.tag = tag) :
    stackOf tag stock = some n := by
  cases hs : stackOf tag stock with
  | none =>
    have := List.find?_eq_none.1 hs n (List.mem_range.2 (lt_of_mem_stackAt hp))
    exact absurd htag (by simpa using fun h => this (by simpa using ⟨p, hp, h⟩))
  | some m =>
    obtain ⟨-, q, hq, hqtag⟩ := stackOf_mem hs
    rw [stack_unique hnodup hp hq (htag.trans hqtag.symm)]

/-- R46: the record on top is the last of its stack. -/
theorem onTop_iff :
    onTop tag n stock = true ↔ ∃ below p, stackAt stock n = below ++ [p] ∧ p.tag = tag := by
  unfold onTop
  constructor
  · intro h
    split at h
    · cases h
    · rename_i q hq
      obtain ⟨below, hbelow⟩ := List.getLast?_eq_some_iff.1 hq
      exact ⟨below, q, hbelow, by simpa using h⟩
  · rintro ⟨below, q, hstack, htag⟩
    simp [hstack, htag]

/-- R45, R46: a record with others above it is not on top. -/
theorem onTop_between (hnodup : (tagsOf stock).Nodup) (hstack : stackAt stock n = below ++ p :: above)
    (htag : p.tag = tag) : onTop tag n stock = decide (above = []) := by
  rw [Bool.eq_iff_iff, onTop_iff, decide_eq_true_iff]
  constructor
  · rintro ⟨rest, q, hrest, hqtag⟩
    have hdistinct : ((stackAt stock n).map fun r => r.tag).Nodup := by
      rw [tagsOf_eq_flatMap, List.nodup_flatMap] at hnodup
      by_cases hn : n < 16
      · exact hnodup.1 n (List.mem_range.2 hn)
      · simp [stackAt_beyond stock n (Nat.not_lt.1 hn)]
    rcases List.eq_nil_or_concat above with hnil | ⟨front, top, rfl⟩
    · exact hnil
    · rw [hrest, List.concat_eq_append, ← List.cons_append, ← List.append_assoc] at hstack
      obtain ⟨rfl, -⟩ := List.append_inj' hstack rfl
      rw [hrest] at hdistinct
      simp [hqtag, htag, List.nodup_append] at hdistinct
  · rintro rfl
    exact ⟨below, p, hstack, htag⟩

end Sys2Proof.Machine
end

