-- ==== Sys2Proof/Proofs/RowLoader.lean ====
section
/-! PROOF. The loader's messages keep the row sound (O57): a record that joins, leaves, moves or changes its
state, with its pick entry (R51 to R58, R87 to R89). -/

namespace Sys2Proof.Machine

variable {s t : State} {p : Pack} {n : Nat} {below : List Pack}

/-! ### A record and its pick entry -/

/-- R86: a pack that is not RESERVED has no entry. -/
theorem RowClauses.unpicked (h : RowClauses s) (hp : p ∈ allPacks s.stock)
    (hr : isReserved p.state = false) {e : PickEntry} (he : e ∈ s.picks) : e.tag ≠ p.tag := by
  intro htag
  rw [(h.packs p hp).picked e he htag] at hr
  cases hr

/-- R86: removing the entry of a pack that is not RESERVED changes nothing. -/
theorem RowClauses.filter_unpicked (h : RowClauses s) (hp : p ∈ allPacks s.stock)
    (hr : isReserved p.state = false) : s.picks.filter (fun e => e.tag != p.tag) = s.picks :=
  List.filter_eq_self.2 fun _ he => by simpa using h.unpicked hp hr he

/-- The station's part in a loader's message: an IDLE Bid Unit, the hold as it was, and the same
configuration in the same station state. -/
structure LoaderTurn (s t : State) : Prop where
  before : s.bid = .idle
  after : t.bid = .idle
  hold : t.hold = s.hold
  station : t.startup.station = s.startup.station
  settings : t.startup.settings = s.startup.settings

/-- R57, R58: a pack that is neither HELD nor to be RESERVED takes a state, and its entry goes. -/
theorem RowClauses.setPackState (h : RowClauses s) (e : LoaderTurn s t) (hp : p ∈ allPacks s.stock)
    (hheld : p.state ≠ .held) {state : PackState} (hnew : state ≠ .held)
    (hnew' : isReserved state = false)
    (hstock : t.stock = setPackState p.tag state s.stock)
    (hpicks : t.picks = s.picks.filter fun e => e.tag != p.tag) : RowClauses t := by
  have hsub : ∀ x ∈ t.picks, x ∈ s.picks ∧ x.tag ≠ p.tag := by simp [hpicks]
  have hlength : t.picks.length ≤ s.picks.length := by
    rw [hpicks]; exact List.length_filter_le _ _
  have hrestated : t.stock =
      mapPacks (restated fun q => if q.tag = p.tag then state else q.state) s.stock := by
    rw [hstock, Machine.setPackState]
    congr 1
    funext q
    by_cases hq : q.tag = p.tag
    · simp [restated, hq]
    · simp [restated, hq]
  refine h.restate _ hrestated (by rw [e.station]; exact id) e.settings (by rw [e.hold]; exact h.heldDistinct)
    (by rw [e.hold]; exact h.heldPlaced) (by rw [e.hold]; have := h.room; omega) ?_
    (fun x hx => h.picksPlaced x (hsub x hx).1) (fun q hq => ?_) (.inl e.after)
  · rw [hpicks]
    exact (List.filter_sublist.map _).nodup h.picksDistinct
  · by_cases htag : q.tag = p.tag
    · obtain rfl := eq_of_tag_eq h.stock.1 hq hp htag
      refine ⟨?_, fun x hx hxtag => absurd hxtag (hsub x hx).2, by simp [restated, hnew'],
        by simp [e.after, offeredTags]⟩
      rw [e.hold]
      simpa [restated, hnew] using mt (h.packs q hq).held.2 hheld
    · have ha := h.packs q hq
      rw [restated_self (if_neg htag)]
      refine ⟨by rw [e.hold]; exact ha.held, fun x hx => ha.picked x (hsub x hx).1, fun hr => ?_,
        by simp [e.after, offeredTags]⟩
      obtain ⟨x, hx, hxtag⟩ := ha.reserved hr
      exact ⟨x, by simp [hpicks, hx, hxtag, htag], hxtag⟩

/-! ### A record that joins, leaves or moves (R46) -/

/-- R51, R52: a FREE record with a new tag joins the top of its stack. -/
theorem RowClauses.put (h : RowClauses s) (e : LoaderTurn s t) (hn : n < 16) (hsound : packSound p)
    (hfree : p.state = .free) (hnew : ∀ q ∈ allPacks s.stock, q.tag ≠ p.tag)
    (hlimit : n < s.startup.settings.stackLimit)
    (htier : (stackAt s.stock n).length < s.startup.settings.tierLimit)
    (hconfig : s.startup.station ≠ .config)
    (hstock : t.stock = pushPack n p s.stock) (hpicks : t.picks = s.picks) : RowClauses t := by
  have hperm := allPacks_pushPack s.stock p hn
  have hstacks (m : Nat) := stackAt_pushPack s.stock n m p hn
  rw [← hstock] at hperm
  simp only [← hstock] at hstacks
  have hmem : ∀ q, q ∈ allPacks t.stock ↔ q = p ∨ q ∈ allPacks s.stock := fun q => by
    rw [hperm.mem_iff, List.mem_cons]
  have htags : ∀ tag ∈ tagsOf s.stock, tag ∈ tagsOf t.stock := fun tag ht => by
    obtain ⟨q, hq, htag⟩ := mem_tagsOf.1 ht
    exact mem_tagsOf.2 ⟨q, (hmem q).2 (.inr hq), htag⟩
  obtain ⟨hnodup, hpacks, htiers, hbeyond, hlimits, -⟩ := h.stock
  refine
    { stock := ⟨?_, ?_, ?_, ?_, by rw [e.settings]; exact hlimits,
        fun hc => absurd (e.station ▸ hc) hconfig⟩
      heldDistinct := by rw [e.hold]; exact h.heldDistinct
      heldPlaced := by rw [e.hold]; exact fun tag ht => htags tag (h.heldPlaced tag ht)
      room := by rw [e.hold, hpicks]; exact h.room
      picksDistinct := by rw [hpicks]; exact h.picksDistinct
      picksPlaced := ?_, packs := ?_, works := .inl e.after }
  · rw [(hperm.map _).nodup_iff, List.map_cons, List.nodup_cons]
    exact ⟨by simpa using hnew, hnodup⟩
  · intro q hq
    rcases (hmem q).1 hq with rfl | hq
    · exact hsound
    · exact hpacks q hq
  · intro m hm
    rw [hstacks, e.settings]
    split
    · simp; omega
    · exact htiers m hm
  · intro m hm hle
    rw [e.settings] at hle
    rw [hstacks, if_neg (by omega)]
    exact hbeyond m hm hle
  · intro x hx
    obtain ⟨q, hq, hqtag⟩ := h.picksPlaced x (hpicks ▸ hx)
    refine ⟨q, ?_, hqtag⟩
    rw [hstacks]
    split
    · rename_i hm
      exact List.mem_append_left _ (hm ▸ hq)
    · exact hq
  · intro q hq
    rcases (hmem q).1 hq with rfl | hq
    · have hnotHeld : q.tag ∉ heldTags s.hold := fun ht => by
        obtain ⟨r, hr, hrtag⟩ := mem_tagsOf.1 (h.heldPlaced _ ht)
        exact hnew r hr hrtag
      refine ⟨by rw [e.hold]; simp [hfree, hnotHeld], fun x hx hxtag => ?_,
        by simp [hfree, isReserved], fun _ => hfree⟩
      obtain ⟨r, hr, hrtag⟩ := h.picksPlaced x (hpicks ▸ hx)
      exact absurd (hrtag.trans hxtag) (hnew r (mem_allPacks_of_mem_stackAt hr))
    · obtain ⟨hheld, hpicked, hreserved, -⟩ := h.packs q hq
      exact ⟨by rw [e.hold]; exact hheld, by rw [hpicks]; exact hpicked,
        by rw [hpicks]; exact hreserved, by simp [e.after, offeredTags]⟩

/-- R53, R54: a record that is not HELD leaves the top of its stack, and its entry goes. -/
theorem RowClauses.take (h : RowClauses s) (e : LoaderTurn s t) (hn : n < 16)
    (htop : stackAt s.stock n = below ++ [p]) (hheld : p.state ≠ .held)
    (hstock : t.stock = popPack n s.stock)
    (hpicks : t.picks = s.picks.filter fun e => e.tag != p.tag) : RowClauses t := by
  have hperm := allPacks_popPack hn htop
  have hstacks (m : Nat) := stackAt_popPack_top hn htop m
  rw [← hstock] at hperm
  simp only [← hstock] at hstacks
  have hsub : ∀ x ∈ t.picks, x ∈ s.picks ∧ x.tag ≠ p.tag := by simp [hpicks]
  have hmem : ∀ q, q ∈ allPacks s.stock ↔ q = p ∨ q ∈ allPacks t.stock := fun q => by
    rw [hperm.mem_iff, List.mem_cons]
  have hp : p ∈ allPacks s.stock := (hmem p).2 (.inl rfl)
  obtain ⟨hnodup, hpacks, htiers, hbeyond, hlimits, hconfig⟩ := h.stock
  rw [(hperm.map _).nodup_iff, List.map_cons, List.nodup_cons] at hnodup
  obtain ⟨hgone, hnodup⟩ := hnodup
  refine
    { stock := ⟨hnodup, fun q hq => hpacks q ((hmem q).2 (.inr hq)), ?_, ?_,
        by rw [e.settings]; exact hlimits, fun hc => ?_⟩
      heldDistinct := by rw [e.hold]; exact h.heldDistinct
      heldPlaced := ?_
      room := ?_
      picksDistinct := by rw [hpicks]; exact (List.filter_sublist.map _).nodup h.picksDistinct
      picksPlaced := ?_, packs := ?_, works := .inl e.after }
  · intro m hm
    have hle := htiers m hm
    rw [hstacks, e.settings]
    split
    · rename_i hmn
      subst hmn
      rw [htop] at hle
      simp at hle
      omega
    · exact hle
  · intro m hm hle
    rw [e.settings] at hle
    have hnil := hbeyond m hm hle
    rw [hstacks]
    split
    · rename_i hmn
      subst hmn
      simp [htop] at hnil
    · exact hnil
  · have hnone := hconfig (e.station ▸ hc)
    rw [hnone] at hp
    cases hp
  · rw [e.hold]
    intro tag ht
    obtain ⟨q, hq, hqtag⟩ := mem_tagsOf.1 (h.heldPlaced tag ht)
    refine mem_tagsOf.2 ⟨q, ((hmem q).1 hq).resolve_left ?_, hqtag⟩
    rintro rfl
    exact hheld ((h.packs q hq).held.2 (hqtag ▸ ht))
  · have hlength : t.picks.length ≤ s.picks.length := by
      rw [hpicks]; exact List.length_filter_le _ _
    have hroom := h.room
    rw [e.hold]
    omega
  · intro x hx
    obtain ⟨hxs, hxtag⟩ := hsub x hx
    obtain ⟨q, hq, hqtag⟩ := h.picksPlaced x hxs
    refine ⟨q, ?_, hqtag⟩
    rw [hstacks]
    split
    · rename_i hm
      rw [hm, htop, List.mem_append, List.mem_singleton] at hq
      refine hq.resolve_right ?_
      rintro rfl
      exact hxtag hqtag.symm
    · exact hq
  · intro q hq
    have hne : q.tag ≠ p.tag := fun htag => hgone (htag ▸ List.mem_map_of_mem hq)
    obtain ⟨hheldIff, hpicked, hreserved, -⟩ := h.packs q ((hmem q).2 (.inr hq))
    refine ⟨by rw [e.hold]; exact hheldIff, fun x hx => hpicked x (hsub x hx).1, fun hr => ?_,
      by simp [e.after, offeredTags]⟩
    obtain ⟨x, hx, hxtag⟩ := hreserved hr
    exact ⟨x, by simp [hpicks, hx, hxtag, hne], hxtag⟩

/-- A pick entry that follows its pack to another stack (R89). -/
def movedEntry (tag stack : Nat) (e : PickEntry) : PickEntry :=
  if e.tag = tag then { e with stack := stack } else e

theorem movedEntry_tag (tag stack : Nat) (e : PickEntry) : (movedEntry tag stack e).tag = e.tag := by
  unfold movedEntry; split <;> rfl

theorem movedEntry_order (tag stack : Nat) (e : PickEntry) :
    (movedEntry tag stack e).order = e.order := by
  unfold movedEntry; split <;> rfl

/-- R86: moving the entry of a pack that is not RESERVED changes nothing. -/
theorem RowClauses.map_unpicked (h : RowClauses s) (hp : p ∈ allPacks s.stock)
    (hr : isReserved p.state = false) (stack : Nat) : s.picks.map (movedEntry p.tag stack) = s.picks := by
  refine (List.map_congr_left fun e he => ?_).trans (List.map_id s.picks)
  exact if_neg (h.unpicked hp hr he)

/-- R55, R56: a record moves to the top of another stack, and its entry follows. -/
theorem RowClauses.shift (h : RowClauses s) (e : LoaderTurn s t) {m : Nat} (hn : n < 16) (hm : m < 16)
    (hne : m ≠ n) (htop : stackAt s.stock n = below ++ [p])
    (hlimit : m < s.startup.settings.stackLimit)
    (htier : (stackAt s.stock m).length < s.startup.settings.tierLimit)
    (hstock : t.stock = pushPack m p (popPack n s.stock))
    (hpicks : t.picks = s.picks.map (movedEntry p.tag m)) : RowClauses t := by
  have hperm : (allPacks t.stock).Perm (allPacks s.stock) := by
    rw [hstock]
    exact (allPacks_pushPack _ p hm).trans (allPacks_popPack hn htop).symm
  have hstacks : ∀ k, stackAt t.stock k =
      if k = m then stackAt s.stock m ++ [p] else if k = n then below else stackAt s.stock k := fun k => by
    rw [hstock, stackAt_pushPack _ _ _ _ hm, stackAt_popPack_top hn htop, stackAt_popPack_top hn htop,
      if_neg hne]
  have htags : ∀ tag, tag ∈ tagsOf t.stock ↔ tag ∈ tagsOf s.stock := fun tag => (hperm.map _).mem_iff
  have hp : p ∈ allPacks s.stock := mem_allPacks_of_mem_stackAt (n := n) (by simp [htop])
  obtain ⟨hnodup, hpacks, htiers, hbeyond, hlimits, hconfig⟩ := h.stock
  refine
    { stock := ⟨(hperm.map _).nodup_iff.2 hnodup, fun q hq => hpacks q (hperm.mem_iff.1 hq), ?_, ?_,
        by rw [e.settings]; exact hlimits, fun hc => ?_⟩
      heldDistinct := by rw [e.hold]; exact h.heldDistinct
      heldPlaced := by rw [e.hold]; exact fun tag ht => (htags tag).2 (h.heldPlaced tag ht)
      room := by rw [e.hold, hpicks, List.length_map]; exact h.room
      picksDistinct := ?_, picksPlaced := ?_, packs := ?_, works := .inl e.after }
  · intro k hk
    have hle := htiers k hk
    rw [hstacks, e.settings]
    split
    · simp; omega
    · split
      · rename_i hkn
        subst hkn
        rw [htop] at hle
        simp at hle
        omega
      · exact hle
  · intro k hk hle
    rw [e.settings] at hle
    have hnil := hbeyond k hk hle
    rw [hstacks, if_neg (by omega)]
    split
    · rename_i hkn
      subst hkn
      simp [htop] at hnil
    · exact hnil
  · rw [hconfig (e.station ▸ hc)] at hp
    cases hp
  · rw [hpicks, List.map_map]
    simpa [Function.comp_def, movedEntry_tag] using h.picksDistinct
  · intro x hx
    rw [hpicks] at hx
    obtain ⟨y, hy, rfl⟩ := List.mem_map.1 hx
    rw [movedEntry_tag, hstacks]
    by_cases htag : y.tag = p.tag
    · exact ⟨p, by simp [movedEntry, htag], htag.symm⟩
    · obtain ⟨q, hq, hqtag⟩ := h.picksPlaced y hy
      refine ⟨q, ?_, hqtag⟩
      rw [movedEntry, if_neg htag]
      split
      · rename_i hym
        exact List.mem_append_left _ (hym ▸ hq)
      · split
        · rename_i hyn
          rw [hyn, htop, List.mem_append, List.mem_singleton] at hq
          refine hq.resolve_right ?_
          rintro rfl
          exact htag hqtag.symm
        · exact hq
  · intro q hq
    obtain ⟨hheldIff, hpicked, hreserved, -⟩ := h.packs q (hperm.mem_iff.1 hq)
    refine ⟨by rw [e.hold]; exact hheldIff, fun x hx hxtag => ?_, fun hr => ?_,
      by simp [e.after, offeredTags]⟩
    · rw [hpicks] at hx
      obtain ⟨y, hy, rfl⟩ := List.mem_map.1 hx
      rw [movedEntry_tag] at hxtag
      rw [movedEntry_order]
      exact hpicked y hy hxtag
    · obtain ⟨y, hy, hytag⟩ := hreserved hr
      exact ⟨_, by rw [hpicks]; exact List.mem_map_of_mem hy, (movedEntry_tag _ _ y).trans hytag⟩

end Sys2Proof.Machine
end

