-- ==== Sys2Proof/Proofs/RowAnswers.lean ====
section
/-! PROOF. Every terminal message keeps the row sound (O57): the loader's by their stores, the others by
what they leave alone. -/

namespace Sys2Proof.Machine

variable {s t u : State}

/-! ### When an owner answers (R154, R155) -/

/-- A message whose owner answers: the port runs, its Bid Unit is IDLE, and the port has no refusal. -/
structure OwnerAnswers (code : Byte) (u : State) : Prop where
  running : u.startup.station ≠ .config
  idle : u.bid = .idle
  passed : portRefusal code u = none

/-- R73, R154: a message waits while the Bid Unit works. -/
theorem RowClauses.idle_of_canProcess (h : RowClauses s) (hp : canProcess s = true) :
    s.startup.station ≠ .config ∧ s.bid = .idle := by
  simp only [canProcess, Bool.and_eq_true, Bool.not_eq_true', portRuns, bne_iff_ne] at hp
  obtain ⟨⟨hruns, hdefers⟩, -⟩ := hp
  refine ⟨hruns, h.works.elim id fun hw => ?_⟩
  simpa [deferring, hw.role] using hdefers

/-- A message keeps the row sound when its owner does. -/
theorem RowClauses.processMessage (h : RowClauses s) {code : Byte} {owner : State → State}
    (howner : ∀ u, RowClauses u → OwnerAnswers code u → RowClauses (owner u)) (m : List Byte) :
    RowClauses (processMessage m code owner s) := by
  have ht : RowClauses (arriveMessage m s) := h.same (by simp)
  unfold Machine.processMessage
  dsimp only
  split
  · rename_i hp
    obtain ⟨hruns, hidle⟩ := ht.idle_of_canProcess hp.2
    split
    · exact ht.same (by simp)
    · rename_i hpassed
      exact howner _ (ht.same (by simp)) ⟨hruns, hidle, hpassed⟩
  · exact ht

/-- R155: a loader's message reaches its owner at a row alone. -/
theorem OwnerAnswers.role {code : Byte} (h : OwnerAnswers code u)
    (hc : code ∈ [0x21, 0x22, 0x23, 0x24, (0x25 : Byte)]) : u.startup.settings.role = .row := by
  cases hr : u.startup.settings.role with
  | row => rfl
  | gate =>
    have hpassed := h.passed
    simp only [List.mem_cons, List.not_mem_nil, or_false] at hc
    by_cases hfault : u.startup.station = .configFault <;>
      rcases hc with rfl | rfl | rfl | rfl | rfl <;>
        simp [portRefusal, codeKnown, knownCodes, wrongRole, hr, hfault] at hpassed

/-! ### The loader's messages (R51 to R58) -/

/-- What an answer is made of beside its stores leaves the row's turn as it is. -/
theorem OwnerAnswers.turn {code : Byte} (h : OwnerAnswers code u) (hbid : t.bid = u.bid)
    (hhold : t.hold = u.hold) (hstartup : t.startup = u.startup) : LoaderTurn u t :=
  ⟨h.idle, hbid.trans h.idle, hhold, by rw [hstartup], by rw [hstartup]⟩

theorem packSound_newPack {tag : BitVec 32} {family size grade stack : Byte}
    (h : putOutOfRange tag family size grade stack u = false) : packSound (newPack tag.toNat
      { family := family.toNat, size := size.toNat, grade := grade.toNat }) := by
  simp only [putOutOfRange, Bool.or_eq_false_iff, beq_eq_false_iff_ne, decide_eq_false_iff_not,
    Nat.not_lt] at h
  obtain ⟨⟨⟨⟨htag, hfamily⟩, hsize⟩, hgrade⟩, -⟩ := h
  have := tag.isLt
  exact ⟨by simp only [newPack]; omega, by simp only [newPack]; omega, hfamily, hsize, hgrade,
    Nat.zero_le 255⟩

theorem RowClauses.answerPut (h : RowClauses u) (ho : OwnerAnswers 0x21 u) (tag : BitVec 32)
    (family size grade stack : Byte) : RowClauses (answerPut tag family size grade stack u) := by
  unfold Machine.answerPut
  split
  · exact h.same (by simp)
  rename_i hrange
  split
  · exact h.same (by simp)
  rename_i hnew
  split
  · exact h.same (by simp)
  rename_i htier
  have hrole : u.startup.settings.role = .row := ho.role (by simp)
  have hlimits := h.stock.2.2.2.2.1 hrole
  have hlimit : stack.toNat < u.startup.settings.stackLimit := by
    simp only [putOutOfRange, Bool.or_eq_true, decide_eq_true_eq, not_or, Nat.not_le] at hrange
    exact hrange.2
  refine h.put (p := newPack tag.toNat { family := family.toNat, size := size.toNat, grade := grade.toNat })
    (ho.turn (by simp) (by simp) (by simp)) (n := stack.toNat) (by omega)
    (packSound_newPack (by simpa using hrange)) rfl (fun q hq htag => ?_) hlimit (Nat.not_le.1 htier)
    ho.running (by simp) (by simp)
  exact hnew (tagPresent_iff.2 ⟨q, hq, htag⟩)

/-- What TAKE, SHIFT, HOLD PACK and FREE PACK find. -/
theorem RowClauses.found {tag : Nat} {n : Nat} {p : Pack} (h : RowClauses u)
    (hp : findPack tag u.stock = some p) (htop : onTop tag n u.stock = true) :
    p.tag = tag ∧ ∃ below, stackAt u.stock n = below ++ [p] := by
  obtain ⟨hmem, htag⟩ := findPack_mem hp
  obtain ⟨below, q, hstack, hqtag⟩ := onTop_iff.1 htop
  obtain rfl := eq_of_tag_eq h.stock.1 (mem_allPacks_of_mem_stackAt (n := n) (by simp [hstack])) hmem
    (hqtag.trans htag.symm)
  exact ⟨htag, below, hstack⟩

/-- R54, R87: what an accepted TAKE leaves of the row's stores. -/
theorem takeEffect_stores (tag : Nat) (former : PackState) (s : State) :
    (takeEffect tag former s).stock = s.stock ∧ (takeEffect tag former s).hold = s.hold
      ∧ (takeEffect tag former s).bid = s.bid ∧ (takeEffect tag former s).startup = s.startup
      ∧ (takeEffect tag former s).picks =
          if isReserved former then s.picks.filter (fun e => e.tag != tag) else s.picks := by
  cases former <;> simp [takeEffect, removeEntry, withPicks_picks, isReserved]

theorem RowClauses.answerTake (h : RowClauses u) (ho : OwnerAnswers 0x22 u) (tag : BitVec 32) :
    RowClauses (answerTake tag u) := by
  unfold Machine.answerTake
  split
  · rename_i n p hn hp
    split
    · exact h.same (by simp)
    rename_i htop
    split
    · exact h.same (by simp)
    rename_i hheld
    obtain ⟨htag, below, hstack⟩ := h.found hp (by simpa using htop)
    obtain ⟨hstock, hhold, hbid, hstartup, hpicks⟩ :=
      takeEffect_stores tag.toNat p.state (withStock (popPack n u.stock) u)
    refine h.take (p := p) (ho.turn (by simp [hbid]) (by simp [hhold]) (by simp [hstartup]))
      (stackOf_mem hn).1 hstack hheld (by rw [reply_stock, hstock]; rfl) ?_
    rw [reply_picks, hpicks, withStock_picks, ← htag]
    split
    · rfl
    · rename_i hr
      exact (h.filter_unpicked (findPack_mem hp).1 (by simpa using hr)).symm
  · exact h.same (by simp)

/-- R56, R89: what an accepted SHIFT leaves of the row's stores. -/
theorem shiftEffect_stores (tag stack : Nat) (state : PackState) (s : State) :
    (shiftEffect tag stack state s).stock = s.stock ∧ (shiftEffect tag stack state s).hold = s.hold
      ∧ (shiftEffect tag stack state s).bid = s.bid ∧ (shiftEffect tag stack state s).startup = s.startup
      ∧ (shiftEffect tag stack state s).picks =
          if isReserved state then s.picks.map (movedEntry tag stack) else s.picks := by
  cases state <;> simp [shiftEffect, moveEntry, withPicks_picks, isReserved, movedEntry]

theorem RowClauses.answerShift (h : RowClauses u) (ho : OwnerAnswers 0x23 u) (tag : BitVec 32)
    (stack : Byte) : RowClauses (answerShift tag stack u) := by
  unfold Machine.answerShift
  split
  · rename_i n p hn hp
    split
    · exact h.same (by simp)
    rename_i hlimit
    split
    · exact h.same (by simp)
    rename_i htop
    split
    · exact h.same (by simp)
    split
    · exact h.same (by simp)
    rename_i hne
    split
    · exact h.same (by simp)
    rename_i htier
    have hrole : u.startup.settings.role = .row := ho.role (by simp)
    have hlimits := h.stock.2.2.2.2.1 hrole
    obtain ⟨htag, below, hstack⟩ := h.found hp (by simpa using htop)
    obtain ⟨hstock, hhold, hbid, hstartup, hpicks⟩ :=
      shiftEffect_stores tag.toNat stack.toNat p.state
        (withStock (pushPack stack.toNat p (popPack n u.stock)) u)
    refine h.shift (p := p) (m := stack.toNat)
      (ho.turn (by simp [hbid]) (by simp [hhold]) (by simp [hstartup]))
      (stackOf_mem hn).1 (by omega) hne hstack (Nat.not_le.1 hlimit) (Nat.not_le.1 htier)
      (by rw [reply_stock, hstock]; rfl) ?_
    rw [reply_picks, hpicks, withStock_picks, ← htag]
    split
    · rfl
    · rename_i hr
      exact (h.map_unpicked (findPack_mem hp).1 (by simpa using hr) _).symm
  · exact h.same (by simp)

theorem RowClauses.answerHoldPack (h : RowClauses u) (ho : OwnerAnswers 0x24 u) (tag : BitVec 32) :
    RowClauses (answerHoldPack tag u) := by
  unfold Machine.answerHoldPack
  split
  · exact h.same (by simp)
  rename_i p hp
  split
  · exact h.same (by simp)
  rename_i hheld
  obtain ⟨hmem, htag⟩ := findPack_mem hp
  rw [← htag]
  cases hs : p.state with
  | free =>
    exact h.setPackState (ho.turn (by simp [holdEffect]) (by simp [holdEffect]) (by simp [holdEffect]))
      hmem hheld (state := .qhold) (by simp) rfl (by simp [holdEffect, withStock])
      (by simpa [holdEffect] using (h.filter_unpicked hmem (by rw [hs]; rfl)).symm)
  | held => exact absurd hs hheld
  | reserved o =>
    exact h.setPackState (ho.turn (by simp [holdEffect]) (by simp [holdEffect]) (by simp [holdEffect]))
      hmem hheld (state := .qhold) (by simp) rfl (by simp [holdEffect, withStock])
      (by simp [holdEffect, removeEntry, withPicks_picks])
  | qhold => exact h.same (by simp [holdEffect])

theorem RowClauses.answerFreePack (h : RowClauses u) (ho : OwnerAnswers 0x25 u) (tag : BitVec 32) :
    RowClauses (answerFreePack tag u) := by
  unfold Machine.answerFreePack
  split
  · exact h.same (by simp)
  rename_i p hp
  split
  · rename_i hs
    obtain ⟨hmem, htag⟩ := findPack_mem hp
    rw [← htag]
    exact h.setPackState (ho.turn (by simp) (by simp) (by simp)) hmem (by simp [hs]) (state := .free)
      (by simp) rfl (by simp [withStock])
      (by simpa using (h.filter_unpicked hmem (by rw [hs]; rfl)).symm)
  · exact h.same (by simp)

/-! ### Every message -/

/-- The clerk's messages, the lists and STATUS reach no store of a row. -/
theorem RowClauses.answerOther (h : RowClauses u) :
    RowClauses (answerStatus u) ∧ (∀ stack, RowClauses (answerListStack stack u))
      ∧ RowClauses (answerListPicks u)
      ∧ (∀ ticket bay count lines, RowClauses (answerTruckIn ticket bay count lines u))
      ∧ (∀ ticket bay, RowClauses (answerTruckBay ticket bay u))
      ∧ (∀ ticket, RowClauses (answerTruckOut ticket u))
      ∧ ∀ ticket, RowClauses (answerListTruck ticket u) := by
  refine ⟨h.same (by simp [answerStatus]), fun _ => ?_, h.same (by simp [answerListPicks]),
    fun _ _ _ _ => ?_, fun _ _ => ?_, fun _ => ?_, fun _ => ?_⟩
  · unfold answerListStack
    split <;> exact h.same (by simp)
  · unfold answerTruckIn
    repeat' split
    all_goals exact h.same (by simp)
  · unfold answerTruckBay
    repeat' split
    all_goals exact h.same (by simp)
  · unfold answerTruckOut
    split
    · exact h.same (by simp)
    · dsimp only
      split <;> exact h.same (by simp)
  · unfold answerListTruck
    split <;> exact h.same (by simp)

/-- Every terminal message keeps the row sound. -/
theorem RowClauses.execMessage (h : RowClauses s) {c : Instr} (hc : isMessage c = true) :
    Ensures RowClauses (exec c s) := by
  cases c with
  | status =>
    exact (ensures_next _ _).2 (h.processMessage (fun _ hu _ => hu.answerOther.1) _)
  | put tag family size grade stack =>
    exact (ensures_next _ _).2 (h.processMessage (fun _ hu ho => hu.answerPut ho _ _ _ _ _) _)
  | take tag => exact (ensures_next _ _).2 (h.processMessage (fun _ hu ho => hu.answerTake ho _) _)
  | shift tag stack =>
    exact (ensures_next _ _).2 (h.processMessage (fun _ hu ho => hu.answerShift ho _ _) _)
  | holdPack tag => exact (ensures_next _ _).2 (h.processMessage (fun _ hu ho => hu.answerHoldPack ho _) _)
  | freePack tag => exact (ensures_next _ _).2 (h.processMessage (fun _ hu ho => hu.answerFreePack ho _) _)
  | listStack stack =>
    exact (ensures_next _ _).2 (h.processMessage (fun _ hu _ => hu.answerOther.2.1 _) _)
  | listPicks => exact (ensures_next _ _).2 (h.processMessage (fun _ hu _ => hu.answerOther.2.2.1) _)
  | truckIn ticket bay count lines =>
    exact (ensures_next _ _).2 (h.processMessage (fun _ hu _ => hu.answerOther.2.2.2.1 _ _ _ _) _)
  | truckBay ticket bay =>
    exact (ensures_next _ _).2 (h.processMessage (fun _ hu _ => hu.answerOther.2.2.2.2.1 _ _) _)
  | truckOut ticket =>
    exact (ensures_next _ _).2 (h.processMessage (fun _ hu _ => hu.answerOther.2.2.2.2.2.1 _) _)
  | listTruck ticket =>
    exact (ensures_next _ _).2 (h.processMessage (fun _ hu _ => hu.answerOther.2.2.2.2.2.2 _) _)
  | _ => cases hc

end Sys2Proof.Machine
end

