-- ==== Sys2Proof/Proofs/RowOperations.lean ====
section
/-! PROOF. The shared operations of rounds, heard frames and the clock keep the row sound (O57). -/

namespace Sys2Proof.Machine

variable {s t : State}

/-- A command that changes nothing but where its condition holds. -/
theorem RowClauses.ite (h : RowClauses s) (c : Prop) [Decidable c] (ht : c → RowClauses t) :
    RowClauses (if c then t else s) := by
  split
  · rename_i hc
    exact ht hc
  · exact h

/-- The hold changes at most its phase, its timer or its decision. -/
theorem RowClauses.rehold (h : RowClauses s) {f : Hold → Hold} (hf : ∀ x, (f x).packs = x.packs)
    (hhold : t.hold = s.hold.map f)
    (e : t.stock = s.stock ∧ t.picks = s.picks ∧ t.bid = s.bid
      ∧ t.startup.station = s.startup.station ∧ t.startup.settings = s.startup.settings) :
    RowClauses t := by
  obtain ⟨hstock, hpicks, hbid, hstation, hsettings⟩ := e
  refine h.carry ⟨.inl hstock, ?_, fun hnone => by rw [hhold, hnone]; rfl, by rw [hpicks], ?_, hstation,
    hsettings⟩
  · rw [hhold]
    cases s.hold with
    | none => rfl
    | some x => exact hf x
  · by_cases hidle : s.bid = .idle
    · exact .inl (hbid.trans hidle)
    · exact .inr ⟨hidle, by rw [hbid], by rw [hbid]⟩

/-! ### Rounds and cut frames (R9, R19, R42, R43) -/

theorem RowClauses.passRound (h : RowClauses s) : RowClauses (passRound s) := by
  unfold Machine.passRound
  dsimp only
  split <;> exact h.endHold.same (by simp)

theorem RowClauses.partFrame (h : RowClauses s) (sampled : List Byte) :
    RowClauses (partFrame sampled s) := by
  rcases partFrame_cases sampled s with ⟨-, b, rest, -, heq⟩ | ⟨-, heq⟩
  · rw [heq]
    exact h.passRound.same (by simp)
  · rw [heq]
    exact h

theorem RowClauses.dropAbandoned (h : RowClauses s) : RowClauses (dropAbandoned s) :=
  h.endHold.dropBid.same (by simp [Machine.dropAbandoned])

theorem RowClauses.abandonRound (h : RowClauses s) (dw : Bool) : RowClauses (abandonRound dw s) := by
  unfold Machine.abandonRound
  dsimp only
  split <;> exact h.dropAbandoned.same (by simp)

theorem RowClauses.enterHeld (h : RowClauses s) (begun : Bool) (sampled : List Byte) :
    RowClauses (enterHeld begun sampled s) := by
  unfold Machine.enterHeld
  split
  · have hcut : RowClauses (Machine.partFrame sampled (abandonSent begun sampled.length s)) :=
      RowClauses.partFrame (h.same (by simp)) sampled
    exact hcut.dropAbandoned.same (by simp)
  · exact h

theorem RowClauses.collide (h : RowClauses s) : RowClauses (collide s) := by
  unfold Machine.collide
  split
  · exact RowClauses.enterDuplicate (h.same (by simp))
  · exact RowClauses.enterDuplicate (h.same (by simp))
  · exact h
  · exact h

/-! ### Heard frames -/

theorem RowClauses.closingStart (h : RowClauses s) : RowClauses (closingStart s) := by
  unfold Machine.closingStart
  split
  · exact h
  · rename_i v _
    split
    · refine h.rehold (f := fun x => { x with phase := .receiving, grantWait := none }) (fun _ => rfl) ?_
        (by simp)
      unfold receiveHold
      cases hh : s.hold <;> simp [withRound, hh]
    · exact h
    · exact h
    · exact h
    · exact h

theorem RowClauses.closingOtherKind (h : RowClauses s) : RowClauses (closingOtherKind s) := by
  unfold Machine.closingOtherKind
  split
  · exact h
  · split
    · exact h.endHold
    · exact h

/-- R94: a sweep changes at most the overdue flags. -/
theorem sweep_places (s : State) : (sweep s).picks.map pickPlace = s.picks.map pickPlace := by
  unfold sweep overdueSweep
  split
  · rw [withPicks_picks, List.map_map]
    refine List.map_congr_left fun e _ => ?_
    simp only [Function.comp_apply, sweepEntry]
    split <;> rfl
  · rfl

theorem becomeSet_places (m : Minute) (s : State) :
    (becomeSet m s).picks.map pickPlace = s.picks.map pickPlace := by
  unfold becomeSet
  dsimp only
  split
  · simp [rewriteGrantMinutes, setMinute, Function.comp_def, pickPlace]
  · rfl

/-- R94, R95: the clock leaves every entry's pack, stack and order alone. -/
theorem hearMinute_places (m : Minute) (b : Bool) (s : State) :
    (hearMinute m b s).picks.map pickPlace = s.picks.map pickPlace := by
  unfold hearMinute
  dsimp only
  repeat' split
  · rfl
  · exact becomeSet_places m s
  · rfl
  · unfold jumpForward
    dsimp only
    split <;> simp [sweep_places, setMinute]
  · rfl

/-- What the clock does to the row: ages and overdue flags (R60, R94, R95). -/
theorem RowClauses.clocked (h : RowClauses s) (hstock : t.stock = s.stock ∨ t.stock = agePacks s.stock)
    (hpicks : t.picks.map pickPlace = s.picks.map pickPlace)
    (e : t.hold = s.hold ∧ t.bid = s.bid ∧ t.startup = s.startup) : RowClauses t := by
  obtain ⟨hhold, hbid, hstartup⟩ := e
  refine h.carry ⟨hstock, by rw [hhold], by rw [hhold]; exact id, hpicks, ?_, by rw [hstartup],
    by rw [hstartup]⟩
  by_cases hidle : s.bid = .idle
  · exact .inl (hbid.trans hidle)
  · exact .inr ⟨hidle, by rw [hbid], by rw [hbid]⟩

theorem RowClauses.hearHeader {n : Nat} (h : RowClauses s) (f : RxFrame n) :
    RowClauses (hearHeader f s) :=
  h.ite _ fun _ => h.clocked (hearMinute_stock _ _ s) (hearMinute_places _ _ s) (by simp)

theorem RowClauses.hearNotice {n : Nat} (h : RowClauses s) (f : RxFrame n) (valid : Bool)
    (owners : State → State) (howners : ∀ u, RowClauses u → RowClauses (owners u)) :
    RowClauses (hearNotice f valid owners s) := by
  unfold Machine.hearNotice
  split
  · have hreported : RowClauses
        (reportHeard f false (Machine.closingOtherKind (Machine.closingStart s))) :=
      h.closingStart.closingOtherKind.same (by simp)
    have hended : RowClauses (endFrame (Machine.hearHeader f
        (reportHeard f false (Machine.closingOtherKind (Machine.closingStart s))))) :=
      (hreported.hearHeader f).same (by simp)
    dsimp only
    split
    · exact howners _ hended
    · exact hended
  · exact h

theorem RowClauses.hearKind {n : Nat} (h : RowClauses s) (kind : FrameKind) (f : RxFrame n)
    (known : State → State) (hknown : RowClauses (known s)) : RowClauses (hearKind kind f known s) := by
  unfold Machine.hearKind
  split
  · exact h.hearNotice f false _ fun _ hu => hu
  · exact h.ite _ fun _ => hknown

theorem RowClauses.ownHail (h : RowClauses s) (f : RxFrame 4) : RowClauses (ownHail f s) := by
  have hn : RowClauses (numberCheck (senderNumber f) (hailSerial f) s) :=
    h.ite _ fun _ => h.enterDuplicate
  unfold Machine.ownHail
  dsimp only
  split
  · split
    · exact hn.releaseGate _
    · exact hn
  · split
    · exact hn
    · exact hn.same (by simp)

theorem RowClauses.ownVoid (h : RowClauses s) (f : RxFrame 2) : RowClauses (ownVoid f s) := by
  unfold Machine.ownVoid
  split
  · exact h.releaseVoid _ _
  · exact h

theorem RowClauses.ownTaken (h : RowClauses s) (f : RxFrame 5) : RowClauses (ownTaken f s) := by
  refine h.ite _ fun _ => ?_
  unfold settleTaken
  split
  · exact h
  · dsimp only
    split <;> exact h.same (by simp)

theorem RowClauses.ownLapse (h : RowClauses s) (f : RxFrame 5) : RowClauses (ownLapse f s) := by
  refine h.ite _ fun _ => ?_
  unfold settleLapse
  split
  · exact h
  · exact h.same (by simp)

theorem RowClauses.ownArrive (h : RowClauses s) (f : RxFrame 2) : RowClauses (ownArrive f s) := by
  unfold Machine.ownArrive
  split
  · exact h
  · exact h.same (by simp)

theorem RowClauses.openRound (h : RowClauses s) (f : RxFrame 6) : RowClauses (openRound f s) := by
  unfold Machine.openRound
  split
  · exact h
  · exact h.passRound.same (by simp)

theorem RowClauses.execCallReceived (h : RowClauses s) (f : RxFrame 6) (started : Bool) :
    Ensures RowClauses (execCallReceived f started s) := by
  refine (ensures_next _ _).2 (h.hearKind .call f _ (h.ite _ fun _ => ?_))
  have hreported : RowClauses (reportHeard f false
      (Machine.openRound f (Machine.closingOtherKind (Machine.closingStart s)))) :=
    (h.closingStart.closingOtherKind.openRound f).same (by simp)
  have hheard := hreported.hearHeader f
  dsimp only
  split
  · exact hheard.same (by simp)
  · refine RowClauses.ite (hheard.same (by simp)) _ fun hc => ?_
    refine RowClauses.beginComputing (hheard.same (by simp)) ?_ hc.2.2.2
    simpa [isRow] using hc.2.1

theorem RowClauses.decideConfirm (h : RowClauses s) (f : RxFrame 5) : RowClauses (decideConfirm f s) := by
  unfold Machine.decideConfirm
  split
  · exact h
  · rename_i x hh
    split
    · exact h
    · exact h.rehold
        (f := fun y => { y with decision := if confirms x f s then .confirmed else .notConfirmed })
        (fun _ => rfl) (by simp [hh]) (by simp)

theorem RowClauses.settleHold (h : RowClauses s) (f : RxFrame 5) : RowClauses (settleHold f s) := by
  unfold Machine.settleHold
  split
  · exact h
  · rename_i x hh
    split
    · exact h
    · split
      · obtain ⟨hhold, hstock, hpicks⟩ := settleConfirmed_spec x (grantFields f).count s
        exact h.settleConfirmed hh rfl _ hhold hstock hpicks (by simp) (by simp)
      · exact h.endHold
      · exact h.endHold

theorem RowClauses.execGrantReceived (h : RowClauses s) (f : RxFrame 5) :
    Ensures RowClauses (execGrantReceived f s) := by
  refine (ensures_next _ _).2 (h.hearKind .grant f _ (h.ite _ fun _ => ?_))
  have hreported : RowClauses (reportHeard f
      (pulledConfirm (Machine.decideConfirm f (Machine.closingStart s)))
      (Machine.decideConfirm f (Machine.closingStart s))) :=
    (h.closingStart.decideConfirm f).same (by simp)
  exact ((hreported.hearHeader f).settleHold f).same (by simp)

end Sys2Proof.Machine
end

