-- ==== Sys2Proof/Proofs/RowKept.lean ====
section
/-! PROOF. Every command and every bt keep the row sound (O57). -/

namespace Sys2Proof.Machine

variable {s t : State}

/-! ### Frames this station sends -/

theorem RowClauses.execNoticeReport (h : RowClauses s) (r : SendReport) :
    Ensures RowClauses (execNoticeReport r s) := by
  refine (ensures_next _ _).2 (h.ite _ fun _ => ?_)
  cases r with
  | sent confirm => exact h.same (by simp)
  | flawed confirm => exact h.same (by simp)
  | lost => exact h.same (by simp)
  | collision => exact h.collide
  | abandoned n => exact h.enterHeld false _

theorem RowClauses.execCallReport (h : RowClauses s) (r : SendReport) :
    Ensures RowClauses (execCallReport r s) := by
  refine (ensures_next _ _).2 (h.ite _ fun _ => ?_)
  cases r with
  | sent confirm => exact h.same (by simp)
  | flawed confirm => exact h.same (by simp)
  | lost => exact h.same (by simp)
  | collision => exact h.collide
  | abandoned n => exact h.enterHeld false _

theorem RowClauses.execGrantReport (h : RowClauses s) (r : SendReport) :
    Ensures RowClauses (execGrantReport r s) := by
  refine (ensures_next _ _).2 (h.ite _ fun _ => ?_)
  cases r with
  | sent confirm => exact h.same (by simp)
  | flawed confirm => exact h.same (by simp)
  | lost => exact h
  | collision => exact h
  | abandoned n => exact h.enterHeld false _

theorem RowClauses.execUnfinishedFrame (h : RowClauses s) (sampled : List Byte) (dw : Bool) :
    Ensures RowClauses (execUnfinishedFrame sampled dw s) := by
  refine (ensures_next _ _).2 (h.ite _ fun _ => ?_)
  have hcut : RowClauses (reportSent .discarded false false (Machine.partFrame sampled s)) :=
    (h.partFrame sampled).same (by simp)
  dsimp only
  split
  · exact hcut.same (by simp)
  · exact hcut.abandonRound dw

/-! ### Rounds (R40, R70 to R75) -/

theorem RowClauses.execComputationComplete (h : RowClauses s) :
    Ensures RowClauses (execComputationComplete s) := by
  refine (ensures_next _ _).2 ?_
  split
  · rename_i r hb
    exact h.ite _ fun _ => h.computed hb (by simp) rfl
  · exact h
  · exact h
  · exact h

theorem RowClauses.execStretchLimitExpiry (h : RowClauses s) :
    Ensures RowClauses (execStretchLimitExpiry s) := by
  refine (ensures_next _ _).2 ?_
  split
  · exact h.ite _ fun _ => h.idled (by simp) rfl
  · exact h
  · exact h
  · exact h

/-- What the Bid Unit may offer, and how much of it, at one stage as at the next. -/
theorem RowClauses.rebid (h : RowClauses s) (hidle : s.bid = .idle → t.bid = .idle)
    (hoffer : offeredTags t.bid = offeredTags s.bid ∧ offerBound t.bid = offerBound s.bid)
    (e : t.stock = s.stock ∧ t.hold = s.hold ∧ t.picks = s.picks
      ∧ t.startup.station = s.startup.station ∧ t.startup.settings = s.startup.settings) :
    RowClauses t := by
  by_cases hs : s.bid = .idle
  · exact h.idled e (hidle hs)
  · exact h.narrowed e hs (by rw [hoffer.1]; exact id) (by rw [hoffer.1]; exact List.Subset.refl _)
      (by rw [hoffer.2])

theorem startBidding_offer (b : BidUnit) :
    offeredTags (startBidding b) = offeredTags b ∧ offerBound (startBidding b) = offerBound b := by
  cases b <;> exact ⟨rfl, rfl⟩

theorem RowClauses.execStretchSlotEnd (h : RowClauses s) : Ensures RowClauses (execStretchSlotEnd s) := by
  refine (ensures_next _ _).2 ?_
  split
  · refine h.ite _ fun _ => h.rebid (fun hs => ?_) (startBidding_offer s.bid) (by simp)
    rw [hs]
    rfl
  · exact h

theorem RowClauses.execBidWindowStart (h : RowClauses s) (dw : Bool) :
    Ensures RowClauses (execBidWindowStart s dw) := by
  refine (ensures_next _ _).2 ?_
  split
  · rename_i v _
    refine h.ite _ fun _ => ?_
    rcases windowPulse_cases dw v (withRound (some { v with silence := 0, pulsing := true }) s)
      with heq | ⟨-, ⟨r, res, hb, heq⟩ | ⟨-, -, heq⟩⟩
    · rw [heq]
      exact h.same (by simp)
    · rw [heq]
      rw [withRound_bid] at hb
      exact h.rebid (by simp [hb]) (by simp [hb, offeredTags, offerBound]) (by simp)
    · rw [heq]
      exact h.same (by simp)
  · exact h

theorem RowClauses.execBidWindowClose (h : RowClauses s) (word : BidWord) (dw : Bool) :
    Ensures RowClauses (execBidWindowClose word dw s) := by
  refine (ensures_next _ _).2 ?_
  split
  · refine h.ite _ fun _ => ?_
    have ht := h.closeBid word
    dsimp only
    split
    · split <;> exact ht.same (by simp)
    · exact ht.same (by simp)
    · split <;> exact ht.same (by simp)
  · exact h

/-! ### Start-up (R163 to R167) -/

/-- The station enters another state, with an IDLE Bid Unit and its stores as they were. -/
theorem RowClauses.entered (h : RowClauses s) (hidle : s.bid = .idle) (hstock : StockSound t)
    (e : t.stock = s.stock ∧ t.hold = s.hold ∧ t.picks = s.picks ∧ t.bid = s.bid) : RowClauses t := by
  obtain ⟨hs, hhold, hpicks, hbid⟩ := e
  exact
    { stock := hstock
      heldDistinct := by rw [hhold]; exact h.heldDistinct
      heldPlaced := by rw [hhold, hs]; exact h.heldPlaced
      room := by rw [hhold, hpicks]; exact h.room
      picksDistinct := by rw [hpicks]; exact h.picksDistinct
      picksPlaced := by rw [hpicks, hs]; exact h.picksPlaced
      packs := fun p hp => by
        obtain ⟨hheld, hpicked, hreserved, hoffered⟩ := h.packs p (hs ▸ hp)
        exact ⟨by rw [hhold]; exact hheld, by rw [hpicks]; exact hpicked, by rw [hpicks]; exact hreserved,
          by rw [hbid]; exact hoffered⟩
      works := .inl (hbid.trans hidle) }

/-- Outside SERVICE the Bid Unit is IDLE (R63). -/
theorem RowClauses.idle_outside (h : RowClauses s) (hs : s.startup.station ≠ .service) : s.bid = .idle :=
  h.works.resolve_right fun hw => hs hw.station

theorem rowClauses_resetValues (serial : BitVec 32) (pending : List Instr) :
    RowClauses (resetValues serial pending) :=
  (rowSound_reset.clauses).same ⟨rfl, rfl, rfl, rfl, rfl, rfl⟩

theorem rowClauses_fullReset (s : State) : Ensures RowClauses (execFullReset s) := by
  refine (ensures_next _ _).2 ?_
  have hreset := rowClauses_resetValues s.startup.serial s.pending
  split
  · exact hreset.same (by simp)
  · exact hreset

theorem RowClauses.enterConfigFault (h : RowClauses s) (hs : s.startup.station = .config) :
    RowClauses (enterConfigFault s) :=
  h.entered (h.idle_outside (by simp [hs]))
    (h.stock.unchanged (by simp) (by simp [Machine.enterConfigFault]) (by simp [Machine.enterConfigFault]))
    (by simp)

theorem RowClauses.execConfigInterruption (h : RowClauses s) :
    Ensures RowClauses (execConfigInterruption s) := by
  refine (ensures_next _ _).2 (h.ite _ fun hread => ?_)
  have hcounted : RowClauses
      { s with startup := { s.startup with interruptions := s.startup.interruptions + 1 } } :=
    h.same ⟨rfl, rfl, rfl, rfl, rfl, rfl⟩
  dsimp only
  split
  · exact hcounted.enterConfigFault (config_of_readingConfig hread).1
  · exact hcounted

/-- R165: an accepted block of a row has its limits in their ranges. -/
theorem settingsOfBlock_limits {b : Vector Byte 32} (h : blockAccepted b = true)
    (hr : (settingsOfBlock b).role = .row) :
    (settingsOfBlock b).stackLimit ≤ 16 ∧ (settingsOfBlock b).tierLimit ≤ 6 := by
  simp only [blockAccepted, Bool.and_eq_true, Bool.or_eq_true, beq_iff_eq] at h
  obtain ⟨⟨⟨-, hrole⟩, -⟩, -⟩ := h
  have hrow : rowFieldsValid b = true := by
    refine hrole.resolve_left fun hgate => ?_
    simp [settingsOfBlock, roleOfByte, hgate] at hr
  simp only [rowFieldsValid, Bool.and_eq_true, decide_eq_true_eq] at hrow
  obtain ⟨⟨⟨⟨⟨-, hstacks⟩, -⟩, htiers⟩, -⟩, -⟩ := hrow
  exact ⟨hstacks, htiers⟩

/-- R163, R165: at the end of CONFIG the table is empty, so any configuration suits it. -/
theorem RowClauses.enterListen (h : RowClauses s) (hs : s.startup.station = .config)
    {b : Vector Byte 32} (hb : blockAccepted b = true) (levels : BitVec 8) :
    RowClauses (enterListen (settingsOfBlock b) levels s) := by
  obtain ⟨hnodup, hpacks, -, -, -, hconfig⟩ := h.stock
  have hempty : ∀ n, stackAt s.stock n = [] := fun n =>
    List.eq_nil_iff_forall_not_mem.2 fun p hp => by
      simpa [hconfig hs] using mem_allPacks_of_mem_stackAt hp
  refine h.entered (h.idle_outside (by simp [hs])) ⟨?_, ?_, ?_, ?_, ?_, ?_⟩ (by simp)
  · simpa using hnodup
  · simpa using hpacks
  · simp [hempty]
  · simp [hempty]
  · simpa [Machine.enterListen] using settingsOfBlock_limits hb
  · simp [Machine.enterListen]

theorem RowClauses.execConfigReadComplete (h : RowClauses s) (block : Vector Byte 32)
    (levels : BitVec 8) : Ensures RowClauses (execConfigReadComplete block levels s) := by
  refine (ensures_next _ _).2 (h.ite _ fun hread => ?_)
  have hs := (config_of_readingConfig hread).1
  split
  · rename_i hb
    exact h.enterListen hs hb levels
  · exact h.enterConfigFault hs

theorem RowClauses.timeSourceRule (h : RowClauses s) : RowClauses (timeSourceRule s) :=
  h.ite _ fun _ => h.clocked (.inl (by simp)) (becomeSet_places 0 s) (by simp)

theorem RowClauses.execListenTimerExpiry (h : RowClauses s) :
    Ensures RowClauses (execListenTimerExpiry s) := by
  refine (ensures_next _ _).2 (h.ite _ fun hs => ?_)
  have ht : RowClauses (takeNotice (.hail s.startup.serial) (Machine.timeSourceRule s)) :=
    h.timeSourceRule.same (by simp)
  refine ht.entered (by simpa using h.idle_outside (by simp [hs])) ?_ (by simp)
  exact ht.stock.unchanged (by simp) (by simp) (by simp)

/-! ### Time -/

theorem minuteStep_stock (s : State) :
    (minuteStep s).stock = s.stock ∨ (minuteStep s).stock = agePacks s.stock := by
  unfold minuteStep
  dsimp only
  split
  · exact .inl rfl
  · rw [sweep_stock]
    split
    · unfold hourStep
      split
      · exact .inr rfl
      · exact .inl rfl
    · exact .inl rfl

theorem minuteStep_places (s : State) : (minuteStep s).picks.map pickPlace = s.picks.map pickPlace := by
  unfold minuteStep
  dsimp only
  split
  · rfl
  · rw [sweep_places]
    split <;> simp [setMinute]

theorem RowClauses.execMinuteStep (h : RowClauses s) (elapsed : Nat) :
    Ensures RowClauses (execMinuteStep s elapsed) := by
  refine (ensures_next _ _).2 ?_
  split
  · exact h
  · split
    · exact h.same (by simp)
    · exact h.clocked (minuteStep_stock s) (minuteStep_places s) (by simp)

theorem tickBid_offer (n : Nat) (b : BidUnit) :
    offeredTags (tickBid n b) = offeredTags b ∧ offerBound (tickBid n b) = offerBound b := by
  cases b <;> exact ⟨rfl, rfl⟩

theorem RowClauses.tick (h : RowClauses s) : RowClauses (tick s) := by
  unfold Machine.tick
  split
  · exact h
  · have hbid : RowClauses { s with bid := tickBid (btUnits s) s.bid } :=
      h.rebid (fun hs => by simp [hs, tickBid]) (tickBid_offer _ s.bid) (by simp)
    exact hbid.rehold (f := fun x => { x with grantWait := countDown 1 x.grantWait }) (fun _ => rfl) rfl
      ⟨rfl, rfl, rfl, rfl, rfl⟩

/-! ### Every command -/

theorem RowClauses.exec (h : RowClauses s) (c : Instr) : Ensures RowClauses (exec c s) := by
  have same : ∀ u : State, u.stock = s.stock ∧ u.hold = s.hold ∧ u.picks = s.picks ∧ u.bid = s.bid
      ∧ u.startup.station = s.startup.station ∧ u.startup.settings = s.startup.settings →
      Ensures RowClauses (.next u) := fun u hu => (ensures_next _ _).2 (h.same hu)
  have sameIf : ∀ (c : Prop) [Decidable c] (u : State), u.stock = s.stock ∧ u.hold = s.hold
      ∧ u.picks = s.picks ∧ u.bid = s.bid
      ∧ u.startup.station = s.startup.station ∧ u.startup.settings = s.startup.settings →
      Ensures RowClauses (.next (if c then u else s)) := fun c _ u hu =>
    (ensures_next _ _).2 (h.ite c fun _ => h.same hu)
  cases c with
  | fullReset => exact rowClauses_fullReset s
  | resetRelease => exact same _ (by simp)
  | configInterruption => exact h.execConfigInterruption
  | configReadComplete block levels => exact h.execConfigReadComplete block levels
  | listenTimerExpiry => exact h.execListenTimerExpiry
  | quietPeriod elapsed => refine sameIf _ _ ?_; split <;> simp
  | frameStart elapsed dw =>
    refine sameIf _ _ ?_
    split
    · simp
    · dsimp only
      repeat' split
      all_goals simp
  | contentionLoss => exact same _ (by simp)
  | bodyCollision => exact (ensures_next _ _).2 h.collide
  | noticeReport r => exact h.execNoticeReport r
  | callReport r => exact h.execCallReport r
  | grantSend => exact same _ (by (repeat' split) <;> simp)
  | grantReport r => exact h.execGrantReport r
  | hailReceived f =>
    exact (ensures_next _ _).2 (h.hearKind _ f _ (h.hearNotice f _ _ fun _ hu => hu.ownHail f))
  | voidReceived f =>
    exact (ensures_next _ _).2 (h.hearKind _ f _ (h.hearNotice f _ _ fun _ hu => hu.ownVoid f))
  | takenReceived f =>
    exact (ensures_next _ _).2 (h.hearKind _ f _ (h.hearNotice f _ _ fun _ hu => hu.ownTaken f))
  | lapseReceived f =>
    exact (ensures_next _ _).2 (h.hearKind _ f _ (h.hearNotice f _ _ fun _ hu => hu.ownLapse f))
  | arriveReceived f =>
    exact (ensures_next _ _).2 (h.hearKind _ f _ (h.hearNotice f _ _ fun _ hu => hu.ownArrive f))
  | callReceived f started => exact h.execCallReceived f started
  | grantReceived f => exact h.execGrantReceived f
  | unfinishedFrame sampled dw => exact h.execUnfinishedFrame sampled dw
  | strayActivity tw dw => exact same _ (by (repeat' split) <;> simp)
  | strayActivityEnd => exact same _ (by (repeat' split) <;> simp)
  | endMarkOutsideFrame => exact same _ (by (repeat' split) <;> simp)
  | heldEntry sampled begun => exact (ensures_next _ _).2 (h.enterHeld begun sampled)
  | heldEnd dw => exact sameIf _ _ (by simp)
  | stuckEntry => exact sameIf _ _ (by simp)
  | recoveryPulse dw => exact same _ (by (repeat' split) <;> simp)
  | backOffExpiry => exact sameIf _ _ (by simp)
  | computationComplete => exact h.execComputationComplete
  | stretchLimitExpiry => exact h.execStretchLimitExpiry
  | stretchSlotEnd => exact h.execStretchSlotEnd
  | bidWindowStart dw => exact h.execBidWindowStart dw
  | bidWindowClose word dw => exact h.execBidWindowClose word dw
  | windowSilenceLimit dw => exact (ensures_next _ _).2 (h.ite _ fun _ => h.abandonRound dw)
  | grantWaitSilenceLimit dw => exact (ensures_next _ _).2 (h.ite _ fun _ => h.abandonRound dw)
  | grantWaitExpiry => exact (ensures_next _ _).2 (h.ite _ fun _ => h.endHold)
  | minuteStep elapsed => exact h.execMinuteStep elapsed
  | inputChange line high => exact sameIf _ _ (by simp)
  | filterExpiry line => exact sameIf _ _ (by simp)
  | cycleEnd output => cases output <;> exact sameIf _ _ (by simp)
  | hornExpiry elapsed => exact same _ (by simp)
  | terminalCharacter c => exact sameIf _ _ (by simp)
  | flawedCharacter c => exact sameIf _ _ (by simp)
  | breakCondition => exact sameIf _ _ (by simp)
  | messageSent => exact sameIf _ _ (by simp)
  | unknownMessage code => exact same _ (by dsimp only; (repeat' split) <;> simp)
  | status => exact h.execMessage rfl
  | put tag family size grade stack => exact h.execMessage rfl
  | take tag => exact h.execMessage rfl
  | shift tag stack => exact h.execMessage rfl
  | holdPack tag => exact h.execMessage rfl
  | freePack tag => exact h.execMessage rfl
  | listStack stack => exact h.execMessage rfl
  | listPicks => exact h.execMessage rfl
  | truckIn ticket bay count lines => exact h.execMessage rfl
  | truckBay ticket bay => exact h.execMessage rfl
  | truckOut ticket => exact h.execMessage rfl
  | listTruck ticket => exact h.execMessage rfl
  | receiveWireHighAfterBreak => exact same _ (by simp)

/-- Settles O57: the clauses of the sound row, kept by every bt and every command. -/
theorem everyStepKeepsTheRowSound : Obligations.EveryStepKeepsTheRowSound := by
  intro s t hs hstep
  exact (step_keeps (fun _ _ h => h.same (by simp)) (fun _ h => h.tick) (fun c _ h => h.exec c) s t
    hs.clauses hstep).sound

end Sys2Proof.Machine
end

