-- ==== Sys2Proof/Proofs/ClockSteps.lean ====
section
/-! PROOF. The minute step and the forward moves of a set clock (O40). -/

namespace Sys2Proof.Machine

variable {s t : State}

/-! ### The minute step (R60, R94, R131, R132, R136) -/

/-- The state with the next yard minute (R131). -/
def nextMinute (s : State) : State :=
  { s with clock := { s.clock with minute := s.clock.minute + 1, second := 0, fraction := 0 } }

theorem minuteStep_held (h : s.startup.resetHeld = true) (elapsed : Nat) :
    exec (.minuteStep elapsed) s = .next s := by
  simp only [exec, execMinuteStep, h, if_true]

theorem minuteStep_below (h : s.startup.resetHeld = false) {elapsed : Nat}
    (hb : secondsReached elapsed s.clock < 60) : exec (.minuteStep elapsed) s =
      .next { s with clock := { s.clock with second := s.clock.second + elapsed } } := by
  simp only [exec, execMinuteStep, h, Bool.false_eq_true, if_false, hb, if_true]

theorem minuteStep_reached (h : s.startup.resetHeld = false) {elapsed : Nat}
    (hr : 60 ≤ secondsReached elapsed s.clock) :
    exec (.minuteStep elapsed) s = .next (minuteStep s) := by
  simp only [exec, execMinuteStep, h, Bool.false_eq_true, if_false, Nat.not_lt.2 hr]

theorem minuteStep_unset (h : s.clock.isSet = false) : minuteStep s = nextMinute s := by
  simp only [minuteStep, h, if_true]
  rfl

theorem isHour_next (m : Minute) : isHour (m + 1) = decide ((m.toNat + 1) % 65536 % 60 = 0) := by
  simp [isHour, BitVec.toNat_add, beq_eq_decide]

/-- At a gate no pack ages and no list is swept. -/
theorem minuteStep_gate (hs : s.clock.isSet = true) (hr : s.startup.settings.role = .gate) :
    minuteStep s = nextMinute s := by
  have hrow : isRow (setMinute (s.clock.minute + 1) s) = false := by simp [isRow, hr]
  simp only [minuteStep, hs, Bool.true_eq_false, if_false, hourStep, hrow, Bool.false_eq_true, ite_self,
    sweep]
  rfl

theorem sweep_row (hr : s.startup.settings.role = .row) : sweep s = overdueSweep s := by
  simp [sweep, isRow, hr]

/-- At a row with the clock set the packs age on the hour, and the list is swept. -/
theorem minuteStep_row (hs : s.clock.isSet = true) (hr : s.startup.settings.role = .row) :
    minuteStep s = overdueSweep
      { nextMinute s with
        stock :=
          if (s.clock.minute.toNat + 1) % 65536 % 60 = 0 then agePacks s.stock else s.stock } := by
  have hrow : isRow (setMinute (s.clock.minute + 1) s) = true := by simp [isRow, hr]
  simp only [minuteStep, hs, Bool.true_eq_false, if_false, setMinute_clock, isHour_next, decide_eq_true_eq]
  split
  · rw [hourStep, hrow, if_pos rfl, sweep_row (by simpa using hr)]
    rfl
  · rw [sweep_row (by simpa using hr)]
    rfl

/-! ### The minute step and a header of the next minute (R134, R136) -/

theorem minuteStep_clock (s : State) : (minuteStep s).clock = (nextMinute s).clock := by
  unfold minuteStep
  dsimp only
  split
  · rfl
  · split <;> simp [nextMinute]

theorem hearMinute_same (h : s.clock.isSet = true) : hearMinute s.clock.minute true s = s := by
  simp [hearMinute, h]

/-- A header of the next minute moves a set clock as the minute step does. -/
theorem hearMinute_next (h : s.clock.isSet = true) :
    hearMinute (s.clock.minute + 1) true s = minuteStep s := by
  have hdelta : (s.clock.minute + 1 - s.clock.minute).toNat = 1 := by
    rw [BitVec.add_comm, BitVec.add_sub_cancel]
    rfl
  have hpasses : passesHour s.clock.minute 1 = isHour (s.clock.minute + 1) := by
    simp [passesHour]
  simp only [hearMinute, h, hdelta, Bool.true_eq_false, if_false, Nat.one_ne_zero, Config.jumpLimit,
    Nat.one_le_ofNat, if_true, jumpForward, hpasses, minuteStep, setMinute_clock]
  rfl

/-! ### The forward moves (R130, R134) -/

/-- A set clock stays set, and its minute moves forward by 0 to 30. -/
def ClockMoves (s t : State) : Prop :=
  s.clock.isSet = true → t.clock.isSet = true ∧ (t.clock.minute - s.clock.minute).toNat ≤ 30

theorem ClockMoves.of_eq (h : t.clock = s.clock) : ClockMoves s t := fun hs => by
  rw [h]
  exact ⟨hs, by simp⟩

theorem ClockMoves.carry {s' t' : State} (h : ClockMoves s t) (hs : s'.clock = s.clock)
    (ht : t'.clock = t.clock) : ClockMoves s' t' := by
  unfold ClockMoves
  rw [hs, ht]
  exact h

theorem clockMoves_hearMinute (m : Minute) (b : Bool) (s : State) : ClockMoves s (hearMinute m b s) := by
  unfold hearMinute
  dsimp only
  split
  · exact .of_eq rfl
  split
  · rename_i hunset
    intro hs
    rw [hs] at hunset
    cases hunset
  split
  · exact .of_eq rfl
  split
  · rename_i hjump
    intro hs
    have hclock := jumpForward_clock (m - s.clock.minute).toNat s
    rw [BitVec.ofNat_toNat, BitVec.setWidth_eq, BitVec.add_comm, BitVec.sub_add_cancel] at hclock
    rw [hclock]
    exact ⟨hs, hjump⟩
  · exact .of_eq (by simp)

theorem clockMoves_minuteStep (s : State) : ClockMoves s (minuteStep s) := fun hs => by
  rw [minuteStep_clock]
  refine ⟨hs, ?_⟩
  have hdelta : s.clock.minute + 1 - s.clock.minute = 1 := by
    rw [BitVec.add_comm, BitVec.add_sub_cancel]
  simp only [nextMinute, hdelta]
  decide

/-! ### Every command but the full reset -/

theorem clockMoves_hearHeader {n : Nat} (f : RxFrame n) (s : State) : ClockMoves s (hearHeader f s) := by
  unfold hearHeader
  split
  · exact clockMoves_hearMinute _ _ s
  · exact .of_eq rfl

@[simp] theorem ownHail_clock (f : RxFrame 4) (s : State) : (ownHail f s).clock = s.clock := by
  unfold ownHail numberCheck
  dsimp only
  repeat' split
  all_goals simp

@[simp] theorem ownVoid_clock (f : RxFrame 2) (s : State) : (ownVoid f s).clock = s.clock := by
  unfold ownVoid
  split <;> simp

@[simp] theorem ownTaken_clock (f : RxFrame 5) (s : State) : (ownTaken f s).clock = s.clock := by
  unfold ownTaken settleTaken
  dsimp only
  repeat' split
  all_goals simp

@[simp] theorem ownLapse_clock (f : RxFrame 5) (s : State) : (ownLapse f s).clock = s.clock := by
  unfold ownLapse settleLapse
  repeat' split
  all_goals simp

@[simp] theorem ownArrive_clock (f : RxFrame 2) (s : State) : (ownArrive f s).clock = s.clock := by
  unfold ownArrive
  split <;> simp

@[simp] theorem collide_clock (s : State) : (collide s).clock = s.clock := by
  unfold collide
  repeat' split
  all_goals simp

theorem clockMoves_hearNotice {n : Nat} (f : RxFrame n) (valid : Bool) (owners : State → State)
    (howners : ∀ u, (owners u).clock = u.clock) (s : State) :
    ClockMoves s (hearNotice f valid owners s) := by
  unfold hearNotice
  split
  · have hheard := clockMoves_hearHeader f (reportHeard f false (closingOtherKind (closingStart s)))
    dsimp only
    split <;> exact hheard.carry (by simp) (by simp [howners])
  · exact .of_eq rfl

theorem clockMoves_hearKind {n : Nat} (kind : FrameKind) (f : RxFrame n) (known : State → State)
    (hknown : ClockMoves s (known s)) : ClockMoves s (hearKind kind f known s) := by
  unfold hearKind
  split
  · exact clockMoves_hearNotice f false _ (fun _ => rfl) s
  · split
    · exact hknown
    · exact .of_eq rfl

theorem clockMoves_execCallReceived (f : RxFrame 6) (started : Bool) (s : State) :
    Ensures (ClockMoves s) (execCallReceived f started s) := by
  refine (ensures_next _ _).2 (clockMoves_hearKind .call f _ ?_)
  have hheard := clockMoves_hearHeader f
    (reportHeard f false (openRound f (closingOtherKind (closingStart s))))
  dsimp only
  split
  · repeat' split
    all_goals exact hheard.carry (by simp) (by simp)
  · exact .of_eq rfl

theorem clockMoves_execGrantReceived (f : RxFrame 5) (s : State) :
    Ensures (ClockMoves s) (execGrantReceived f s) := by
  refine (ensures_next _ _).2 (clockMoves_hearKind .grant f _ ?_)
  have hheard := clockMoves_hearHeader f
    (reportHeard f (pulledConfirm (decideConfirm f (closingStart s))) (decideConfirm f (closingStart s)))
  split
  · exact hheard.carry (by simp) (by simp)
  · exact .of_eq rfl

/-- Only a clock that is not set becomes set by the time-source rule (R137). -/
theorem clockMoves_timeSourceRule (s : State) : ClockMoves s (timeSourceRule s) := fun hs => by
  rw [timeSourceRule_clock, if_neg (by simp [hs])]
  exact ⟨hs, by simp⟩

theorem clockMoves_execMinuteStep (elapsed : Nat) (s : State) :
    Ensures (ClockMoves s) (execMinuteStep s elapsed) := by
  refine (ensures_next _ _).2 ?_
  split
  · exact .of_eq rfl
  · split
    · exact fun hs => ⟨hs, by simp⟩
    · exact clockMoves_minuteStep s

theorem answerRules_clock (clock : YardClock) :
    AnswerRules (fun s => s.clock = clock) (fun s => s.clock = clock) where
  arrive _ _ h := by simpa using h
  take _ h _ := h
  stock _ _ h := h
  picks _ _ h := by simpa using h
  strayTake _ h := h
  notice _ _ _ h := by simpa using h
  reply _ _ _ _ h := h
  table _ _ h := by simpa using h
  flags _ _ h := h

/-- No terminal message touches the clock. -/
theorem clockMoves_execMessage {c : Instr} (hc : isMessage c = true) (s : State) :
    Ensures (ClockMoves s) (exec c s) :=
  fun t ht => .of_eq ((answerRules_clock s.clock).exec hc rfl t ht)

theorem clockMoves_exec {c : Instr} (hreset : c ≠ .fullReset) (s : State) :
    Ensures (ClockMoves s) (exec c s) := by
  have same : ∀ u : State, u.clock = s.clock → Ensures (ClockMoves s) (.next u) := fun u hu =>
    (ensures_next _ _).2 (.of_eq hu)
  cases c with
  | fullReset => exact absurd rfl hreset
  | configInterruption => exact same _ (by dsimp only; (repeat' split) <;> simp)
  | configReadComplete block levels => exact same _ (by (repeat' split) <;> simp)
  | listenTimerExpiry =>
    refine (ensures_next _ _).2 ?_
    split
    · exact (clockMoves_timeSourceRule s).carry rfl (by simp)
    · exact .of_eq rfl
  | frameStart elapsed dw => exact same _ (by dsimp only; (repeat' split) <;> simp)
  | hailReceived f =>
    exact (ensures_next _ _).2 (clockMoves_hearKind _ f _ (clockMoves_hearNotice f _ _ (by simp) s))
  | voidReceived f =>
    exact (ensures_next _ _).2 (clockMoves_hearKind _ f _ (clockMoves_hearNotice f _ _ (by simp) s))
  | takenReceived f =>
    exact (ensures_next _ _).2 (clockMoves_hearKind _ f _ (clockMoves_hearNotice f _ _ (by simp) s))
  | lapseReceived f =>
    exact (ensures_next _ _).2 (clockMoves_hearKind _ f _ (clockMoves_hearNotice f _ _ (by simp) s))
  | arriveReceived f =>
    exact (ensures_next _ _).2 (clockMoves_hearKind _ f _ (clockMoves_hearNotice f _ _ (by simp) s))
  | callReceived f started => exact clockMoves_execCallReceived f started s
  | grantReceived f => exact clockMoves_execGrantReceived f s
  | minuteStep elapsed => exact clockMoves_execMinuteStep elapsed s
  | status => exact clockMoves_execMessage rfl s
  | put tag family size grade stack => exact clockMoves_execMessage rfl s
  | take tag => exact clockMoves_execMessage rfl s
  | shift tag stack => exact clockMoves_execMessage rfl s
  | holdPack tag => exact clockMoves_execMessage rfl s
  | freePack tag => exact clockMoves_execMessage rfl s
  | listStack stack => exact clockMoves_execMessage rfl s
  | listPicks => exact clockMoves_execMessage rfl s
  | truckIn ticket bay count lines => exact clockMoves_execMessage rfl s
  | truckBay ticket bay => exact clockMoves_execMessage rfl s
  | truckOut ticket => exact clockMoves_execMessage rfl s
  | listTruck ticket => exact clockMoves_execMessage rfl s
  | noticeReport r =>
    refine same _ ?_
    split
    · cases r <;> simp
    · rfl
  | callReport r =>
    refine same _ ?_
    split
    · cases r <;> simp
    · rfl
  | grantReport r =>
    refine same _ ?_
    split
    · cases r <;> simp
    · rfl
  | unfinishedFrame sampled dw => exact same _ (by dsimp only; (repeat' split) <;> simp)
  | unknownMessage code => exact same _ (by dsimp only; (repeat' split) <;> simp)
  | bidWindowClose word dw => exact same _ (by dsimp only; (repeat' split) <;> simp)
  | filterExpiry line => exact same _ (by (repeat' split) <;> simp)
  | cycleEnd output => cases output <;> exact same _ (by (repeat' split) <;> simp)
  | heldEntry sampled begun => exact same _ (by simp)
  | contentionLoss => exact same _ (by simp)
  | bodyCollision => exact same _ (by simp)
  | heldEnd dw => exact same _ (by (repeat' split) <;> simp)
  | resetRelease | quietPeriod _ | grantSend | strayActivity _ _ | strayActivityEnd
  | endMarkOutsideFrame | stuckEntry | recoveryPulse _ | backOffExpiry | computationComplete
  | stretchLimitExpiry | stretchSlotEnd | bidWindowStart _ | windowSilenceLimit _
  | grantWaitSilenceLimit _ | grantWaitExpiry | inputChange _ _ | hornExpiry _
  | terminalCharacter _ | flawedCharacter _ | breakCondition | messageSent
  | receiveWireHighAfterBreak =>
    exact same _ (by (repeat' split) <;> simp)

/-- R131: the minute step that is due sets the next minute. -/
theorem minuteStep_moves {elapsed : Nat} (hh : s.startup.resetHeld = false)
    (hr : 60 ≤ secondsReached elapsed s.clock) (ht : exec (.minuteStep elapsed) s = .next t) :
    t.clock.minute = s.clock.minute + 1 := by
  rw [minuteStep_reached hh hr] at ht
  cases ht
  rw [minuteStep_clock]
  rfl

/-- Settles O40: the step by `minuteStep_row` and `minuteStep_gate`; the header of the next minute by
`hearMinute_next`; the other commands by `clockMoves_exec`. -/
theorem minuteStepMovesTheClock : Obligations.MinuteStepMovesTheClock := by
  refine ⟨fun elapsed s => ?_, fun c s t ht hc hs => ?_⟩
  · intro reached next
    refine ⟨fun hh => minuteStep_held hh elapsed, fun hh hb => minuteStep_below hh hb, fun hh hr => ?_⟩
    rw [minuteStep_reached hh hr]
    refine ⟨?_, fun hs hrow => ?_, fun hs => ?_⟩
    · rintro (hs | hgate)
      · rw [minuteStep_unset hs]
        rfl
      · cases hs : s.clock.isSet with
        | false => rw [minuteStep_unset hs]; rfl
        | true => rw [minuteStep_gate hs hgate]; rfl
    · rw [minuteStep_row hs hrow]
      rfl
    · refine ⟨_, rfl, ?_, hearMinute_next hs, ?_⟩
      · have hclock := minuteStep_clock s
        have hset : (minuteStep s).clock.isSet = true := by rw [hclock]; exact hs
        have hminute : (minuteStep s).clock.minute = s.clock.minute + 1 := by rw [hclock]; rfl
        rw [← hminute]
        exact hearMinute_same hset
      · have hheld : (minuteStep s).startup.resetHeld = false := by rw [minuteStep_startup]; exact hh
        have hrest : secondsReached 0 (minuteStep s).clock < 60 := by
          rw [minuteStep_clock]
          simp [secondsReached, nextMinute]
        exact minuteStep_below hheld hrest
  · obtain ⟨hset, hforward⟩ := clockMoves_exec hc s t ht hs
    refine ⟨hset, hforward, fun elapsed heq hh hr => ?_⟩
    subst heq
    exact minuteStep_moves hh hr ht

end Sys2Proof.Machine
end

