-- ==== Sys2Proof/Proofs/LoaderAnswers.lean ====
section
/-! PROOF. The loader's accepted messages (O50 to O53). -/

namespace Sys2Proof.Machine

variable {s t : State} {tag : BitVec 32} {family size grade stack : Byte} {n : Nat}
  {below above : List Pack} {p : Pack}

/-! ### What a given notice depends on (R20, R34, R35) -/

theorem enqueue_congr (hf : t.frames = s.frames) (hflags : t.port.flags = s.port.flags)
    (body : NoticeBody) : (enqueue body t).frames = (enqueue body s).frames
      ∧ (enqueue body t).port.flags = (enqueue body s).port.flags := by
  unfold enqueue
  rw [hf]
  split
  · simp [withQueue, hf, hflags]
  · cases body with
    | arrive spec => exact ⟨hf, hflags⟩
    | _ =>
      dsimp only
      split
      · simp [withQueue, hf, hflags]
      · simp [flagNoticeLoss, withFlags, hf, hflags]

/-- The queue and NOTICE LOSS after a notice depend on the queue and the flags alone. -/
theorem takeNotice_congr (hf : t.frames = s.frames) (hflags : t.port.flags = s.port.flags)
    (body : NoticeBody) : (takeNotice body t).frames = (takeNotice body s).frames
      ∧ (takeNotice body t).port.flags = (takeNotice body s).port.flags := by
  unfold takeNotice
  rw [hf]
  split
  · split
    · exact ⟨hf, hflags⟩
    · exact enqueue_congr hf hflags _
  · split
    · exact enqueue_congr hf hflags _
    · split
      · simp [withQueue, hf, hflags]
      · exact enqueue_congr (by simp [withQueue, hf]) (by simp [withQueue, hflags]) _

/-- A state that the notice finds as it was: the row's stores and the messages may have changed. -/
structure NoticeFinds (s t : State) : Prop where
  startup : t.startup = s.startup
  line : t.line = s.line
  frames : t.frames = s.frames
  arbiter : t.arbiter = s.arbiter
  flags : t.port.flags = s.port.flags

theorem NoticeFinds.given (h : NoticeFinds s t) (body : NoticeBody) :
    (giveNotice body t).frames = (takeNotice body s).frames
      ∧ (giveNotice body t).line = (giveNotice body s).line
      ∧ (giveNotice body t).port = { t.port with flags := (takeNotice body s).port.flags } := by
  obtain ⟨hframes, hflags⟩ := takeNotice_congr h.frames h.flags body
  obtain ⟨flags, hport⟩ := takeNotice_port body t
  refine ⟨(followWant_frames _).trans hframes, ?_, ?_⟩
  · exact followWant_line_congr (by simp [h.startup]) (by simp [h.line]) hframes (by simp [h.arbiter])
  · rw [giveNotice, followWant_port, hport, ← hflags, hport]

/-- R35: an ARRIVE that finds no room is dropped without a flag. -/
theorem takeNotice_arrive_flags (spec : PackSpec) (s : State) :
    (takeNotice (.arrive spec) s).port.flags = s.port.flags := by
  rw [takeNotice_arrive]
  split
  · rfl
  · unfold enqueue
    split <;> rfl

/-! ### PUT (R51, R52) -/

theorem put_row (h : RowTakes (putMessage tag family size grade stack) s) :
    exec (.put tag family size grade stack) s
      = .next (answerPut tag family size grade stack (clearWaiting s)) :=
  congrArg _ (processMessage_row _ _ _ s h (by simp))

/-- An accepted PUT. -/
theorem put_accepted (h : RowTakes (putMessage tag family size grade stack) s)
    (hrange : putOutOfRange tag family size grade stack s = false)
    (hnew : tagPresent tag.toNat s.stock = false)
    (htier : (stackAt s.stock stack.toNat).length < s.startup.settings.tierLimit) :
    let spec : PackSpec := { family := family.toNat, size := size.toNat, grade := grade.toNat }
    let stocked := withStock (pushPack stack.toNat (newPack tag.toNat spec) s.stock) (clearWaiting s)
    exec (.put tag family size grade stack) s = .next
      (reply 0x21 .ok [stack, byte (stackAt stocked.stock stack.toNat).length]
        (giveNotice (.arrive spec) stocked)) := by
  intro spec stocked
  refine (put_row h).trans (congrArg _ ?_)
  have hrange' : putOutOfRange tag family size grade stack (clearWaiting s) = false := hrange
  simp only [answerPut, hrange', clearWaiting_stock, hnew, clearWaiting_startup, Nat.not_le.2 htier,
    Bool.false_eq_true, if_false]
  rfl

theorem putOutOfRange_iff :
    putOutOfRange tag family size grade stack s = true ↔ tag = 0 ∨ 63 < family.toNat ∨ 15 < size.toNat
      ∨ 7 < grade.toNat ∨ s.startup.settings.stackLimit ≤ stack.toNat := by
  have htag : tag.toNat = 0 ↔ tag = 0 := by bv_omega
  simp [putOutOfRange, htag, or_assoc]

/-- Settles O50: `put_accepted`, field by field. -/
theorem putAddsAFreePackOnTop : Obligations.PutAddsAFreePackOnTop := by
  intro tag family size grade stack s h hlimit htag hfamily hsize hgrade hstack hnew htier spec
  have hn : stack.toNat < 16 := by omega
  have hrange : putOutOfRange tag family size grade stack s = false := by
    rw [← Bool.not_eq_true, putOutOfRange_iff]
    rintro (rfl | h | h | h | h)
    · simp at htag
    all_goals omega
  have habsent : tagPresent tag.toNat s.stock = false := by
    rw [← Bool.not_eq_true, tagPresent_iff]
    exact fun ⟨p, hp, h⟩ => hnew p hp h
  let stocked := withStock (pushPack stack.toNat (newPack tag.toNat spec) s.stock) (clearWaiting s)
  have hstacks (m : Nat) : stackAt stocked.stock m =
      if m = stack.toNat then stackAt s.stock stack.toNat ++ [newPack tag.toNat spec]
      else stackAt s.stock m := stackAt_pushPack s.stock stack.toNat m _ hn
  have hfinds : NoticeFinds s stocked := ⟨rfl, rfl, rfl, rfl, rfl⟩
  obtain ⟨hframes, hline, hport⟩ := hfinds.given (.arrive spec)
  refine ⟨_, put_accepted h hrange habsent htier, ?_, fun m hm => ?_, ?_, hframes, hline, ?_⟩
  · rw [reply_stock, giveNotice_stock]
    exact (hstacks stack.toNat).trans (if_pos rfl)
  · rw [reply_stock, giveNotice_stock]
    exact (hstacks m).trans (if_neg hm)
  · rw [reply_port, hport, takeNotice_arrive_flags, hstacks]
    simp [replyMessage, stocked, resultByte]
  · simp [GateUnchanged, ControlUnchanged]

/-! ### TAKE (R53, R54, R87) -/

/-- The record with the tag stands in stack n between these two lists. -/
structure Stands (tag : BitVec 32) (n : Nat) (below : List Pack) (p : Pack) (above : List Pack)
    (s : State) : Prop where
  distinct : (tagsOf s.stock).Nodup
  stack : stackAt s.stock n = below ++ p :: above
  tag_eq : p.tag = tag.toNat

theorem Stands.mem (h : Stands tag n below p above s) : p ∈ stackAt s.stock n := by simp [h.stack]

theorem Stands.stackOf (h : Stands tag n below p above s) : stackOf tag.toNat s.stock = some n :=
  stackOf_eq h.distinct h.mem h.tag_eq

theorem Stands.findPack (h : Stands tag n below p above s) : findPack tag.toNat s.stock = some p :=
  findPack_eq h.distinct (mem_allPacks_of_mem_stackAt h.mem) h.tag_eq

theorem Stands.onTop (h : Stands tag n below p above s) :
    onTop tag.toNat n s.stock = decide (above = []) :=
  onTop_between h.distinct h.stack h.tag_eq

/-- TAKE of a record that stands, case by case. -/
theorem answerTake_stands (h : Stands tag n below p above s) : answerTake tag s =
    if above ≠ [] then reply 0x22 .buried [] s
    else if p.state = .held then reply 0x22 .busy [] s
    else
      reply 0x22 .ok [byte n, packStateByte p.state]
        (takeEffect tag.toNat p.state (withStock (popPack n s.stock) s)) := by
  simp only [answerTake, h.stackOf, h.findPack, h.onTop, decide_eq_false_iff_not, ne_eq]

theorem packStateByte_eq (state : PackState) : packStateByte state =
    match state with
    | .free => 0
    | .held => 1
    | .reserved _ => 2
    | .qhold => 3 := by
  cases state <;> rfl

/-- What an accepted TAKE leaves beside its stores: the buffers' messages, the gate's stores and the clock. -/
theorem takeEffect_rest (tag : Nat) (former : PackState) (s : State) :
    (takeEffect tag former s).port.waiting = s.port.waiting
      ∧ (takeEffect tag former s).port.assembly = s.port.assembly
      ∧ (takeEffect tag former s).port.transmit = s.port.transmit
      ∧ GateUnchanged s (takeEffect tag former s) ∧ (takeEffect tag former s).clock = s.clock
      ∧ (takeEffect tag former s).pending = s.pending := by
  cases former with
  | free => exact ⟨rfl, rfl, rfl, ⟨rfl, rfl⟩, rfl, rfl⟩
  | held => exact ⟨rfl, rfl, rfl, ⟨rfl, rfl⟩, rfl, rfl⟩
  | qhold => exact ⟨rfl, rfl, rfl, ⟨rfl, rfl⟩, rfl, rfl⟩
  | reserved o =>
    obtain ⟨hwaiting, hassembly, -⟩ := portKept_giveNotice (.taken (keyOf o) 1) (removeEntry tag s)
    have htransmit := giveNotice_transmit (.taken (keyOf o) 1) (removeEntry tag s)
    simp only [removeEntry_port] at hwaiting hassembly htransmit
    exact ⟨hwaiting, hassembly, htransmit, by simp [takeEffect, GateUnchanged], by simp [takeEffect],
      by simp [takeEffect]⟩

/-- R87, R88: the list without the pack's entry, with the lamp's request. -/
theorem removeEntry_eq (tag : Nat) (s : State) :
    removeEntry tag s = withPicks (s.picks.filter fun e => e.tag ≠ tag) s := by
  refine congrArg (fun picks => withPicks picks s) (List.filter_congr fun e _ => ?_)
  rw [Bool.eq_iff_iff]
  simp

/-- A pack's entry leaves the list of a state that has the same list, signals and configuration. -/
theorem removeEntry_of_same {u : State} (tag : Nat) (hpicks : u.picks = s.picks)
    (hsignal : u.signal = s.signal) (hstartup : u.startup = s.startup) :
    (removeEntry tag u).picks = s.picks.filter (fun e => e.tag ≠ tag)
      ∧ (removeEntry tag u).signal = (withPicks (s.picks.filter fun e => e.tag ≠ tag) s).signal := by
  rw [removeEntry_eq, withPicks_picks, hpicks]
  exact ⟨rfl, withPicks_signal_congr (by rw [hstartup]) hsignal hpicks _⟩

theorem take_row (h : RowTakes (takeMessage tag) s) :
    exec (.take tag) s = .next (answerTake tag (clearWaiting s)) :=
  congrArg _ (processMessage_row _ _ _ s h (by simp))

/-- Settles O51: `answerTake_stands`, then the effect by the former state. -/
theorem takeRemovesTheTopPack : Obligations.TakeRemovesTheTopPack := by
  intro tag n below p s h hnodup hn htop htag hheld
  have hstands : Stands tag n below p [] (clearWaiting s) := ⟨hnodup, htop, htag⟩
  let popped := withStock (popPack n s.stock) (clearWaiting s)
  have hexec : exec (.take tag) s = .next
      (reply 0x22 .ok [byte n, packStateByte p.state] (takeEffect tag.toNat p.state popped)) := by
    rw [take_row h, answerTake_stands hstands, if_neg (by simp), if_neg hheld]
    rfl
  have hstacks (m : Nat) := stackAt_popPack_top hn htop m
  obtain ⟨hstock, hhold, hbid, hstartup, hpicks⟩ := takeEffect_stores tag.toNat p.state popped
  obtain ⟨hwaiting, hassembly, htransmit, hgate, hclock, hpending⟩ :=
    takeEffect_rest tag.toNat p.state popped
  refine ⟨_, hexec, ?_, fun m hm => ?_, hwaiting, hassembly, ?_, hbid, hhold, hgate, hclock,
    ⟨hstartup, hpending⟩, fun hs => ?_, fun o hs => ?_⟩
  · rw [reply_stock, hstock]
    exact (hstacks n).trans (if_pos rfl)
  · rw [reply_stock, hstock]
    exact (hstacks m).trans (if_neg hm)
  · rw [reply_port, htransmit, packStateByte_eq]
    rfl
  · rcases hs with hs | hs
    · simp [hs, takeEffect, popped, flagStrayTake, withFlags]
    · simp [hs, takeEffect, popped]
  · let removed := removeEntry tag.toNat popped
    have hfinds : NoticeFinds s removed := by constructor <;> simp [removed, popped]
    obtain ⟨hframes, hline, hport⟩ := hfinds.given (.taken (keyOf o) 1)
    have heffect : takeEffect tag.toNat p.state popped = giveNotice (.taken (keyOf o) 1) removed := by
      rw [hs]
      rfl
    rw [heffect]
    obtain ⟨hremoved, hlamp⟩ := removeEntry_of_same (s := s) (u := popped) tag.toNat rfl rfl rfl
    refine ⟨?_, ?_, hframes, hline, ?_⟩
    · rw [reply_picks, giveNotice_picks]
      exact hremoved
    · rw [reply_signal, giveNotice_signal]
      exact hlamp
    · rw [reply_port, hport]
      rfl

/-! ### SHIFT (R55, R56, R89) -/

/-- SHIFT of a record that stands, case by case. -/
theorem answerShift_stands (h : Stands tag n below p above s) : answerShift tag stack s =
    if s.startup.settings.stackLimit ≤ stack.toNat then reply 0x23 .range [] s
    else if above ≠ [] then reply 0x23 .buried [] s
    else if p.state = .held then reply 0x23 .busy [] s
    else if stack.toNat = n then reply 0x23 .ok [stack, byte (stackAt s.stock n).length] s
    else if s.startup.settings.tierLimit ≤ (stackAt s.stock stack.toNat).length then
      reply 0x23 .full [] s
    else
      reply 0x23 .ok
        [stack, byte (stackAt (pushPack stack.toNat p (popPack n s.stock)) stack.toNat).length]
        (shiftEffect tag.toNat stack.toNat p.state
          (withStock (pushPack stack.toNat p (popPack n s.stock)) s)) := by
  simp only [answerShift, h.stackOf, h.findPack, h.onTop, decide_eq_false_iff_not, ne_eq, withStock_stock]

/-- What an accepted SHIFT leaves beside its stores. -/
theorem shiftEffect_rest (tag stack : Nat) (state : PackState) (s : State) :
    (shiftEffect tag stack state s).port = s.port ∧ (shiftEffect tag stack state s).frames = s.frames
      ∧ (shiftEffect tag stack state s).line = s.line
      ∧ GateUnchanged s (shiftEffect tag stack state s) ∧ (shiftEffect tag stack state s).clock = s.clock
      ∧ (shiftEffect tag stack state s).pending = s.pending := by
  cases state <;> simp [shiftEffect, GateUnchanged]

/-- R56, R89: the lamp follows the entry of a RESERVED pack. -/
theorem shiftEffect_signal (tag stack : Nat) (state : PackState) (s : State) :
    (shiftEffect tag stack state s).signal =
      if isReserved state then (withPicks (s.picks.map (movedEntry tag stack)) s).signal
      else s.signal := by
  cases state <;> rfl

theorem shift_row (h : RowTakes (shiftMessage tag stack) s) :
    exec (.shift tag stack) s = .next (answerShift tag stack (clearWaiting s)) :=
  congrArg _ (processMessage_row _ _ _ s h (by simp))

/-- Settles O52: `answerShift_stands`, to its own stack and to another. -/
theorem shiftMovesTheTopPack : Obligations.ShiftMovesTheTopPack := by
  intro tag stack n below p s h hnodup hn htop htag hheld hlimits hlimit
  have hstands : Stands tag n below p [] (clearWaiting s) := ⟨hnodup, htop, htag⟩
  have hlimit' : ¬ (clearWaiting s).startup.settings.stackLimit ≤ stack.toNat := Nat.not_le.2 hlimit
  have hexec := shift_row h
  rw [answerShift_stands hstands, if_neg hlimit', if_neg (by simp), if_neg hheld] at hexec
  refine ⟨fun hsame => ?_, fun hother htier => ?_⟩
  · rw [hexec, if_pos hsame, reply_clearWaiting, clearWaiting_stock, htop]
    simp [replyMessage, resultByte]
  intro moved
  let stock := pushPack stack.toNat p (popPack n s.stock)
  have hstacks (m : Nat) : stackAt stock m =
      if m = stack.toNat then stackAt s.stock stack.toNat ++ [p]
      else if m = n then below else stackAt s.stock m := by
    rw [stackAt_pushPack _ _ _ _ (by omega), stackAt_popPack_top hn htop, stackAt_popPack_top hn htop,
      if_neg hother]
  let shifted := withStock stock (clearWaiting s)
  have hnext : exec (.shift tag stack) s = .next
      (reply 0x23 .ok [stack, byte (stackAt stock stack.toNat).length]
        (shiftEffect tag.toNat stack.toNat p.state shifted)) := by
    rw [hexec, if_neg hother]
    exact congrArg _ (if_neg (Nat.not_le.2 htier))
  obtain ⟨hstock, hhold, hbid, hstartup, hpicks⟩ :=
    shiftEffect_stores tag.toNat stack.toNat p.state shifted
  obtain ⟨hport, hframes, hline, hgate, hclock, hpending⟩ :=
    shiftEffect_rest tag.toNat stack.toNat p.state shifted
  have hsignal := shiftEffect_signal tag.toNat stack.toNat p.state shifted
  refine ⟨_, hnext, ?_, ?_, fun m hmn hms => ?_, ?_, fun hr => ?_, fun hr => ?_, hbid, hhold, hgate,
    hframes, hline, hclock, hstartup, hpending⟩
  · rw [reply_stock]
    refine (congrArg (stackAt · n) hstock).trans ((hstacks n).trans ?_)
    rw [if_neg (Ne.symm hother), if_pos rfl]
  · rw [reply_stock]
    exact (congrArg (stackAt · _) hstock).trans ((hstacks _).trans (if_pos rfl))
  · rw [reply_stock]
    exact (congrArg (stackAt · m) hstock).trans ((hstacks m).trans (by rw [if_neg hms, if_neg hmn]))
  · have hlength : (stackAt stock stack.toNat).length = (stackAt s.stock stack.toNat).length + 1 := by
      rw [hstacks, if_pos rfl, List.length_append, List.length_singleton]
    rw [reply_port, hport]
    exact congrArg (fun length => (answered [0xA3, 0x00, stack, byte length] s).port) hlength
  · rw [if_pos hr] at hpicks hsignal
    exact ⟨hpicks, hsignal.trans (withPicks_signal_congr (s := s) (t := shifted) rfl rfl rfl moved)⟩
  · rw [hr, if_neg Bool.false_ne_true] at hpicks hsignal
    exact ⟨hpicks, hsignal⟩

/-! ### HOLD PACK and FREE PACK (R57, R58, R88) -/

theorem answerHoldPack_found (h : findPack tag.toNat s.stock = some p) :
    answerHoldPack tag s =
      if p.state = .held then reply 0x24 .busy [] s
      else reply 0x24 .ok [packStateByte p.state] (holdEffect tag.toNat p.state s) := by
  simp only [answerHoldPack, h]

theorem answerFreePack_found (h : findPack tag.toNat s.stock = some p) :
    answerFreePack tag s =
      if p.state = .qhold then reply 0x25 .ok [] (withStock (setPackState tag.toNat .free s.stock) s)
      else reply 0x25 .state [] s := by
  simp only [answerFreePack, h]

theorem holdPack_row (h : RowTakes (holdPackMessage tag) s) :
    exec (.holdPack tag) s = .next (answerHoldPack tag (clearWaiting s)) :=
  congrArg _ (processMessage_row _ _ _ s h (by simp))

theorem freePack_row (h : RowTakes (freePackMessage tag) s) :
    exec (.freePack tag) s = .next (answerFreePack tag (clearWaiting s)) :=
  congrArg _ (processMessage_row _ _ _ s h (by simp))

/-- Settles O53: the effect by the former state; a RESERVED pack's entry by `removeEntry_of_same`, its
LAPSE by `NoticeFinds.given`. -/
theorem holdPackAndFreePackSetTheState : Obligations.HoldPackAndFreePackSetTheState := by
  intro tag p s hnodup hp htag become
  have hfind : findPack tag.toNat (clearWaiting s).stock = some p := findPack_eq hnodup hp htag
  refine ⟨fun h => ?_, fun h hs => ?_⟩
  · rw [holdPack_row h, answerHoldPack_found hfind]
    refine ⟨fun hs => by rw [hs]; rfl, fun hs => by rw [hs]; rfl, fun o hs => ?_⟩
    intro lapse left
    rw [hs, if_neg (by simp)]
    let put := withStock (setPackState tag.toNat .qhold s.stock) (clearWaiting s)
    let removed := removeEntry tag.toNat put
    have hfinds : NoticeFinds s removed := by constructor <;> simp [removed, put]
    obtain ⟨hframes, hline, hport⟩ := hfinds.given lapse
    obtain ⟨hremoved, hlamp⟩ := removeEntry_of_same (s := s) (u := put) tag.toNat rfl rfl rfl
    refine ⟨reply 0x24 .ok [0x02] (giveNotice lapse removed), rfl, ?_, ?_, ?_, hframes, hline, ?_, ?_, ?_,
      ?_, ?_, ?_⟩
    · rw [reply_stock, giveNotice_stock, removeEntry_stock]
      rfl
    · rw [reply_picks, giveNotice_picks]
      exact hremoved
    · rw [reply_signal, giveNotice_signal]
      exact hlamp
    · rw [reply_port, hport, removeEntry_port]
      rfl
    · simp [removed, put]
    · simp [removed, put]
    · simp [removed, put, GateUnchanged]
    · simp [removed, put]
    · simp [removed, put, ControlUnchanged]
  · rw [freePack_row h, answerFreePack_found hfind, if_pos hs]
    rfl

end Sys2Proof.Machine
end

