-- ==== Sys2Proof/Proofs/ListsAndRefusals.lean ====
section
/-! PROOF. The lists (O54) and the refused messages (O56). -/

namespace Sys2Proof.Machine

variable {s : State}

/-! ### The lists (R59, R93, R113) -/

theorem listStack_row {stack : Byte} (h : RowAnswers (listStackMessage stack) s) :
    exec (.listStack stack) s = .next (answerListStack stack (clearWaiting s)) :=
  congrArg _ (processMessage_rowList _ _ _ s h (by simp))

theorem listPicks_row (h : RowAnswers listPicksMessage s) :
    exec .listPicks s = .next (answerListPicks (clearWaiting s)) :=
  congrArg _ (processMessage_rowList _ _ _ s h (by simp))

theorem listTruck_gate {ticket : BitVec 16} (h : GateAnswers (listTruckMessage ticket) s) :
    exec (.listTruck ticket) s = .next (answerListTruck ticket (clearWaiting s)) :=
  congrArg _ (processMessage_gateList _ _ _ s h (by simp))

/-- R162: OVERDUE is listed as 1. -/
theorem pickEntryBytes_eq (e : PickEntry) : pickEntryBytes e =
    bytes32 (BitVec.ofNat 32 e.tag) ++ [byte e.stack] ++ bytes16 (BitVec.ofNat 16 e.order.ticket)
      ++ [byte e.order.line, byte e.order.bay, if e.overdue then 1 else 0] := by
  have hoverdue : byte (bit e.overdue) = if e.overdue then 1 else 0 := by
    cases e.overdue <;> rfl
  rw [pickEntryBytes, hoverdue]
  rfl

/-- A listed truck's data begin with the ticket asked for. -/
theorem truckBytes_of_findTruck {ticket : BitVec 16} {u : Truck} {trucks : List Truck}
    (h : findTruck ticket.toNat trucks = some u) : truckBytes u =
      bytes16 ticket ++ [byte u.bay] ++ bytes16 u.arrival
        ++ [truckStateByte (truckState u), byte u.lines.length] ++ u.lines.flatMap lineEntryBytes := by
  rw [truckBytes, findTruck_ticket h, ticketBytes, BitVec.ofNat_toNat, BitVec.setWidth_eq]

/-- Settles O54: each list's owner, with `pickEntryBytes_eq` and `truckBytes_of_findTruck`. -/
theorem listsAnswerWithTheirEntries : Obligations.ListsAnswerWithTheirEntries := by
  refine ⟨⟨rfl, rfl, fun _ => rfl, rfl, rfl, rfl, rfl, rfl, rfl, rfl, rfl⟩, fun s => ⟨?_, ?_, ?_⟩⟩
  · intro stack h hlimit
    rw [listStack_row h, answerListStack]
    exact congrArg _ (if_neg (Nat.not_le.2 hlimit))
  · intro h
    rw [listPicks_row h, answerListPicks, funext pickEntryBytes_eq]
    rfl
  · intro ticket u h hfind
    have hfind' : findTruck ticket.toNat (clearWaiting s).trucks = some u := hfind
    rw [listTruck_gate h, answerListTruck, hfind']
    dsimp only
    rw [truckBytes_of_findTruck hfind]
    rfl

/-! ### The loader's refused messages (R51, R53, R55, R57, R58, R59) -/

section loader

variable {tag : BitVec 32} {family size grade stack : Byte} {n : Nat} {below above : List Pack}
  {p : Pack}

theorem put_range (h : RowTakes (putMessage tag family size grade stack) s)
    (hrange : putOutOfRange tag family size grade stack s = true) :
    exec (.put tag family size grade stack) s = .next (answered [0xA1, 0x01] s) :=
  (put_row h).trans (congrArg _ (if_pos hrange))

theorem put_duplicate (h : RowTakes (putMessage tag family size grade stack) s)
    (hrange : ¬ putOutOfRange tag family size grade stack s = true)
    (hpresent : tagPresent tag.toNat s.stock = true) :
    exec (.put tag family size grade stack) s = .next (answered [0xA1, 0x02] s) :=
  (put_row h).trans (congrArg _ ((if_neg hrange).trans (if_pos hpresent)))

theorem put_full (h : RowTakes (putMessage tag family size grade stack) s)
    (hrange : ¬ putOutOfRange tag family size grade stack s = true)
    (hnew : ¬ tagPresent tag.toNat s.stock = true)
    (hfull : s.startup.settings.tierLimit ≤ (stackAt s.stock stack.toNat).length) :
    exec (.put tag family size grade stack) s = .next (answered [0xA1, 0x03] s) :=
  (put_row h).trans (congrArg _ ((if_neg hrange).trans ((if_neg hnew).trans (if_pos hfull))))

section unknown

variable (hunknown : ∀ p ∈ allPacks s.stock, p.tag ≠ tag.toNat)
include hunknown

theorem take_unknown (h : RowTakes (takeMessage tag) s) :
    exec (.take tag) s = .next (answered [0xA2, 0x07] s) := by
  rw [take_row h, answerTake, clearWaiting_stock, stackOf_none hunknown]
  rfl

theorem shift_unknown (h : RowTakes (shiftMessage tag stack) s) :
    exec (.shift tag stack) s = .next (answered [0xA3, 0x07] s) := by
  rw [shift_row h, answerShift, clearWaiting_stock, stackOf_none hunknown]
  rfl

theorem holdPack_unknown (h : RowTakes (holdPackMessage tag) s) :
    exec (.holdPack tag) s = .next (answered [0xA4, 0x07] s) := by
  rw [holdPack_row h, answerHoldPack, clearWaiting_stock, findPack_none hunknown]
  rfl

theorem freePack_unknown (h : RowTakes (freePackMessage tag) s) :
    exec (.freePack tag) s = .next (answered [0xA5, 0x07] s) := by
  rw [freePack_row h, answerFreePack, clearWaiting_stock, findPack_none hunknown]
  rfl

end unknown

section stands

theorem Stands.clearWaiting (h : Stands tag n below p above s) :
    Stands tag n below p above (clearWaiting s) := ⟨h.distinct, h.stack, h.tag_eq⟩

variable (hstands : Stands tag n below p above s)
include hstands

theorem take_buried (h : RowTakes (takeMessage tag) s) (habove : above ≠ []) :
    exec (.take tag) s = .next (answered [0xA2, 0x04] s) := by
  rw [take_row h, answerTake_stands hstands.clearWaiting, if_pos habove]
  rfl

theorem take_busy (h : RowTakes (takeMessage tag) s) (htop : above = []) (hheld : p.state = .held) :
    exec (.take tag) s = .next (answered [0xA2, 0x05] s) := by
  rw [take_row h, answerTake_stands hstands.clearWaiting, if_neg (not_not_intro htop), if_pos hheld]
  rfl

theorem shift_range (h : RowTakes (shiftMessage tag stack) s)
    (hstack : s.startup.settings.stackLimit ≤ stack.toNat) :
    exec (.shift tag stack) s = .next (answered [0xA3, 0x01] s) := by
  rw [shift_row h, answerShift_stands hstands.clearWaiting]
  exact congrArg _ (if_pos hstack)

theorem shift_buried (h : RowTakes (shiftMessage tag stack) s)
    (hstack : ¬ s.startup.settings.stackLimit ≤ stack.toNat) (habove : above ≠ []) :
    exec (.shift tag stack) s = .next (answered [0xA3, 0x04] s) := by
  rw [shift_row h, answerShift_stands hstands.clearWaiting]
  exact congrArg _ ((if_neg hstack).trans (if_pos habove))

theorem shift_busy (h : RowTakes (shiftMessage tag stack) s)
    (hstack : ¬ s.startup.settings.stackLimit ≤ stack.toNat) (htop : above = [])
    (hheld : p.state = .held) : exec (.shift tag stack) s = .next (answered [0xA3, 0x05] s) := by
  rw [shift_row h, answerShift_stands hstands.clearWaiting, if_neg (not_not_intro htop), if_pos hheld]
  exact congrArg _ (if_neg hstack)

theorem shift_full (h : RowTakes (shiftMessage tag stack) s)
    (hstack : ¬ s.startup.settings.stackLimit ≤ stack.toNat) (htop : above = [])
    (hheld : p.state ≠ .held) (hother : stack.toNat ≠ n)
    (hfull : s.startup.settings.tierLimit ≤ (stackAt s.stock stack.toNat).length) :
    exec (.shift tag stack) s = .next (answered [0xA3, 0x03] s) := by
  rw [shift_row h, answerShift_stands hstands.clearWaiting, if_neg (not_not_intro htop), if_neg hheld,
    if_neg hother]
  exact congrArg _ ((if_neg hstack).trans (if_pos hfull))

theorem holdPack_busy (h : RowTakes (holdPackMessage tag) s) (hheld : p.state = .held) :
    exec (.holdPack tag) s = .next (answered [0xA4, 0x05] s) := by
  rw [holdPack_row h, answerHoldPack_found hstands.clearWaiting.findPack, if_pos hheld]
  rfl

theorem freePack_state (h : RowTakes (freePackMessage tag) s) (hstate : p.state ≠ .qhold) :
    exec (.freePack tag) s = .next (answered [0xA5, 0x06] s) := by
  rw [freePack_row h, answerFreePack_found hstands.clearWaiting.findPack, if_neg hstate]
  rfl

end stands

theorem listStack_range (h : RowAnswers (listStackMessage stack) s)
    (hstack : s.startup.settings.stackLimit ≤ stack.toNat) :
    exec (.listStack stack) s = .next (answered [0xA6, 0x01] s) :=
  (listStack_row h).trans (congrArg _ (if_pos hstack))

end loader

/-! ### The clerk's refused messages (R110, R111, R112, R113) -/

section clerk

variable {ticket : BitVec 16} {bay count : Byte} {lines : List OrderFields}

theorem truckInOutOfRange_iff : truckInOutOfRange ticket bay count lines = true ↔
    ticket = 0 ∨ 8 < bay.toNat ∨ count = 0 ∨ 4 < count.toNat
      ∨ ∃ o ∈ lines, 63 < o.family.toNat ∨ 15 < o.size.toNat ∨ 7 < o.grade.toNat
        ∨ 1 < o.upgrade.toNat ∨ o.wanted = 0 ∨ 99 < o.wanted.toNat := by
  have hticket : ticket.toNat = 0 ↔ ticket = 0 := by bv_omega
  have hbyte (b : Byte) : b.toNat = 0 ↔ b = 0 := by bv_omega
  simp only [truckInOutOfRange, orderOutOfRange, Bool.or_eq_true, List.any_eq_true, beq_iff_eq,
    decide_eq_true_eq, hticket, hbyte, or_assoc]

theorem findTruck_isSome_iff {k : Nat} {trucks : List Truck} :
    (findTruck k trucks).isSome = true ↔ ∃ u ∈ trucks, u.ticket = k := by
  simp [findTruck]

theorem findTruck_isNone_iff {k : Nat} {trucks : List Truck} :
    (findTruck k trucks).isNone = true ↔ ¬ ∃ u ∈ trucks, u.ticket = k := by
  simp [findTruck]

theorem findTruck_none {k : Nat} {trucks : List Truck} (h : ¬ ∃ u ∈ trucks, u.ticket = k) :
    findTruck k trucks = none :=
  Option.isNone_iff_eq_none.1 (findTruck_isNone_iff.2 h)

theorem bayTaken_iff {trucks : List Truck} : bayTaken ticket.toNat bay.toNat trucks = true ↔
    bay ≠ 0 ∧ ∃ u ∈ trucks, u.bay = bay.toNat ∧ u.ticket ≠ ticket.toNat := by
  have hbay : bay.toNat ≠ 0 ↔ bay ≠ 0 := by bv_omega
  simp [bayTaken, hbay]

theorem truckIn_gate (h : GateTakes (truckInMessage ticket bay count lines) s) :
    exec (.truckIn ticket bay count lines) s
      = .next (answerTruckIn ticket bay count lines (clearWaiting s)) :=
  congrArg _ (processMessage_gate _ _ _ s h (by simp))

theorem truckBay_gate (h : GateTakes (truckBayMessage ticket bay) s) :
    exec (.truckBay ticket bay) s = .next (answerTruckBay ticket bay (clearWaiting s)) :=
  congrArg _ (processMessage_gate _ _ _ s h (by simp))

theorem truckOut_gate (h : GateTakes (truckOutMessage ticket) s) :
    exec (.truckOut ticket) s = .next (answerTruckOut ticket (clearWaiting s)) :=
  congrArg _ (processMessage_gate _ _ _ s h (by simp))

section truckIn

variable (h : GateTakes (truckInMessage ticket bay count lines) s)
include h

theorem truckIn_range (hrange : truckInOutOfRange ticket bay count lines = true) :
    exec (.truckIn ticket bay count lines) s = .next (answered [0xB1, 0x01] s) :=
  (truckIn_gate h).trans (congrArg _ (if_pos hrange))

variable (hrange : ¬ truckInOutOfRange ticket bay count lines = true)
include hrange

theorem truckIn_duplicate (hpresent : (findTruck ticket.toNat s.trucks).isSome = true) :
    exec (.truckIn ticket bay count lines) s = .next (answered [0xB1, 0x02] s) :=
  (truckIn_gate h).trans (congrArg _ ((if_neg hrange).trans (if_pos hpresent)))

variable (hnew : ¬ (findTruck ticket.toNat s.trucks).isSome = true)
include hnew

theorem truckIn_full (hfull : 12 ≤ s.trucks.length) :
    exec (.truckIn ticket bay count lines) s = .next (answered [0xB1, 0x03] s) :=
  (truckIn_gate h).trans (congrArg _ ((if_neg hrange).trans ((if_neg hnew).trans (if_pos hfull))))

theorem truckIn_bayTaken (hroom : ¬ 12 ≤ s.trucks.length)
    (hbay : bayTaken ticket.toNat bay.toNat s.trucks = true) :
    exec (.truckIn ticket bay count lines) s = .next (answered [0xB1, 0x09] s) :=
  (truckIn_gate h).trans (congrArg _
    ((if_neg hrange).trans ((if_neg hnew).trans ((if_neg hroom).trans (if_pos hbay)))))

end truckIn

section truckBay

variable (h : GateTakes (truckBayMessage ticket bay) s)
include h

theorem truckBay_unknown (hunknown : (findTruck ticket.toNat s.trucks).isNone = true) :
    exec (.truckBay ticket bay) s = .next (answered [0xB2, 0x08] s) :=
  (truckBay_gate h).trans (congrArg _ (if_pos hunknown))

variable (hpresent : ¬ (findTruck ticket.toNat s.trucks).isNone = true)
include hpresent

theorem truckBay_range (hbay : 8 < bay.toNat) :
    exec (.truckBay ticket bay) s = .next (answered [0xB2, 0x01] s) :=
  (truckBay_gate h).trans (congrArg _ ((if_neg hpresent).trans (if_pos hbay)))

theorem truckBay_bayTaken (hbay : ¬ 8 < bay.toNat)
    (htaken : bayTaken ticket.toNat bay.toNat s.trucks = true) :
    exec (.truckBay ticket bay) s = .next (answered [0xB2, 0x09] s) :=
  (truckBay_gate h).trans (congrArg _
    ((if_neg hpresent).trans ((if_neg hbay).trans (if_pos htaken))))

end truckBay

theorem truckOut_unknown (h : GateTakes (truckOutMessage ticket) s)
    (hfind : findTruck ticket.toNat s.trucks = none) :
    exec (.truckOut ticket) s = .next (answered [0xB3, 0x08] s) := by
  rw [truckOut_gate h, answerTruckOut, clearWaiting_trucks, hfind]
  rfl

theorem listTruck_unknown (h : GateAnswers (listTruckMessage ticket) s)
    (hfind : findTruck ticket.toNat s.trucks = none) :
    exec (.listTruck ticket) s = .next (answered [0xB4, 0x08] s) := by
  rw [listTruck_gate h, answerListTruck, clearWaiting_trucks, hfind]
  rfl

end clerk

/-- Settles O56: each message by the lemma of the refusal it meets first. -/
theorem refusedMessagesChangeNothing : Obligations.RefusedMessagesChangeNothing := by
  refine fun s => ⟨?put, ?unknownPack, ?found, fun _ => listStack_range, ?clerk⟩
  case put =>
    intro tag family size grade stack h
    simp only [← putOutOfRange_iff, ← tagPresent_iff]
    exact ⟨put_range h, put_duplicate h, put_full h⟩
  case unknownPack =>
    intro tag stack hunknown
    exact ⟨take_unknown hunknown, shift_unknown hunknown, holdPack_unknown hunknown,
      freePack_unknown hunknown⟩
  case found =>
    intro tag stack n below above p hnodup _ hstack htag
    have hstands : Stands tag n below p above s := ⟨hnodup, hstack, htag⟩
    refine ⟨fun h => ⟨take_buried hstands h, take_busy hstands h⟩,
      fun h => ⟨shift_range hstands h, fun hlimit => ?_⟩, holdPack_busy hstands, freePack_state hstands⟩
    have hlimit' := Nat.not_le.2 hlimit
    exact ⟨shift_buried hstands h hlimit', shift_busy hstands h hlimit', shift_full hstands h hlimit'⟩
  case clerk =>
    intro ticket bay count lines present bayTaken
    refine ⟨fun h => ?_, fun h => ?_, fun h hp => truckOut_unknown h (findTruck_none hp),
      fun h hp => listTruck_unknown h (findTruck_none hp)⟩
    · simp only [present, bayTaken, ← truckInOutOfRange_iff, ← findTruck_isSome_iff, ← bayTaken_iff]
      exact ⟨truckIn_range h, truckIn_duplicate h, truckIn_full h,
        fun hr hp hroom => truckIn_bayTaken h hr hp (Nat.not_le.2 hroom)⟩
    · have hknown (hp : present) := mt findTruck_isNone_iff.1 (not_not_intro hp)
      exact ⟨fun hp => truckBay_unknown h (findTruck_isNone_iff.2 hp), fun hp => truckBay_range h (hknown hp),
        fun hp hbay ht => truckBay_bayTaken h (hknown hp) (Nat.not_lt.2 hbay) (bayTaken_iff.2 ht)⟩

end Sys2Proof.Machine
end

