-- ==== Sys2Proof/Proofs/BidArithmetic.lean ====
section
/-! PROOF. The bid's arithmetic: matching, cost and score (O37), the selection (O38). -/

namespace Sys2Proof.Machine

/-! ### Matching and cost (R65, R66) -/

theorem matchesCall_iff (c : CallFields) (v : ViewPack) : matchesCall c v = true ↔
    v.state = .free ∧ v.spec.family = c.spec.family ∧ v.spec.size = c.spec.size
      ∧ (v.spec.grade = c.spec.grade ∨ (c.upgrade = true ∧ v.spec.grade < c.spec.grade)) := by
  simp only [matchesCall, Bool.and_eq_true, Bool.or_eq_true, beq_iff_eq, decide_eq_true_eq, and_assoc]

/-- R65: a CALL is met by its own grade or a lower one, so the upgrade term of R66 is not cut at 0. -/
theorem grade_le_of_matchesCall {c : CallFields} {v : ViewPack} (h : matchesCall c v = true) :
    v.spec.grade ≤ c.spec.grade := by
  obtain ⟨-, -, -, hgrade | ⟨-, hgrade⟩⟩ := (matchesCall_iff c v).1 h <;> omega

theorem packCost_eq {c : CallFields} {distance cap : Nat} {v : ViewPack} (hcap : cap ≤ 255)
    (hgrade : v.spec.grade ≤ c.spec.grade) :
    (packCost c distance cap v : Int) = 256 + 64 * v.dig + distance
      + 48 * ((c.spec.grade : Int) - v.spec.grade) - min (v.age : Int) cap := by
  unfold packCost ageCredit
  omega

theorem packCost_range {c : CallFields} {distance cap : Nat} {v : ViewPack} (hdig : v.dig ≤ 5)
    (hdistance : distance ≤ 62) (hcap : cap ≤ 255) (hgrade : c.spec.grade ≤ 7) :
    1 ≤ packCost c distance cap v ∧ packCost c distance cap v ≤ 974 := by
  unfold packCost ageCredit
  omega

/-! ### The offer score (R68) -/

/-- The mean of a selection lies between the bounds of its costs. -/
theorem mean_cost_bounds {selection : List Selected} {low high : Nat} (hsome : 1 ≤ selection.length)
    (hcost : ∀ a ∈ selection, low ≤ a.cost ∧ a.cost ≤ high) :
    low ≤ (selection.map fun a => a.cost).sum / selection.length
      ∧ (selection.map fun a => a.cost).sum / selection.length ≤ high := by
  have hlow := List.card_nsmul_le_sum (selection.map fun a => a.cost) low
    (List.forall_mem_map.2 fun a ha => (hcost a ha).1)
  have hhigh := List.sum_le_card_nsmul (selection.map fun a => a.cost) high
    (List.forall_mem_map.2 fun a ha => (hcost a ha).2)
  rw [List.length_map, smul_eq_mul, Nat.mul_comm] at hlow hhigh
  exact ⟨(Nat.le_div_iff_mul_le hsome).2 hlow, (Nat.div_le_iff_le_mul hsome).2 (by omega)⟩

theorem offerScore_range {wanted : Nat} {selection : List Selected} (hsome : 1 ≤ selection.length)
    (hcost : ∀ a ∈ selection, 1 ≤ a.cost ∧ a.cost ≤ 974) :
    1 ≤ offerScore wanted selection ∧ offerScore wanted selection ≤ 1022 := by
  have hmean := (mean_cost_bounds hsome hcost).1
  exact ⟨le_min (by decide) (hmean.trans (Nat.le_add_right _ _)), Nat.min_le_left _ _⟩

/-- Settles O37: `matchesCall_iff`, the cost and its range, the score's definition and its range. -/
theorem costsAndScoresStayInTheirRanges : Obligations.CostsAndScoresStayInTheirRanges := by
  refine ⟨matchesCall_iff, fun c distance cap v hdig hdistance hcap hgrade hmatch => ?_,
    fun wanted selection hsome _ hcost => ?_⟩
  · exact ⟨packCost_eq hcap (grade_le_of_matchesCall hmatch), packCost_range hdig hdistance hcap hgrade⟩
  · exact ⟨rfl, offerScore_range hsome hcost⟩

/-! ### Selection order (R67) -/

theorem selectedBefore_iff (a b : Selected) : selectedBefore a b = true ↔
    a.cost < b.cost ∨ (a.cost = b.cost ∧
      (a.stack < b.stack ∨ (a.stack = b.stack ∧ b.tier ≤ a.tier))) := by
  simp only [selectedBefore, Bool.or_eq_true, Bool.and_eq_true, beq_iff_eq, decide_eq_true_eq]

theorem selectedBefore_total (a b : Selected) :
    selectedBefore a b = true ∨ selectedBefore b a = true := by
  simp only [selectedBefore_iff]
  omega

theorem selectedBefore_trans {a b c : Selected} (hab : selectedBefore a b = true)
    (hbc : selectedBefore b c = true) : selectedBefore a c = true := by
  simp only [selectedBefore_iff] at *
  omega

theorem insertSelected_eq_orderedInsert (a : Selected) (l : List Selected) :
    insertSelected a l = l.orderedInsert (fun a b => selectedBefore a b = true) a := by
  induction l with
  | nil => rfl
  | cons b rest ih => rw [insertSelected, ih, List.orderedInsert_cons]

theorem rankSelected_eq_insertionSort (l : List Selected) :
    rankSelected l = l.insertionSort (fun a b => selectedBefore a b = true) := by
  induction l with
  | nil => rfl
  | cons a rest ih => rw [rankSelected, ih, insertSelected_eq_orderedInsert, List.insertionSort_cons]

theorem rankSelected_pairwise (l : List Selected) :
    (rankSelected l).Pairwise fun a b => selectedBefore a b = true := by
  have : Std.Total fun a b => selectedBefore a b = true := ⟨selectedBefore_total⟩
  have : IsTrans Selected fun a b => selectedBefore a b = true :=
    ⟨fun _ _ _ => selectedBefore_trans⟩
  rw [rankSelected_eq_insertionSort]
  exact List.pairwise_insertionSort _ l

/-! ### The selection of a computation (R67 to R69) -/

/-- Selection order between records of two places. -/
def CheaperThan (a b : Selected) : Prop :=
  a.cost < b.cost ∨ (a.cost = b.cost ∧ (a.stack < b.stack ∨ (a.stack = b.stack ∧ b.tier < a.tier)))

theorem cheaperThan_of_selectedBefore {a b : Selected} (hbefore : selectedBefore a b = true)
    (hplace : (a.stack, a.tier) ≠ (b.stack, b.tier)) : CheaperThan a b := by
  rw [selectedBefore_iff] at hbefore
  rw [Ne, Prod.mk.injEq] at hplace
  unfold CheaperThan
  omega

/-- The matching records of a view, each with its cost. -/
def matchingOffers (r : BidRecord) (cap : Nat) : List Selected :=
  (r.view.filter (matchesCall r.call)).map (priced r.call r.distance cap)

theorem rankedOffers_perm (r : BidRecord) (cap : Nat) :
    (rankedOffers r cap).Perm (matchingOffers r cap) := rankSelected_perm _

/-- Where no two records of the view have one place, no two matching ones have. -/
theorem rankedOffers_places_nodup {r : BidRecord} (cap : Nat)
    (hview : (r.view.map fun v => (v.stack, v.tier)).Nodup) :
    ((rankedOffers r cap).map fun a => (a.stack, a.tier)).Nodup := by
  have hmatching : ((matchingOffers r cap).map fun a => (a.stack, a.tier)).Nodup := by
    rw [matchingOffers, List.map_map]
    exact hview.sublist (List.filter_sublist.map _)
  exact ((rankedOffers_perm r cap).map _).nodup_iff.2 hmatching

/-- R67: so the matching records have one strict order. -/
theorem rankedOffers_pairwise {r : BidRecord} (cap : Nat)
    (hview : (r.view.map fun v => (v.stack, v.tier)).Nodup) :
    (rankedOffers r cap).Pairwise CheaperThan :=
  ((rankSelected_pairwise _).and (List.pairwise_map.1 (rankedOffers_places_nodup cap hview))).imp
    fun h => cheaperThan_of_selectedBefore h.1 h.2

theorem computeBid_selection_length (r : BidRecord) (cap number : Nat) :
    (computeBid r cap number).selection.length = offeredCount r := by
  have hranked : (rankedOffers r cap).length = (r.view.filter (matchesCall r.call)).length := by
    rw [(rankedOffers_perm r cap).length_eq, matchingOffers, List.length_map]
  have hcount : offeredCount r ≤ (rankedOffers r cap).length := by
    rw [hranked]
    exact (Nat.min_le_right _ _).trans (Nat.min_le_left _ _)
  exact List.length_take_of_le hcount

/-- Settles O38: the ranked offers are the matching records in strict order, and the selection is the first
of them. -/
theorem computationSelectsTheCheapestPacks : Obligations.ComputationSelectsTheCheapestPacks := by
  intro r cap number hview matching k before result
  have hlength : result.selection.length = k := computeBid_selection_length r cap number
  have hsplit : result.selection ++ (rankedOffers r cap).drop k = rankedOffers r cap :=
    List.take_append_drop k _
  have hpairwise := rankedOffers_pairwise cap hview
  rw [← hsplit] at hpairwise
  obtain ⟨hselection, -, hothers⟩ := List.pairwise_append.1 hpairwise
  refine ⟨hlength, hselection, ⟨_, (List.Perm.of_eq hsplit).trans (rankedOffers_perm r cap), hothers⟩,
    ?_⟩
  rw [← hlength]
  exact ⟨rfl, rfl, rfl⟩

end Sys2Proof.Machine
end

