-- ==== Sys2Proof/Proofs/PortRefusals.lean ====
section
/-! PROOF. When a message is processed, what the port refuses, and what it answers itself (O49). -/

namespace Sys2Proof.Machine

variable {s : State} {m : List Byte} {code : Byte} {owner : State → State}

/-! ### Deferring (R73, R123) -/

theorem deferring_row (h : s.startup.settings.role = .row) : deferring s = true ↔ s.bid ≠ .idle := by
  simp [deferring, h]

theorem deferring_gate (h : s.startup.settings.role = .gate) : deferring s = true ↔
    (∃ r, s.arbiter = .calling r) ∨ ∃ r w k c, s.arbiter = .granting r w k c := by
  cases harbiter : s.arbiter <;> simp [deferring, h, harbiter]

/-! ### The field lines character (R158, R162) -/

/-- The digits of a number written in base 2, least significant first. -/
theorem foldl_bit_digits (f : Nat → Bool) (k : Nat) :
    let value := (List.range k).foldl (fun acc n => acc + 2 ^ n * bit (f n)) 0
    value < 2 ^ k ∧ ∀ i < k, value.testBit i = f i := by
  induction k with
  | zero => simp
  | succ k ih =>
    obtain ⟨hlt, hdigits⟩ := ih
    rw [List.range_succ, List.foldl_append, List.foldl_cons, List.foldl_nil, Nat.add_comm]
    have hbit : bit (f k) < 2 := by cases f k <;> decide
    refine ⟨?_, fun i hi => ?_⟩
    · calc 2 ^ k * bit (f k) + _ < 2 ^ k * bit (f k) + 2 ^ k := Nat.add_lt_add_left hlt _
        _ = 2 ^ k * (bit (f k) + 1) := (Nat.mul_succ _ _).symm
        _ ≤ 2 ^ (k + 1) := Nat.mul_le_mul_left _ hbit
    · rw [Nat.testBit_two_pow_mul_add _ hlt]
      split
      next hik => exact hdigits i hik
      next hik =>
        obtain rfl : i = k := by omega
        rw [Nat.sub_self]
        cases f i <;> rfl

theorem fieldLinesByte_getLsbD (s : State) (n : Fin 8) :
    (fieldLinesByte s).getLsbD n = fieldReading s n := by
  obtain ⟨-, hdigits⟩ := foldl_bit_digits (fieldReading s) 8
  rw [fieldLinesByte, byte, BitVec.getLsbD_ofNat, decide_eq_true n.isLt, Bool.true_and]
  exact hdigits n n.isLt

/-! ### Processing (R154) -/

theorem canProcess_iff (s : State) : canProcess s = true ↔
    s.startup.station ≠ .config ∧ deferring s = false ∧ s.port.transmit.length < 4 := by
  simp only [canProcess, portRuns, Bool.and_eq_true, bne_iff_ne, Bool.not_eq_true', decide_eq_true_eq,
    and_assoc]
  rfl

theorem arriveMessage_waiting (h : s.port.waiting = some m) (m' : List Byte) : arriveMessage m' s = s := by
  rw [arriveMessage, h]

section waiting

variable (hwaiting : s.port.waiting = some m)
include hwaiting

theorem processMessage_waits (hcan : ¬ canProcess s = true) : processMessage m code owner s = s := by
  rw [processMessage, arriveMessage_waiting hwaiting]
  exact if_neg fun h => hcan h.2

theorem processMessage_refuses (hcan : canProcess s = true) {r : ResultCode}
    (hrefusal : portRefusal code s = some r) :
    processMessage m code owner s = answered [code + 0x80, resultByte r] s := by
  rw [processMessage, arriveMessage_waiting hwaiting, if_pos ⟨hwaiting, hcan⟩, hrefusal]
  rfl

theorem processMessage_hands (hcan : canProcess s = true) (hrefusal : portRefusal code s = none) :
    processMessage m code owner s = owner (clearWaiting s) := by
  rw [processMessage, arriveMessage_waiting hwaiting, if_pos ⟨hwaiting, hcan⟩, hrefusal]

end waiting

/-! ### The port's own refusals (R155) -/

theorem wrongRole_iff (code : Byte) (s : State) : wrongRole code s = true ↔
    (s.startup.settings.role = .row ∧ code ∈ [0x31, 0x32, 0x33, 0x34])
      ∨ (s.startup.settings.role = .gate ∧ code ∈ [0x21, 0x22, 0x23, 0x24, 0x25, 0x26, 0x27]) := by
  cases h : s.startup.settings.role <;> simp [wrongRole, h]

section known

variable (hknown : codeKnown code = true)
include hknown

theorem portRefusal_configFault (hstation : s.startup.station = .configFault) :
    portRefusal code s = if code = 0x40 then none else some .notReady := by
  simp [portRefusal, hknown, hstation]

theorem portRefusal_otherRole (hstation : s.startup.station ≠ .configFault)
    (hrole : wrongRole code s = true) : portRefusal code s = some .wrongRole := by
  simp [portRefusal, hknown, hstation, hrole]

variable (hrole : ¬ wrongRole code s = true)
include hrole

theorem portRefusal_listen (hstation : s.startup.station = .listen) :
    portRefusal code s = if code = 0x40 then none else some .notReady := by
  simp [portRefusal, hknown, hrole, hstation]

theorem portRefusal_duplicate (hstation : s.startup.station = .duplicate) :
    portRefusal code s = if code ∈ [0x40, 0x26, 0x27, 0x34] then none else some .notReady := by
  simp [portRefusal, hknown, hrole, hstation]

theorem portRefusal_service (hstation : s.startup.station = .service) : portRefusal code s = none := by
  simp [portRefusal, hknown, hrole, hstation]

end known

/-- R155, R158: STATUS is answered in every state in which the port runs. -/
theorem portRefusal_status (hruns : s.startup.station ≠ .config) : portRefusal 0x40 s = none := by
  have hknown : codeKnown 0x40 = true := by decide
  have hrole : ¬ wrongRole 0x40 s = true := by simp [wrongRole_iff]
  cases hstation : s.startup.station with
  | config => exact absurd hstation hruns
  | configFault => exact portRefusal_configFault hknown hstation
  | listen => exact portRefusal_listen hknown hrole hstation
  | service => exact portRefusal_service hknown hrole hstation
  | duplicate => exact portRefusal_duplicate hknown hrole hstation

/-! ### The port's own answers (R155, R158) -/

theorem unknownMessage_answered (hunknown : codeKnown code = false) (hcan : canProcess s = true)
    (hwaiting : s.port.waiting = some [code]) :
    exec (.unknownMessage code) s = .next (answered [0x80, 0x0C, code] s) := by
  have hexec : execUnknownMessage code s = .next (answered [0x80, 0x0C, code] s) := by
    rw [execUnknownMessage, hunknown, arriveMessage_waiting hwaiting, if_neg Bool.false_ne_true,
      if_pos ⟨hwaiting, hcan⟩]
    rfl
  exact hexec

/-- R162: halt is bit 0 of the levels character and close bit 1. -/
theorem levelsByte_eq (s : State) : levelsByte s =
    if haltAsserted s then (if closeAsserted s then 3 else 1) else (if closeAsserted s then 2 else 0) := by
  unfold levelsByte
  cases haltAsserted s <;> cases closeAsserted s <;> rfl

theorem roleByte_eq (role : Role) : roleByte role = if role = .gate then 1 else 0 := by
  cases role <;> rfl

theorem byte_bit (b : Bool) : byte (bit b) = if b then 1 else 0 := by
  cases b <;> rfl

theorem statusData_eq (s : State) : statusData s =
    (if s.startup.station = .configFault then [0xFF, 0xFF]
      else [if s.startup.settings.role = .gate then 1 else 0, byte s.startup.settings.number])
    ++ bytes32 s.startup.serial
    ++ [stationByte s.startup.station, conditionByte s.line.condition, if s.clock.isSet then 1 else 0]
    ++ bytes16 s.clock.minute
    ++ [if haltAsserted s then (if closeAsserted s then 3 else 1) else (if closeAsserted s then 2 else 0),
      fieldLinesByte s, flagsByte s.port.flags] := by
  rw [statusData, identityBytes, roleByte_eq, byte_bit, levelsByte_eq]

/-- R157, R158: the reply carries the flags as they stand before it clears them. -/
theorem status_answered (hcan : canProcess s = true) (hwaiting : s.port.waiting = some [0x40]) :
    exec .status s = .next (withFlags clearFlags (answered ([0xC0, 0x00] ++ statusData s) s)) :=
  congrArg _ (processMessage_hands hwaiting hcan (portRefusal_status ((canProcess_iff s).1 hcan).1))

/-- Settles O49: a message that waits by `canProcess_iff`, a refusal by `portRefusal`'s case for the station
state, and the port's own answers. -/
theorem portAnswersAndRefusesByItself : Obligations.PortAnswersAndRefusesByItself := by
  refine ⟨fun s => ⟨deferring_row, deferring_gate, fieldLinesByte_getLsbD s⟩,
    ⟨rfl, rfl, rfl, rfl, rfl, rfl, rfl, rfl, rfl⟩,
    fun m code owner s hwaiting => ⟨?waits, fun hstation hdefers hroom hknown => ?port⟩,
    fun s hstation hdefers hroom => ?own⟩
  case waits =>
    intro hnot
    refine processMessage_waits hwaiting fun hcan => ?_
    obtain ⟨hstation, hdefers, hroom⟩ := (canProcess_iff s).1 hcan
    rcases hnot with h | h | h
    · exact hstation h
    · exact Bool.false_ne_true (hdefers.symm.trans h)
    · exact Nat.not_le.2 hroom h
  case port =>
    intro otherRole taken
    have hcan := (canProcess_iff s).2 ⟨hstation, hdefers, hroom⟩
    have hotherRole : wrongRole code s = true ↔ otherRole := wrongRole_iff code s
    rw [← hotherRole]
    have refuses {r : ResultCode} (h : portRefusal code s = some r) :=
      processMessage_refuses (owner := owner) hwaiting hcan h
    have hands (h : portRefusal code s = none) := processMessage_hands (owner := owner) hwaiting hcan h
    exact ⟨
      fun hfault hcode => refuses ((portRefusal_configFault hknown hfault).trans (if_neg hcode)),
      fun hfault hrole => refuses (portRefusal_otherRole hknown hfault hrole),
      fun hrole hlisten hcode => refuses ((portRefusal_listen hknown hrole hlisten).trans (if_neg hcode)),
      fun hrole hdup hcode => refuses ((portRefusal_duplicate hknown hrole hdup).trans (if_neg hcode)),
      fun hrole hdup hcode => hands ((portRefusal_duplicate hknown hrole hdup).trans (if_pos hcode)),
      fun hrole hservice => hands (portRefusal_service hknown hrole hservice)⟩
  case own =>
    have hcan := (canProcess_iff s).2 ⟨hstation, hdefers, hroom⟩
    refine ⟨fun code hunknown => unknownMessage_answered hunknown hcan, fun hwaiting => ?_⟩
    rw [status_answered hcan hwaiting, statusData_eq]
    rfl

end Sys2Proof.Machine
end

