-- ==== Sys2Proof/Proofs/PickList.lean ====
section
/-! PROOF. The pick list: the order of one grant's entries (O35), the pick lamp's request (O36). -/

namespace Sys2Proof.Machine

/-! ### The entries of one grant (R84) -/

/-- Of two records of one stack, `p` stands nearer the ground than `q` (R46). -/
def StandsBelow (packs : List Pack) (p q : Pack) : Prop :=
  ∃ below between above, packs = below ++ p :: between ++ q :: above

theorem standsBelow_of_sublist {packs : List Pack} {p q : Pack} (h : List.Sublist [p, q] packs) :
    StandsBelow packs p q := by
  obtain ⟨front, back, rfl, hp, hq⟩ := List.cons_sublist_iff.1 h
  obtain ⟨below, between, rfl⟩ := List.append_of_mem hp
  obtain ⟨between', above, rfl⟩ := List.append_of_mem (List.singleton_sublist.1 hq)
  exact ⟨below, between ++ between', above, by simp⟩

/-- A stack list runs from the ground up. -/
theorem pairwise_standsBelow (packs : List Pack) : packs.Pairwise (StandsBelow packs) :=
  List.pairwise_iff_forall_sublist.2 standsBelow_of_sublist

/-- One entry stands before another in the list of a grant: by stack ascending, within a stack by tier
descending. -/
def EntryPrecedes (stock : Stock) (a b : PickEntry) : Prop :=
  a.stack < b.stack ∨
    (a.stack = b.stack ∧ ∃ p q, StandsBelow (stackAt stock a.stack) p q ∧ p.tag = b.tag ∧ q.tag = a.tag)

theorem newEntries_pairwise (covered : List Nat) (order : Reservation) (minute : Minute) (stock : Stock) :
    (newEntries covered order minute stock).Pairwise (EntryPrecedes stock) := by
  refine List.pairwise_flatMap.2 ⟨fun n _ => ?sameStack, List.pairwise_lt_range.imp ?laterStack⟩
  case sameStack =>
    have hdown : (stackAt stock n).reverse.Pairwise fun q p => StandsBelow (stackAt stock n) p q :=
      List.pairwise_reverse.2 (pairwise_standsBelow _)
    exact List.pairwise_map.2 ((hdown.filter _).imp fun h => .inr ⟨rfl, _, _, h, rfl, rfl⟩)
  case laterStack =>
    intro n m hlt a ha b hb
    obtain ⟨p, -, rfl⟩ := List.mem_map.1 ha
    obtain ⟨q, -, rfl⟩ := List.mem_map.1 hb
    exact .inl hlt

/-- The entries of a grant, by their fields. -/
theorem mem_newEntries_iff {covered : List Nat} {order : Reservation} {minute : Minute} {stock : Stock}
    {e : PickEntry} : e ∈ newEntries covered order minute stock ↔
      e.order = order ∧ e.grantMinute = minute ∧ e.overdue = false ∧ e.tag ∈ covered
        ∧ ∃ p ∈ stackAt stock e.stack, p.tag = e.tag ∧ p.state = .held := by
  rw [mem_newEntries]
  constructor
  · rintro ⟨n, -, p, hp, hcovered, hheld, rfl⟩
    exact ⟨rfl, rfl, rfl, hcovered, p, hp, rfl, hheld⟩
  · obtain ⟨tag, n, _, _, _⟩ := e
    rintro ⟨rfl, rfl, rfl, hcovered, p, hp, rfl, hheld⟩
    exact ⟨n, lt_of_mem_stackAt hp, p, hp, hcovered, hheld, rfl⟩

/-- Settles O35: the members by `mem_newEntries_iff`, their order by `newEntries_pairwise`. -/
theorem newEntriesStandByStackAndTier : Obligations.NewEntriesStandByStackAndTier := by
  intro covered order minute stock _
  refine ⟨fun e => mem_newEntries_iff, (newEntries_pairwise covered order minute stock).imp ?_⟩
  rintro a b (hlt | ⟨hstack, p, q, ⟨below, between, above, hpacks⟩, hp, hq⟩)
  · exact .inl hlt
  · exact .inr ⟨hstack, below, between, above, p, q, hpacks, hp, hq⟩

/-! ### The pick lamp (R96) -/

theorem withPicks_of_pickHead_eq {picks : List PickEntry} {s : State}
    (h : pickHead picks = pickHead s.picks) : withPicks picks s = { s with picks := picks } :=
  if_pos h

theorem withPicks_of_pickHead_ne {picks : List PickEntry} {s : State}
    (h : pickHead picks ≠ pickHead s.picks) :
    withPicks picks s = requestPattern .pickLamp (pickPattern picks) { s with picks := picks } :=
  if_neg h

theorem pickPattern_overdue {e : PickEntry} (h : e.overdue = true) (rest : List PickEntry) :
    pickPattern (e :: rest) = .quickBurst (e.stack + 1) :=
  if_pos h

theorem pickPattern_not_overdue {e : PickEntry} (h : e.overdue = false) (rest : List PickEntry) :
    pickPattern (e :: rest) = .burst (e.stack + 1) :=
  if_neg (by simp [h])

/-- Settles O36: no request while the head stays the same; a changed head by its pattern. -/
theorem pickLampFollowsTheHead : Obligations.PickLampFollowsTheHead := by
  intro picks s
  refine ⟨withPicks_of_pickHead_eq, fun hchanged => ?_⟩
  rw [withPicks_of_pickHead_ne hchanged]
  refine ⟨?empty, ?head⟩
  case empty =>
    rintro rfl
    rfl
  case head =>
    rintro e rest rfl
    exact ⟨fun hnot => by rw [pickPattern_not_overdue hnot],
      fun hover => by rw [pickPattern_overdue hover]⟩

end Sys2Proof.Machine
end

