-- ==== Sys2Proof/Proofs/TruckTables.lean ====
section
/-! PROOF. What the gate's operations do to a sound order line and to a sound truck table (O58). -/

namespace Sys2Proof.Machine

variable {l : OrderLine} {trucks : List Truck}

/-! ### Sound lines stay sound (R99, R100, R103 to R107) -/

/-- A line's empty rounds do not enter its accounts. -/
theorem orderLineSound_emptyRounds (hl : orderLineSound l) {rounds : Nat} (hrounds : rounds ≤ 3) :
    orderLineSound { l with emptyRounds := rounds } := by
  obtain ⟨hfamily, hsize, hgrade, hwanted, hwanted99, ht, hg, -, hlen, hawards⟩ := hl
  exact ⟨hfamily, hsize, hgrade, hwanted, hwanted99, ht, hg, hrounds, hlen, hawards⟩

theorem orderLineSound_arriveOnLine (hl : orderLineSound l) (spec : PackSpec) :
    orderLineSound (arriveOnLine spec l) := by
  unfold arriveOnLine
  split
  · exact orderLineSound_emptyRounds hl (Nat.zero_le 3)
  · exact hl

/-- R101, R126: only an OPEN line counts an empty round, so the count ends at 3. -/
theorem orderLineSound_emptyOnLine (hl : orderLineSound l) : orderLineSound (emptyOnLine l) := by
  by_cases ho : lineState l = .openLine
  · obtain ⟨-, -, hrounds⟩ := (lineState_open_iff l).1 ho
    rw [emptyOnLine_open ho]
    exact orderLineSound_emptyRounds hl hrounds
  · rwa [emptyOnLine, if_neg ho]

/-- R106, R118: a line without its records has T = G = C. -/
theorem orderLineSound_bringDown_all (hl : orderLineSound l) :
    orderLineSound (bringDown (fun _ => true) l) := by
  obtain ⟨hfamily, hsize, hgrade, hwanted, hwanted99, ht, hg, hrounds, -, -⟩ := hl
  rw [bringDown_all]
  refine ⟨hfamily, hsize, hgrade, hwanted, hwanted99, ?_, ?_, hrounds, Nat.zero_le 8, by simp⟩
  · simp [lineTaken, lineGranted]
  · simpa [lineGranted] using ht.trans hg

/-- R103: an award that fits the open quantity keeps G at most W. -/
theorem orderLineSound_grantOnLine (hl : orderLineSound l) {row count : Nat} (hrow : row ≤ 63)
    (hone : 1 ≤ count) (hcount8 : count ≤ 8) (hopen : count ≤ lineOpen l) :
    orderLineSound (grantOnLine row count l) := by
  by_cases hroom : l.awards.length < 8
  · obtain ⟨hfamily, hsize, hgrade, hwanted, hwanted99, ht, hg, -, -, hawards⟩ := hl
    rw [grantOnLine_room hroom]
    simp only [lineOpen, lineGranted, lineTaken] at hopen ht hg
    refine ⟨hfamily, hsize, hgrade, hwanted, hwanted99, ?_, ?_, Nat.zero_le 3, ?_, fun a ha => ?_⟩
    · simp only [lineTaken, lineGranted, List.map_append, List.sum_append, List.map_cons, List.map_nil,
        List.sum_singleton]
      omega
    · simp only [lineGranted, List.map_append, List.sum_append, List.map_cons, List.map_nil,
        List.sum_singleton]
      omega
    · simpa using hroom
    · rcases List.mem_append.1 ha with ha | ha
      · exact hawards a ha
      · obtain rfl := List.mem_singleton.1 ha
        exact ⟨hrow, hone, hcount8⟩
  · rwa [grantOnLine, if_neg (show ¬ l.awards.length < Config.awardLimit from hroom)]

theorem orderOutOfRange_iff (o : OrderFields) : orderOutOfRange o = true ↔
    63 < o.family.toNat ∨ 15 < o.size.toNat ∨ 7 < o.grade.toNat ∨ 1 < o.upgrade.toNat
      ∨ o.wanted.toNat = 0 ∨ 99 < o.wanted.toNat := by
  simp only [orderOutOfRange, Bool.or_eq_true, decide_eq_true_eq, beq_iff_eq, or_assoc]

theorem orderLineSound_newOrderLine {o : OrderFields} (ho : orderOutOfRange o = false) :
    orderLineSound (newOrderLine o) := by
  have hrange := mt (orderOutOfRange_iff o).2 (by simp [ho])
  simp only [not_or, not_lt] at hrange
  obtain ⟨hfamily, hsize, hgrade, -, hwanted, hwanted99⟩ := hrange
  exact ⟨hfamily, hsize, hgrade, Nat.one_le_iff_ne_zero.2 hwanted, hwanted99, Nat.le_refl 0, Nat.zero_le _,
    Nat.zero_le 3, Nat.zero_le 8, fun a ha => absurd ha List.not_mem_nil⟩

/-! ### The open quantity that a decided grant needs (R127) -/

theorem lineOpen_takenOnLine (hl : orderLineSound l) (row count : Nat) :
    lineOpen (takenOnLine row count l) = lineOpen l := by
  obtain ⟨-, hgranted, -⟩ := takenOnLine_accounts hl row count
  rw [lineOpen, hgranted]
  rfl

theorem lineOpen_lapseOnLine (hl : orderLineSound l) (row count : Nat) :
    lineOpen l ≤ lineOpen (lapseOnLine row count l) := by
  obtain ⟨hgranted, -⟩ := lapseOnLine_accounts hl row count
  rw [lineOpen, lineOpen, hgranted]
  exact Nat.sub_le_sub_left (Nat.sub_le _ _) l.wanted

theorem lineOpen_bringDown (hl : orderLineSound l) (row : Nat) :
    lineOpen l ≤ lineOpen (bringDown (fun a => a.row == row) l) := by
  obtain ⟨hgranted, -⟩ := bringDown_accounts hl row
  rw [lineOpen, lineOpen, hgranted]
  exact Nat.sub_le_sub_left (Nat.sub_le _ _) l.wanted

theorem lineOpen_arriveOnLine (spec : PackSpec) (l : OrderLine) :
    lineOpen (arriveOnLine spec l) = lineOpen l := by
  unfold arriveOnLine
  split <;> rfl

/-! ### Tables with another set of trucks (R98, R110, R111) -/

theorem orderLineSound_of_mem (h : TrucksSound trucks) {u : Truck} (hu : u ∈ trucks) (hl : l ∈ u.lines) :
    orderLineSound l := by
  obtain ⟨-, -, -, hsound⟩ := h
  obtain ⟨-, -, -, -, -, hlines⟩ := hsound u hu
  exact hlines l hl

/-- No two trucks of the table stand at one bay. -/
theorem distinctBays_iff (trucks : List Truck) :
    ((trucks.filter fun u => u.bay != 0).map fun u => u.bay).Nodup ↔
      trucks.Pairwise fun u w => u.bay ≠ 0 → w.bay ≠ 0 → u.bay ≠ w.bay := by
  simp only [List.Nodup, List.pairwise_map, List.pairwise_filter, bne_iff_ne]

/-- A sound table with fewer trucks, in the same order, is sound. -/
theorem trucksSound_sublist {fewer : List Truck} (h : TrucksSound trucks) (hsub : fewer.Sublist trucks) :
    TrucksSound fewer := by
  obtain ⟨hlen, htickets, hbays, hsound⟩ := h
  exact ⟨hsub.length_le.trans hlen, (hsub.map _).nodup htickets, ((hsub.filter _).map _).nodup hbays,
    fun u hu => hsound u (hsub.subset hu)⟩

/-- R110: a sound truck with a ticket and a bay that are free joins the tail. -/
theorem trucksSound_append (h : TrucksSound trucks) {u : Truck} (hroom : trucks.length < 12)
    (hticket : ∀ w ∈ trucks, w.ticket ≠ u.ticket) (hbay : u.bay = 0 ∨ ∀ w ∈ trucks, w.bay ≠ u.bay)
    (hu : truckSound u) : TrucksSound (trucks ++ [u]) := by
  obtain ⟨-, htickets, hbays, hsound⟩ := h
  refine ⟨by simpa using hroom, ?_, ?_, ?_⟩
  · rw [List.map_append, List.nodup_append]
    refine ⟨htickets, List.nodup_singleton _, ?_⟩
    simpa using hticket
  · rw [distinctBays_iff] at hbays ⊢
    refine List.pairwise_append.2 ⟨hbays, List.pairwise_singleton _ _, fun w hw v hv => ?_⟩
    obtain rfl := List.mem_singleton.1 hv
    intro _ hne
    exact hbay.resolve_left hne w hw
  · intro w hw
    rcases List.mem_append.1 hw with hw | hw
    · exact hsound w hw
    · rwa [List.mem_singleton.1 hw]

/-- Each truck of a sound table replaced by a sound one with its ticket, with the bays still distinct. -/
theorem trucksSound_map (h : TrucksSound trucks) {g : Truck → Truck}
    (hticket : ∀ u ∈ trucks, (g u).ticket = u.ticket)
    (hbays : (trucks.map g).Pairwise fun u w => u.bay ≠ 0 → w.bay ≠ 0 → u.bay ≠ w.bay)
    (hsound : ∀ u ∈ trucks, truckSound u → truckSound (g u)) : TrucksSound (trucks.map g) := by
  obtain ⟨hlen, htickets, -, hall⟩ := h
  refine ⟨by simpa using hlen, ?_, (distinctBays_iff _).2 hbays, ?_⟩
  · rw [List.map_map, List.map_congr_left (g := fun u => u.ticket) hticket]
    exact htickets
  · intro w hw
    obtain ⟨u, hu, rfl⟩ := List.mem_map.1 hw
    exact hsound u hu (hall u hu)

/-- R111: tickets are distinct, so at most one truck of a pair has moved, and its bay was free. -/
theorem moveTruck_bays (h : TrucksSound trucks) {ticket bay : Nat}
    (hbay : bay = 0 ∨ ∀ u ∈ trucks, u.bay = bay → u.ticket = ticket) :
    (moveTruck ticket bay trucks).Pairwise fun u w => u.bay ≠ 0 → w.bay ≠ 0 → u.bay ≠ w.bay := by
  obtain ⟨-, htickets, hbays, -⟩ := h
  have hfree : ∀ u ∈ trucks, u.ticket ≠ ticket → bay ≠ 0 → u.bay ≠ bay := fun u hu hne hbay0 heq =>
    hne (hbay.resolve_left hbay0 u hu heq)
  have hpairs := (List.pairwise_map.1 htickets).and ((distinctBays_iff trucks).1 hbays)
  refine List.pairwise_map.2 (hpairs.imp_of_mem fun {u w} hu hw huw => ?_)
  obtain ⟨hdistinct, hkept⟩ := huw
  by_cases hut : u.ticket = ticket
  · have hwt : w.ticket ≠ ticket := fun hwt => hdistinct (hut.trans hwt.symm)
    simp only [if_pos hut, if_neg hwt]
    exact fun hbay0 _ heq => hfree w hw hwt hbay0 heq.symm
  · by_cases hwt : w.ticket = ticket
    · simp only [if_neg hut, if_pos hwt]
      exact fun _ hbay0 => hfree u hu hut hbay0
    · simpa only [if_neg hut, if_neg hwt] using hkept

/-- R111: a truck moved to a free bay, its empty-round counts at 0. -/
theorem trucksSound_moveTruck (h : TrucksSound trucks) {ticket bay : Nat} (hbay8 : bay ≤ 8)
    (hbay : bay = 0 ∨ ∀ u ∈ trucks, u.bay = bay → u.ticket = ticket) :
    TrucksSound (moveTruck ticket bay trucks) := by
  refine trucksSound_map h (fun u _ => ?_) (moveTruck_bays h hbay) fun u _ hu => ?_
  · split <;> rfl
  · split
    · obtain ⟨hone, hticket, -, hlines, hfour, hsound⟩ := hu
      refine ⟨hone, hticket, hbay8, by simpa using hlines, by simpa using hfour, fun l' hl' => ?_⟩
      obtain ⟨l, hl, rfl⟩ := List.mem_map.1 hl'
      exact orderLineSound_emptyRounds (hsound l hl) (Nat.zero_le 3)
    · exact hu

/-- R110, R152: the truck of a well formed TRUCK IN with its fields in range. -/
theorem truckSound_newTruck {ticket : BitVec 16} {bay count : Byte} {lines : List OrderFields}
    (hrange : truckInOutOfRange ticket bay count lines = false) (hfit : linesFit count lines = true)
    (arrival : Minute) : truckSound (newTruck ticket.toNat bay.toNat arrival lines) := by
  simp only [truckInOutOfRange, Bool.or_eq_false_iff, beq_eq_false_iff_ne, decide_eq_false_iff_not,
    List.any_eq_false, Bool.not_eq_true, not_lt] at hrange
  obtain ⟨⟨⟨⟨hticket, hbay⟩, hcount⟩, hcount4⟩, hlines⟩ := hrange
  have hlength : lines.length = count.toNat := by
    rw [linesFit, if_pos ⟨Nat.one_le_iff_ne_zero.2 hcount, hcount4⟩] at hfit
    simpa using hfit
  refine ⟨Nat.one_le_iff_ne_zero.2 hticket, Nat.le_of_lt_succ ticket.isLt, hbay, ?_, ?_, fun l hl => ?_⟩
  · simpa [newTruck, hlength] using Nat.one_le_iff_ne_zero.2 hcount
  · simpa [newTruck, hlength] using hcount4
  · obtain ⟨o, ho, rfl⟩ := List.mem_map.1 hl
    exact orderLineSound_newOrderLine (hlines o ho)

/-! ### Lines of a table replaced where they stand -/

/-- A table with each line replaced by its image, which may depend on its truck and on its place. -/
def relined (f : Truck → Nat → OrderLine → OrderLine) (trucks : List Truck) : List Truck :=
  trucks.map fun u => { u with lines := u.lines.mapIdx (f u) }

theorem mapAllLines_eq_relined (f : OrderLine → OrderLine) (trucks : List Truck) :
    mapAllLines f trucks = relined (fun _ _ => f) trucks := by
  have hplain (lines : List OrderLine) : lines.map f = lines.mapIdx fun _ => f :=
    List.ext_getElem? fun i => by simp
  simp only [mapAllLines, relined, hplain]

theorem mapOrderLine_eq_relined (ticket n : Nat) (f : OrderLine → OrderLine) (trucks : List Truck) :
    mapOrderLine ticket n f trucks =
      relined (fun u i l => if u.ticket = ticket ∧ i + 1 = n then f l else l) trucks := by
  refine List.map_congr_left fun u _ => ?_
  by_cases ht : u.ticket = ticket
  · simp [ht]
  · have hkept : u.lines.mapIdx (fun _ l => l) = u.lines := List.ext_getElem? fun i => by simp
    simp [ht, hkept]

theorem trucksSound_relined (h : TrucksSound trucks) {f : Truck → Nat → OrderLine → OrderLine}
    (hf : ∀ u ∈ trucks, ∀ i l, u.lines[i]? = some l → orderLineSound l → orderLineSound (f u i l)) :
    TrucksSound (relined f trucks) := by
  refine trucksSound_map h (fun _ _ => rfl) (List.pairwise_map.2 ?_) fun u hu hsound => ?_
  · obtain ⟨-, -, hbays, -⟩ := h
    exact (distinctBays_iff trucks).1 hbays
  · obtain ⟨hone, hticket, hbay, hlines, hfour, hall⟩ := hsound
    refine ⟨hone, hticket, hbay, by simpa using hlines, by simpa using hfour, fun l hl => ?_⟩
    obtain ⟨i, hi, rfl⟩ := List.mem_mapIdx.1 hl
    exact hf u hu i _ (List.getElem?_eq_getElem hi) (hall _ (List.getElem_mem hi))

/-- No line of the table is lost, and none has less open than before. -/
def RoomKept (before after : List Truck) : Prop :=
  ∀ ticket n l, findOrderLine ticket n before = some l →
    ∃ l', findOrderLine ticket n after = some l' ∧ lineOpen l ≤ lineOpen l'

theorem RoomKept.refl (trucks : List Truck) : RoomKept trucks trucks :=
  fun _ _ l hl => ⟨l, hl, Nat.le_refl _⟩

theorem findTruck_relined (f : Truck → Nat → OrderLine → OrderLine) (ticket : Nat) (trucks : List Truck) :
    findTruck ticket (relined f trucks) =
      (findTruck ticket trucks).map fun u => { u with lines := u.lines.mapIdx (f u) } := by
  rw [findTruck, relined, List.find?_map]
  rfl

theorem roomKept_relined {f : Truck → Nat → OrderLine → OrderLine}
    (hf : ∀ u ∈ trucks, ∀ i, ∀ l ∈ u.lines, lineOpen l ≤ lineOpen (f u i l)) :
    RoomKept trucks (relined f trucks) := by
  intro ticket n l hl
  obtain ⟨u, hu, hline⟩ := Option.bind_eq_some_iff.1 hl
  cases n with
  | zero => cases hline
  | succ i =>
    have hline : u.lines[i]? = some l := hline
    refine ⟨f u i l, ?_, hf u (List.mem_of_find?_eq_some hu) i l (List.mem_of_getElem? hline)⟩
    simp [findOrderLine, findTruck_relined, hu, orderLineOf, hline]

/-- A change of lines that keeps each of them sound, and lessens no open quantity. -/
theorem mapAllLines_kept (h : TrucksSound trucks) {f : OrderLine → OrderLine}
    (hf : ∀ l, orderLineSound l → orderLineSound (f l) ∧ lineOpen l ≤ lineOpen (f l)) :
    TrucksSound (mapAllLines f trucks) ∧ RoomKept trucks (mapAllLines f trucks) := by
  rw [mapAllLines_eq_relined]
  exact ⟨trucksSound_relined h fun _ _ _ l _ hl => (hf l hl).1,
    roomKept_relined fun u hu _ l hl => (hf l (orderLineSound_of_mem h hu hl)).2⟩

/-- The line that the table finds is the one that stands there. -/
theorem findOrderLine_of_mem (h : TrucksSound trucks) {u : Truck} (hu : u ∈ trucks) {i : Nat}
    (hl : u.lines[i]? = some l) : findOrderLine u.ticket (i + 1) trucks = some l := by
  obtain ⟨-, htickets, -⟩ := h
  rw [findOrderLine, findTruck_of_mem htickets hu]
  exact hl

/-- A change of one line that keeps it sound. -/
theorem trucksSound_mapOrderLine (h : TrucksSound trucks) {ticket n : Nat} {f : OrderLine → OrderLine}
    (hf : ∀ l, findOrderLine ticket n trucks = some l → orderLineSound l → orderLineSound (f l)) :
    TrucksSound (mapOrderLine ticket n f trucks) := by
  rw [mapOrderLine_eq_relined]
  refine trucksSound_relined h fun u hu i l hi hl => ?_
  split
  · rename_i hnamed
    obtain ⟨rfl, rfl⟩ := hnamed
    exact hf l (findOrderLine_of_mem h hu hi) hl
  · exact hl

/-- A change of one line that keeps it sound and does not lessen its open quantity. -/
theorem mapOrderLine_kept (h : TrucksSound trucks) {ticket n : Nat} {f : OrderLine → OrderLine}
    (hf : ∀ l, orderLineSound l → orderLineSound (f l) ∧ lineOpen l ≤ lineOpen (f l)) :
    TrucksSound (mapOrderLine ticket n f trucks) ∧ RoomKept trucks (mapOrderLine ticket n f trucks) := by
  refine ⟨trucksSound_mapOrderLine h fun l _ hl => (hf l hl).1, ?_⟩
  rw [mapOrderLine_eq_relined]
  refine roomKept_relined fun u hu i l hl => ?_
  split
  · exact (hf l (orderLineSound_of_mem h hu hl)).2
  · exact Nat.le_refl _

end Sys2Proof.Machine
end

