-- ==== Sys2Proof/Proofs/GateOperations.lean ====
section
/-! PROOF. The arbiter's operations, and the shared ones of rounds and heard frames, keep the gate sound
(O58). -/

namespace Sys2Proof.Machine

variable {s t : State}

/-! ### The decided grant (R127) -/

/-- No grant is decided. -/
def undecided : Arbiter → Bool
  | .idle => true
  | .waiting _ => true
  | .calling _ => true
  | .granting _ _ _ _ => false

theorem undecided_arbiterOf (choice : Option CallRecord) : undecided (arbiterOf choice) = true := by
  cases choice <;> rfl

/-- What R127 asks of a decided grant. -/
def GrantDecided (r : CallRecord) (winner count : Nat) (trucks : List Truck) : Prop :=
  winner ≤ 63 ∧ count ≤ 8
    ∧ (count = 0 ∨ ∃ l, findOrderLine r.ticket r.line trucks = some l ∧ count ≤ lineOpen l)

theorem grantFits_granting {r : CallRecord} {winner offered count : Nat}
    (ha : s.arbiter = .granting r winner offered count) :
    GrantFits s ↔ GrantDecided r winner count s.trucks := by
  simp [GrantFits, GrantDecided, ha]

theorem grantFits_undecided (ha : undecided s.arbiter = true) : GrantFits s := by
  unfold GrantFits
  split
  · rename_i hg
    simp [hg, undecided] at ha
  all_goals trivial

/-- A grant fits on where no line lost open quantity, when no grant was decided since. -/
theorem GrantFits.carry (h : GrantFits s) (hroom : RoomKept s.trucks t.trucks)
    (ha : t.arbiter = s.arbiter ∨ undecided t.arbiter = true) : GrantFits t := by
  rcases ha with ha | ha
  · cases hs : s.arbiter with
    | granting r winner offered count =>
      obtain ⟨hwinner, hcount, hopen⟩ := (grantFits_granting hs).1 h
      refine (grantFits_granting (ha.trans hs)).2 ⟨hwinner, hcount, hopen.imp id ?_⟩
      rintro ⟨l, hl, hfits⟩
      obtain ⟨l', hl', hle⟩ := hroom _ _ _ hl
      exact ⟨l', hl', hfits.trans hle⟩
    | idle => exact grantFits_undecided (by rw [ha, hs]; rfl)
    | waiting r => exact grantFits_undecided (by rw [ha, hs]; rfl)
    | calling r => exact grantFits_undecided (by rw [ha, hs]; rfl)
  · exact grantFits_undecided ha

/-! ### What an operation on a sound gate has to keep -/

/-- The table stays, and no grant is decided. -/
theorem GateSound.carry (h : GateSound s) (htrucks : t.trucks = s.trucks)
    (ha : t.arbiter = s.arbiter ∨ undecided t.arbiter = true) (hp : t.pending = s.pending) :
    GateSound t := by
  obtain ⟨htable, hfits, hcommands⟩ := h
  exact ⟨htrucks ▸ htable, hfits.carry (htrucks ▸ RoomKept.refl s.trucks) ha, hp ▸ hcommands⟩

/-- An operation on other blocks. -/
theorem GateSound.same (h : GateSound s)
    (e : t.trucks = s.trucks ∧ t.arbiter = s.arbiter ∧ t.pending = s.pending) : GateSound t := by
  obtain ⟨htrucks, harbiter, hpending⟩ := e
  exact h.carry htrucks (.inl harbiter) hpending

/-- No grant is decided any more. -/
theorem GateSound.settled (h : GateSound s) (htable : TrucksSound t.trucks)
    (ha : undecided t.arbiter = true) (hp : t.pending = s.pending) : GateSound t := by
  obtain ⟨-, -, hcommands⟩ := h
  exact ⟨htable, grantFits_undecided ha, hp ▸ hcommands⟩

/-- A command that changes nothing but where its condition holds. -/
theorem GateSound.ite (h : GateSound s) (c : Prop) [Decidable c] (ht : c → GateSound t) :
    GateSound (if c then t else s) := by
  split
  · rename_i hc
    exact ht hc
  · exact h

/-! ### The arbiter (R119 to R124) -/

theorem rechoose_decides_nothing (s : State) :
    (rechoose s).arbiter = s.arbiter ∨ undecided (rechoose s).arbiter = true := by
  rw [rechoose_arbiter]
  cases s.arbiter with
  | idle => exact .inr (undecided_arbiterOf _)
  | waiting r => exact .inr (undecided_arbiterOf _)
  | calling r => exact .inl rfl
  | granting r winner offered count => exact .inl rfl

theorem undecided_rechoose (h : undecided s.arbiter = true) : undecided (rechoose s).arbiter = true :=
  (rechoose_decides_nothing s).elim (fun heq => heq ▸ h) id

/-- R119: an attempt that is over leaves no grant decided. -/
theorem undecided_arbiterFree (s : State) : undecided (arbiterFree s).arbiter = true :=
  undecided_rechoose rfl

theorem undecided_arbiterRoundOver (s : State) : undecided (arbiterRoundOver s).arbiter = true := by
  unfold arbiterRoundOver
  cases hs : s.arbiter with
  | idle => simp [hs, undecided]
  | waiting r => simp [hs, undecided]
  | calling r => exact undecided_arbiterFree s
  | granting r winner offered count => exact undecided_arbiterFree s

theorem GateSound.rechoose (h : GateSound s) : GateSound (rechoose s) :=
  h.carry (by simp) (rechoose_decides_nothing s) (by simp)

theorem GateSound.arbiterFree (h : GateSound s) : GateSound (arbiterFree s) :=
  h.carry (by simp) (.inr (undecided_arbiterFree s)) (by simp)

theorem GateSound.arbiterRoundOver (h : GateSound s) : GateSound (arbiterRoundOver s) :=
  h.carry (by simp) (.inr (undecided_arbiterRoundOver s)) (by simp)

/-! ### Changes of the truck table (R103 to R107, R126) -/

theorem gateChanged_decides_nothing (trucks : List Truck) (s : State) :
    (gateChanged trucks s).arbiter = s.arbiter ∨ undecided (gateChanged trucks s).arbiter = true := by
  simpa [gateChanged] using rechoose_decides_nothing (announceTrucks s.trucks (withTrucks trucks s))

/-- A sound table, no line of which lost open quantity. -/
theorem GateSound.gateChanged (h : GateSound s) {trucks : List Truck}
    (hkept : TrucksSound trucks ∧ RoomKept s.trucks trucks) : GateSound (gateChanged trucks s) := by
  obtain ⟨-, hfits, hcommands⟩ := h
  obtain ⟨htable, hroom⟩ := hkept
  have htrucks := gateChanged_trucks trucks s
  exact ⟨htrucks.symm ▸ htable, hfits.carry (htrucks.symm ▸ hroom) (gateChanged_decides_nothing trucks s),
    by simpa using hcommands⟩

/-- A sound table, while no grant is decided. -/
theorem GateSound.tabled (h : GateSound s) {trucks : List Truck} (htable : TrucksSound trucks)
    (ha : undecided s.arbiter = true) : GateSound (Machine.gateChanged trucks s) :=
  h.settled (by rwa [gateChanged_trucks])
    ((gateChanged_decides_nothing trucks s).elim (fun heq => heq ▸ ha) id) (by simp)

theorem emptyRound_trucks (r : CallRecord) (s : State) :
    (emptyRound r s).trucks = mapOrderLine r.ticket r.line emptyOnLine s.trucks := by
  unfold emptyRound
  dsimp only
  repeat' split
  all_goals simp

theorem GateSound.closeNoBid (h : GateSound s) : GateSound (closeNoBid s) := by
  unfold Machine.closeNoBid
  split
  · rename_i r ha
    have ⟨htable, _, _⟩ := h
    refine h.settled ?_ (by simp [ha, undecided]) (by simp)
    rw [emptyRound_trucks]
    exact trucksSound_mapOrderLine htable fun l _ => orderLineSound_emptyOnLine
  · exact h
  · exact h
  · exact h

/-- R127: the granted count is no more than was offered, and than the line has open. -/
theorem grantDecided_grantedCount (r : CallRecord) (word : BidWord) (s : State) :
    GrantDecided r (wordStation word) (grantedCount r (wordOffered word) s) s.trucks := by
  have hstation : wordStation word ≤ 63 := Nat.le_of_lt_succ (Nat.mod_lt _ (by decide))
  have hoffered : wordOffered word ≤ 8 := Nat.sub_le 8 _
  unfold grantedCount
  split
  · exact ⟨hstation, Nat.zero_le 8, .inl rfl⟩
  · split
    · exact ⟨hstation, Nat.zero_le 8, .inl rfl⟩
    · rename_i l hl
      exact ⟨hstation, (Nat.min_le_left _ _).trans hoffered, .inr ⟨l, hl, Nat.min_le_right _ _⟩⟩

theorem GateSound.closeWithBid (h : GateSound s) (word : BidWord) : GateSound (closeWithBid word s) := by
  unfold Machine.closeWithBid
  split
  · rename_i r _
    obtain ⟨htable, -, hcommands⟩ := h
    exact ⟨htable, (grantFits_granting rfl).2 (grantDecided_grantedCount r word s), hcommands⟩
  · exact h
  · exact h
  · exact h

/-- R103, R128: the award of a decided grant keeps the table sound. -/
theorem GateSound.trucks_settleGrant (h : GateSound s) (confirm : Bool) :
    TrucksSound (settleGrant confirm s).trucks := by
  obtain ⟨htable, hfits, -⟩ := h
  unfold settleGrant
  split
  · rename_i r winner offered count ha
    split
    · rename_i hgranted
      obtain ⟨hwinner, hcount8, hopen⟩ := (grantFits_granting ha).1 hfits
      obtain ⟨l, hl, hcount⟩ := hopen.resolve_left (Nat.one_le_iff_ne_zero.1 hgranted.2)
      rw [applyGrant, announceTrucks_trucks]
      refine trucksSound_mapOrderLine htable fun l' hl' hsound => ?_
      obtain rfl : l = l' := Option.some_inj.1 (hl.symm.trans hl')
      exact orderLineSound_grantOnLine hsound hwinner hgranted.2 hcount8 hcount
    · exact htable
  · exact htable
  · exact htable
  · exact htable

/-! ### The ends of frames and rounds (R9, R19, R42, R43, R119) -/

theorem GateSound.endRound (h : GateSound s) (dw : Bool) : GateSound (endRound dw s) := by
  have hfreed : GateSound (lineFreed dw (drive .nothing (dropRound s))) := h.same (by simp)
  unfold Machine.endRound
  dsimp only
  split
  · exact hfreed.arbiterRoundOver
  · exact hfreed

theorem GateSound.abandonRound (h : GateSound s) (dw : Bool) : GateSound (abandonRound dw s) := by
  have hfreed : GateSound (lineFreed dw (drive .nothing (dropAbandoned s))) := h.same (by simp)
  unfold Machine.abandonRound
  dsimp only
  split
  · exact hfreed.arbiterRoundOver
  · exact hfreed

theorem GateSound.endFrame (h : GateSound s) : GateSound (endFrame s) := by
  unfold Machine.endFrame
  split
  · exact h.same (by simp)
  · exact h.endRound false

theorem GateSound.grantOver (h : GateSound s) : GateSound (grantOver s) :=
  h.endFrame.arbiterRoundOver

/-- R128: after the GRANT's report no grant is decided, and its award is in the table. -/
theorem GateSound.granted (h : GateSound s) (confirm : Bool) :
    GateSound (Machine.grantOver (settleGrant confirm s)) :=
  h.settled (by simpa using h.trucks_settleGrant confirm) (undecided_arbiterRoundOver _) (by simp)

theorem GateSound.passRound (h : GateSound s) : GateSound (passRound s) := by
  have hpassed : GateSound (dropRound (endHold s)) := h.same (by simp)
  unfold Machine.passRound
  dsimp only
  split
  · exact hpassed.arbiterRoundOver
  · exact hpassed

theorem GateSound.partFrame (h : GateSound s) (sampled : List Byte) :
    GateSound (partFrame sampled s) := by
  rcases partFrame_cases sampled s with ⟨-, b, rest, -, heq⟩ | ⟨-, heq⟩
  · rw [heq]
    exact h.passRound.same (by simp)
  · rw [heq]
    exact h

theorem GateSound.enterHeld (h : GateSound s) (begun : Bool) (sampled : List Byte) :
    GateSound (enterHeld begun sampled s) := by
  refine h.carry (by simp) ?_ (by simp)
  unfold Machine.enterHeld
  split
  · exact .inr (by simpa only [refreshReady_arbiter] using undecided_arbiterRoundOver _)
  · exact .inl rfl

/-- R118, R169: in DUPLICATE no record is left, and the arbiter is IDLE. -/
theorem GateSound.enterDuplicate (h : GateSound s) : GateSound (enterDuplicate s) := by
  have ⟨htable, _, _⟩ := h
  refine h.settled ?_ (by rw [enterDuplicate_arbiter]; rfl) (by simp)
  have htrucks : (Machine.enterDuplicate s).trucks = mapAllLines (bringDown fun _ => true) s.trucks := by
    simp [Machine.enterDuplicate]
  rw [htrucks, mapAllLines_eq_relined]
  exact trucksSound_relined htable fun _ _ _ _ _ => orderLineSound_bringDown_all

theorem GateSound.loseContention (h : GateSound s) : GateSound (loseContention s) := by
  unfold Machine.loseContention
  split
  · exact h.same (by simp)
  · exact GateSound.arbiterFree (h.same (by simp))
  · exact h
  · exact h

theorem GateSound.collide (h : GateSound s) : GateSound (collide s) := by
  unfold Machine.collide
  split
  · exact GateSound.enterDuplicate (h.same (by simp))
  · exact GateSound.enterDuplicate (h.same (by simp))
  · exact h
  · exact h

/-! ### Heard frames (R24, R104 to R107) -/

theorem GateSound.hearNotice {n : Nat} (h : GateSound s) (f : RxFrame n) (valid : Bool)
    (owners : State → State) (howners : ∀ u, GateSound u → GateSound (owners u)) :
    GateSound (hearNotice f valid owners s) := by
  refine h.ite _ fun _ => ?_
  have hended : GateSound (Machine.endFrame (hearHeader f
      (reportHeard f false (closingOtherKind (closingStart s))))) :=
    GateSound.endFrame (h.same (by simp))
  dsimp only
  split
  · exact howners _ hended
  · exact hended

theorem GateSound.hearKind {n : Nat} (h : GateSound s) (kind : FrameKind) (f : RxFrame n)
    (known : State → State) (hknown : GateSound (known s)) : GateSound (hearKind kind f known s) := by
  unfold Machine.hearKind
  split
  · exact h.hearNotice f false _ fun _ hu => hu
  · exact h.ite _ fun _ => hknown

theorem GateSound.ownHail (h : GateSound s) (f : RxFrame 4) : GateSound (ownHail f s) := by
  have hn : GateSound (numberCheck (senderNumber f) (hailSerial f) s) :=
    h.ite _ fun _ => h.enterDuplicate
  have ⟨htable, _, _⟩ := hn
  unfold Machine.ownHail
  dsimp only
  split
  · split
    · exact hn.same (by simp)
    · exact hn
  · split
    · exact hn
    · refine hn.gateChanged (mapAllLines_kept htable fun l hl => ?_)
      obtain ⟨-, -, -, hsound⟩ := bringDown_accounts hl (senderNumber f)
      exact ⟨hsound, lineOpen_bringDown hl _⟩

theorem GateSound.ownVoid (h : GateSound s) (f : RxFrame 2) : GateSound (ownVoid f s) := by
  unfold Machine.ownVoid
  split
  · exact h.same (by simp)
  · exact h

theorem GateSound.ownTaken (h : GateSound s) (f : RxFrame 5) : GateSound (ownTaken f s) := by
  refine h.ite _ fun _ => ?_
  cases hl : findOrderLine (noticeKey f).ticket (noticeKey f).line s.trucks with
  | none => rwa [settleTaken_noLine hl]
  | some l =>
    have ⟨htable, _, _⟩ := h
    rw [settleTaken_line rfl hl]
    have hflagged : GateSound
        (if noticeCount f ≤ rowHeld (senderNumber f) l.awards then s else flagSurplus s) := by
      split
      · exact h
      · exact h.same (by simp)
    have htrucks : (if noticeCount f ≤ rowHeld (senderNumber f) l.awards then s
        else flagSurplus s).trucks = s.trucks := by
      split <;> rfl
    refine hflagged.gateChanged (htrucks.symm ▸ mapOrderLine_kept htable fun l hl => ?_)
    obtain ⟨-, -, -, hsound⟩ := takenOnLine_accounts hl (senderNumber f) (noticeCount f)
    exact ⟨hsound, (lineOpen_takenOnLine hl _ _).ge⟩

theorem GateSound.ownLapse (h : GateSound s) (f : RxFrame 5) : GateSound (ownLapse f s) := by
  refine h.ite _ fun _ => ?_
  unfold settleLapse
  split
  · exact h
  · have ⟨htable, _, _⟩ := h
    refine h.gateChanged (mapOrderLine_kept htable fun l hl => ?_)
    obtain ⟨-, -, -, hsound⟩ := lapseOnLine_accounts hl (senderNumber f) (noticeCount f)
    exact ⟨hsound, lineOpen_lapseOnLine hl _ _⟩

theorem GateSound.ownArrive (h : GateSound s) (f : RxFrame 2) : GateSound (ownArrive f s) := by
  unfold Machine.ownArrive
  split
  · exact h
  · have ⟨htable, _, _⟩ := h
    exact h.gateChanged (mapAllLines_kept htable fun l hl =>
      ⟨orderLineSound_arriveOnLine hl _, (lineOpen_arriveOnLine _ l).ge⟩)

theorem GateSound.openRound (h : GateSound s) (f : RxFrame 6) : GateSound (openRound f s) := by
  unfold Machine.openRound
  split
  · exact h
  · exact h.passRound.same (by simp)

theorem GateSound.execCallReceived (h : GateSound s) (f : RxFrame 6) (started : Bool) :
    Ensures GateSound (execCallReceived f started s) := by
  refine (ensures_next _ _).2 (h.hearKind .call f _ (h.ite _ fun _ => ?_))
  have hopened : GateSound (Machine.openRound f (closingOtherKind (closingStart s))) :=
    GateSound.openRound (h.same (by simp)) f
  have hheard : GateSound (hearHeader f
      (reportHeard f false (Machine.openRound f (closingOtherKind (closingStart s))))) :=
    hopened.same (by simp)
  dsimp only
  split
  · exact hheard.endRound false
  · have hstretch : GateSound (toStretch (hearHeader f
        (reportHeard f false (Machine.openRound f (closingOtherKind (closingStart s)))))) :=
      hheard.same (by simp)
    exact hstretch.ite _ fun _ => hstretch.same (by simp)

theorem GateSound.execGrantReceived (h : GateSound s) (f : RxFrame 5) :
    Ensures GateSound (execGrantReceived f s) := by
  refine (ensures_next _ _).2 (h.hearKind .grant f _ (h.ite _ fun _ => ?_))
  exact GateSound.endFrame (h.same (by simp))

end Sys2Proof.Machine
end

