-- ==== Sys2Proof/Proofs/GateAnswers.lean ====
section
/-! PROOF. Every well formed terminal message keeps the gate sound (O58). -/

namespace Sys2Proof.Machine

variable {s t u : State}

/-! ### When an owner answers (R123, R154, R155) -/

/-- A message whose owner answers: the station does not defer, and the port has no refusal. -/
structure GateOwnerAnswers (code : Byte) (u : State) : Prop where
  ready : deferring u = false
  passed : portRefusal code u = none

/-- A message keeps the gate sound when its owner does. -/
theorem GateSound.processMessage (h : GateSound s) {code : Byte} {owner : State → State}
    (howner : ∀ u, GateSound u → GateOwnerAnswers code u → GateSound (owner u)) (m : List Byte) :
    GateSound (processMessage m code owner s) := by
  have ht : GateSound (arriveMessage m s) := h.same (by simp)
  unfold Machine.processMessage
  dsimp only
  split
  · rename_i hwaits
    obtain ⟨-, hcan⟩ := hwaits
    simp only [canProcess, Bool.and_eq_true, Bool.not_eq_true'] at hcan
    obtain ⟨⟨-, hready⟩, -⟩ := hcan
    split
    · exact ht.same (by simp)
    · rename_i hpassed
      exact howner _ (ht.same (by simp)) ⟨hready, hpassed⟩
  · exact ht

/-- R155: a clerk's message reaches its owner at a gate alone. -/
theorem GateOwnerAnswers.role {code : Byte} (h : GateOwnerAnswers code u)
    (hcode : code ∈ [0x31, 0x32, 0x33, (0x34 : Byte)]) : u.startup.settings.role = .gate := by
  have hcodes : ∀ c ∈ [0x31, 0x32, 0x33, (0x34 : Byte)], codeKnown c = true ∧ c ≠ 0x40 := by decide
  obtain ⟨hknown, hstatus⟩ := hcodes code hcode
  have hpassed := h.passed
  cases hr : u.startup.settings.role with
  | gate => rfl
  | row =>
    have hrole : wrongRole code u = true := (wrongRole_iff code u).2 (.inl ⟨hr, hcode⟩)
    by_cases hfault : u.startup.station = .configFault
    · exact absurd (by simpa [portRefusal_configFault hknown hfault] using hpassed) hstatus
    · simp [portRefusal_otherRole hknown hfault hrole] at hpassed

/-- R123: while its owner answers a clerk's message, the gate has no round of its own. -/
theorem GateOwnerAnswers.undecided {code : Byte} (h : GateOwnerAnswers code u)
    (hcode : code ∈ [0x31, 0x32, 0x33, (0x34 : Byte)]) : undecided u.arbiter = true := by
  have hrests : ¬ ((∃ r, u.arbiter = .calling r) ∨ ∃ r w k c, u.arbiter = .granting r w k c) :=
    mt (deferring_gate (h.role hcode)).2 (by simp [h.ready])
  cases ha : u.arbiter with
  | idle => rfl
  | waiting r => rfl
  | calling r => exact absurd (.inl ⟨r, ha⟩) hrests
  | granting r winner offered count => exact absurd (.inr ⟨r, winner, offered, count, ha⟩) hrests

/-! ### The loader's messages leave the gate alone -/

/-- The gate's stores and the commands that wait are as before. -/
def GateSame (s t : State) : Prop :=
  t.trucks = s.trucks ∧ t.arbiter = s.arbiter ∧ t.pending = s.pending

theorem gateSame_reply (code : Byte) (result : ResultCode) (data : List Byte) (s : State) :
    GateSame s (reply code result data s) := ⟨rfl, rfl, rfl⟩

theorem gateSame_answerPut (tag : BitVec 32) (family size grade stack : Byte) (s : State) :
    GateSame s (answerPut tag family size grade stack s) := by
  unfold answerPut
  repeat' split
  all_goals simp [GateSame]

theorem gateSame_takeEffect (tag : Nat) (former : PackState) (s : State) :
    GateSame s (takeEffect tag former s) := by
  obtain ⟨-, -, -, ⟨htrucks, harbiter⟩, -, hpending⟩ := takeEffect_rest tag former s
  exact ⟨htrucks, harbiter, hpending⟩

theorem gateSame_answerTake (tag : BitVec 32) (s : State) : GateSame s (answerTake tag s) := by
  unfold answerTake
  split
  · split
    · exact gateSame_reply _ _ _ s
    · split
      · exact gateSame_reply _ _ _ s
      · exact gateSame_takeEffect _ _ (withStock _ s)
  · exact gateSame_reply _ _ _ s

theorem gateSame_shiftEffect (tag stack : Nat) (state : PackState) (s : State) :
    GateSame s (shiftEffect tag stack state s) := by
  obtain ⟨-, -, -, ⟨htrucks, harbiter⟩, -, hpending⟩ := shiftEffect_rest tag stack state s
  exact ⟨htrucks, harbiter, hpending⟩

theorem gateSame_answerShift (tag : BitVec 32) (stack : Byte) (s : State) :
    GateSame s (answerShift tag stack s) := by
  unfold answerShift
  repeat' split
  · exact gateSame_reply _ _ _ s
  · exact gateSame_reply _ _ _ s
  · exact gateSame_reply _ _ _ s
  · exact gateSame_reply _ _ _ s
  · exact gateSame_reply _ _ _ s
  · exact gateSame_shiftEffect _ _ _ (withStock _ s)
  · exact gateSame_reply _ _ _ s

theorem gateSame_holdEffect (tag : Nat) (former : PackState) (s : State) :
    GateSame s (holdEffect tag former s) := by
  cases former <;> simp [holdEffect, GateSame]

theorem gateSame_answerHoldPack (tag : BitVec 32) (s : State) : GateSame s (answerHoldPack tag s) := by
  unfold answerHoldPack
  split
  · exact gateSame_reply _ _ _ s
  · split
    · exact gateSame_reply _ _ _ s
    · exact gateSame_holdEffect _ _ s

theorem gateSame_answerFreePack (tag : BitVec 32) (s : State) : GateSame s (answerFreePack tag s) := by
  unfold answerFreePack
  repeat' split
  all_goals exact gateSame_reply _ _ _ _

theorem gateSame_answerListStack (stack : Byte) (s : State) : GateSame s (answerListStack stack s) := by
  unfold answerListStack
  split <;> exact gateSame_reply _ _ _ s

theorem gateSame_answerListTruck (ticket : BitVec 16) (s : State) :
    GateSame s (answerListTruck ticket s) := by
  unfold answerListTruck
  split <;> exact gateSame_reply _ _ _ s

/-! ### The clerk's messages (R110 to R112) -/

theorem bayTaken_eq_false_iff (ticket bay : Nat) (trucks : List Truck) :
    bayTaken ticket bay trucks = false ↔ bay = 0 ∨ ∀ u ∈ trucks, u.bay = bay → u.ticket = ticket := by
  by_cases hbay : bay = 0
  · simp [bayTaken, hbay]
  · simp [bayTaken, hbay]

theorem GateSound.answerTruckIn (h : GateSound u) (ha : undecided u.arbiter = true) {ticket : BitVec 16}
    {bay count : Byte} {lines : List OrderFields} (hfit : linesFit count lines = true) :
    GateSound (answerTruckIn ticket bay count lines u) := by
  have ⟨htable, _, _⟩ := h
  unfold Machine.answerTruckIn
  split
  · exact h.same (gateSame_reply _ _ _ u)
  rename_i hrange
  split
  · exact h.same (gateSame_reply _ _ _ u)
  rename_i hpresent
  split
  · exact h.same (gateSame_reply _ _ _ u)
  rename_i hroom
  split
  · exact h.same (gateSame_reply _ _ _ u)
  rename_i hbay
  have hnew : ∀ w ∈ u.trucks, w.ticket ≠ ticket.toNat := fun w hw heq =>
    hpresent (findTruck_isSome_iff.2 ⟨w, hw, heq⟩)
  have hfree := (bayTaken_eq_false_iff _ _ _).1 (Bool.not_eq_true _ ▸ hbay)
  refine GateSound.tabled (h.same (gateSame_reply _ _ _ u)) ?_ ha
  exact trucksSound_append htable (Nat.not_le.1 hroom) hnew
    (hfree.imp id fun hothers w hw heq => hnew w hw (hothers w hw heq))
    (truckSound_newTruck (Bool.not_eq_true _ ▸ hrange) hfit _)

theorem GateSound.answerTruckBay (h : GateSound u) (ha : undecided u.arbiter = true)
    (ticket : BitVec 16) (bay : Byte) : GateSound (answerTruckBay ticket bay u) := by
  have ⟨htable, _, _⟩ := h
  unfold Machine.answerTruckBay
  split
  · exact h.same (gateSame_reply _ _ _ u)
  split
  · exact h.same (gateSame_reply _ _ _ u)
  rename_i hbay8
  split
  · exact h.same (gateSame_reply _ _ _ u)
  rename_i hbay
  have hfree := (bayTaken_eq_false_iff _ _ _).1 (Bool.not_eq_true _ ▸ hbay)
  exact GateSound.tabled (h.same (gateSame_reply _ _ _ u))
    (trucksSound_moveTruck htable (Nat.not_lt.1 hbay8) hfree) ha

theorem GateSound.answerTruckOut (h : GateSound u) (ha : undecided u.arbiter = true)
    (ticket : BitVec 16) : GateSound (answerTruckOut ticket u) := by
  have ⟨htable, _, _⟩ := h
  have hleft := trucksSound_sublist htable
    (List.filter_sublist (p := fun w => w.ticket != ticket.toNat) (l := u.trucks))
  unfold Machine.answerTruckOut
  split
  · exact h.same (gateSame_reply _ _ _ u)
  · dsimp only
    split
    · exact GateSound.tabled (h.same (by simp)) hleft (by simpa using ha)
    · exact GateSound.tabled (h.same (gateSame_reply _ _ _ u)) hleft ha

/-- Every well formed terminal message keeps the gate sound. -/
theorem GateSound.execMessage (h : GateSound s) {c : Instr} (hc : isMessage c = true)
    (hwell : c.wellFormed = true) : Ensures GateSound (exec c s) := by
  have left {code : Byte} {owner : State → State} (m : List Byte) (howner : ∀ u, GateSame u (owner u)) :
      Ensures GateSound (.next (Machine.processMessage m code owner s)) :=
    (ensures_next _ _).2 (h.processMessage (fun u hu _ => hu.same (howner u)) m)
  cases c with
  | status => exact left _ fun _ => ⟨rfl, rfl, rfl⟩
  | put tag family size grade stack => exact left _ fun u => gateSame_answerPut _ _ _ _ _ u
  | take tag => exact left _ fun u => gateSame_answerTake _ u
  | shift tag stack => exact left _ fun u => gateSame_answerShift _ _ u
  | holdPack tag => exact left _ fun u => gateSame_answerHoldPack _ u
  | freePack tag => exact left _ fun u => gateSame_answerFreePack _ u
  | listStack stack => exact left _ fun u => gateSame_answerListStack _ u
  | listPicks => exact left _ fun u => gateSame_reply _ _ _ u
  | truckIn ticket bay count lines =>
    exact (ensures_next _ _).2 (h.processMessage
      (fun _ hu ho => hu.answerTruckIn (ho.undecided (by simp)) hwell) _)
  | truckBay ticket bay =>
    exact (ensures_next _ _).2 (h.processMessage
      (fun _ hu ho => hu.answerTruckBay (ho.undecided (by simp)) _ _) _)
  | truckOut ticket =>
    exact (ensures_next _ _).2 (h.processMessage
      (fun _ hu ho => hu.answerTruckOut (ho.undecided (by simp)) _) _)
  | listTruck ticket => exact left _ fun u => gateSame_answerListTruck _ u
  | _ => cases hc

end Sys2Proof.Machine
end

