-- ==== Sys2Proof/Proofs/GateKept.lean ====
section
/-! PROOF. Every well formed command and every bt keep the gate sound (O58). -/

namespace Sys2Proof.Machine

variable {s t : State}

/-! ### Frames this station sends -/

theorem beginFrame_decides_nothing (o : Offer) (s : State) :
    (beginFrame o s).arbiter = s.arbiter ∨ undecided (beginFrame o s).arbiter = true := by
  cases o with
  | notice body => exact .inl (by simp [beginFrame])
  | call r => exact .inr rfl

theorem GateSound.execFrameStart (h : GateSound s) (elapsed : Nat) (dw : Bool) :
    Ensures GateSound (execFrameStart elapsed dw s) := by
  refine (ensures_next _ _).2 (h.ite _ fun _ => ?_)
  split
  · exact h
  · rename_i o _
    dsimp only
    split
    · exact h.same (by simp)
    · split
      · exact h.same (by simp)
      · exact h.carry (by simp) (beginFrame_decides_nothing o s) (by simp)

theorem GateSound.execNoticeReport (h : GateSound s) (r : SendReport) :
    Ensures GateSound (execNoticeReport r s) := by
  refine (ensures_next _ _).2 (h.ite _ fun _ => ?_)
  cases r with
  | sent confirm => exact GateSound.endFrame (h.same (by simp))
  | flawed confirm => exact GateSound.endFrame (h.same (by simp))
  | lost => exact h.loseContention
  | collision => exact h.collide
  | abandoned n => exact h.enterHeld false _

theorem GateSound.execCallReport (h : GateSound s) (r : SendReport) :
    Ensures GateSound (execCallReport r s) := by
  refine (ensures_next _ _).2 (h.ite _ fun _ => ?_)
  cases r with
  | sent confirm => exact h.same (by simp)
  | flawed confirm => exact GateSound.endRound (h.same (by simp)) false
  | lost => exact h.loseContention
  | collision => exact h.collide
  | abandoned n => exact h.enterHeld false _

theorem GateSound.execGrantReport (h : GateSound s) (r : SendReport) :
    Ensures GateSound (execGrantReport r s) := by
  refine (ensures_next _ _).2 (h.ite _ fun _ => ?_)
  cases r with
  | sent confirm => exact GateSound.granted (h.same (by simp)) confirm
  | flawed confirm => exact GateSound.grantOver (h.same (by simp))
  | lost => exact h
  | collision => exact h
  | abandoned n => exact h.enterHeld false _

/-! ### Rounds and cut frames (R9, R41, R125 to R127) -/

theorem GateSound.execUnfinishedFrame (h : GateSound s) (sampled : List Byte) (dw : Bool) :
    Ensures GateSound (execUnfinishedFrame sampled dw s) := by
  refine (ensures_next _ _).2 (h.ite _ fun _ => ?_)
  have hcut : GateSound (reportSent .discarded false false (Machine.partFrame sampled s)) :=
    (h.partFrame sampled).same (by simp)
  dsimp only
  split
  · exact hcut.same (by simp)
  · exact hcut.abandonRound dw

theorem GateSound.execBidWindowClose (h : GateSound s) (word : BidWord) (dw : Bool) :
    Ensures GateSound (execBidWindowClose word dw s) := by
  refine (ensures_next _ _).2 ?_
  split
  · refine h.ite _ fun _ => ?_
    have ht : GateSound (closeBid word s) := h.same (by simp)
    dsimp only
    split
    · split
      · exact ht.closeNoBid.endRound dw
      · exact ht.endRound dw
    · exact ht.endRound dw
    · split
      · exact (ht.closeWithBid word).same (by simp)
      · exact ht.same (by simp)
  · exact h

/-! ### Start-up, inputs and time -/

theorem gateSound_resetValues (h : GateSound s) (serial : BitVec 32) :
    GateSound (resetValues serial s.pending) := by
  obtain ⟨hempty, _, _⟩ := gateSound_reset
  exact h.settled hempty rfl rfl

theorem GateSound.execFullReset (h : GateSound s) : Ensures GateSound (execFullReset s) := by
  refine (ensures_next _ _).2 ?_
  have hreset := gateSound_resetValues h s.startup.serial
  split
  · exact hreset.same (by simp)
  · exact hreset

theorem GateSound.refreshReady (h : GateSound s) (before : State) : GateSound (refreshReady before s) :=
  h.same (by simp)

theorem GateSound.execListenTimerExpiry (h : GateSound s) :
    Ensures GateSound (execListenTimerExpiry s) := by
  refine (ensures_next _ _).2 (h.ite _ fun _ => ?_)
  have ht : GateSound (takeNotice (.hail s.startup.serial) (timeSourceRule s)) := h.same (by simp)
  refine GateSound.refreshReady (GateSound.rechoose ?_) s
  exact ht.same ⟨rfl, rfl, rfl⟩

theorem GateSound.followHalt (h : GateSound s) (before : Bool) : GateSound (followHalt before s) := by
  unfold Machine.followHalt
  split
  · exact h
  · split
    · exact GateSound.rechoose (h.same (by simp))
    · exact GateSound.rechoose (h.same (by simp))

/-! ### Every command -/

theorem GateSound.exec (h : GateSound s) (c : Instr) (hwell : c.wellFormed = true) :
    Ensures GateSound (exec c s) := by
  have same : ∀ u : State, u.trucks = s.trucks ∧ u.arbiter = s.arbiter ∧ u.pending = s.pending →
      Ensures GateSound (.next u) := fun u hu => (ensures_next _ _).2 (h.same hu)
  have sameIf : ∀ (c : Prop) [Decidable c] (u : State), u.trucks = s.trucks ∧ u.arbiter = s.arbiter
      ∧ u.pending = s.pending → Ensures GateSound (.next (if c then u else s)) := fun c _ u hu =>
    (ensures_next _ _).2 (h.ite c fun _ => h.same hu)
  cases c with
  | fullReset => exact h.execFullReset
  | resetRelease => exact same _ (by simp)
  | configInterruption => refine sameIf _ _ ?_; dsimp only; split <;> simp
  | configReadComplete block levels => refine sameIf _ _ ?_; split <;> simp
  | listenTimerExpiry => exact h.execListenTimerExpiry
  | quietPeriod elapsed => refine sameIf _ _ ?_; split <;> simp
  | frameStart elapsed dw => exact h.execFrameStart elapsed dw
  | contentionLoss => exact (ensures_next _ _).2 h.loseContention
  | bodyCollision => exact (ensures_next _ _).2 h.collide
  | noticeReport r => exact h.execNoticeReport r
  | callReport r => exact h.execCallReport r
  | grantSend => exact same _ (by (repeat' split) <;> simp)
  | grantReport r => exact h.execGrantReport r
  | hailReceived f =>
    exact (ensures_next _ _).2 (h.hearKind _ f _ (h.hearNotice f _ _ fun _ hu => hu.ownHail f))
  | voidReceived f =>
    exact (ensures_next _ _).2 (h.hearKind _ f _ (h.hearNotice f _ _ fun _ hu => hu.ownVoid f))
  | takenReceived f =>
    exact (ensures_next _ _).2 (h.hearKind _ f _ (h.hearNotice f _ _ fun _ hu => hu.ownTaken f))
  | lapseReceived f =>
    exact (ensures_next _ _).2 (h.hearKind _ f _ (h.hearNotice f _ _ fun _ hu => hu.ownLapse f))
  | arriveReceived f =>
    exact (ensures_next _ _).2 (h.hearKind _ f _ (h.hearNotice f _ _ fun _ hu => hu.ownArrive f))
  | callReceived f started => exact h.execCallReceived f started
  | grantReceived f => exact h.execGrantReceived f
  | unfinishedFrame sampled dw => exact h.execUnfinishedFrame sampled dw
  | strayActivity tw dw => exact same _ (by (repeat' split) <;> simp)
  | strayActivityEnd => exact same _ (by (repeat' split) <;> simp)
  | endMarkOutsideFrame => exact same _ (by (repeat' split) <;> simp)
  | heldEntry sampled begun => exact (ensures_next _ _).2 (h.enterHeld begun sampled)
  | heldEnd dw => exact sameIf _ _ (by simp)
  | stuckEntry => exact sameIf _ _ (by simp)
  | recoveryPulse dw => exact same _ (by (repeat' split) <;> simp)
  | backOffExpiry => exact sameIf _ _ (by simp)
  | computationComplete => exact same _ (by (repeat' split) <;> simp)
  | stretchLimitExpiry => exact same _ (by (repeat' split) <;> simp)
  | stretchSlotEnd => exact same _ (by (repeat' split) <;> simp)
  | bidWindowStart dw => exact same _ (by (repeat' split) <;> simp)
  | bidWindowClose word dw => exact h.execBidWindowClose word dw
  | windowSilenceLimit dw => exact (ensures_next _ _).2 (h.ite _ fun _ => h.abandonRound dw)
  | grantWaitSilenceLimit dw => exact (ensures_next _ _).2 (h.ite _ fun _ => h.abandonRound dw)
  | grantWaitExpiry => exact sameIf _ _ (by simp)
  | minuteStep elapsed => exact same _ (by (repeat' split) <;> simp)
  | inputChange line high => exact sameIf _ _ (by simp)
  | filterExpiry line =>
    exact (ensures_next _ _).2 (h.ite _ fun _ => GateSound.followHalt (h.same (by simp)) _)
  | cycleEnd output => cases output <;> exact sameIf _ _ (by simp)
  | hornExpiry elapsed => exact same _ (by simp)
  | terminalCharacter c => exact sameIf _ _ (by simp)
  | flawedCharacter c => exact sameIf _ _ (by simp)
  | breakCondition => exact sameIf _ _ (by simp)
  | messageSent => exact sameIf _ _ (by simp)
  | unknownMessage code => exact same _ (by dsimp only; (repeat' split) <;> simp)
  | status => exact h.execMessage rfl hwell
  | put tag family size grade stack => exact h.execMessage rfl hwell
  | take tag => exact h.execMessage rfl hwell
  | shift tag stack => exact h.execMessage rfl hwell
  | holdPack tag => exact h.execMessage rfl hwell
  | freePack tag => exact h.execMessage rfl hwell
  | listStack stack => exact h.execMessage rfl hwell
  | listPicks => exact h.execMessage rfl hwell
  | truckIn ticket bay count lines => exact h.execMessage rfl hwell
  | truckBay ticket bay => exact h.execMessage rfl hwell
  | truckOut ticket => exact h.execMessage rfl hwell
  | listTruck ticket => exact h.execMessage rfl hwell
  | receiveWireHighAfterBreak => exact same _ (by simp)

/-- The commands behind the first one stay well formed. -/
theorem GateSound.dequeued (h : GateSound s) {c : Instr} {rest : List Instr} (hp : s.pending = c :: rest) :
    c.wellFormed = true ∧ GateSound { s with pending := rest } := by
  obtain ⟨htable, hfits, hcommands⟩ := h
  rw [hp] at hcommands
  exact ⟨hcommands c List.mem_cons_self, htable, hfits, fun d hd => hcommands d (List.mem_cons_of_mem c hd)⟩

theorem GateSound.tick (h : GateSound s) : GateSound (tick s) := by
  unfold Machine.tick
  split
  · exact h
  · exact h.same ⟨rfl, rfl, rfl⟩

/-- Settles O58: a bt leaves the gate alone, and each well formed command keeps it sound. -/
theorem everyStepKeepsTheGateSound : Obligations.EveryStepKeepsTheGateSound := by
  intro s t hs hstep
  rcases step_cases s with ⟨-, hnext⟩ | ⟨c, rest, hp, hnext⟩
  · rw [hnext] at hstep
    cases hstep
    exact hs.tick
  · obtain ⟨hwell, hrest⟩ := hs.dequeued hp
    rw [hnext] at hstep
    exact hrest.exec c hwell t hstep

end Sys2Proof.Machine
end

