-- ==== Sys2Proof/Proofs/TruckStates.lean ====
section
/-! PROOF. The states of order lines, trucks and bays, and who is newly LOADED (O46). -/

namespace Sys2Proof.Machine

variable {l : OrderLine} {u : Truck} {trucks : List Truck} {bay : Nat}

/-! ### The four states of a sound line (R101) -/

/-- R99: T is at most G, and G at most W. -/
theorem accounts_of_orderLineSound (hl : orderLineSound l) :
    lineTaken l ≤ lineGranted l ∧ lineGranted l ≤ l.wanted ∧ l.emptyRounds ≤ 3 := by
  obtain ⟨-, -, -, -, -, htaken, hgranted, hrounds, -⟩ := hl
  exact ⟨htaken, hgranted, hrounds⟩

/-- DONE is the first of the four to apply. -/
theorem lineState_done_iff (l : OrderLine) : lineState l = .done ↔ lineTaken l = l.wanted := by
  unfold lineState
  repeat' split
  all_goals simp [*]

/-- A line that is not DONE is COVERED exactly when nothing is open. -/
theorem lineState_covered_iff (l : OrderLine) :
    lineState l = .covered ↔ lineTaken l ≠ l.wanted ∧ lineOpen l = 0 := by
  unfold lineState
  repeat' split
  all_goals simp [*]

theorem lineState_short_iff (l : OrderLine) :
    lineState l = .short ↔ lineTaken l ≠ l.wanted ∧ lineOpen l ≠ 0 ∧ 3 ≤ l.emptyRounds := by
  unfold lineState
  repeat' split
  all_goals simp_all [Config.emptyRoundLimit]

/-- On a sound line something is open exactly when G is below W, and then T is below W. -/
theorem lineOpen_ne_zero_iff (hl : orderLineSound l) :
    lineTaken l ≠ l.wanted ∧ lineOpen l ≠ 0 ↔ lineGranted l < l.wanted := by
  obtain ⟨htaken, hgranted, -⟩ := accounts_of_orderLineSound hl
  rw [lineOpen]
  omega

theorem lineStates_of_orderLineSound (hl : orderLineSound l) :
    (lineState l = .covered ↔ lineGranted l = l.wanted ∧ lineTaken l < l.wanted)
      ∧ (lineState l = .openLine ↔ lineGranted l < l.wanted ∧ l.emptyRounds < 3)
      ∧ (lineState l = .short ↔ lineGranted l < l.wanted ∧ l.emptyRounds = 3) := by
  obtain ⟨htaken, hgranted, hrounds⟩ := accounts_of_orderLineSound hl
  refine ⟨?_, ?_, ?_⟩
  · rw [lineState_covered_iff, lineOpen]
    omega
  · rw [lineState_open_iff, ← and_assoc, lineOpen_ne_zero_iff hl]
  · rw [lineState_short_iff, ← and_assoc, lineOpen_ne_zero_iff hl]
    omega

/-! ### Trucks and bays (R102) -/

theorem truckState_parked (hbay : u.bay = 0) : truckState u = .parked := if_pos hbay

/-- A truck at a bay is LOADED when every line is DONE, and ACTIVE otherwise. -/
theorem truckState_at_bay (hbay : u.bay ≠ 0) :
    truckState u = if ∀ l ∈ u.lines, lineState l = .done then .loaded else .active := by
  rw [truckState, if_neg hbay]
  exact if_congr (by simp) rfl rfl

theorem truckState_iff (u : Truck) :
    (truckState u = .parked ↔ u.bay = 0) ∧
    (truckState u = .loaded ↔ u.bay ≠ 0 ∧ ∀ l ∈ u.lines, lineState l = .done) ∧
    (truckState u = .active ↔ u.bay ≠ 0 ∧ ∃ l ∈ u.lines, lineState l ≠ .done) := by
  by_cases hbay : u.bay = 0
  · simp [truckState_parked hbay, hbay]
  · have hsome : (∃ l ∈ u.lines, lineState l ≠ .done) ↔ ¬ ∀ l ∈ u.lines, lineState l = .done := by simp
    rw [truckState_at_bay hbay, hsome]
    by_cases hdone : ∀ l ∈ u.lines, lineState l = .done
    · rw [if_pos hdone]
      exact ⟨iff_of_false (by simp) hbay, iff_of_true rfl ⟨hbay, hdone⟩,
        iff_of_false (by simp) fun h => h.2 hdone⟩
    · rw [if_neg hdone]
      exact ⟨iff_of_false (by simp) hbay, iff_of_false (by simp) fun h => hdone h.2,
        iff_of_true rfl ⟨hbay, hdone⟩⟩

theorem truckAt_none_iff : truckAt trucks bay = none ↔ ∀ u ∈ trucks, u.bay ≠ bay := by
  simp [truckAt]

/-- R98: the truck that stands at a bay of a sound table is the one found there. -/
theorem truckAt_of_mem (h : TrucksSound trucks) (hu : u ∈ trucks) (hbay : u.bay ≠ 0) :
    truckAt trucks u.bay = some u := by
  obtain ⟨-, -, hbays, -⟩ := h
  obtain ⟨w, hw⟩ : ∃ w, truckAt trucks u.bay = some w :=
    Option.isSome_iff_exists.1 (List.find?_isSome.2 ⟨u, hu, by simp⟩)
  have hwbay : w.bay = u.bay := by simpa using List.find?_some hw
  have hstands : ∀ v ∈ trucks, v.bay ≠ 0 → v ∈ trucks.filter fun v => v.bay != 0 := fun v hv hne =>
    List.mem_filter.2 ⟨hv, by simpa using hne⟩
  rw [hw, List.inj_on_of_nodup_map hbays (hstands w (List.mem_of_find?_eq_some hw) (hwbay ▸ hbay))
    (hstands u hu hbay) hwbay]

theorem bayCondition_empty_iff : bayCondition trucks bay = .empty ↔ ∀ u ∈ trucks, u.bay ≠ bay := by
  rw [← truckAt_none_iff, bayCondition]
  cases truckAt trucks bay with
  | none => simp
  | some u =>
    simp only [reduceCtorEq, iff_false]
    repeat' split
    all_goals simp

/-- The condition of the bay at which a truck stands. -/
theorem bayCondition_at (h : truckAt trucks bay = some u) : bayCondition trucks bay =
    if truckState u = .loaded then .loaded
    else if ∃ l ∈ u.lines, lineState l = .short then .short else .working := by
  rw [bayCondition, h]
  exact if_congr Iff.rfl rfl (if_congr (by simp) rfl rfl)

theorem bayCondition_iff (h : TrucksSound trucks) (hu : u ∈ trucks) (hbay : u.bay ≠ 0) :
    (bayCondition trucks u.bay = .loaded ↔ truckState u = .loaded) ∧
    (bayCondition trucks u.bay = .short ↔
      truckState u = .active ∧ ∃ l ∈ u.lines, lineState l = .short) ∧
    (bayCondition trucks u.bay = .working ↔
      truckState u = .active ∧ ∀ l ∈ u.lines, lineState l ≠ .short) := by
  rw [bayCondition_at (truckAt_of_mem h hu hbay)]
  have hparked : truckState u ≠ .parked := mt (truckState_iff u).1.1 hbay
  by_cases hloaded : truckState u = .loaded
  · simp [hloaded]
  · have hactive : truckState u = .active := by
      cases hstate : truckState u with
      | parked => exact absurd hstate hparked
      | active => rfl
      | loaded => exact absurd hstate hloaded
    have hnone : (∀ l ∈ u.lines, lineState l ≠ .short) ↔ ¬ ∃ l ∈ u.lines, lineState l = .short := by simp
    rw [if_neg hloaded, hnone]
    by_cases hshort : ∃ l ∈ u.lines, lineState l = .short
    · rw [if_pos hshort]
      exact ⟨iff_of_false (by simp) hloaded, iff_of_true rfl ⟨hactive, hshort⟩,
        iff_of_false (by simp) fun h => h.2 hshort⟩
    · rw [if_neg hshort]
      exact ⟨iff_of_false (by simp) hloaded, iff_of_false (by simp) fun h => hshort h.2,
        iff_of_true rfl ⟨hactive, hshort⟩⟩

/-! ### The trucks that are newly LOADED (R115) -/

theorem newlyLoaded_sublist (before after : List Truck) :
    List.Sublist (newlyLoaded before after) (after.map fun u => u.ticket) :=
  List.filter_sublist.map _

theorem mem_newlyLoaded_iff {before after : List Truck} (hnd : (before.map fun u => u.ticket).Nodup)
    (ticket : Nat) : ticket ∈ newlyLoaded before after ↔ ∃ u ∈ after, u.ticket = ticket ∧
      truckState u = .loaded ∧ ∀ w ∈ before, w.ticket = ticket → truckState w ≠ .loaded := by
  simp only [newlyLoaded, List.mem_map, List.mem_filter, Bool.and_eq_true, beq_iff_eq]
  constructor
  · rintro ⟨u, ⟨hu, hloaded, hwas⟩, rfl⟩
    refine ⟨u, hu, rfl, hloaded, fun w hw hticket => ?_⟩
    rw [← hticket, findTruck_of_mem hnd hw] at hwas
    simpa using hwas
  · rintro ⟨u, hu, rfl, hloaded, hwas⟩
    refine ⟨u, ⟨hu, hloaded, ?_⟩, rfl⟩
    split
    · rfl
    · rename_i b hb
      simpa using hwas b (List.mem_of_find?_eq_some hb) (findTruck_ticket hb)

/-- Settles O46: a sound line's state by its accounts, a truck's by its lines, a bay's by the truck that
`truckAt_of_mem` finds there. -/
theorem lineTruckAndBayStates : Obligations.LineTruckAndBayStates := by
  refine ⟨fun l hl => ⟨rfl, rfl, rfl, lineState_done_iff l, lineStates_of_orderLineSound hl⟩,
    truckState_iff, fun trucks bay h hone => ⟨bayCondition_empty_iff, fun u hu hbay => ?_⟩,
    ⟨rfl, rfl, rfl, rfl⟩, fun before after hnd => ⟨newlyLoaded_sublist before after, mem_newlyLoaded_iff hnd⟩,
    fun ticket line hticket _ => ?_⟩
  · subst hbay
    exact bayCondition_iff h hu (Nat.one_le_iff_ne_zero.1 hone)
  · rw [loadedReport, shortReport, ticketBytes_eq hticket]
    exact ⟨rfl, rfl⟩

end Sys2Proof.Machine
end

