-- ==== Sys2Proof/Proofs/ClerkAnswers.lean ====
section
/-! PROOF. TRUCK IN, TRUCK BAY and TRUCK OUT accepted by a gate in SERVICE (O55). -/

namespace Sys2Proof.Machine

variable {s : State} {ticket : BitVec 16} {bay count : Byte} {lines : List OrderFields}

/-- R110, R111: no other truck stands at the bay. -/
theorem bayTaken_of_free (h : bay = 0 ∨ ∀ u ∈ s.trucks, u.bay = bay.toNat → u.ticket = ticket.toNat) :
    ¬ bayTaken ticket.toNat bay.toNat s.trucks = true := by
  rw [bayTaken_iff]
  rintro ⟨hbay, u, hu, hstands, hother⟩
  exact hother (h.resolve_left hbay u hu hstands)

/-- R110: fields in their ranges pass the check. -/
theorem truckIn_inRange (hticket : 1 ≤ ticket.toNat) (hbay8 : bay.toNat ≤ 8) (hcount : 1 ≤ count.toNat)
    (hcount4 : count.toNat ≤ 4)
    (hlines : ∀ o ∈ lines, o.family.toNat ≤ 63 ∧ o.size.toNat ≤ 15 ∧ o.grade.toNat ≤ 7
      ∧ o.upgrade.toNat ≤ 1 ∧ 1 ≤ o.wanted.toNat ∧ o.wanted.toNat ≤ 99) :
    ¬ truckInOutOfRange ticket bay count lines = true := by
  rw [truckInOutOfRange_iff]
  rintro (hzero | hbay | hzero | hfive | ⟨o, ho, hout⟩)
  · bv_omega
  · omega
  · bv_omega
  · omega
  · obtain ⟨hfamily, hsize, hgrade, hupgrade, hwanted, hwanted99⟩ := hlines o ho
    have hwanted0 : o.wanted ≠ 0 := by bv_omega
    simp only [hwanted0, false_or] at hout
    omega

theorem truckIn_accepted (h : GateTakes (truckInMessage ticket bay count lines) s)
    (hrange : ¬ truckInOutOfRange ticket bay count lines = true)
    (hnew : ¬ (findTruck ticket.toNat s.trucks).isSome = true) (hroom : ¬ 12 ≤ s.trucks.length)
    (hbay : ¬ bayTaken ticket.toNat bay.toNat s.trucks = true) :
    exec (.truckIn ticket bay count lines) s = .next (gateChanged
      (s.trucks ++ [newTruck ticket.toNat bay.toNat s.clock.minute lines]) (answered [0xB1, 0x00] s)) :=
  (truckIn_gate h).trans (congrArg _
    ((if_neg hrange).trans ((if_neg hnew).trans ((if_neg hroom).trans (if_neg hbay)))))

theorem truckBay_accepted (h : GateTakes (truckBayMessage ticket bay) s)
    (hpresent : ¬ (findTruck ticket.toNat s.trucks).isNone = true) (hbay8 : ¬ 8 < bay.toNat)
    (hbay : ¬ bayTaken ticket.toNat bay.toNat s.trucks = true) :
    exec (.truckBay ticket bay) s = .next (gateChanged (moveTruck ticket.toNat bay.toNat s.trucks)
      (answered [0xB2, 0x00] s)) :=
  (truckBay_gate h).trans (congrArg _
    ((if_neg hpresent).trans ((if_neg hbay8).trans (if_neg hbay))))

/-- R112: an award record with t below g is open. -/
theorem holdsAwards_iff (u : Truck) :
    holdsAwards u = true ↔ ∃ l ∈ u.lines, ∃ a ∈ l.awards, a.taken < a.granted := by
  simp [holdsAwards, untaken, Nat.sub_eq_zero_iff_le]

/-! A notice is given to the queue without a look at the waiting buffer. -/

theorem followWant_clearWaiting (s : State) : followWant (clearWaiting s) = clearWaiting (followWant s) := by
  have hwant : wantsToSend (clearWaiting s) = wantsToSend s := rfl
  simp only [followWant, clearWaiting_line, hwant, apply_ite clearWaiting]
  rfl

theorem enqueue_clearWaiting (body : NoticeBody) (s : State) :
    enqueue body (clearWaiting s) = clearWaiting (enqueue body s) := by
  cases body <;> simp only [enqueue, clearWaiting_frames, apply_ite clearWaiting] <;> rfl

theorem takeNotice_clearWaiting (body : NoticeBody) (s : State) :
    takeNotice body (clearWaiting s) = clearWaiting (takeNotice body s) := by
  unfold takeNotice
  rw [clearWaiting_frames]
  split
  · split
    · rfl
    · exact enqueue_clearWaiting _ s
  · split
    · exact enqueue_clearWaiting _ s
    · rename_i queue left _
      split
      · rfl
      · exact enqueue_clearWaiting _ (withQueue queue.reverse s)

theorem giveNotice_clearWaiting (body : NoticeBody) (s : State) :
    giveNotice body (clearWaiting s) = clearWaiting (giveNotice body s) := by
  rw [giveNotice, takeNotice_clearWaiting, followWant_clearWaiting, giveNotice]

section truckOut

variable (h : GateTakes (truckOutMessage ticket) s) {u : Truck}
  (hu : findTruck ticket.toNat s.trucks = some u)
include h hu

theorem truckOut_found : exec (.truckOut ticket) s = .next (gateChanged
    (s.trucks.filter fun w => w.ticket ≠ ticket.toNat)
    (answered [0xB3, 0x00] (if holdsAwards u then giveNotice (.void ticket.toNat) s else s))) := by
  rw [truckOut_gate h, answerTruckOut, clearWaiting_trucks, hu]
  dsimp only
  rw [giveNotice_clearWaiting, ← apply_ite clearWaiting, reply_clearWaiting]
  simp only [decide_not, bne, beq_eq_decide]
  rfl

theorem truckOut_settled (hawards : ∀ l ∈ u.lines, ∀ a ∈ l.awards, a.granted ≤ a.taken) :
    exec (.truckOut ticket) s = .next (gateChanged (s.trucks.filter fun w => w.ticket ≠ ticket.toNat)
      (answered [0xB3, 0x00] s)) := by
  have hnone : ¬ holdsAwards u = true := by
    rw [holdsAwards_iff]
    rintro ⟨l, hl, a, ha, hopen⟩
    exact absurd (hawards l hl a ha) (Nat.not_le.2 hopen)
  rw [truckOut_found h hu, if_neg hnone]

theorem truckOut_voids (hawards : ∃ l ∈ u.lines, ∃ a ∈ l.awards, a.taken < a.granted) :
    exec (.truckOut ticket) s = .next (gateChanged (s.trucks.filter fun w => w.ticket ≠ ticket.toNat)
      (answered [0xB3, 0x00] (giveNotice (.void ticket.toNat) s))) := by
  rw [truckOut_found h hu, if_pos ((holdsAwards_iff u).2 hawards)]

end truckOut

/-- Settles O55: each message by the lemma of its acceptance, TRUCK OUT with its VOID and without. -/
theorem clerkMessagesChangeTheTable : Obligations.ClerkMessagesChangeTheTable := by
  intro ticket bay s free
  refine ⟨fun count lines h hticket hbay8 hcount hcount4 hlines hnew hroom hfree => ?_,
    fun h hpresent hbay8 hfree => ?_, fun u h hu => ⟨truckOut_settled h hu, truckOut_voids h hu⟩⟩
  · exact truckIn_accepted h (truckIn_inRange hticket hbay8 hcount hcount4 hlines)
      (fun hpresent => (findTruck_isSome_iff.1 hpresent).elim fun u hu => hnew u hu.1 hu.2)
      (Nat.not_le.2 hroom) (bayTaken_of_free hfree)
  · exact truckBay_accepted h (mt findTruck_isNone_iff.1 (not_not_intro hpresent)) (Nat.not_lt.2 hbay8)
      (bayTaken_of_free hfree)

end Sys2Proof.Machine
end

