-- ==== Sys2Proof/Proofs/CallChoice.lean ====
section
/-! PROOF. The choice of call: the callable line of a truck, the truck, the station that may call (O45). -/

namespace Sys2Proof.Machine

variable {u : Truck} {r : CallRecord}

/-! ### The lowest callable line of a truck (R120) -/

theorem lineCallable_iff (l : OrderLine) :
    lineCallable l = true ↔ lineState l = .openLine ∧ l.awards.length < 8 := by
  rw [lineCallable, Bool.and_eq_true, beq_iff_eq, decide_eq_true_iff, Config.awardLimit]

theorem firstCallable_cons_callable {l : OrderLine} (hl : lineCallable l = true) (u : Truck) (n : Nat)
    (rest : List OrderLine) : firstCallable u n (l :: rest) = some (callRecordOf u n l) := if_pos hl

theorem firstCallable_cons_passed {l : OrderLine} (hl : ¬ lineCallable l = true) (u : Truck) (n : Nat)
    (rest : List OrderLine) : firstCallable u n (l :: rest) = firstCallable u (n + 1) rest := if_neg hl

theorem firstCallable_none_iff (u : Truck) (n : Nat) (lines : List OrderLine) :
    firstCallable u n lines = none ↔ ∀ l ∈ lines, ¬ lineCallable l = true := by
  induction lines generalizing n with
  | nil => simp [firstCallable]
  | cons l rest ih =>
    by_cases hl : lineCallable l = true
    · simp [firstCallable_cons_callable hl, hl]
    · rw [firstCallable_cons_passed hl, ih, List.forall_mem_cons]
      exact (and_iff_right hl).symm

/-- The lines before a callable one are passed over, each of them one number. -/
theorem firstCallable_append_of_passed {lower : List OrderLine}
    (hlower : ∀ m ∈ lower, ¬ lineCallable m = true) (u : Truck) (n : Nat) (rest : List OrderLine) :
    firstCallable u n (lower ++ rest) = firstCallable u (lower.length + n) rest := by
  induction lower generalizing n with
  | nil => simp
  | cons m lower ih =>
    obtain ⟨hm, hlower⟩ := List.forall_mem_cons.1 hlower
    rw [List.cons_append, firstCallable_cons_passed hm, ih hlower, List.length_cons, Nat.add_assoc,
      Nat.add_comm 1 n]

theorem firstCallable_some_iff {n : Nat} {lines : List OrderLine} : firstCallable u n lines = some r ↔
    ∃ lower l upper, lines = lower ++ l :: upper ∧ (∀ m ∈ lower, ¬ lineCallable m = true)
      ∧ lineCallable l = true ∧ r = callRecordOf u (lower.length + n) l := by
  constructor
  · intro hr
    have hfound : (lines.find? lineCallable).isSome = true := by
      by_contra hnone
      simp [(firstCallable_none_iff u n lines).2 (by simpa using hnone)] at hr
    obtain ⟨l, hfind⟩ := Option.isSome_iff_exists.1 hfound
    obtain ⟨hl, lower, upper, rfl, hlower⟩ := List.find?_eq_some_iff_append.1 hfind
    have hpassed : ∀ m ∈ lower, ¬ lineCallable m = true := by simpa using hlower
    rw [firstCallable_append_of_passed hpassed, firstCallable_cons_callable hl] at hr
    exact ⟨lower, l, upper, rfl, hpassed, hl, (Option.some.inj hr).symm⟩
  · rintro ⟨lower, l, upper, rfl, hpassed, hl, rfl⟩
    rw [firstCallable_append_of_passed hpassed, firstCallable_cons_callable hl]

/-! ### The earliest truck at a bay that has one (R120) -/

/-- What one truck offers: nothing while it is parked, otherwise its lowest callable line. -/
def truckCall (u : Truck) : Option CallRecord := if u.bay = 0 then none else firstCallable u 1 u.lines

theorem chosenCall_eq (trucks : List Truck) : chosenCall trucks = trucks.findSome? truckCall := rfl

theorem truckCall_none_iff (u : Truck) :
    truckCall u = none ↔ u.bay = 0 ∨ ∀ l ∈ u.lines, ¬ lineCallable l = true := by
  rw [← firstCallable_none_iff u 1, truckCall]
  by_cases hbay : u.bay = 0 <;> simp [hbay]

theorem truckCall_some_iff : truckCall u = some r ↔ u.bay ≠ 0 ∧
    ∃ lower l upper, u.lines = lower ++ l :: upper ∧ (∀ m ∈ lower, ¬ lineCallable m = true)
      ∧ lineCallable l = true ∧ r = callRecordOf u (lower.length + 1) l := by
  rw [← firstCallable_some_iff, truckCall]
  by_cases hbay : u.bay = 0 <;> simp [hbay]

theorem chosenCall_none_iff (trucks : List Truck) : chosenCall trucks = none ↔
    ∀ u ∈ trucks, u.bay = 0 ∨ ∀ l ∈ u.lines, ¬ lineCallable l = true := by
  simp only [chosenCall_eq, List.findSome?_eq_none_iff, truckCall_none_iff]

theorem chosenCall_some_iff (trucks : List Truck) (r : CallRecord) : chosenCall trucks = some r ↔
    ∃ earlier u later lower l upper, trucks = earlier ++ u :: later
      ∧ (∀ w ∈ earlier, w.bay = 0 ∨ ∀ m ∈ w.lines, ¬ lineCallable m = true)
      ∧ u.bay ≠ 0 ∧ u.lines = lower ++ l :: upper ∧ (∀ m ∈ lower, ¬ lineCallable m = true)
      ∧ lineCallable l = true ∧ r = callRecordOf u (lower.length + 1) l := by
  simp only [chosenCall_eq, List.findSome?_eq_some_iff, truckCall_none_iff, truckCall_some_iff]
  constructor
  · rintro ⟨earlier, u, later, htrucks, ⟨hbay, lower, l, upper, hline⟩, hearlier⟩
    exact ⟨earlier, u, later, lower, l, upper, htrucks, hearlier, hbay, hline⟩
  · rintro ⟨earlier, u, later, lower, l, upper, htrucks, hearlier, hbay, hline⟩
    exact ⟨earlier, u, later, htrucks, ⟨hbay, lower, l, upper, hline⟩, hearlier⟩

/-! ### The station that may call (R120) -/

theorem callChoice_eq (s : State) : callChoice s =
    if s.startup.station = .service ∧ s.startup.settings.role = .gate ∧ haltAsserted s = false
    then chosenCall s.trucks else none :=
  if_congr (by simp [inService, isGate]) rfl rfl

/-- Settles O45: `callChoice_eq` says who chooses, `chosenCall_none_iff` and `chosenCall_some_iff` what. -/
theorem chosenCallIsTheEarliestCallableLine : Obligations.ChosenCallIsTheEarliestCallableLine := by
  refine ⟨fun s => ⟨fun hmay => ?_, fun hnot => ?_, rfl, fun _ => rfl⟩, fun trucks => ⟨?_, fun r => ?_⟩⟩
  · rw [callChoice_eq, if_pos hmay]
  · rw [callChoice_eq, if_neg hnot]
  · simpa only [lineCallable_iff] using chosenCall_none_iff trucks
  · simpa only [lineCallable_iff, callRecordOf] using chosenCall_some_iff trucks r

end Sys2Proof.Machine
end

