-- ==== Sys2Proof/Proofs/HeardMinutes.lean ====
section
/-! PROOF. What the Yard Clock does with an accepted header: adoption, forward jump, conflict (O21). -/

namespace Sys2Proof.Machine

variable {s : State} {m : Minute}

/-- The state with a set clock at the start of a minute. -/
def setAt (m : Minute) (s : State) : State :=
  { s with clock := { minute := m, second := 0, fraction := 0, isSet := true } }

/-- The minutes by which a heard minute lies ahead of the station's own (R134). -/
def minutesAhead (m : Minute) (s : State) : Nat := (m - s.clock.minute).toNat

/-! ### The header that moves no set clock (R133, R134) -/

theorem hearMinute_of_unset_header (m : Minute) (s : State) : hearMinute m false s = s := if_pos rfl

theorem becomeSet_eq (m : Minute) (s : State) : becomeSet m s =
    { setAt m s with
      picks :=
        if s.startup.settings.role = .row then s.picks.map fun e => { e with grantMinute := m }
        else s.picks } := by
  unfold becomeSet isRow
  cases hr : s.startup.settings.role <;> simp [setMinute, setAt, rewriteGrantMinutes]

theorem hearMinute_of_unset_clock (m : Minute) (h : s.clock.isSet = false) :
    hearMinute m true s = becomeSet m s := by
  simp only [hearMinute, h, Bool.true_eq_false, if_false, if_true]

theorem hearMinute_beyond_limit (h : s.clock.isSet = true) (hfar : 31 ≤ minutesAhead m s) :
    hearMinute m true s = flagClockConflict s := by
  unfold minutesAhead at hfar
  have hzero : (m - s.clock.minute).toNat ≠ 0 := by omega
  have hlimit : ¬ (m - s.clock.minute).toNat ≤ 30 := by omega
  simp only [hearMinute, h, Bool.true_eq_false, if_false, hzero, Config.jumpLimit, hlimit]

/-! ### The forward jump (R60, R94, R132, R135) -/

theorem hearMinute_within_limit (h : s.clock.isSet = true) (hpos : 1 ≤ minutesAhead m s)
    (hle : minutesAhead m s ≤ 30) : hearMinute m true s = jumpForward (minutesAhead m s) s := by
  unfold minutesAhead at *
  have hzero : (m - s.clock.minute).toNat ≠ 0 := by omega
  simp only [hearMinute, h, Bool.true_eq_false, if_false, hzero, Config.jumpLimit, hle, if_true]

theorem minute_add_minutesAhead (m : Minute) (s : State) :
    s.clock.minute + BitVec.ofNat 16 (minutesAhead m s) = m := by
  rw [minutesAhead, BitVec.ofNat_toNat, BitVec.setWidth_eq, BitVec.add_comm, BitVec.sub_add_cancel]

/-- R135: some minute jumped over is a multiple of 60. -/
theorem passesHour_iff (m : Minute) (delta : Nat) : passesHour m delta = true ↔
    ∃ i ∈ List.range delta, (m.toNat + (i + 1)) % 65536 % 60 = 0 := by
  simp [passesHour, isHour, BitVec.toNat_add]

/-- The jump of a set clock, before the role decides who ages and who is swept. -/
theorem jumpForward_of_set (h : s.clock.isSet = true) (m : Minute) : jumpForward (minutesAhead m s) s =
    sweep (if passesHour s.clock.minute (minutesAhead m s) then hourStep (setAt m s) else setAt m s) := by
  have hset : setMinute (s.clock.minute + BitVec.ofNat 16 (minutesAhead m s)) s = setAt m s := by
    simp only [minute_add_minutesAhead, setMinute, setAt, h]
  rw [jumpForward, hset]

/-- At a gate no pack ages and no list is swept. -/
theorem jumpForward_gate (h : s.clock.isSet = true) (hr : s.startup.settings.role = .gate) (m : Minute) :
    jumpForward (minutesAhead m s) s = setAt m s := by
  have hrow : isRow (setAt m s) = false := by simp [isRow, setAt, hr]
  simp [jumpForward_of_set h, hourStep, sweep, hrow]

/-- A row's jump up to its sweep: the clock, and the hour step when the jump passes an hour. -/
def jumpedRow (m : Minute) (s : State) : State :=
  { setAt m s with
    stock :=
      if ∃ i ∈ List.range (minutesAhead m s), (s.clock.minute.toNat + (i + 1)) % 65536 % 60 = 0 then
        agePacks s.stock
      else s.stock }

theorem jumpForward_row (h : s.clock.isSet = true) (hr : s.startup.settings.role = .row) (m : Minute) :
    jumpForward (minutesAhead m s) s = overdueSweep (jumpedRow m s) := by
  have hrow : isRow (setAt m s) = true := by simp [isRow, setAt, hr]
  have hjumped : (if passesHour s.clock.minute (minutesAhead m s) then hourStep (setAt m s)
      else setAt m s) = jumpedRow m s := by
    simp only [jumpedRow, ← passesHour_iff, hourStep, hrow, if_true]
    split <;> rfl
  rw [jumpForward_of_set h, hjumped, sweep_row (s := jumpedRow m s) hr]

/-- R134: within the limit the clock stands at the heard minute, in either role. -/
theorem hearMinute_clock_within_limit (h : s.clock.isSet = true) (hpos : 1 ≤ minutesAhead m s)
    (hle : minutesAhead m s ≤ 30) : (hearMinute m true s).clock = (setAt m s).clock := by
  simp only [hearMinute_within_limit h hpos hle, jumpForward_clock, minute_add_minutesAhead, h, setAt]

/-- Settles O21: the header outside the jump by the `hearMinute_of_…` lemmas and
`hearMinute_beyond_limit`, the jump by `jumpForward_gate` and `jumpForward_row`. -/
theorem heardMinutesAreJudgedByTheirDistance : Obligations.HeardMinutesAreJudgedByTheirDistance := by
  refine ⟨fun m s => ⟨hearMinute_of_unset_header m s, fun hunset => ?_, fun hset =>
    ⟨?_, hearMinute_clock_within_limit hset, hearMinute_beyond_limit hset⟩⟩,
    fun m s hset hgate hpos hle => ?_, fun m s hset hrow hpos hle => ?_⟩
  · rw [hearMinute_of_unset_clock m hunset, becomeSet_eq]
    rfl
  · rintro rfl
    exact hearMinute_same hset
  · rw [hearMinute_within_limit hset hpos hle]
    exact jumpForward_gate hset hgate m
  · intro swept jumped t
    have ht : t = withPicks swept jumped :=
      (hearMinute_within_limit hset hpos hle).trans (jumpForward_row hset hrow m)
    have hsignal : (withPicks swept jumped).signal = (withPicks swept s).signal :=
      withPicks_signal_congr (s := s) (t := jumped) rfl rfl rfl swept
    rw [ht]
    refine ⟨rfl, withPicks_picks _ _, hsignal, ?_⟩
    simp [GateUnchanged, ControlUnchanged, jumped]

end Sys2Proof.Machine
end

