-- ==== Sys2Proof/Proofs/StationStates.lean ====
section
/-! PROOF. What a command can do to the Start-up Controller: the station state's table, and what stays as it
is (O8). -/

namespace Sys2Proof.Machine

variable {s t : State}

/-! ### Entry to DUPLICATE is all that happens outside start-up (R163, R169) -/

/-- Start-up is as before, or the station has entered DUPLICATE. -/
def StaysOrDuplicates (before after : StartUp) : Prop :=
  after = before ∨ after = { before with station := .duplicate }

/-- What a command that is none of start-up's does to start-up: a station in SERVICE, or one that sends a
frame, may enter DUPLICATE, and nothing else changes. -/
def StartUpHolds (s t : State) : Prop :=
  t.startup = s.startup ∨ ((s.startup.station = .service ∨ sentKind s ≠ none)
    ∧ t.startup = { s.startup with station := .duplicate })

theorem StartUpHolds.of_stays (hs : s.startup.station = .service ∨ sentKind s ≠ none)
    (h : StaysOrDuplicates s.startup t.startup) : StartUpHolds s t :=
  h.imp_right fun hd => ⟨hs, hd⟩

theorem ownHail_startUp (f : RxFrame 4) (s : State) :
    StaysOrDuplicates s.startup (ownHail f s).startup := by
  rw [ownHail_eq, hailOwner_startup, numberCheck]
  split
  · exact .inr (enterDuplicate_startup s)
  · exact .inl rfl

@[simp] theorem ownVoid_startup (f : RxFrame 2) (s : State) : (ownVoid f s).startup = s.startup := by
  unfold ownVoid
  split <;> simp

@[simp] theorem ownTaken_startup (f : RxFrame 5) (s : State) : (ownTaken f s).startup = s.startup := by
  unfold ownTaken settleTaken
  dsimp only
  repeat' split
  all_goals simp

@[simp] theorem ownLapse_startup (f : RxFrame 5) (s : State) : (ownLapse f s).startup = s.startup := by
  unfold ownLapse settleLapse
  repeat' split
  all_goals simp

@[simp] theorem ownArrive_startup (f : RxFrame 2) (s : State) : (ownArrive f s).startup = s.startup := by
  unfold ownArrive
  split <;> simp

/-- A body reaches its owner in SERVICE alone (R23). -/
theorem startUpHolds_hearNotice {n : Nat} (f : RxFrame n) (valid : Bool) {owners : State → State}
    (howners : ∀ u, StaysOrDuplicates u.startup (owners u).startup) (s : State) :
    StartUpHolds s (hearNotice f valid owners s) := by
  unfold hearNotice
  split
  · dsimp only
    split
    · rename_i hreaches
      have hservice : s.startup.station = .service := by
        simp only [Bool.and_eq_true, inService, beq_iff_eq] at hreaches
        exact hreaches.1.2
      refine .of_stays (.inl hservice) ?_
      simpa using howners (endFrame (hearHeader f (reportHeard f false (closingOtherKind (closingStart s)))))
    · exact .inl (by simp)
  · exact .inl rfl

theorem startUpHolds_hearKind {n : Nat} (kind : FrameKind) (f : RxFrame n) {known : State → State}
    (hknown : StartUpHolds s (known s)) : StartUpHolds s (hearKind kind f known s) := by
  unfold hearKind
  split
  · exact startUpHolds_hearNotice f false (fun _ => .inl rfl) s
  · split
    · exact hknown
    · exact .inl rfl

theorem startUpHolds_execCallReceived (f : RxFrame 6) (started : Bool) (s : State) :
    Ensures (StartUpHolds s) (execCallReceived f started s) := by
  refine (ensures_next _ _).2 (startUpHolds_hearKind .call f (.inl ?_))
  dsimp only
  (repeat' split) <;> simp

theorem startUpHolds_execGrantReceived (f : RxFrame 5) (s : State) :
    Ensures (StartUpHolds s) (execGrantReceived f s) := by
  refine (ensures_next _ _).2 (startUpHolds_hearKind .grant f (.inl ?_))
  split <;> simp

/-- R13: the sender of the frame that collides enters DUPLICATE. -/
theorem startUpHolds_collide (s : State) : StartUpHolds s (collide s) := by
  unfold collide
  split
  · rename_i hk
    exact .inr ⟨.inr (by simp [hk]), by simp [enterDuplicate_startup]⟩
  · rename_i hk
    exact .inr ⟨.inr (by simp [hk]), by simp [enterDuplicate_startup]⟩
  · exact .inl rfl
  · exact .inl rfl

/-! ### Every command but start-up's -/

/-- The commands of the Start-up Controller (chapter 11). -/
def isStartUp : Instr → Bool
  | .fullReset | .resetRelease | .configInterruption | .configReadComplete _ _ | .listenTimerExpiry => true
  | _ => false

theorem answerRules_startUp (startup : StartUp) :
    AnswerRules (fun s => s.startup = startup) (fun s => s.startup = startup) where
  arrive _ _ h := by simpa using h
  take _ h _ := h
  stock _ _ h := h
  picks _ _ h := by simpa using h
  strayTake _ h := h
  notice _ _ _ h := by simpa using h
  reply _ _ _ _ h := h
  table _ _ h := by simpa using h
  flags _ _ h := h

/-- No terminal message touches start-up. -/
theorem startUpHolds_execMessage {c : Instr} (hc : isMessage c = true) (s : State) :
    Ensures (StartUpHolds s) (exec c s) :=
  fun t ht => .inl ((answerRules_startUp s.startup).exec hc rfl t ht)

theorem startUpHolds_exec {c : Instr} (hc : isStartUp c = false) (s : State) :
    Ensures (StartUpHolds s) (exec c s) := by
  have same : ∀ u : State, u.startup = s.startup → Ensures (StartUpHolds s) (.next u) := fun u hu =>
    (ensures_next _ _).2 (.inl hu)
  have heard : ∀ {n : Nat} (kind : FrameKind) (f : RxFrame n) (valid : Bool) (owners : State → State),
      (∀ u, StaysOrDuplicates u.startup (owners u).startup) →
      Ensures (StartUpHolds s) (.next (hearKind kind f (hearNotice f valid owners) s)) :=
    fun kind f valid _ howners =>
      (ensures_next _ _).2 (startUpHolds_hearKind kind f (startUpHolds_hearNotice f valid howners s))
  cases c with
  | fullReset | resetRelease | configInterruption | configReadComplete _ _ | listenTimerExpiry => cases hc
  | hailReceived f => exact heard _ f _ _ (ownHail_startUp f)
  | voidReceived f => exact heard _ f _ _ fun u => .inl (ownVoid_startup f u)
  | takenReceived f => exact heard _ f _ _ fun u => .inl (ownTaken_startup f u)
  | lapseReceived f => exact heard _ f _ _ fun u => .inl (ownLapse_startup f u)
  | arriveReceived f => exact heard _ f _ _ fun u => .inl (ownArrive_startup f u)
  | callReceived f started => exact startUpHolds_execCallReceived f started s
  | grantReceived f => exact startUpHolds_execGrantReceived f s
  | bodyCollision => exact (ensures_next _ _).2 (startUpHolds_collide s)
  | noticeReport r =>
    refine (ensures_next _ _).2 ?_
    split
    · cases r with
      | collision => exact startUpHolds_collide s
      | sent | flawed | lost | abandoned => exact .inl (by simp)
    · exact .inl rfl
  | callReport r =>
    refine (ensures_next _ _).2 ?_
    split
    · cases r with
      | collision => exact startUpHolds_collide s
      | sent | flawed | lost | abandoned => exact .inl (by simp)
    · exact .inl rfl
  | grantReport r =>
    refine same _ ?_
    split
    · cases r <;> simp
    · rfl
  | status | put _ _ _ _ _ | take _ | shift _ _ | holdPack _ | freePack _ | listStack _ | listPicks
  | truckIn _ _ _ _ | truckBay _ _ | truckOut _ | listTruck _ =>
    exact startUpHolds_execMessage rfl s
  | cycleEnd output => cases output <;> exact same _ (by (repeat' split) <;> simp)
  | contentionLoss => exact same _ (by simp)
  | heldEntry sampled begun => exact same _ (by simp)
  | frameStart _ _ | unfinishedFrame _ _ | unknownMessage _ | bidWindowClose _ _ =>
    exact same _ (by dsimp only; (repeat' split) <;> simp)
  | quietPeriod _ | grantSend | strayActivity _ _ | strayActivityEnd | endMarkOutsideFrame | heldEnd _
  | stuckEntry | recoveryPulse _ | backOffExpiry | computationComplete | stretchLimitExpiry
  | stretchSlotEnd | bidWindowStart _ | windowSilenceLimit _ | grantWaitSilenceLimit _ | grantWaitExpiry
  | minuteStep _ | inputChange _ _ | filterExpiry _ | hornExpiry _ | terminalCharacter _
  | flawedCharacter _ | breakCondition | messageSent | receiveWireHighAfterBreak =>
    exact same _ (by (repeat' split) <;> simp)

/-! ### The table of station states (R163, R164) -/

/-- What every command does to start-up: the transitions of the table, where a collision's DUPLICATE is not
yet told to come out of SERVICE; a serial that is kept; and settings that are kept outside CONFIG. -/
structure StartUpMoves (c : Instr) (s t : State) : Prop where
  station : t.startup.station = s.startup.station
    ∨ (c = .fullReset ∧ t.startup.station = .config)
    ∨ (s.startup.station = .config ∧ t.startup.station = .listen)
    ∨ (s.startup.station = .config ∧ t.startup.station = .configFault)
    ∨ (s.startup.station = .listen ∧ t.startup.station = .service)
    ∨ ((s.startup.station = .service ∨ sentKind s ≠ none) ∧ t.startup.station = .duplicate)
  serial : t.startup.serial = s.startup.serial
  settings : c ≠ .fullReset → s.startup.station ≠ .config → t.startup.settings = s.startup.settings

theorem StartUpHolds.moves {c : Instr} (h : StartUpHolds s t) : StartUpMoves c s t := by
  rcases h with h | ⟨hfrom, h⟩
  · exact ⟨.inl (by rw [h]), by rw [h], fun _ _ => by rw [h]⟩
  · exact ⟨.inr (.inr (.inr (.inr (.inr ⟨hfrom, by rw [h]⟩)))), by rw [h], fun _ _ => by rw [h]⟩

theorem startUpMoves_of_startup_eq {c : Instr} (h : t.startup = s.startup) : StartUpMoves c s t :=
  StartUpHolds.moves (.inl h)

theorem startUpMoves_fullReset (s : State) : Ensures (StartUpMoves .fullReset s) (exec .fullReset s) := by
  refine (ensures_next _ _).2 ?_
  split <;> exact ⟨.inr (.inl ⟨rfl, rfl⟩), rfl, fun hc => absurd rfl hc⟩

theorem startUpMoves_enterConfigFault {c : Instr} (hs : s.startup.station = .config)
    (ht : t.startup.serial = s.startup.serial) : StartUpMoves c s (enterConfigFault t) where
  station := by simp [enterConfigFault, hs]
  serial := by simpa [enterConfigFault] using ht
  settings _ hn := absurd hs hn

/-- R164: the fourth interruption ends CONFIG. -/
theorem startUpMoves_configInterruption (s : State) :
    Ensures (StartUpMoves .configInterruption s) (exec .configInterruption s) := by
  refine (ensures_next _ _).2 ?_
  split
  · rename_i hread
    dsimp only
    split
    · exact startUpMoves_enterConfigFault (config_of_readingConfig hread).1 rfl
    · exact ⟨.inl rfl, rfl, fun _ _ => rfl⟩
  · exact startUpMoves_of_startup_eq rfl

/-- R165, R166: the configuration block ends CONFIG, in LISTEN or in CONFIG FAULT. -/
theorem startUpMoves_configReadComplete (block : Vector Byte 32) (levels : BitVec 8) (s : State) :
    Ensures (StartUpMoves (.configReadComplete block levels) s)
      (exec (.configReadComplete block levels) s) := by
  refine (ensures_next _ _).2 ?_
  split
  · rename_i hread
    have hs := (config_of_readingConfig hread).1
    split
    · exact ⟨by simp [enterListen, hs], by simp [enterListen], fun _ hn => absurd hs hn⟩
    · exact startUpMoves_enterConfigFault hs rfl
  · exact startUpMoves_of_startup_eq rfl

/-- R167: the listen timer takes LISTEN to SERVICE. -/
theorem startUpMoves_listenTimerExpiry (s : State) :
    Ensures (StartUpMoves .listenTimerExpiry s) (exec .listenTimerExpiry s) := by
  refine (ensures_next _ _).2 ?_
  split
  · rename_i hs
    exact ⟨by simp [hs], by simp, fun _ _ => by simp⟩
  · exact startUpMoves_of_startup_eq rfl

theorem startUpMoves_exec (c : Instr) (s : State) : Ensures (StartUpMoves c s) (exec c s) := by
  cases hc : isStartUp c with
  | false => exact fun t ht => (startUpHolds_exec hc s t ht).moves
  | true =>
    cases c with
    | fullReset => exact startUpMoves_fullReset s
    | resetRelease => exact (ensures_next _ _).2 ⟨.inl rfl, rfl, fun _ _ => rfl⟩
    | configInterruption => exact startUpMoves_configInterruption s
    | configReadComplete block levels => exact startUpMoves_configReadComplete block levels s
    | listenTimerExpiry => exact startUpMoves_listenTimerExpiry s
    | _ => cases hc

/-- Settles O8: `startUpMoves_exec`; on a sound yard line a station that sends is in SERVICE. -/
theorem stationStateTransitions : Obligations.StationStateTransitions := by
  refine ⟨fun c s t h ht => ?_, fun c s t ht => ?_⟩
  · have hservice : s.startup.station = .service ∨ sentKind s ≠ none → s.startup.station = .service := by
      rintro (hs | hk)
      · exact hs
      · obtain ⟨k, hk⟩ := Option.ne_none_iff_exists'.1 hk
        exact h.service_of_sending hk
    have hmoves := (startUpMoves_exec c s t ht).station
    rwa [and_congr_left fun _ => ⟨hservice, .inl⟩] at hmoves
  · exact ⟨(startUpMoves_exec c s t ht).serial, (startUpMoves_exec c s t ht).settings⟩

end Sys2Proof.Machine
end

