-- ==== Sys2Proof/Proofs/ReadyCycle.lean ====
section
/-! PROOF. READY's pattern and its cycle over every command (O43). -/

namespace Sys2Proof.Machine

variable {s t u : State}

/-! ### READY's pattern (R149) -/

/-- The line is QUIET or BUSY, and no fault of it holds. -/
def carriesFrames : LineCondition → Bool
  | .quiet => true
  | .busy => true
  | .held => false
  | .stuck => false
  | .recovering => false

@[simp] theorem carriesFrames_quiet : carriesFrames .quiet = true := rfl

@[simp] theorem carriesFrames_busy : carriesFrames .busy = true := rfl

theorem carriesFrames_iff (c : LineCondition) : carriesFrames c = true ↔ c = .quiet ∨ c = .busy := by
  cases c <;> simp [carriesFrames]

/-- The pattern that a station state and a line condition give. -/
theorem readyPattern_eq (s : State) : readyPattern s = (match s.startup.station with
    | .config => .off
    | .configFault => .fast
    | .listen => .slow
    | .duplicate => .fast
    | .service => if carriesFrames s.line.condition then .steady else .burst 3) := by
  unfold readyPattern
  cases s.startup.station with
  | service => cases s.line.condition <;> rfl
  | config | configFault | listen | duplicate => rfl

/-! ### What leaves READY's position alone -/

@[simp] theorem refreshReady_pattern (before u : State) :
    readyPattern (refreshReady before u) = readyPattern u := by
  unfold readyPattern
  simp

@[simp] theorem haltOutputs_readyPosition (s : State) :
    (haltOutputs s).signal.readyPosition = s.signal.readyPosition := rfl

@[simp] theorem releaseOutputs_readyPosition (s : State) :
    (releaseOutputs s).signal.readyPosition = s.signal.readyPosition := rfl

@[simp] theorem mapInput_readyPosition (n : Nat) (f : InputLine → InputLine) (s : State) :
    (mapInput n f s).signal.readyPosition = s.signal.readyPosition := rfl

@[simp] theorem requestHorn_readyPosition (s : State) :
    (requestHorn s).signal.readyPosition = s.signal.readyPosition := by
  unfold requestHorn; split <;> rfl

@[simp] theorem withPicks_readyPosition (picks : List PickEntry) (s : State) :
    (withPicks picks s).signal.readyPosition = s.signal.readyPosition := by
  unfold withPicks; dsimp only; split <;> rfl

@[simp] theorem settleConfirmed_readyPosition (h : Hold) (count : Nat) (s : State) :
    (settleConfirmed h count s).signal.readyPosition = s.signal.readyPosition := by
  unfold settleConfirmed; dsimp only; split <;> simp

@[simp] theorem releaseEntries_readyPosition (which : PickEntry → Bool) (s : State) :
    (releaseEntries which s).signal.readyPosition = s.signal.readyPosition := by
  simp [releaseEntries]

@[simp] theorem releaseVoid_readyPosition (gate ticket : Nat) (s : State) :
    (releaseVoid gate ticket s).signal.readyPosition = s.signal.readyPosition := by
  simp [releaseVoid]

@[simp] theorem releaseGate_readyPosition (gate : Nat) (s : State) :
    (releaseGate gate s).signal.readyPosition = s.signal.readyPosition := by
  simp [releaseGate]

@[simp] theorem releaseAll_readyPosition (s : State) :
    (releaseAll s).signal.readyPosition = s.signal.readyPosition := by
  simp [releaseAll]

@[simp] theorem sweep_readyPosition (s : State) :
    (sweep s).signal.readyPosition = s.signal.readyPosition := by
  unfold sweep overdueSweep; split <;> simp

@[simp] theorem jumpForward_readyPosition (delta : Nat) (s : State) :
    (jumpForward delta s).signal.readyPosition = s.signal.readyPosition := by
  unfold jumpForward; dsimp only; split <;> simp

@[simp] theorem hearMinute_readyPosition (m : Minute) (b : Bool) (s : State) :
    (hearMinute m b s).signal.readyPosition = s.signal.readyPosition := by
  unfold hearMinute
  dsimp only
  repeat' split
  all_goals simp

@[simp] theorem minuteStep_readyPosition (s : State) :
    (minuteStep s).signal.readyPosition = s.signal.readyPosition := by
  unfold minuteStep
  dsimp only
  repeat' split
  all_goals simp

@[simp] theorem hearHeader_readyPosition {n : Nat} (f : RxFrame n) (s : State) :
    (hearHeader f s).signal.readyPosition = s.signal.readyPosition := by
  unfold hearHeader; split <;> simp

@[simp] theorem requestBay_readyPosition (before : List Truck) (s : State) (bay : Nat) :
    (requestBay before s bay).signal.readyPosition = s.signal.readyPosition := by
  unfold requestBay; split <;> rfl

@[simp] theorem announceTrucks_readyPosition (before : List Truck) (s : State) :
    (announceTrucks before s).signal.readyPosition = s.signal.readyPosition := by
  simp [announceTrucks, requestBays, giveReports_signal]

@[simp] theorem gateChanged_readyPosition (trucks : List Truck) (s : State) :
    (gateChanged trucks s).signal.readyPosition = s.signal.readyPosition := by
  simp [gateChanged]

@[simp] theorem emptyRound_readyPosition (r : CallRecord) (s : State) :
    (emptyRound r s).signal.readyPosition = s.signal.readyPosition := by
  unfold emptyRound; dsimp only; split <;> split <;> simp

@[simp] theorem applyGrant_readyPosition (r : CallRecord) (winner count : Nat) (s : State) :
    (applyGrant r winner count s).signal.readyPosition = s.signal.readyPosition := by
  simp [applyGrant]

@[simp] theorem closeNoBid_readyPosition (s : State) :
    (closeNoBid s).signal.readyPosition = s.signal.readyPosition := by
  unfold closeNoBid; split <;> simp

@[simp] theorem settleGrant_readyPosition (confirm : Bool) (s : State) :
    (settleGrant confirm s).signal.readyPosition = s.signal.readyPosition := by
  unfold settleGrant
  repeat' split
  all_goals simp

@[simp] theorem settleHold_readyPosition (f : RxFrame 5) (s : State) :
    (settleHold f s).signal.readyPosition = s.signal.readyPosition := by
  unfold settleHold
  repeat' split
  all_goals simp

@[simp] theorem followHalt_readyPosition (before : Bool) (s : State) :
    (followHalt before s).signal.readyPosition = s.signal.readyPosition := by
  unfold followHalt
  repeat' split
  all_goals simp

/-! ### What keeps the line with frames, and what brings it back to them -/

/-- STUCK and RECOVERING alone follow the wish to send (R20, R21). -/
@[simp] theorem followWant_carries (s : State) :
    carriesFrames (followWant s).line.condition = carriesFrames s.line.condition := by
  unfold followWant
  split
  · rename_i hstuck
    simp [hstuck.1, carriesFrames]
  · split
    · rename_i hrecovering
      simp [hrecovering.1, carriesFrames]
    · rfl

@[simp] theorem giveNotice_carries (body : NoticeBody) (s : State) :
    carriesFrames (giveNotice body s).line.condition = carriesFrames s.line.condition := by
  simp [giveNotice]

@[simp] theorem rechoose_carries (s : State) :
    carriesFrames (rechoose s).line.condition = carriesFrames s.line.condition := by
  unfold rechoose; split <;> simp

@[simp] theorem arbiterFree_carries (s : State) :
    carriesFrames (arbiterFree s).line.condition = carriesFrames s.line.condition := by
  simp [arbiterFree]

@[simp] theorem arbiterRoundOver_carries (s : State) :
    carriesFrames (arbiterRoundOver s).line.condition = carriesFrames s.line.condition := by
  unfold arbiterRoundOver; split <;> simp

@[simp] theorem gateChanged_carries (trucks : List Truck) (s : State) :
    carriesFrames (gateChanged trucks s).line.condition = carriesFrames s.line.condition := by
  simp [gateChanged]

@[simp] theorem followHalt_carries (before : Bool) (s : State) :
    carriesFrames (followHalt before s).line.condition = carriesFrames s.line.condition := by
  unfold followHalt
  repeat' split
  all_goals simp

@[simp] theorem lineFreed_carries (dw : Bool) (s : State) :
    carriesFrames (lineFreed dw s).line.condition = true :=
  (carriesFrames_iff _).2 (lineFreed_follows dw s).1

@[simp] theorem freedLine_carries (dw : Bool) (line : LineInterface) :
    carriesFrames (freedLine dw line).condition = true := by
  cases dw <;> rfl

@[simp] theorem endRound_carries (dw : Bool) (s : State) :
    carriesFrames (endRound dw s).line.condition = true := by
  unfold endRound; dsimp only; split <;> simp

@[simp] theorem abandonRound_carries (dw : Bool) (s : State) :
    carriesFrames (abandonRound dw s).line.condition = true := by
  unfold abandonRound; dsimp only; split <;> simp

@[simp] theorem endFrame_carries (s : State) : carriesFrames (endFrame s).line.condition = true := by
  unfold endFrame
  split
  · rfl
  · simp

@[simp] theorem beginFrame_carries (o : Offer) (s : State) :
    carriesFrames (beginFrame o s).line.condition = true := by
  cases o <;> rfl

@[simp] theorem passRound_carries (s : State) :
    carriesFrames (passRound s).line.condition = carriesFrames s.line.condition := by
  unfold passRound; dsimp only; split <;> simp

@[simp] theorem windowPulse_carries (dw : Bool) (v : RoundView) (s : State) :
    carriesFrames (windowPulse dw v s).line.condition = carriesFrames s.line.condition := by
  rcases windowPulse_cases dw v s with heq | ⟨-, ⟨r, res, -, heq⟩ | ⟨-, -, heq⟩⟩ <;> rw [heq] <;> rfl

/-! ### Where a sound yard line carries frames (R18 to R20) -/

theorem YardLineSound.carries_of_hears (h : YardLineSound s)
    (hears : canHear s = true ∨ followsCall s = true) : carriesFrames s.line.condition = true :=
  (carriesFrames_iff _).2 (h.quietOrBusy hears)

theorem YardLineSound.carries_of_sending (h : YardLineSound s) {k : SentKind} (hk : sentKind s = some k) :
    carriesFrames s.line.condition = true := by
  have hsent : sentFrame s ≠ none := fun hn => by simp [sentKind_of_sentFrame hn] at hk
  rw [((yardLineSound_iff s).1 h).sendsBusy hsent]
  rfl

theorem YardLineSound.carries_in_round (h : YardLineSound s) (hr : s.frames.round ≠ none) :
    carriesFrames s.line.condition = true := by
  rw [carriesFrames_iff]
  by_contra hn
  rw [not_or] at hn
  exact hr (h.fault hn.1 hn.2).2

theorem carries_of_beginsToObserve (h : beginsToObserve s = true) :
    carriesFrames s.line.condition = true := by
  rw [((beginsToObserve_iff s).1 h).2.1]
  rfl

/-! ### READY runs on, or follows its pattern (R149) -/

/-- READY runs on: the same pattern for the same reason, at the same position. -/
structure ReadyRuns (s t : State) : Prop where
  station : t.startup.station = s.startup.station
  carries : carriesFrames t.line.condition = carriesFrames s.line.condition
  position : t.signal.readyPosition = s.signal.readyPosition

/-- READY starts the first cycle of a new pattern, and runs on in the cycle of an old one. -/
def ReadyFollows (s t : State) : Prop :=
  (readyPattern t ≠ readyPattern s → t.signal.readyPosition = 0) ∧
  (readyPattern t = readyPattern s → t.signal.readyPosition = s.signal.readyPosition)

theorem readyRuns_iff (s t : State) : ReadyRuns s t ↔ t.startup.station = s.startup.station
    ∧ carriesFrames t.line.condition = carriesFrames s.line.condition
    ∧ t.signal.readyPosition = s.signal.readyPosition :=
  ⟨fun ⟨hst, hc, hp⟩ => ⟨hst, hc, hp⟩, fun ⟨hst, hc, hp⟩ => ⟨hst, hc, hp⟩⟩

theorem ReadyRuns.refl (s : State) : ReadyRuns s s := ⟨rfl, rfl, rfl⟩

theorem ReadyRuns.pattern (h : ReadyRuns s t) : readyPattern t = readyPattern s := by
  rw [readyPattern_eq, readyPattern_eq, h.station, h.carries]

theorem ReadyRuns.follows (h : ReadyRuns s t) : ReadyFollows s t :=
  ⟨fun hn => absurd h.pattern hn, fun _ => h.position⟩

theorem ReadyFollows.refl (s : State) : ReadyFollows s s := (ReadyRuns.refl s).follows

theorem ReadyRuns.follows_trans (h : ReadyRuns s u) (hf : ReadyFollows u t) : ReadyFollows s t := by
  unfold ReadyFollows
  rw [← h.pattern, ← h.position]
  exact hf

theorem ReadyFollows.runs_trans (hf : ReadyFollows s u) (h : ReadyRuns u t) : ReadyFollows s t := by
  unfold ReadyFollows
  rw [h.pattern, h.position]
  exact hf

/-- A command on a line that carries frames leaves it one that carries frames. -/
theorem readyRuns_carrying (hs : carriesFrames s.line.condition = true)
    (h : t.startup.station = s.startup.station ∧ carriesFrames t.line.condition = true
      ∧ t.signal.readyPosition = s.signal.readyPosition) : ReadyRuns s t :=
  ⟨h.1, h.2.1.trans hs.symm, h.2.2⟩

/-- The one way in which the model starts a cycle. -/
theorem readyFollows_refreshReady (h : t.signal.readyPosition = s.signal.readyPosition) :
    ReadyFollows s (refreshReady s t) := by
  unfold ReadyFollows
  rw [refreshReady_pattern]
  unfold refreshReady
  split
  · rename_i hsame
    exact ⟨fun hn => absurd hsame.symm hn, fun _ => h⟩
  · rename_i hnew
    exact ⟨fun _ => rfl, fun heq => absurd heq.symm hnew⟩

/-! ### Faults of the line, collisions and heard frames -/

theorem readyFollows_enterDuplicate (s : State) : ReadyFollows s (enterDuplicate s) :=
  readyFollows_refreshReady (by simp)

theorem readyFollows_endRecovery (s : State) : ReadyFollows s (endRecovery s) :=
  readyFollows_refreshReady (by simp)

theorem readyFollows_enterConfigFault (s : State) : ReadyFollows s (enterConfigFault s) :=
  readyFollows_refreshReady rfl

theorem readyFollows_enterHeld (begun : Bool) (sampled : List Byte) (s : State) :
    ReadyFollows s (enterHeld begun sampled s) := by
  unfold enterHeld
  split
  · exact readyFollows_refreshReady (by simp)
  · exact .refl s

theorem readyFollows_collide (s : State) : ReadyFollows s (collide s) := by
  unfold collide
  split
  · exact (ReadyRuns.mk rfl rfl rfl).follows_trans (readyFollows_enterDuplicate _)
  · exact (ReadyRuns.mk rfl rfl rfl).follows_trans (readyFollows_enterDuplicate _)
  · exact .refl s
  · exact .refl s

theorem readyRuns_loseContention (h : YardLineSound s) : ReadyRuns s (loseContention s) := by
  unfold loseContention
  split
  · rename_i hk
    exact readyRuns_carrying (h.carries_of_sending hk) (by simp)
  · rename_i hk
    exact readyRuns_carrying (h.carries_of_sending hk) (by simp)
  · exact .refl s
  · exact .refl s

theorem readyFollows_ownHail (f : RxFrame 4) (s : State) : ReadyFollows s (ownHail f s) := by
  have hcheck : ReadyFollows s (numberCheck (senderNumber f) (hailSerial f) s) := by
    unfold numberCheck
    split
    · exact readyFollows_enterDuplicate s
    · exact .refl s
  refine hcheck.runs_trans ?_
  unfold ownHail
  dsimp only
  (repeat' split) <;> simp [readyRuns_iff]

theorem readyRuns_ownVoid (f : RxFrame 2) (s : State) : ReadyRuns s (ownVoid f s) := by
  unfold ownVoid
  split <;> simp [readyRuns_iff]

theorem readyRuns_ownTaken (f : RxFrame 5) (s : State) : ReadyRuns s (ownTaken f s) := by
  unfold ownTaken settleTaken
  dsimp only
  (repeat' split) <;> simp [readyRuns_iff]

theorem readyRuns_ownLapse (f : RxFrame 5) (s : State) : ReadyRuns s (ownLapse f s) := by
  unfold ownLapse settleLapse
  (repeat' split) <;> simp [readyRuns_iff]

theorem readyRuns_ownArrive (f : RxFrame 2) (s : State) : ReadyRuns s (ownArrive f s) := by
  unfold ownArrive
  split <;> simp [readyRuns_iff]

theorem readyFollows_hearNotice {n : Nat} (h : YardLineSound s) (f : RxFrame n) (valid : Bool)
    {owners : State → State} (howners : ∀ u, ReadyFollows u (owners u)) :
    ReadyFollows s (hearNotice f valid owners s) := by
  unfold hearNotice
  split
  · rename_i hears
    have hended : ReadyRuns s
        (endFrame (hearHeader f (reportHeard f false (closingOtherKind (closingStart s))))) :=
      readyRuns_carrying (h.carries_of_hears (.inl hears)) (by simp)
    dsimp only
    split
    · exact hended.follows_trans (howners _)
    · exact hended.follows
  · exact .refl s

theorem readyFollows_hearKind {n : Nat} (h : YardLineSound s) (kind : FrameKind) (f : RxFrame n)
    {known : State → State} (hknown : ReadyFollows s (known s)) :
    ReadyFollows s (hearKind kind f known s) := by
  unfold hearKind
  split
  · exact readyFollows_hearNotice h f false fun u => ReadyFollows.refl u
  · split
    · exact hknown
    · exact .refl s

theorem readyFollows_execCallReceived (h : YardLineSound s) (f : RxFrame 6) (started : Bool) :
    Ensures (ReadyFollows s) (execCallReceived f started s) := by
  refine (ensures_next _ _).2 (readyFollows_hearKind h .call f (ReadyRuns.follows ?_))
  dsimp only
  split
  · rename_i hears
    refine readyRuns_carrying (h.carries_of_hears hears) ?_
    (repeat' split) <;> simp [beginComputing, toStretch]
  · exact .refl s

theorem readyFollows_execGrantReceived (h : YardLineSound s) (f : RxFrame 5) :
    Ensures (ReadyFollows s) (execGrantReceived f s) := by
  refine (ensures_next _ _).2 (readyFollows_hearKind h .grant f (ReadyRuns.follows ?_))
  split
  · rename_i hears
    exact readyRuns_carrying (h.carries_of_hears (.inl hears)) (by simp)
  · exact .refl s

theorem readyRuns_execUnfinishedFrame (h : YardLineSound s) (sampled : List Byte) (dw : Bool) :
    Ensures (ReadyRuns s) (execUnfinishedFrame sampled dw s) := by
  refine (ensures_next _ _).2 ?_
  split
  · rename_i hears
    refine readyRuns_carrying (h.carries_of_hears hears) ?_
    dsimp only
    split <;> simp
  · exact .refl s

/-! ### Frames this station sends, the wires outside frames, and rounds -/

theorem readyFollows_execNoticeReport (h : YardLineSound s) (r : SendReport) :
    Ensures (ReadyFollows s) (execNoticeReport r s) := by
  refine (ensures_next _ _).2 ?_
  split
  · rename_i hk
    have hs := h.carries_of_sending hk
    cases r with
    | sent confirm => exact (readyRuns_carrying hs (by simp)).follows
    | flawed confirm => exact (readyRuns_carrying hs (by simp)).follows
    | lost => exact (readyRuns_loseContention h).follows
    | collision => exact readyFollows_collide s
    | abandoned n => exact readyFollows_enterHeld _ _ s
  · exact .refl s

theorem readyFollows_execCallReport (h : YardLineSound s) (r : SendReport) :
    Ensures (ReadyFollows s) (execCallReport r s) := by
  refine (ensures_next _ _).2 ?_
  split
  · rename_i hk
    have hs := h.carries_of_sending hk
    cases r with
    | sent confirm => exact (readyRuns_carrying hs (by simp [callSent])).follows
    | flawed confirm => exact (readyRuns_carrying hs (by simp)).follows
    | lost => exact (readyRuns_loseContention h).follows
    | collision => exact readyFollows_collide s
    | abandoned n => exact readyFollows_enterHeld _ _ s
  · exact .refl s

theorem readyFollows_execGrantReport (h : YardLineSound s) (r : SendReport) :
    Ensures (ReadyFollows s) (execGrantReport r s) := by
  refine (ensures_next _ _).2 ?_
  split
  · rename_i hk
    have hs := h.carries_of_sending hk
    cases r with
    | sent confirm => exact (readyRuns_carrying hs (by simp [grantOver])).follows
    | flawed confirm => exact (readyRuns_carrying hs (by simp [grantOver])).follows
    | lost => exact .refl s
    | collision => exact .refl s
    | abandoned n => exact readyFollows_enterHeld _ _ s
  · exact .refl s

theorem readyRuns_execFrameStart (elapsed : Nat) (dw : Bool) (s : State) :
    Ensures (ReadyRuns s) (execFrameStart elapsed dw s) := by
  refine (ensures_next _ _).2 ?_
  split
  · rename_i hquiet
    refine readyRuns_carrying (by simp [hquiet.2.2]) ?_
    dsimp only
    (repeat' split) <;> simp [hquiet.2.2]
  · exact .refl s

theorem readyRuns_execGrantSend (h : YardLineSound s) : Ensures (ReadyRuns s) (execGrantSend s) := by
  refine (ensures_next _ _).2 ?_
  split
  · rename_i hr _
    have hs := h.carries_in_round (by simp [hr])
    split
    · exact readyRuns_carrying hs (by simp)
    · exact .refl s
  · exact .refl s

theorem readyRuns_execQuietPeriod (elapsed : Nat) (s : State) :
    Ensures (ReadyRuns s) (execQuietPeriod s elapsed) := by
  refine (ensures_next _ _).2 ?_
  split
  · rename_i hbusy
    refine readyRuns_carrying (by simp [hbusy.2.2]) ?_
    split <;> simp [hbusy.2.2]
  · exact .refl s

theorem readyRuns_execStrayActivity (tw dw : Bool) (s : State) :
    Ensures (ReadyRuns s) (execStrayActivity tw dw s) := by
  refine (ensures_next _ _).2 ?_
  split
  · split
    · rename_i hbetween
      refine readyRuns_carrying ((carriesFrames_iff _).2 hbetween.2) ?_
      split <;> simp
    · split
      · rename_i hobserving
        exact readyRuns_carrying (carries_of_beginsToObserve hobserving) (by simp)
      · split <;> simp [readyRuns_iff]
  · exact .refl s

theorem readyRuns_execStrayActivityEnd (s : State) : Ensures (ReadyRuns s) (execStrayActivityEnd s) := by
  refine (ensures_next _ _).2 ?_
  split
  · rename_i hbetween
    exact readyRuns_carrying (by simp [hbetween.2]) (by simp)
  · split
    · rename_i hobserving
      exact readyRuns_carrying (carries_of_beginsToObserve hobserving) (by simp)
    · split <;> simp [readyRuns_iff]

theorem readyFollows_execEndMarkOutsideFrame (s : State) :
    Ensures (ReadyFollows s) (execEndMarkOutsideFrame s) := by
  refine (ensures_next _ _).2 ?_
  split
  · exact readyFollows_endRecovery s
  · refine ReadyRuns.follows ?_
    split
    · rename_i hobserving
      exact readyRuns_carrying (carries_of_beginsToObserve hobserving) (by simp)
    · exact .refl s

theorem readyFollows_execHeldEnd (dw : Bool) (s : State) : Ensures (ReadyFollows s) (execHeldEnd dw s) := by
  refine (ensures_next _ _).2 ?_
  split
  · exact readyFollows_refreshReady (by simp)
  · exact .refl s

theorem readyFollows_execStuckEntry (s : State) : Ensures (ReadyFollows s) (execStuckEntry s) := by
  refine (ensures_next _ _).2 ?_
  split
  · exact readyFollows_refreshReady (by simp)
  · exact .refl s

/-- R21: a pulse that ends the fault leaves RECOVERING; any other stays in it or goes back to STUCK. -/
theorem readyFollows_execRecoveryPulse (dw : Bool) (s : State) :
    Ensures (ReadyFollows s) (execRecoveryPulse dw s) := by
  refine (ensures_next _ _).2 ?_
  split
  · rename_i hrecovering
    split
    · exact readyFollows_endRecovery s
    · refine ReadyRuns.follows ?_
      split <;> simp [readyRuns_iff, hrecovering, carriesFrames]
  · exact .refl s

theorem readyRuns_execBidWindowClose (h : YardLineSound s) (word : BidWord) (dw : Bool) :
    Ensures (ReadyRuns s) (execBidWindowClose word dw s) := by
  refine (ensures_next _ _).2 ?_
  split
  · rename_i hr
    have hs := h.carries_in_round (by simp [hr])
    refine readyRuns_carrying hs ?_
    dsimp only
    (repeat' split) <;> simp [toGrantWait, hs]
  · exact .refl s

theorem readyRuns_abandonRound (h : YardLineSound s) {p : RoundPhase} (hp : roundPhase s = some p)
    (dw : Bool) : ReadyRuns s (abandonRound dw s) :=
  readyRuns_carrying (h.carries_in_round fun hr => by simp [roundPhase, hr] at hp) (by simp)

/-! ### Start-up -/

theorem readyFollows_execConfigInterruption (s : State) :
    Ensures (ReadyFollows s) (execConfigInterruption s) := by
  refine (ensures_next _ _).2 ?_
  split
  · dsimp only
    split
    · exact (ReadyRuns.mk rfl rfl rfl).follows_trans (readyFollows_enterConfigFault _)
    · exact (ReadyRuns.mk rfl rfl rfl).follows
  · exact .refl s

theorem readyFollows_execConfigReadComplete (block : Vector Byte 32) (levels : BitVec 8) (s : State) :
    Ensures (ReadyFollows s) (execConfigReadComplete block levels s) := by
  refine (ensures_next _ _).2 ?_
  split
  · split
    · exact readyFollows_refreshReady rfl
    · exact readyFollows_enterConfigFault s
  · exact .refl s

theorem readyFollows_execListenTimerExpiry (s : State) :
    Ensures (ReadyFollows s) (execListenTimerExpiry s) := by
  refine (ensures_next _ _).2 ?_
  split
  · exact readyFollows_refreshReady (by simp)
  · exact .refl s

/-! ### Every command -/

theorem answerRules_ready (base : State) : AnswerRules (ReadyRuns base) (ReadyRuns base) where
  arrive _ _ h := by simpa [readyRuns_iff] using h
  take _ h _ := by simpa [readyRuns_iff] using h
  stock _ _ h := by simpa [readyRuns_iff] using h
  picks _ _ h := by simpa [readyRuns_iff] using h
  strayTake _ h := by simpa [readyRuns_iff] using h
  notice _ _ _ h := by simpa [readyRuns_iff] using h
  reply _ _ _ _ h := by simpa [readyRuns_iff] using h
  table _ _ h := by simpa [readyRuns_iff] using h
  flags _ _ h := by simpa [readyRuns_iff] using h

/-- Every command but the two that start READY's cycle whatever its pattern. -/
theorem readyFollows_exec (h : YardLineSound s) {c : Instr} (hreset : c ≠ .fullReset)
    (hcycle : c ≠ .cycleEnd .ready) : Ensures (ReadyFollows s) (exec c s) := by
  have runs : ∀ {o}, Ensures (ReadyRuns s) o → Ensures (ReadyFollows s) o :=
    fun ho t ht => (ho t ht).follows
  have same : ∀ u : State, ReadyRuns s u → Ensures (ReadyFollows s) (.next u) := fun u hu =>
    (ensures_next _ _).2 hu.follows
  have heard : ∀ {n : Nat} (kind : FrameKind) (f : RxFrame n) (valid : Bool) (owners : State → State),
      (∀ u, ReadyFollows u (owners u)) →
      Ensures (ReadyFollows s) (.next (hearKind kind f (hearNotice f valid owners) s)) :=
    fun kind f valid _ howners =>
      (ensures_next _ _).2 (readyFollows_hearKind h kind f (readyFollows_hearNotice h f valid howners))
  cases c with
  | fullReset => exact absurd rfl hreset
  | configInterruption => exact readyFollows_execConfigInterruption s
  | configReadComplete block levels => exact readyFollows_execConfigReadComplete block levels s
  | listenTimerExpiry => exact readyFollows_execListenTimerExpiry s
  | quietPeriod elapsed => exact runs (readyRuns_execQuietPeriod elapsed s)
  | frameStart elapsed dw => exact runs (readyRuns_execFrameStart elapsed dw s)
  | contentionLoss => exact same _ (readyRuns_loseContention h)
  | bodyCollision => exact (ensures_next _ _).2 (readyFollows_collide s)
  | noticeReport r => exact readyFollows_execNoticeReport h r
  | callReport r => exact readyFollows_execCallReport h r
  | grantSend => exact runs (readyRuns_execGrantSend h)
  | grantReport r => exact readyFollows_execGrantReport h r
  | hailReceived f => exact heard _ f _ _ (readyFollows_ownHail f)
  | voidReceived f => exact heard _ f _ _ fun u => (readyRuns_ownVoid f u).follows
  | takenReceived f => exact heard _ f _ _ fun u => (readyRuns_ownTaken f u).follows
  | lapseReceived f => exact heard _ f _ _ fun u => (readyRuns_ownLapse f u).follows
  | arriveReceived f => exact heard _ f _ _ fun u => (readyRuns_ownArrive f u).follows
  | callReceived f started => exact readyFollows_execCallReceived h f started
  | grantReceived f => exact readyFollows_execGrantReceived h f
  | unfinishedFrame sampled dw => exact runs (readyRuns_execUnfinishedFrame h sampled dw)
  | strayActivity tw dw => exact runs (readyRuns_execStrayActivity tw dw s)
  | strayActivityEnd => exact runs (readyRuns_execStrayActivityEnd s)
  | endMarkOutsideFrame => exact readyFollows_execEndMarkOutsideFrame s
  | heldEntry sampled begun => exact (ensures_next _ _).2 (readyFollows_enterHeld begun sampled s)
  | heldEnd dw => exact readyFollows_execHeldEnd dw s
  | stuckEntry => exact readyFollows_execStuckEntry s
  | recoveryPulse dw => exact readyFollows_execRecoveryPulse dw s
  | bidWindowClose word dw => exact runs (readyRuns_execBidWindowClose h word dw)
  | windowSilenceLimit dw | grantWaitSilenceLimit dw =>
    refine same _ ?_
    split
    · rename_i hwaits
      exact readyRuns_abandonRound h hwaits.2 dw
    · exact .refl s
  | cycleEnd output =>
    cases output with
    | fieldLine n => exact same _ (by dsimp only; split <;> simp [readyRuns_iff])
    | ready => exact absurd rfl hcycle
  | unknownMessage code => exact same _ (by dsimp only; (repeat' split) <;> simp [readyRuns_iff])
  | status | put _ _ _ _ _ | take _ | shift _ _ | holdPack _ | freePack _ | listStack _ | listPicks
  | truckIn _ _ _ _ | truckBay _ _ | truckOut _ | listTruck _ =>
    exact runs ((answerRules_ready s).exec rfl (.refl s))
  | resetRelease | backOffExpiry | computationComplete | stretchLimitExpiry | stretchSlotEnd
  | bidWindowStart _ | grantWaitExpiry | minuteStep _ | inputChange _ _ | filterExpiry _ | hornExpiry _
  | terminalCharacter _ | flawedCharacter _ | breakCondition | messageSent
  | receiveWireHighAfterBreak =>
    exact same _ (by (repeat' split) <;> simp [readyRuns_iff])

/-- A full reset leaves READY at the start of a cycle. -/
theorem fullReset_readyPosition (s : State) :
    Ensures (fun t => t.signal.readyPosition = 0) (exec .fullReset s) := by
  refine (ensures_next _ _).2 ?_
  split <;> rfl

/-- READY's own cycle end leaves its pattern as it is. -/
theorem cycleEnd_readyPattern (s : State) :
    Ensures (fun t => readyPattern t = readyPattern s) (exec (.cycleEnd .ready) s) := by
  refine (ensures_next _ _).2 ?_
  dsimp only
  split <;> rfl

/-- Settles O43: `readyFollows_exec`, and the two commands apart. -/
theorem readyRestartsExactlyWithANewPattern : Obligations.ReadyRestartsExactlyWithANewPattern := by
  intro c s t h ht
  by_cases hreset : c = .fullReset
  · subst hreset
    exact ⟨fun _ => fullReset_readyPosition s t ht, fun _ hn => absurd rfl hn⟩
  · by_cases hcycle : c = .cycleEnd .ready
    · subst hcycle
      exact ⟨fun hn => absurd (cycleEnd_readyPattern s t ht) hn, fun _ _ hn => absurd rfl hn⟩
    · obtain ⟨hnew, hold⟩ := readyFollows_exec h hreset hcycle t ht
      exact ⟨hnew, fun heq _ _ => hold heq⟩

end Sys2Proof.Machine
end

