-- ==== Sys2Proof/Proofs/FieldOutputs.lean ====
section
/-! PROOF. Lamps, horn and READY: requests, the ends of cycles and the horn's timer (O42); lit patterns,
readings and driven levels (O44). -/

namespace Sys2Proof.Machine

variable {s : State}

/-! ### Patterns with a cycle (R143) -/

theorem hasCycle_iff (p : Pattern) : hasCycle p = true ↔ p ≠ .off ∧ p ≠ .steady := by
  cases p <;> simp [hasCycle, cycleMs]

theorem hasCycle_eq_false_iff (p : Pattern) : hasCycle p = false ↔ p = .off ∨ p = .steady := by
  rw [← Bool.not_eq_true, hasCycle_iff, not_and_or, not_not, not_not]

/-! ### Requests (R144 to R146) -/

/-- What a request does to one lamp output. -/
theorem requestLamp_eq (halted : Bool) (p : Pattern) (l : Lamp) : requestLamp halted p l =
    if halted then { l with latest := p }
    else if l.current = .off ∨ l.current = .steady then
      { current := p, position := 0, staged := none, latest := p }
    else { l with staged := some p, latest := p } := by
  simp only [← hasCycle_eq_false_iff]
  cases halted with
  | true => rfl
  | false => cases h : hasCycle l.current <;> simp [requestLamp, startPattern, h]

theorem requestPattern_lamp_other {g : FieldFunction} {i : Fin 8}
    (hi : s.startup.settings.lines[i].function ≠ g) (p : Pattern) :
    (requestPattern g p s).signal.lamps[i] = s.signal.lamps[i] := by
  rw [requestPattern, mapLamps_lamp, if_neg fun h => hi (eq_of_beq (Bool.and_eq_true_iff.1 h).2)]

theorem requestPattern_lamp_same {g : FieldFunction} {i : Fin 8} (hg : isLampFunction g = true)
    (hi : s.startup.settings.lines[i].function = g) (p : Pattern) :
    (requestPattern g p s).signal.lamps[i] = requestLamp (haltAsserted s) p s.signal.lamps[i] := by
  rw [requestPattern, mapLamps_lamp, if_pos (by rw [hi, hg, beq_self_eq_true]; rfl)]

/-! ### Ends of cycles, and the horn's timer (R140, R144, R148, R149) -/

theorem cycleEnd_fieldLine_eq {n : Fin 8} (ho : observes s = true)
    (hlamp : isLampFunction s.startup.settings.lines[n].function = true)
    (hoff : s.signal.lamps[n].current ≠ .off) (hsteady : s.signal.lamps[n].current ≠ .steady) :
    exec (.cycleEnd (.fieldLine n)) s = .next
      (mapLamps (fun g => g == s.startup.settings.lines[n].function) endCycle s) := by
  have hcycles : lampCycles n s = true := by
    simpa [lampCycles] using (hasCycle_iff s.signal.lamps[n].current).2 ⟨hoff, hsteady⟩
  simp only [exec, execCycleEnd, functionOfLine_eq, ho, hlamp, hcycles, and_self, if_true]

theorem cycleEnd_ready_eq (h : hasCycle (readyPattern s) = true) :
    exec (.cycleEnd .ready) s = .next { s with signal := { s.signal with readyPosition := 0 } } := by
  simp only [exec, execCycleEnd, h, if_true]

theorem endCycle_unstaged {l : Lamp} (h : l.staged = none) : endCycle l = { l with position := 0 } := by
  simp [endCycle, h]

theorem endCycle_staged {l : Lamp} {p : Pattern} (h : l.staged = some p) :
    endCycle l = { l with current := p, position := 0, staged := none } := by
  simp [endCycle, startPattern, h]

theorem hornExpiry_eq (elapsed : Nat) (s : State) : exec (.hornExpiry elapsed) s = .next
    { s with signal := { s.signal with horn := runDown elapsed s.signal.horn } } := rfl

/-- Settles O42: the requests by `requestLamp_eq`, the ends of cycles by `endCycle`, the horn by `runDown`. -/
theorem lampsStageRequestsUntilTheCycleEnds : Obligations.LampsStageRequestsUntilTheCycleEnds := by
  refine ⟨fun g p s hg => ⟨rfl, fun i => ⟨fun hi => ?_, fun hi => ?_⟩⟩,
    fun n s ho hlamp hoff hsteady => ⟨_, cycleEnd_fieldLine_eq ho hlamp hoff hsteady, rfl, fun i => ?_⟩,
    fun s h => cycleEnd_ready_eq h,
    fun elapsed s => ⟨fun h => ?_, fun left h => ⟨fun hout => ?_, fun hruns => ?_⟩⟩⟩
  · exact requestPattern_lamp_other hi p
  · rw [requestPattern_lamp_same hg hi, requestLamp_eq]
  · rw [mapLamps_lamp]
    refine ⟨fun hi => if_neg (by simpa using hi), fun hi => ?_⟩
    rw [if_pos (by simpa using hi)]
    exact ⟨fun hp => endCycle_unstaged hp, fun p hp => endCycle_staged hp⟩
  · rw [hornExpiry_eq, h, runDown_none, ← h]
  · rw [hornExpiry_eq, h, runDown_some, if_pos hout]
  · rw [hornExpiry_eq, h, runDown_some, if_neg (by omega)]

/-! ### When a pattern is lit (R143) -/

/-- The k-th flash of a burst of n, r ms into its period. -/
theorem litAt_burst (n k : Nat) {r : Nat} (hr : r < 500) :
    litAt (.burst n) (500 * k + r) = true ↔ k < n ∧ r < 250 := by
  have hmod : (500 * k + r) % 500 = r := by omega
  have hflash : 500 * k + r < 500 * n ↔ k < n := by omega
  simp [litAt, hmod, hflash]

theorem litAt_quickBurst (n k : Nat) {r : Nat} (hr : r < 250) :
    litAt (.quickBurst n) (250 * k + r) = true ↔ k < n ∧ r < 125 := by
  have hmod : (250 * k + r) % 250 = r := by omega
  have hflash : 250 * k + r < 250 * n ↔ k < n := by omega
  simp [litAt, hmod, hflash]

/-! ### What a field line reads and drives (R140, R147, R148, R158) -/

theorem lineOkLit_iff (s : State) : lineOkLit s = true ↔
    s.startup.station = .service ∧ (s.line.condition = .quiet ∨ s.line.condition = .busy) := by
  simp [lineOkLit, inService]

theorem lampLit_eq (s : State) (i : Fin 8) :
    lampLit s i = litAt s.signal.lamps[i].current (s.signal.lamps[i].position / 2000) := by
  simp [lampLit, msUnits]

theorem filteredLevel_eq (s : State) (i : Fin 8) : filteredLevel s i = s.signal.inputs[i].filtered := by
  simp [filteredLevel]

theorem fieldReading_unobserved (ho : observes s = false) (i : Fin 8) : fieldReading s i = false := by
  simp [fieldReading, ho]

/-- A line reads what its function shows. -/
theorem fieldReading_observed (ho : observes s = true) (i : Fin 8) : fieldReading s i =
    (match s.startup.settings.lines[i].function with
      | .unused => false
      | .pickLamp => lampLit s i
      | .horn => s.signal.horn.isSome
      | .haltIn => filteredLevel s i
      | .closeIn => filteredLevel s i
      | .lineOk => lineOkLit s
      | .bayLamp _ => lampLit s i) := by
  cases hg : s.startup.settings.lines[i].function <;>
    simp only [fieldReading, functionOfLine_eq, ho, hg, if_true]

theorem fieldReading_lamp (ho : observes s = true) {i : Fin 8}
    (hlamp : isLampFunction s.startup.settings.lines[i].function = true) :
    fieldReading s i = lampLit s i := by
  rw [fieldReading_observed ho]
  cases hg : s.startup.settings.lines[i].function with
  | pickLamp | bayLamp _ => rfl
  | unused | horn | haltIn | closeIn | lineOk =>
    rw [hg] at hlamp
    cases hlamp

/-- A function is neither UNUSED nor an input. -/
def isOutputFunction (g : FieldFunction) : Bool := g != .unused && !isInputFunction g

theorem isOutputFunction_iff (g : FieldFunction) :
    isOutputFunction g = true ↔ g ≠ .unused ∧ g ≠ .haltIn ∧ g ≠ .closeIn := by
  cases g <;> simp [isOutputFunction, isInputFunction]

theorem bne_eq_ite (a b : Bool) : (a != b) = if b then !a else a := by
  cases a <;> cases b <;> rfl

/-- An output line of a station that reads the line is driven, through its polarity, and no other is. -/
theorem fieldDrive_eq (s : State) (i : Fin 8) : fieldDrive s i =
    if observes s = true ∧ isOutputFunction s.startup.settings.lines[i].function = true then
      some (fieldReading s i != s.startup.settings.lines[i].inverted)
    else none := by
  simp [fieldDrive, isOutputFunction, and_assoc]

theorem fieldDrive_none_of_input {i : Fin 8}
    (h : isOutputFunction s.startup.settings.lines[i].function = false) : fieldDrive s i = none := by
  rw [fieldDrive_eq, if_neg fun ho => by rw [h] at ho; cases ho.2]

/-- Settles O44: `litAt` at each ms, then each function's reading and level. -/
theorem outputsAreLitByTheirPatterns : Obligations.OutputsAreLitByTheirPatterns := by
  refine ⟨fun t => ⟨rfl, rfl, decide_eq_true_iff, decide_eq_true_iff, decide_eq_true_iff⟩,
    fun n k r => ⟨litAt_burst n k, litAt_quickBurst n k, rfl, rfl⟩, rfl, rfl, rfl, lineOkLit_iff,
    fun s => ⟨rfl, ?_⟩, fun s i => ?_⟩
  · rw [readyPattern_eq]
    cases s.startup.station with
    | service => simp only [carriesFrames_iff]
    | config | configFault | listen | duplicate => rfl
  · intro line
    refine ⟨fun ho => ⟨fieldReading_unobserved ho i, ?_⟩,
      fun ho => ⟨fun hg => ⟨?_, ?_⟩, fun hg => ⟨?_, ?_⟩, fun hg => ?_, fun hg => ?_, fun hg => ?_,
        fun hunused hhalt hclose => ?_⟩⟩
    · rw [fieldDrive_eq, if_neg (by simp [ho])]
    · rw [fieldReading_observed ho, hg]
    · exact fieldDrive_none_of_input (by rw [hg]; rfl)
    · rw [fieldReading_observed ho, ← filteredLevel_eq]
      rcases hg with hg | hg <;> rw [hg]
    · exact fieldDrive_none_of_input (by rcases hg with hg | hg <;> rw [hg] <;> rfl)
    · rw [fieldReading_observed ho, hg]
      exact Option.isSome_iff_ne_none
    · rw [fieldReading_observed ho, hg]
    · rw [fieldReading_lamp ho hg, lampLit_eq]
    · rw [fieldDrive_eq, if_pos ⟨ho, (isOutputFunction_iff _).2 ⟨hunused, hhalt, hclose⟩⟩]
      exact congrArg some (bne_eq_ite _ _)

end Sys2Proof.Machine
end

