-- ==== Sys2Proof/Proofs/PortCharacters.lean ====
section
/-! PROOF. The port's characters on its wires, the messages they make and what a BREAK leaves (O48). -/

namespace Sys2Proof.Machine

variable {s : State}

/-! ### A character on a wire (R151) -/

theorem odd_iff_parity_differs (n : Nat) (p : Bool) :
    (p != (n % 2 == 1)) = true ↔ (n + if p then 1 else 0) % 2 = 1 := by
  cases p with
  | false => simp
  | true =>
    simp only [bne_iff_ne, ne_eq, Bool.true_eq, beq_iff_eq, if_true]
    omega

theorem terminalFlaw_iff (parity : Bool) (c : TermChar) : terminalFlaw parity c = true ↔
    c.stop = false ∨ (parity = true ∧
      (countOnes c.data + (if c.mark then 1 else 0) + (if c.parity then 1 else 0)) % 2 = 1) := by
  simp only [terminalFlaw, terminalParityBit, Bool.or_eq_true, Bool.and_eq_true, Bool.not_eq_true',
    odd_iff_parity_differs]
  rfl

/-- The parity bit is there or not, and the order of the other bits does not turn on it. -/
theorem wireBits_eq (parity : Bool) (c : TermChar) : wireBits parity c =
    [false, c.data.getLsbD 0, c.data.getLsbD 1, c.data.getLsbD 2, c.data.getLsbD 3, c.data.getLsbD 4,
      c.data.getLsbD 5, c.data.getLsbD 6, c.data.getLsbD 7, c.mark]
      ++ (if parity then [c.parity, c.stop] else [c.stop]) := by
  cases parity <;> rfl

theorem terminalCharacters_data (m : List Byte) : (terminalCharacters m).map (fun c => c.data) = m := by
  cases m with
  | nil => rfl
  | cons code rest => simp [terminalCharacters, sentTermChar, Function.comp_def]

theorem terminalCharacters_mark (code : Byte) (rest : List Byte) :
    (terminalCharacters (code :: rest)).map (fun c => c.mark) = true :: rest.map fun _ => false := by
  simp [terminalCharacters, sentTermChar, Function.comp_def]

/-! ### The send wire (R151, R156, R160, R161) -/

theorem portRuns_iff (s : State) : portRuns s = true ↔ s.startup.station ≠ .config := bne_iff_ne

theorem portParity_configFault (h : s.startup.station = .configFault) : portParity s = false := by
  simp [portParity, h]

theorem portParity_configured (h : s.startup.station ≠ .configFault) :
    portParity s = s.startup.settings.terminalParity := by
  simp [portParity, h]

theorem portBaud_configFault (h : s.startup.station = .configFault) : portBaud s = 9600 := if_pos h

theorem portBaud_configured (speed : Nat) (h : s.startup.station ≠ .configFault)
    (hspeed : s.startup.settings.terminalSpeed = speed) : portBaud s = 4800 * 2 ^ speed := by
  rw [portBaud, if_neg h, hspeed]

theorem sendBits_running (h : s.startup.station ≠ .config) :
    sendBits s = s.port.transmit.flatMap (messageBits (portParity s)) :=
  if_pos ((portRuns_iff s).2 h)

/-- The queue's messages follow each other without a gap, so their characters do. -/
theorem sendBits_characters (h : s.startup.station ≠ .config) :
    sendBits s = (s.port.transmit.flatMap terminalCharacters).flatMap (wireBits (portParity s)) := by
  rw [sendBits_running h, List.flatMap_assoc]
  rfl

theorem sendLevel_beyond {n : Nat} (h : (sendBits s).length ≤ n) : sendLevel n s = true := by
  rw [sendLevel, List.getElem?_eq_none h, Option.getD_none]

theorem sendLevel_within {n : Nat} {level : Bool} (h : (sendBits s)[n]? = some level) :
    sendLevel n s = level := by
  rw [sendLevel, h, Option.getD_some]

theorem wireBits_portParity_length (s : State) (c : TermChar) :
    (wireBits (portParity s) c).length = characterBits s := wireBits_length _ _

theorem flatMap_wireBits_length (s : State) (cs : List TermChar) :
    (cs.flatMap (wireBits (portParity s))).length = cs.length * characterBits s := by
  induction cs with
  | nil => simp
  | cons c cs ih =>
    rw [List.flatMap_cons, List.length_append, wireBits_portParity_length, ih, List.length_cons,
      Nat.succ_mul, Nat.add_comm]

theorem characterBits_pos (s : State) : 0 < characterBits s := by
  unfold characterBits
  split <;> decide

/-- What is left of a character at a BREAK: nothing of one not begun or at its end, else its other bits. -/
theorem bitsLeft_eq {sent width : Nat} (before : Nat) (hsent : sent ≤ width) (hwidth : 0 < width) :
    (width - (before * width + sent) % width) % width = if sent = 0 then 0 else width - sent := by
  rw [Nat.mul_add_mod_self_right]
  rcases hsent.lt_or_eq with hlt | rfl
  · rw [Nat.mod_eq_of_lt hlt]
    split
    next h => rw [h, Nat.sub_zero, Nat.mod_self]
    next h => exact Nat.mod_eq_of_lt (by omega)
  · rw [Nat.mod_self, Nat.sub_zero, Nat.mod_self, Nat.sub_self, ite_self]

/-- R160: of the characters on the wire a BREAK lets the one that is part-way out finish, and no other. -/
theorem finishedAtBreak_eq {before after : List TermChar} {c : TermChar} {sent : Nat}
    (hruns : s.startup.station ≠ .config)
    (hqueue : s.port.transmit.flatMap terminalCharacters = before ++ c :: after)
    (hsent : sent ≤ characterBits s) :
    finishedAtBreak (before.length * characterBits s + sent) s
      = if sent = 0 then [] else (wireBits (portParity s) c).drop sent := by
  have hwidth := wireBits_portParity_length s c
  have hdrop : (sendBits s).drop (before.length * characterBits s + sent)
      = (wireBits (portParity s) c).drop sent ++ after.flatMap (wireBits (portParity s)) := by
    rw [sendBits_characters hruns, hqueue, List.flatMap_append, List.flatMap_cons,
      ← flatMap_wireBits_length s before, List.drop_length_add_append,
      List.drop_append_of_le_length (by omega)]
  rw [finishedAtBreak, hdrop, bitsLeft_eq _ hsent (characterBits_pos s)]
  split
  · rfl
  · exact List.take_left' (by rw [List.length_drop, hwidth])

/-! ### Complete messages (R152, R162) -/

theorem codeKnown_iff (code : Byte) : codeKnown code = true ↔
    code ∈ [0x21, 0x22, 0x23, 0x24, 0x25, 0x26, 0x27, 0x31, 0x32, 0x33, 0x34, (0x40 : Byte)] :=
  List.contains_iff_mem

theorem messageComplete_iff {m : List Byte} {n : Nat} (h : messageLength m = some n) :
    messageComplete m = true ↔ m.length = n := by
  rw [messageComplete, h, beq_iff_eq, Option.some_inj, eq_comm]

theorem messageLength_unknown {code : Byte} (h : codeKnown code = false) (rest : List Byte) :
    messageLength (code :: rest) = some 1 := by
  have hnot := mt (codeKnown_iff code).2 (by simp [h])
  simp only [List.mem_cons, List.not_mem_nil, or_false, not_or] at hnot
  simp only [messageLength, hnot, if_false]

theorem messageLength_truckIn_counted {rest : List Byte} {count : Byte} (h : rest[3]? = some count) :
    messageLength (0x31 :: rest)
      = if 1 ≤ count.toNat ∧ count.toNat ≤ 4 then some (5 + 5 * count.toNat) else some 5 := by
  simp [messageLength, h]

theorem messageComplete_truckIn_uncounted {rest : List Byte} (h : rest.length < 4) :
    messageComplete (0x31 :: rest) = false := by
  have hcount : rest[3]? = none := List.getElem?_eq_none (by omega)
  simp [messageComplete, messageLength, hcount]

/-! ### Characters as the port takes them (R152, R153) -/

theorem receives_iff (s : State) :
    receives s = true ↔ s.startup.station ≠ .config ∧ s.port.breakHeld = false := by
  rw [receives, Bool.and_eq_true, portRuns_iff, Bool.not_eq_true']

theorem assemble_partial {m : List Byte} (h : messageComplete m = false) (s : State) :
    assemble m s = { s with port := { s.port with assembly := m } } := by
  rw [assemble, h, if_neg Bool.false_ne_true]

theorem assemble_waits {m : List Byte} (h : messageComplete m = true) (hw : s.port.waiting = none) :
    assemble m s = { s with port := { s.port with assembly := [], waiting := some m } } := by
  rw [assemble, if_pos h, completeMessage, hw]

theorem assemble_overrun {m : List Byte} (h : messageComplete m = true) (hw : s.port.waiting ≠ none) :
    assemble m s = { s with
      port := { s.port with assembly := [], flags := { s.port.flags with overrun := true } } } := by
  obtain ⟨w, hw⟩ := Option.ne_none_iff_exists'.1 hw
  rw [assemble, if_pos h, completeMessage, hw]
  rfl

/-- The message in assembly with a character joined to it, or begun by it. -/
def joinedMessage (c : TermChar) (s : State) : List Byte :=
  if c.mark then [c.data] else s.port.assembly ++ [c.data]

/-- The flags after a character: one that begins a message drops a partial one with FRAGMENT. -/
def joinedFlags (c : TermChar) (s : State) : StickyFlags :=
  { s.port.flags with
    fragment := s.port.flags.fragment || (c.mark && decide (s.port.assembly ≠ [])) }

theorem takeCharacter_ignored {c : TermChar} (hmark : c.mark = false) (hempty : s.port.assembly = []) :
    takeCharacter c s = s := by
  rw [takeCharacter, hmark, if_neg Bool.false_ne_true, if_pos hempty]

theorem takeCharacter_joins {c : TermChar} (h : c.mark = true ∨ s.port.assembly ≠ []) :
    takeCharacter c s = assemble (joinedMessage c s) (withFlags (joinedFlags c s) s) := by
  cases hmark : c.mark with
  | false =>
    have hpartial : s.port.assembly ≠ [] := by simpa [hmark] using h
    have hflags : joinedFlags c s = s.port.flags := by simp [joinedFlags, hmark]
    rw [hflags, takeCharacter, joinedMessage, hmark, if_neg Bool.false_ne_true, if_neg hpartial]
    rfl
  | true =>
    by_cases hempty : s.port.assembly = []
    · have hflags : joinedFlags c s = s.port.flags := by simp [joinedFlags, hempty]
      rw [hflags, takeCharacter, joinedMessage, hmark, if_pos rfl, if_pos hempty]
      rfl
    · have hflags : joinedFlags c s = { s.port.flags with fragment := true } := by
        simp [joinedFlags, hmark, hempty]
      rw [hflags, takeCharacter, joinedMessage, hmark, if_pos rfl, if_neg hempty]
      rfl

/-! ### The port's commands -/

theorem terminalCharacter_taken {c : TermChar} (hr : receives s = true)
    (hc : terminalFlaw (portParity s) c = false) :
    exec (.terminalCharacter c) s = .next (takeCharacter c s) :=
  congrArg _ (if_pos ⟨hr, hc⟩)

theorem terminalCharacter_unreceived (hr : ¬ receives s = true) (c : TermChar) :
    exec (.terminalCharacter c) s = .next s :=
  congrArg _ (if_neg fun h => hr h.1)

theorem flawedCharacter_drops {c : TermChar} (hr : receives s = true)
    (hc : terminalFlaw (portParity s) c = true) :
    exec (.flawedCharacter c) s = .next
      { s with port := { s.port with assembly := [], flags := { s.port.flags with flaw := true } } } :=
  congrArg _ (if_pos ⟨hr, hc⟩)

theorem flawedCharacter_unreceived (hr : ¬ receives s = true) (c : TermChar) :
    exec (.flawedCharacter c) s = .next s :=
  congrArg _ (if_neg fun h => hr h.1)

theorem breakCondition_empties (hr : receives s = true) :
    exec .breakCondition s = .next
      { s with
        port := { assembly := [], waiting := none, transmit := [], flags := clearFlags, breakHeld := true } } :=
  congrArg _ (if_pos hr)

theorem messageSent_leaves (h : s.startup.station ≠ .config) :
    exec .messageSent s = .next { s with port := { s.port with transmit := s.port.transmit.tail } } :=
  congrArg _ (if_pos ((portRuns_iff s).2 h))

/-- Settles O48: the wires by `wireBits`, the lengths by `messageLength`, the characters by
`takeCharacter_joins` and the three outcomes of `assemble`. -/
theorem charactersMakeMessagesAndBreakEmptiesThePort :
    Obligations.CharactersMakeMessagesAndBreakEmptiesThePort := by
  refine ⟨⟨fun parity c => ⟨terminalFlaw_iff parity c, wireBits_eq parity c, charOfWire_wireBits parity c⟩,
      fun code rest => ⟨terminalCharacters_data _, terminalCharacters_mark code rest,
        terminalCharacters_flaw true _, fun _ => rfl⟩⟩,
    fun s => ⟨fun h => ⟨portParity_configFault h, portBaud_configFault h⟩,
      fun h => ⟨portParity_configured h, portBaud_configured 0 h, portBaud_configured 1 h,
        portBaud_configured 2 h⟩,
      fun h n => sendLevel_config n s h, sendBits_running,
      fun _ => ⟨sendLevel_beyond, fun _ => sendLevel_within⟩,
      fun _ _ _ _ => finishedAtBreak_eq⟩,
    ?layouts, fun code rest => ?lengths, codeKnown_iff, fun s => ?commands⟩
  case layouts =>
    exact ⟨fun _ => ⟨fun _ _ _ _ => rfl, rfl, fun _ => rfl, rfl, rfl⟩, fun _ => rfl, rfl,
      fun _ => ⟨fun _ _ _ => rfl, fun _ => rfl, rfl, rfl⟩, rfl⟩
  case lengths =>
    intro long
    have longOf {n : Nat} (h : messageLength (code :: rest) = some n) : long n := messageComplete_iff h
    refine ⟨fun h => longOf (by rw [h]; rfl), fun h => longOf (by rw [h]; rfl),
      fun h => longOf (by rw [h]; rfl), fun h => longOf (by rw [h]; rfl),
      fun h => longOf (by fin_cases h <;> rfl), fun h => longOf (by fin_cases h <;> rfl), ?single, ?truckIn⟩
    case single =>
      rintro (h | h)
      · exact longOf (by fin_cases h <;> rfl)
      · exact longOf (messageLength_unknown h rest)
    case truckIn =>
      rintro rfl
      refine ⟨messageComplete_truckIn_uncounted, fun count hcount => ?_⟩
      have hlength := messageLength_truckIn_counted hcount
      refine ⟨fun hone hfour => longOf (hlength.trans (if_pos ⟨hone, hfour⟩)),
        fun hnot => longOf (hlength.trans (if_neg fun hin => ?_))⟩
      rcases hnot with rfl | hnot
      · exact absurd hin.1 (by decide)
      · omega
  case commands =>
    refine ⟨rfl, messageSent_leaves, fun _ hbreak c => ?_, fun hruns hbreak => ?_⟩
    · have hr : ¬ receives s = true := fun h => by
        obtain ⟨-, hno⟩ := (receives_iff s).1 h
        exact Bool.false_ne_true (hno.symm.trans hbreak)
      exact ⟨terminalCharacter_unreceived hr c, flawedCharacter_unreceived hr c⟩
    · have hr := (receives_iff s).2 ⟨hruns, hbreak⟩
      refine ⟨breakCondition_empties hr, fun c => flawedCharacter_drops hr, fun c hc => ?_⟩
      rw [terminalCharacter_taken hr hc]
      refine ⟨fun hmark hempty => congrArg _ (takeCharacter_ignored hmark hempty), fun hjoins => ?_⟩
      rw [takeCharacter_joins hjoins]
      exact ⟨fun hm => congrArg _ (assemble_partial hm _),
        fun hm hw => congrArg _ (assemble_waits hm hw),
        fun hm hw => congrArg _ (assemble_overrun hm hw)⟩

end Sys2Proof.Machine
end

