-- ==== Sys2Proof/Proofs/ConfigBlock.lean ====
section
/-! PROOF. The interruptions of the configuration read (O4) and the check of its block (O5). -/

namespace Sys2Proof.Machine

variable {s : State}

/-! ### Interruptions of the read (R164) -/

/-- The state with one more interruption counted. -/
def interruptionCounted (s : State) : State :=
  { s with startup := { s.startup with interruptions := s.startup.interruptions + 1 } }

/-- An interruption of the read is counted, and the count alone decides whether the read starts again. -/
theorem configInterruption_eq (hs : s.startup.station = .config) (hh : s.startup.resetHeld = false) :
    exec .configInterruption s = .next
      (if 4 ≤ s.startup.interruptions + 1 then enterConfigFault (interruptionCounted s)
      else interruptionCounted s) := by
  have hreading : readingConfig s = true := by simp [readingConfig, hs, hh]
  exact congrArg _ (if_pos hreading)

/-- Settles O4: `configInterruption_eq` on either side of its limit. -/
theorem configReadRestartsThreeTimes : Obligations.ConfigReadRestartsThreeTimes := by
  refine ⟨fun s => rfl, fun s hs hh => ⟨fun hfew => ?_, fun hthree => ?_⟩⟩
  · rw [configInterruption_eq hs hh, if_neg (by omega), interruptionCounted]
  · rw [configInterruption_eq hs hh, if_pos (by omega),
      enterConfigFault_eq (s := interruptionCounted s) hs, interruptionCounted, hthree]

/-! ### The field-line bytes (R140, R165) -/

/-- The function codes that a role may use. -/
def CodeAllowed (role : Role) (code : Nat) : Prop :=
  code ∈ [0, 3, 5] ∨ (role = .row ∧ code ∈ [1, 2, 4]) ∨ (role = .gate ∧ 8 ≤ code ∧ code ≤ 15)

/-- The code's function is listed and allowed: code by code below 6, a bay lamp from 8 to 15, no function
elsewhere. -/
theorem functionOfCode_allowed_iff (role : Role) (code : Nat) :
    (functionOfCode code).any (functionAllowed role) = true ↔ CodeAllowed role code := by
  have hsplit : code < 6 ∨ (8 ≤ code ∧ code ≤ 15) ∨ (code = 6 ∨ code = 7 ∨ 16 ≤ code) := by omega
  rcases hsplit with hlow | hbay | hnone
  · cases role <;> interval_cases code <;> simp [CodeAllowed, functionOfCode, functionAllowed]
  · obtain ⟨bay, rfl⟩ := Nat.exists_eq_add_of_le' (show 7 ≤ code by omega)
    have hlisted : ∀ k < 6, bay + 7 ≠ k := by omega
    rw [functionOfCode_bay (by omega) (by omega)]
    simp [CodeAllowed, functionAllowed, hlisted, hbay]
  · have hlisted : ∀ k < 6, code ≠ k := by omega
    have hbay : ¬ (8 ≤ code ∧ code ≤ 15) := by omega
    rw [functionOfCode_none hnone]
    simp [CodeAllowed, hlisted, hbay]

theorem fieldByteValid_iff (role : Role) (b : Byte) :
    fieldByteValid role b = true ↔ CodeAllowed role (b.toNat % 128) := by
  rw [← functionOfCode_allowed_iff, fieldByteValid]
  cases functionOfCode (b.toNat % 128) <;> simp

/-! ### The check of the block (R165) -/

theorem toNat_eq_zero (b : Byte) : b.toNat = 0 ↔ b = 0 := by bv_omega

theorem all_range_eight_iff (p : Nat → Bool) :
    (List.range 8).all p = true ↔ ∀ i : Fin 8, p i = true := by
  simp [Fin.forall_iff]

theorem rowFieldsValid_iff (b : Vector Byte 32) : rowFieldsValid b = true ↔
    1 ≤ b[8].toNat ∧ b[8].toNat ≤ 16 ∧ 1 ≤ b[9].toNat ∧ b[9].toNat ≤ 6
      ∧ (∀ i : Fin 8, b[12 + i.val].toNat ≤ 63) ∧ b[20].toNat ≤ 15 := by
  have hdistance (i : Fin 8) : blockValue b (12 + i) = b[12 + i.val].toNat := blockValue_eq b (by omega)
  simp only [rowFieldsValid, Bool.and_eq_true, decide_eq_true_eq, all_range_eight_iff, hdistance,
    blockValue_eq b (show 8 < 32 by omega), blockValue_eq b (show 9 < 32 by omega),
    blockValue_eq b (show 20 < 32 by omega), and_assoc]

/-- The checks in the order of the definition, on the bytes of the block. -/
theorem blockAccepted_iff (b : Vector Byte 32) : blockAccepted b = true ↔
    b[0] = 0x5A ∧ b[1].toNat ≤ 1 ∧ b[30] = 0 ∧ b[31] = 0 ∧ b[2].toNat ≤ 63 ∧ b[3].toNat ≤ 3
      ∧ 1 ≤ b[4].toNat ∧ b[4].toNat ≤ 60 ∧ b[5].toNat ≤ 2 ∧ b[6].toNat ≤ 1 ∧ b[7].toNat ≤ 1
      ∧ (b[1] = 1 ∨ rowFieldsValid b = true)
      ∧ (∀ i : Fin 8, CodeAllowed (roleOfByte b[1].toNat) (b[21 + i.val].toNat % 128))
      ∧ b[29].toNat ≤ 2 := by
  have hline (i : Fin 8) : blockByte b (21 + i) = b[21 + i.val] := blockByte_eq b (by omega)
  have hvalue {i : Nat} (h : i < 32) : blockValue b i = b[i].toNat := blockValue_eq b h
  simp only [blockAccepted, Bool.and_eq_true, Bool.or_eq_true, beq_iff_eq, decide_eq_true_eq,
    all_range_eight_iff, fieldByteValid_iff, hline, ← toNat_eq_one, and_assoc,
    blockByte_eq b (show 0 < 32 by omega), blockByte_eq b (show 30 < 32 by omega),
    blockByte_eq b (show 31 < 32 by omega), hvalue (show 1 < 32 by omega),
    hvalue (show 2 < 32 by omega), hvalue (show 3 < 32 by omega), hvalue (show 4 < 32 by omega),
    hvalue (show 5 < 32 by omega), hvalue (show 6 < 32 by omega), hvalue (show 7 < 32 by omega),
    hvalue (show 29 < 32 by omega)]

/-- The role byte's range. -/
theorem toNat_le_one (b : Byte) : b.toNat ≤ 1 ↔ b = 0 ∨ b = 1 := by
  rw [← toNat_eq_zero, ← toNat_eq_one]
  omega

/-- A role byte in its range: the row fields are checked exactly at a row. -/
theorem gate_or_iff {r : Byte} (hr : r = 0 ∨ r = 1) (p : Prop) : (r = 1 ∨ p) ↔ (r = 0 → p) := by
  rcases hr with rfl | rfl <;> simp

/-- The function codes of the role that a role byte in its range names. -/
theorem codeAllowed_roleOfByte {r : Byte} (hr : r = 0 ∨ r = 1) (code : Nat) :
    CodeAllowed (roleOfByte r.toNat) code ↔
      code ∈ [0, 3, 5] ∨ (r = 0 ∧ code ∈ [1, 2, 4]) ∨ (r = 1 ∧ 8 ≤ code ∧ code ≤ 15) := by
  rcases hr with rfl | rfl <;> simp [CodeAllowed, roleOfByte]

/-- Settles O5: `blockAccepted_iff`, with the role read from byte 1. -/
theorem configBlockCheck : Obligations.ConfigBlockCheck := by
  intro b
  rw [blockAccepted_iff, toNat_le_one, rowFieldsValid_iff]
  constructor
  · rintro ⟨hformat, hrole, h30, h31, h2, h3, h4, h4', h5, h6, h7, hrow, hlines, h29⟩
    exact ⟨hformat, hrole, h2, h3, h4, h4', h5, h6, h7, (gate_or_iff hrole _).1 hrow,
      fun i => (codeAllowed_roleOfByte hrole _).1 (hlines i), h29, h30, h31⟩
  · rintro ⟨hformat, hrole, h2, h3, h4, h4', h5, h6, h7, hrow, hlines, h29, h30, h31⟩
    exact ⟨hformat, hrole, h30, h31, h2, h3, h4, h4', h5, h6, h7, (gate_or_iff hrole _).2 hrow,
      fun i => (codeAllowed_roleOfByte hrole _).2 (hlines i), h29⟩

end Sys2Proof.Machine
end

