-- ==== Sys2Proof/Proofs/FrontCommand.lean ====
section
/-! PROOF. Which of a step's two cases a waiting command selects (O1). -/

namespace Sys2Proof.Machine

/-- Settles O1: `step_cases`, where the waiting command rules out the empty queue. -/
theorem stepRunsTheFrontCommand : Obligations.StepRunsTheFrontCommand := by
  intro c rest s hpending
  rcases step_cases s with ⟨hempty, -⟩ | ⟨front, others, hfront, hstep⟩
  · exact absurd (hempty.symm.trans hpending) (List.cons_ne_nil c rest).symm
  · obtain ⟨rfl, rfl⟩ := List.cons.inj (hfront.symm.trans hpending)
    exact hstep

end Sys2Proof.Machine
end
